-- ==== Sys2Proof/Word.lean ====
section
/-! DEFINITION. The word types of the K384 and the widths of its resource numbers (R34, R145, R151). -/

namespace Sys2Proof

/-- One byte of a memory. -/
abbrev Byte := BitVec 8
/-- A 64-bit register value or dword. -/
abbrev Word := BitVec 64
/-- One 32-bit lane of a vector, or one 32-bit word of a tile. -/
abbrev Lane := BitVec 32
/-- s0–s63 (R145). -/
abbrev SReg := BitVec 6
/-- x0–x15 of L, M or S (R151). -/
abbrev XReg := BitVec 4
/-- v0–v31 (R151). -/
abbrev VReg := BitVec 5
/-- m0–m7 (R151). -/
abbrev MReg := BitVec 3
/-- c0–c7 (R151). -/
abbrev CTile := BitVec 3
/-- q0–q3 (R151). -/
abbrev QReg := BitVec 2
/-- ring0–ring15 (R151). -/
abbrev RingNo := BitVec 4
/-- nest0–nest7 (R151). -/
abbrev NestNo := BitVec 3
/-- ev0–ev15 (R151). -/
abbrev EvNo := BitVec 4
/-- y0–y3 (R151). -/
abbrev YNo := BitVec 2
/-- lp0–lp3 (R151). -/
abbrev LpNo := BitVec 2
/-- Core ids 0–383; 384 and above name no core (R1). -/
abbrev CoreNo := BitVec 9

end Sys2Proof
end

