-- ==== Sys2Proof/Syntax.lean ====
section
/-! DEFINITION. The instructions of the K384: one constructor of `Instr` for each row of spec/opcode_table.json.
A constructor's operands are what the words of its entry carry once reserved fields are known to be zero; register
numbers, codes and options are turned into constructors by the decoder, so that no meaning sees raw bits.
K words: R145–R149, R169–R200. Engine words: R150–R153, R201–R222, R225, R252. Copy commands: R157–R164.
The rows that no stream encodes (what the hardware, the firmware or the host does) carry what identifies them. -/

namespace Sys2Proof

/-- The three engines of the token ring (R6). -/
inductive Eng where
  | l | m | s
  deriving DecidableEq, Repr, Inhabited

/-- The five engines, in the order that decides which fault a frame reports (R5, R332). -/
inductive CoreUnit where
  | k | l | m | s | y
  deriving DecidableEq, Repr, Inhabited

/-- Scopes, codes 0 to 3 (R95). -/
inductive Scope where
  | core | die | device | system
  deriving DecidableEq, Repr, Inhabited

/-- The conditions of BC and BRX, codes 0x0 to 0x5 (R146). -/
inductive Cond where
  | eq | ne | lt | ge | ltu | geu
  deriving DecidableEq, Repr, Inhabited

/-- The format codes 0x0 to 0xB (R75). -/
inductive Fmt where
  | fp32 | bf16 | fp16 | bx8 | i4 | n4 | i8 | n8 | i16 | n16 | i32 | n32
  deriving DecidableEq, Repr, Inhabited

/-- Rounding modes, codes 0 to 3 (R80). -/
inductive Rm where
  | rne | rtz | rup | rdn
  deriving DecidableEq, Repr, Inhabited

/-- The element types of a vector word's lanes (R233). -/
inductive VTy where
  | fp32 | i32 | n32
  deriving DecidableEq, Repr, Inhabited

/-- The conditions of VCMP, codes 0 to 6 (R236). -/
inductive VCond where
  | eq | ne | lt | le | gt | ge | un
  deriving DecidableEq, Repr, Inhabited

/-- The modes of CROWV, codes 0 to 4 (R232). -/
inductive CrowMode where
  | row | col | sum | sq | amax
  deriving DecidableEq, Repr, Inhabited

/-- The selectors of VSBAND, codes 0 to 4 (R244). -/
inductive SbSel where
  | mask | ver | wf | hdr | bits
  deriving DecidableEq, Repr, Inhabited

/-- The operators of a copy command, codes 0x0 to 0x9 (R163). -/
inductive Opr where
  | move | add | max | min | and | or | xor | blend | swap | cas
  deriving DecidableEq, Repr, Inhabited

/-- EMASK of a KE word: L, M, S, Y (R145). -/
structure KMask where
  l : Bool
  m : Bool
  s : Bool
  y : Bool
  deriving DecidableEq, Repr, Inhabited

/-- The four token bits of an engine word: pop previous, pop next, push previous, push next (R150). -/
structure Tk where
  pp : Bool
  pn : Bool
  hp : Bool
  hn : Bool
  deriving DecidableEq, Repr, Inhabited

/-- The count of LPS: CNT when REG = 0, an x register when REG = 1 (R203, R206). -/
inductive LpCount where
  | imm (n : BitVec 24)
  | reg (a : XReg)
  deriving DecidableEq, Repr, Inhabited

/-- Operand b of a vector word: a vector, or with BX the low 32 bits of an x register in every lane (R233). -/
inductive VSrc where
  | v (r : VReg)
  | x (r : XReg)
  deriving DecidableEq, Repr, Inhabited

/-- What VBCST spreads over the lanes: one lane of a vector, or an x register (R238). -/
inductive BcSrc where
  | lane (va : VReg) (n : BitVec 7)
  | x (r : XReg)
  deriving DecidableEq, Repr, Inhabited

/-- A wait clause of a copy command (R159). An inactive clause has ev 0 and thr 0. -/
structure Clause where
  en : Bool
  ev : EvNo
  thr : BitVec 32
  deriving DecidableEq, Repr, Inhabited

/-- A copy command's fields other than its opcode (R157–R163). -/
structure Cmd where
  queue : YNo
  crec : Bool
  rsig : Bool
  rtn : Bool
  link : Bool
  w0 : Clause
  w1 : Clause
  rdev : BitVec 6
  rloc : Bool
  rev : EvNo
  rcore : CoreNo
  sigm : BitVec 16
  src : Word
  dst : Word
  x0 : BitVec 32
  x1 : BitVec 32
  x2 : BitVec 32
  ss1 : BitVec 32
  ss2 : BitVec 32
  ds1 : BitVec 32
  ds2 : BitVec 32
  sfmt : Fmt
  dfmt : Fmt
  opr : Opr
  rm : Rm
  arg : BitVec 48
  ret : Word
  next : Word
  bind : Word
  crecAt : Word
  deriving DecidableEq, Repr, Inhabited

/-- Which strand of a core a remote increment is for (R268): the strand of a launch of this device, or of the launch
that carries a gang id. -/
inductive RTarget where
  | launch (lid : BitVec 32)
  | gang (gid : BitVec 16)
  deriving DecidableEq, Repr, Inhabited

/-- What the members of a gang tell one another (R328, R329): the RTC value at which one has taken the record, the start time
T that rank 0 proposes, that one is late, that the strands of a late one have started. -/
inductive GangMsg where
  | took (t : Nat)
  | start (t : Nat)
  | late
  | started
  deriving DecidableEq, Repr, Inhabited

/-- A packet for the device of a rank (R370, R371): a read, a write, an atomic, an element of an FMCAST, an increment, the notice
that a device has contributed to a FRED, the value of a subtree of its nodes, its result, the reply to an access, and a notice
of a gang. -/
inductive Packet where
  | read (rank : Nat) (va : Word) (n : Nat)
  | write (rank : Nat) (va : Word) (bytes : List Byte)
  | atomic (rank : Nat) (va : Word) (fmt : Fmt) (opr : Opr) (rm : Rm) (operand compare : Word)
  | mcast (rank : Nat) (va : Word) (bytes : List Byte)
  | incr (rank core ev : Nat) (inc : BitVec 32) (gid : Nat)
  | contrib (rank tag : Nat) (d6 d7 d10 mask : Word)
  | node (rank tag : Nat) (bytes : List Byte) (fl : BitVec 5) (nans infs wraps : Nat)
  | result (rank tag : Nat) (bytes : List Byte) (fl : BitVec 5) (nans infs wraps : Nat)
  | reply (rank status : Nat) (bytes : List Byte)
  | gang (rank gid : Nat) (m : GangMsg)
  deriving DecidableEq, Repr, Inhabited

/-- The rank that a packet is for. -/
def Packet.rank : Packet → Nat
  | .read r .. | .write r .. | .atomic r .. | .mcast r .. | .incr r .. | .contrib r .. | .node r .. | .result r .. | .reply r ..
  | .gang r .. => r

/-- What arrives from the Affort fabric, `org` being the rank that it comes from (R370, R371). `contrib` says
that a peer has contributed to a FRED (R284): the dwords that must agree (6, 7 and 10) and its participant mask. `node` is the
value of the subtree whose nodes a peer's router combines, or of the peer alone, with what they raised, and `result` the result
of a FRED (R285, R305, R371). `forward` is a packet on its way to another device, with its flow. -/
inductive FabAcc where
  | read (org : BitVec 6) (va : Word) (n : Nat)
  | write (org : BitVec 6) (va : Word) (bytes : List Byte)
  | atomic (org : BitVec 6) (va : Word) (fmt : Fmt) (opr : Opr) (rm : Rm) (operand : Word) (compare : Word)
  | mcast (org : BitVec 6) (va : Word) (bytes : List Byte) (sig : Option (CoreNo × EvNo)) (gid : BitVec 16)
  | contrib (org : BitVec 6) (tag : BitVec 16) (d6 d7 d10 mask : Word)
  | node (org : BitVec 6) (tag : BitVec 16) (bytes : List Byte) (fl : BitVec 5) (nans infs wraps : Nat)
  | result (tag : BitVec 16) (bytes : List Byte) (fl : BitVec 5) (nans infs wraps : Nat)
  | gang (org : BitVec 6) (gid : BitVec 16) (m : GangMsg)
  | forward (org : BitVec 6) (src : Nat) (p : Packet)
  deriving DecidableEq, Repr, Inhabited

/-- Where an uncorrectable error arises (R344, R346). -/
inductive PoisonAt where
  | spm | klm | acm | l1 (asid : BitVec 10) | home | imem (u : CoreUnit)
  deriving DecidableEq, Repr, Inhabited

/-- A host access through the BAR2 aperture (R366). -/
inductive ApAcc where
  | read (n : Nat)
  | write (bytes : List Byte)
  deriving DecidableEq, Repr, Inhabited

/-- A PCI Express AtomicOp (R124, R365). -/
inductive HostAtomic where
  | fetchAdd | swap | cas
  deriving DecidableEq, Repr, Inhabited

/-- The registers that REGISTER_WRITE reaches: those of the I/O die, of the partitions and of the management path that
have no row of their own (R310, R318, R351–R369, R387, R390, R393), and those in BAR0 of a virtual function, by offset
(R366). -/
inductive DevReg where
  | vfBar (fn : BitVec 7) (off : BitVec 16)
  | lqbase (q : BitVec 8)
  | schedctl
  | ctxbase
  | synEntry (ctl : BitVec 6) (frame : BitVec 24) (asid : BitVec 10)
  | synDrop (ctl : BitVec 6) (frame : BitVec 24)
  | physDword (pa : BitVec 40)
  | smapStage (p : BitVec 6) (i : BitVec 10)
  | partCore (p : BitVec 6) (c : CoreNo)
  | partSlice (p : BitVec 6) (j : BitVec 7)
  | partRange (p : BitVec 6) (i : BitVec 3) (lo : BitVec 24)
  | partVf (p : BitVec 6) (fn : BitVec 7)
  | l2pol (p : BitVec 6)
  | cdtab (d : BitVec 2) (lane : BitVec 2) (i : BitVec 8)
  | cdlen (d : BitVec 2)
  | fgrp
  | froute (r : BitVec 6)
  | logbase | logctl | logrd | logovf
  | monCoreSel (c : CoreNo) (k : BitVec 3)
  | monCoreVal (c : CoreNo) (k : BitVec 3)
  | monSliceSel (j : BitVec 7) (k : BitVec 2)
  | monSliceVal (j : BitVec 7) (k : BitVec 2)
  | monChanSel (h : BitVec 6) (k : BitVec 2)
  | monChanVal (h : BitVec 6) (k : BitVec 2)
  | plim
  | mailbox (i : BitVec 9)
  | smcmd
  | smsts
  | pwrsts
  deriving DecidableEq, Repr, Inhabited

/-- What the physical function reads in BAR0: a register that REGISTER_WRITE writes; LQCTL, LQHEAD, LQTAIL and LQPASS of a queue;
VCAP; a vintage entry; an aperture window; SMGEN; ASLOT; MIGCTL; LOGWR; BOOTSTS (R310, R319, R320, R350, R359, R362, R366, R368,
R381). -/
inductive BarReg where
  | dev (r : DevReg)
  | lq (q : BitVec 8) (r : BitVec 2)
  | vcap
  | vintage (c : CoreNo)
  | window (fn : BitVec 7) (i : BitVec 15)
  | smgen (p : BitVec 6)
  | aslot (k : BitVec 6)
  | migctl
  | logwr
  | bootsts
  deriving DecidableEq, Repr, Inhabited

/-- The instructions and steps of the K384: the rows of spec/opcode_table.json in the table's order. -/
inductive Instr where
  -- K, integer (R170)
  | add (d a b : SReg)
  | addi (d a : SReg) (imm : BitVec 32)
  | sub (d a b : SReg)
  | mul (d a b : SReg)
  | mulh (u : Bool) (d a b : SReg)
  | div (u : Bool) (d a b : SReg)
  | rem (u : Bool) (d a b : SReg)
  | and (d a b : SReg)
  | andi (d a : SReg) (imm : BitVec 32)
  | or (d a b : SReg)
  | ori (d a : SReg) (imm : BitVec 32)
  | xor (d a b : SReg)
  | xori (d a : SReg) (imm : BitVec 32)
  | shl (d a b : SReg)
  | shr (d a b : SReg)
  | sar (d a b : SReg)
  | min (u : Bool) (d a b : SReg)
  | max (u : Bool) (d a b : SReg)
  | clz (d a : SReg)
  | popc (d a : SReg)
  | slt (u : Bool) (d a b : SReg)
  | sel (d a b c : SReg)
  | ldih (d : SReg) (imm : BitVec 32)
  -- K, flow (R146, R171)
  | b (off : BitVec 24)
  | bc (cond : Cond) (a b : SReg) (off : BitVec 24)
  | call (d : SReg) (off : BitVec 24)
  | ret (a : SReg)
  | jr (d a : SReg)
  | loop (a : SReg) (off : BitVec 24)
  -- K, memory and ordering (R147, R172–R174); ord is the scope of .acq or .rel
  | ldk (sz : BitVec 2) (sg : Bool) (ord : Option Scope) (d a : SReg) (imm : BitVec 32)
  | stk (sz : BitVec 2) (ord : Option Scope) (b a : SReg) (imm : BitVec 32)
  | acq (sc : Scope)
  | rel (sc : Scope)
  | fence (sc : Scope)
  -- K, shaping the engines (R175–R180)
  | nestl (mask : KMask) (n : NestNo) (lev : BitVec 3) (a : SReg)
  | nestb (mask : KMask) (n : NestNo) (a b : SReg)
  | ringc (r : RingNo) (a : SReg)
  | rdring (d : SReg) (r : RingNo)
  | fmt (a : SReg)
  | cpw (k : BitVec 2) (a : SReg) (imm : BitVec 32)
  | cpgo (q : YNo) (reuse : Bool)
  | cpch (q : YNo) (a : SReg)
  | waitq (q : YNo) (n : BitVec 32)
  | waite (ev : EvNo) (a : SReg) (imm : BitVec 32)
  | sige (ev : EvNo) (imm : BitVec 32)
  | mark (n : BitVec 16) (mask : KMask)
  | rdvw (n : BitVec 16)
  | loopb (mask : KMask) (a : SReg) (m s : BitVec 8)
  | ewr (mask : KMask) (sel : BitVec 8) (a : SReg)
  | erd (d : SReg) (mask : KMask) (sel : BitVec 8)
  -- K, tiles, crews, barriers (R188–R192)
  | tnext (d : SReg)
  | tdone
  | tdoneEnd
  | join (c : BitVec 6)
  | leave (c : BitVec 6)
  | cbar (c : BitVec 6)
  | cbard (c : BitVec 6)
  | sstep
  | lees (d : SReg) (imm : BitVec 4)
  -- K, lines, estimates, identity, traps, overlays (R193–R199)
  | watch (a : SReg) (imm : BitVec 32)
  | waitl
  | est (a : SReg)
  | vtab (d a : SReg) (imm : BitVec 32)
  | rds (d : SReg) (spec : BitVec 12)
  | wrs (spec : BitVec 12) (b : SReg)
  | trap (imm : BitVec 32)
  | ovl (a : SReg)
  | ovswap
  -- K, privileged (R200)
  | eret (a : SReg)
  | ffrd (d : SReg) (imm : BitVec 6)
  | jctlHead (d : SReg)
  | jctlTail (d : SReg)
  | jctlFree (a : SReg)
  | jctlReissue (mask : KMask) (a : SReg)
  | casksw (a : SReg)
  | tinvPage (a b : SReg)
  | tinvAsid (a b : SReg)
  | tinvAll (a b : SReg)
  -- the common set of L, M and S (R203–R208); e is the stream the word stands in
  | nop (e : Eng) (t : Tk)
  | tok (e : Eng) (t : Tk) (n : BitVec 6)
  | align (e : Eng) (t : Tk) (n : BitVec 16)
  | xset (e : Eng) (t : Tk) (d : XReg) (imm : Word)
  | xadd (e : Eng) (t : Tk) (d a b : XReg)
  | xaddi (e : Eng) (t : Tk) (d a : XReg) (imm : BitVec 40)
  | xmul (e : Eng) (t : Tk) (d a b : XReg)
  | lps (e : Eng) (t : Tk) (lp : LpNo) (count : LpCount)
  | lpe (e : Eng) (t : Tk) (lp : LpNo)
  | brx (e : Eng) (t : Tk) (cond : Cond) (a b : XReg) (off : BitVec 24)
  | halte (e : Eng) (t : Tk)
  -- L (R210–R217)
  | ldt (t : Tk) (ru : Bool) (nest : NestNo)
  | ldn (t : Tk) (d a : XReg) (doff : BitVec 21) (aoff : BitVec 32) (len : BitVec 13)
  | ldg (t : Tk) (ring : RingNo) (a b c : XReg) (cnt : BitVec 7)
  | ldv (t : Tk) (sp sg : Bool) (sz : BitVec 2) (d a : XReg) (aoff : BitVec 32)
  | mcf (t : Tk) (d a b : XReg) (aoff : BitVec 32) (len : BitVec 6)
  | tld (t : Tk) (ru fine desc : Bool) (nest : NestNo) (lev bl : BitVec 4) (k : BitVec 3)
  | trf (t : Tk) (ru : Bool) (nest : NestNo) (lev bl : BitVec 4) (k : BitVec 3) (fl : BitVec 4) (xm : XReg)
      (moff : BitVec 21)
  | ldsb (t : Tk) (sp : Bool) (ring : RingNo) (a : XReg) (aoff : BitVec 32) (cnt : BitVec 7)
  -- S (R211, R213, R218–R222)
  | stt (t : Tk) (ru : Bool) (nest : NestNo)
  | stn (t : Tk) (d a : XReg) (doff : BitVec 21) (aoff : BitVec 32) (len : BitVec 13)
  | drn (t : Tk) (ns tr : Bool) (c : CTile) (a b p : XReg)
  | sct (t : Tk) (d a b c : XReg) (rb : BitVec 12) (cnt : BitVec 7)
  | stv (t : Tk) (sp : Bool) (sz : BitVec 2) (b a : XReg) (aoff : BitVec 32)
  | tstb (t : Tk) (ru : Bool) (nest : NestNo) (bl sf : BitVec 4)
  | tstl (t : Tk) (ru : Bool) (nest : NestNo) (bl sf lev : BitVec 4)
  | tstn (t : Tk) (add : Bool) (a b c : XReg) (bl lev sf : BitVec 4) (q : YNo)
  -- M, matrix and tiles (R226–R232)
  | mma (t : Tk) (z bt : Bool) (c : CTile) (ra rb : RingNo)
  | czero (t : Tk) (c : CTile)
  | cld (t : Tk) (a b : XReg) (len : BitVec 16)
  | cldOut (t : Tk) (a b : XReg) (len : BitVec 16)
  | cscl (t : Tk) (col : Bool) (c : CTile) (va : VReg)
  | ctr (t : Tk) (c cs : CTile)
  | crowv (t : Tk) (mode : CrowMode) (vd : VReg) (c : CTile) (a : XReg)
  | cvrow (t : Tk) (col : Bool) (c : CTile) (va : VReg) (a : XReg)
  -- M, vectors (R233–R245); mk is the mask of .mk
  | vadd (t : Tk) (ty : VTy) (mk : Option MReg) (vd va : VReg) (vb : VSrc)
  | vsub (t : Tk) (ty : VTy) (mk : Option MReg) (vd va : VReg) (vb : VSrc)
  | vmul (t : Tk) (ty : VTy) (mk : Option MReg) (vd va : VReg) (vb : VSrc)
  | vfma (t : Tk) (ty : VTy) (mk : Option MReg) (vd va : VReg) (vb : VSrc) (vc : VReg)
  | vmax (t : Tk) (ty : VTy) (mk : Option MReg) (vd va : VReg) (vb : VSrc)
  | vmin (t : Tk) (ty : VTy) (mk : Option MReg) (vd va : VReg) (vb : VSrc)
  | vabs (t : Tk) (ty : VTy) (mk : Option MReg) (vd va : VReg)
  | vneg (t : Tk) (ty : VTy) (mk : Option MReg) (vd va : VReg)
  | vrcp (t : Tk) (mk : Option MReg) (vd va : VReg)
  | vrsq (t : Tk) (mk : Option MReg) (vd va : VReg)
  | vsqrt (t : Tk) (mk : Option MReg) (vd va : VReg)
  | vexp2 (t : Tk) (mk : Option MReg) (vd va : VReg)
  | vlog2 (t : Tk) (mk : Option MReg) (vd va : VReg)
  | vcvt (t : Tk) (mk : Option MReg) (src dst : Fmt) (rm : Rm) (vd va : VReg)
  | vcmp (t : Tk) (cond : VCond) (ty : VTy) (mk : Option MReg) (md : MReg) (va : VReg) (vb : VSrc)
  | vsel (t : Tk) (vd va : VReg) (vb : VSrc) (mk : MReg)
  | vand (t : Tk) (mk : Option MReg) (vd va : VReg) (vb : VSrc)
  | vor (t : Tk) (mk : Option MReg) (vd va : VReg) (vb : VSrc)
  | vxor (t : Tk) (mk : Option MReg) (vd va : VReg) (vb : VSrc)
  | vshl (t : Tk) (ty : VTy) (mk : Option MReg) (vd va : VReg) (vb : VSrc)
  | vshr (t : Tk) (ty : VTy) (mk : Option MReg) (vd va : VReg) (vb : VSrc)
  | vreds (t : Tk) (ty : VTy) (mk : Option MReg) (vd va : VReg)
  | vredm (t : Tk) (ty : VTy) (mk : Option MReg) (vd va : VReg)
  | vbcst (t : Tk) (mk : Option MReg) (vd : VReg) (src : BcSrc)
  | vperm (t : Tk) (mk : Option MReg) (vd va : VReg) (vb : VSrc)
  | vcmpr (t : Tk) (vd va : VReg) (mk : MReg)
  | vexpd (t : Tk) (vd va : VReg) (mk : MReg)
  | cqapp (t : Tk) (w2 : Bool) (xa xb : XReg) (va vb : VReg) (mk : MReg)
  | cqtake (t : Tk) (w2 : Bool) (vd : VReg) (xa xb : XReg) (md : MReg)
  | vld (t : Tk) (mk : Option MReg) (vd : VReg) (a : XReg) (imm : BitVec 16)
  | vldM (t : Tk) (md : MReg) (a : XReg) (imm : BitVec 16)
  | vst (t : Tk) (mk : Option MReg) (va : VReg) (a : XReg) (imm : BitVec 16)
  | vstM (t : Tk) (ma : MReg) (a : XReg) (imm : BitVec 16)
  | vpop (t : Tk) (vd : VReg) (ring : RingNo)
  | mand (t : Tk) (md ma mb : MReg)
  | mor (t : Tk) (md ma mb : MReg)
  | mnot (t : Tk) (md ma : MReg)
  | viota (t : Tk) (mk : Option MReg) (vd : VReg) (xb : Option XReg)
  | vcnt (t : Tk) (xd : XReg) (mk : MReg)
  | vsband (t : Tk) (sel : SbSel) (vd : VReg)
  | vblend (t : Tk) (mk : Option MReg) (vd va vb : VReg)
  | tmask (t : Tk) (c : CTile) (va : VReg) (xa xb xc : XReg)
  -- M, orthogonal accumulators (R252–R261); tr is .T
  | qcfg (t : Tk) (q : QReg) (a : XReg)
  | qclr (t : Tk) (q : QReg)
  | qacc (t : Tk) (q : QReg) (va : VReg) (a b : XReg)
  | qapl (t : Tk) (tr : Bool) (c : CTile) (q : QReg)
  | qapr (t : Tk) (tr : Bool) (c : CTile) (q : QReg)
  | qtrn (t : Tk) (q : QReg)
  | qform (t : Tk) (tr : Bool) (c : CTile) (q : QReg)
  | qcnt (t : Tk) (d : XReg) (q : QReg)
  | qseal (t : Tk) (q : QReg)
  | qsv (t : Tk) (q : QReg) (a : XReg)
  | qrs (t : Tk) (q : QReg) (a : XReg)
  -- sequencer steps (R33, R44, R156)
  | sectionStart (e : Eng)
  | formatUnderflow (e : Eng)
  -- Y commands (R164, R266–R287)
  | copy (c : Cmd)
  | fill (c : Cmd)
  | accw (c : Cmd)
  | ratom (c : Cmd)
  | tnode (c : Cmd)
  | kvcmt (c : Cmd)
  | fmcast (c : Cmd)
  | fred (c : Cmd)
  | sigr (c : Cmd)
  | pipeBind (c : Cmd)
  | pipeUnbind (c : Cmd)
  -- Y's own steps and the fabric's (R183, R265, R268, R277, R284, R371)
  | chainFetch (k : Nat)
  | commandBegin (q : YNo)
  | commandComplete (q : YNo)
  | remoteIncrement (tgt : RTarget) (core : CoreNo) (ev : EvNo) (inc : BitVec 32)
  | fredCombine (tag : BitVec 16)
  | fabricAccess (acc : FabAcc)
  | combiningMergeTimeout (line : BitVec 33)
  -- caches, launches, overlays, faults (R18, R198, R300, R307, R331, R336)
  | eviction (asid : BitVec 10) (line : BitVec 57)
  | tileAgeing (lid : BitVec 32)
  | overlayLoadDone
  | coreStop (u : CoreUnit) (code : BitVec 8) (va stat : Word)
  | tokenTimeout (e : Eng)
  | watchdog (u : CoreUnit) (q : YNo)
  | firmwareResume (resume : Bool)
  | caskSwitch (dst : Bool) (checkpoint : Bool)
  -- the scheduler (R315, R316, R327–R329)
  | quantumBoundary
  | completionGrant (p : BitVec 6)
  | drainEscalation (lid : BitVec 32)
  | checkpointSaveDone
  | gangStart (gid : BitVec 16) (t : Word)
  | gangAbort (lid : BitVec 32)
  -- registers, slice maps, migration, host accesses (R310–R322, R350–R368)
  | lqtailWrite (q : BitVec 8) (v : Word)
  | lqctlWrite (q : BitVec 8) (v : Word)
  | vcapWrite (v : Word)
  | vintageEnWrite (c : CoreNo) (en spare : Bool)
  | residencyChange (p : BitVec 6) (dual : Bool)
  | smgenWrite (p : BitVec 6) (v : Word)
  | remapNack (u : CoreUnit)
  | remap (va : Word)
  | aslotWrite (slot : BitVec 6) (v : Word)
  | migctl (asid : BitVec 10) (va : Word) (frame : BitVec 24)
  | apertureWindowWrite (fn : BitVec 7) (i : BitVec 15) (v : Word)
  | hostApertureAccess (fn : BitVec 7) (off : BitVec 36) (acc : ApAcc)
  | hostAtomicop (fn : BitVec 7) (off : BitVec 36) (op : HostAtomic) (sz : BitVec 2) (operand compare : Word)
  | registerWrite (r : DevReg) (v : Word)
  -- reset, security, power, monitors, errors (R378–R395)
  | coldReset
  | vfFlr (fn : BitVec 7)
  | pfFlr
  | attest (w : Word)
  | cert (w : Word)
  | log (w : Word)
  | loadimg (w : Word)
  | powerStep
  | monitorEntryEviction
  | dataPoisoned (at_ : PoisonAt) (addr : Word) (n : Nat)
  deriving DecidableEq, Repr, Inhabited

end Sys2Proof
end

