-- ==== Sys2Proof/WellFormed.lean ====
section
/-! DEFINITION. The instructions that an encoding exists for: the codes of the enumerations (R75, R80, R95, R146, R163,
R233, R236, R244, R164), the address forms of a copy command (R161), what each copy command requires of its fields
(R157–R163, R267, R273–R287), and `Instr.wf`. -/

namespace Sys2Proof

/-! ### Codes -/

/-- R95. -/
def Scope.code : Scope → Nat
  | .core => 0 | .die => 1 | .device => 2 | .system => 3

/-- R146. -/
def Cond.code : Cond → Nat
  | .eq => 0 | .ne => 1 | .lt => 2 | .ge => 3 | .ltu => 4 | .geu => 5

/-- R75. -/
def Fmt.code : Fmt → Nat
  | .fp32 => 0 | .bf16 => 1 | .fp16 => 2 | .bx8 => 3 | .i4 => 4 | .n4 => 5 | .i8 => 6 | .n8 => 7 | .i16 => 8
  | .n16 => 9 | .i32 => 10 | .n32 => 11

/-- R80. -/
def Rm.code : Rm → Nat
  | .rne => 0 | .rtz => 1 | .rup => 2 | .rdn => 3

/-- R233. -/
def VTy.code : VTy → Nat
  | .fp32 => 0 | .i32 => 10 | .n32 => 11

/-- R236. -/
def VCond.code : VCond → Nat
  | .eq => 0 | .ne => 1 | .lt => 2 | .le => 3 | .gt => 4 | .ge => 5 | .un => 6

/-- R232. -/
def CrowMode.code : CrowMode → Nat
  | .row => 0 | .col => 1 | .sum => 2 | .sq => 3 | .amax => 4

/-- R244. -/
def SbSel.code : SbSel → Nat
  | .mask => 0 | .ver => 1 | .wf => 2 | .hdr => 3 | .bits => 4

/-- R163. -/
def Opr.code : Opr → Nat
  | .move => 0 | .add => 1 | .max => 2 | .min => 3 | .and => 4 | .or => 5 | .xor => 6 | .blend => 7 | .swap => 8
  | .cas => 9

/-- The size of an element in bits (R75). -/
def Fmt.bits : Fmt → Nat
  | .fp32 => 32 | .bf16 => 16 | .fp16 => 16 | .bx8 => 8 | .i4 => 4 | .n4 => 4 | .i8 => 8 | .n8 => 8 | .i16 => 16
  | .n16 => 16 | .i32 => 32 | .n32 => 32

/-- The element size that addresses are checked against: the 4-bit formats count as 1 byte (R267). -/
def Fmt.bytes (f : Fmt) : Nat := if f.bits = 4 then 1 else f.bits / 8

/-- Whether a format is an integer format (R75). -/
def Fmt.isInt : Fmt → Bool
  | .fp32 | .bf16 | .fp16 | .bx8 => false
  | _ => true

/-- Whether a format is a floating format. bx8 is none of these (R75, R83). -/
def Fmt.isFloat : Fmt → Bool
  | .fp32 | .bf16 | .fp16 => true
  | _ => false

/-! ### Addresses -/

/-- A canonical VA: bits [63:52] all equal to bit 51 (R161, R349). -/
def canonical (a : Nat) : Bool := decide (a / 2 ^ 51 % 2 ^ 13 = 0) || decide (a / 2 ^ 51 % 2 ^ 13 = 2 ^ 13 - 1)

/-- The SPM form of an address dword: bits [63:52] = 0xFE0, bits [51:21] zero (R161). -/
def isSpmForm (a : Nat) : Bool := decide (a / 2 ^ 21 = 0xFE0 * 2 ^ 31)

/-- One of the two forms of R161. -/
def addrOk (a : Nat) : Bool := canonical a || isSpmForm a

/-! ### Copy commands -/

/-- A signed 32-bit byte stride (R162). -/
def stride (s : BitVec 32) : Int := s.toInt

/-- The bounding byte range of a walk from `base` (R273): the lowest byte and the one past the highest. The level-0
extent is given in bytes. -/
def bounds (base : Int) (row : Nat) (s1 s2 : BitVec 32) (x1 x2 : Nat) : Int × Int :=
  let e1 := stride s1 * ((x1 : Int) - 1)
  let e2 := stride s2 * ((x2 : Int) - 1)
  (base + min e1 0 + min e2 0, base + max e1 0 + max e2 0 + row)

/-- The bytes of `x` elements side by side. -/
def rowBytes (f : Fmt) (x : Nat) : Nat := (x * f.bits + 7) / 8

/-- Bits of the 48-bit ARG of dword 10: `lo` counts from bit 0 of the dword (R163). -/
def Cmd.argBits (c : Cmd) (lo n : Nat) : Nat := c.arg.toNat / 2 ^ (lo - 16) % 2 ^ n

/-- VL − 1 of a blend (R276). -/
def Cmd.vlm1 (c : Cmd) : Nat := c.argBits 16 11

/-- The bytes of one element: a blend record is VL + 2 words (R276). -/
def Cmd.elemBytes (c : Cmd) : Nat := if c.opr = .blend then (c.vlm1 + 3) * 4 else c.dfmt.bytes

/-- What holds of every command: an inactive clause is zero, an unused remote target is zero, a governed dword is
zero or aligned, RCORE names a core (R158–R161). -/
def Cmd.common (c : Cmd) : Bool :=
  (c.w0.en || (c.w0.ev == 0 && c.w0.thr == 0)) && (c.w1.en || (c.w1.ev == 0 && c.w1.thr == 0)) &&
  (c.rsig || (c.rdev == 0 && !c.rloc && c.rev == 0 && c.rcore == 0)) && (!c.rloc || c.rdev == 0) && decide (c.rcore.toNat < 384) &&
  (if c.rtn then decide (c.ret.toNat % 8 = 0) && addrOk c.ret.toNat else c.ret == 0) &&
  (if c.link then decide (c.next.toNat % 128 = 0) && canonical c.next.toNat else c.next == 0) &&
  (if c.crec then decide (c.crecAt.toNat % 64 = 0) && addrOk c.crecAt.toNat else c.crecAt == 0)

/-- Dwords 6 to 9 all zero. -/
def Cmd.noShape (c : Cmd) : Bool :=
  c.x0 == 0 && c.x1 == 0 && c.x2 == 0 && c.ss1 == 0 && c.ss2 == 0 && c.ds1 == 0 && c.ds2 == 0

/-- No extent is zero (R162). -/
def Cmd.extents (c : Cmd) : Bool := c.x0 != 0 && c.x1 != 0 && c.x2 != 0

/-- A base address and strides that are multiples of the element size (R267). -/
def multiples (base : Word) (s1 s2 : BitVec 32) (n : Nat) : Bool :=
  decide (base.toNat % n = 0) && decide (stride s1 % (n : Int) = 0) && decide (stride s2 % (n : Int) = 0)

/-- X0 is even for a 4-bit format (R267). -/
def Cmd.evenFor (c : Cmd) (f : Fmt) : Bool := decide (f.bits ≠ 4) || decide (c.x0.toNat % 2 = 0)

/-- The operators of ACCW (R275) and FRED (R284) with the formats that each admits. -/
def oprFmtOk (fred : Bool) (o : Opr) (f : Fmt) : Bool :=
  match o with
  | .add => if fred then (f == .fp32 || f == .i32 || f == .n32) else (f.isInt || f.isFloat) && decide (f.bits ≠ 4)
  | .max | .min => (f.isInt || f.isFloat) && decide (f.bits ≠ 4)
  | .and | .or | .xor => f.isInt && decide (f.bits ≠ 4)
  | .blend => f == .fp32
  | _ => false

/-- RM of ACCW and FRED: 0 under blend (R276). -/
def Cmd.rmOk (c : Cmd) : Bool := c.opr != .blend || c.rm == .rne

/-- Fields that COPY admits (R267, R273). -/
def Cmd.okCopy (c : Cmd) : Bool :=
  c.common && c.extents && addrOk c.src.toNat && addrOk c.dst.toNat && c.opr == .move && c.arg == 0 && !c.rtn &&
  c.bind == 0 && multiples c.src c.ss1 c.ss2 c.sfmt.bytes && multiples c.dst c.ds1 c.ds2 c.dfmt.bytes &&
  c.evenFor c.sfmt && c.evenFor c.dfmt &&
  (isSpmForm c.src.toNat != isSpmForm c.dst.toNat ||
    (let a := bounds c.src.toNat (rowBytes c.sfmt c.x0.toNat) c.ss1 c.ss2 c.x1.toNat c.x2.toNat
     let b := bounds c.dst.toNat (rowBytes c.dfmt c.x0.toNat) c.ds1 c.ds2 c.x1.toNat c.x2.toNat
     decide (a.2 ≤ b.1) || decide (b.2 ≤ a.1)))

/-- Fields that FILL admits (R267, R274). -/
def Cmd.okFill (c : Cmd) : Bool :=
  c.common && c.extents && addrOk c.dst.toNat && c.sfmt == c.dfmt && c.opr == .move && c.rm == .rne && c.arg == 0 &&
  !c.rtn && c.bind == 0 && c.ss1 == 0 && c.ss2 == 0 && decide (c.src.toNat < 2 ^ c.dfmt.bits) &&
  multiples c.dst c.ds1 c.ds2 c.dfmt.bytes && c.evenFor c.dfmt

/-- Fields that ACCW admits (R267, R275, R276). -/
def Cmd.okAccw (c : Cmd) : Bool :=
  c.common && c.extents && addrOk c.src.toNat && canonical c.dst.toNat && c.sfmt == c.dfmt &&
  oprFmtOk false c.opr c.dfmt && c.rmOk && c.bind == 0 &&
  (if c.opr = .blend then decide (c.arg.toNat < 2 ^ 11) else c.arg == 0) &&
  multiples c.src c.ss1 c.ss2 c.sfmt.bytes && multiples c.dst c.ds1 c.ds2 c.dfmt.bytes

/-- Fields that RATOM admits (R267, R278). -/
def Cmd.okRatom (c : Cmd) : Bool :=
  c.common && c.extents && isSpmForm c.src.toNat && canonical c.dst.toNat && c.sfmt == c.dfmt &&
  (c.dfmt == .i32 || c.dfmt == .n32) && c.opr != .move && c.opr != .blend && c.rm == .rne && c.arg == 0 && c.rtn &&
  c.crec && c.bind == 0 && c.ss1 == 0 && c.ss2 == 0 && decide (c.src.toNat % 4 = 0) &&
  multiples c.dst c.ds1 c.ds2 4

/-- Fields that TNODE admits (R267, R279). The alignment of the block is checked at run time (R288). -/
def Cmd.okTnode (c : Cmd) : Bool :=
  let l := c.argBits 16 4
  let lev := c.argBits 20 4
  c.common && c.noShape && canonical c.dst.toNat && c.sfmt == c.dfmt &&
  (c.dfmt == .i8 || c.dfmt == .i16 || c.dfmt == .i32) && (c.opr == .move || c.opr == .add) && c.rm == .rne &&
  decide (1 ≤ l ∧ l ≤ 8 ∧ lev ≤ l ∧ c.argBits 24 8 < 2 ^ lev) && decide (c.arg.toNat < 2 ^ 16) &&
  decide (c.src.toNat < 2 ^ c.dfmt.bits) && !c.rtn && c.bind == 0

/-- Fields that KVCMT admits (R267, R280). -/
def Cmd.okKvcmt (c : Cmd) : Bool :=
  let n := c.argBits 48 8
  let a := c.argBits 56 8
  let e := rowBytes c.sfmt c.x0.toNat
  c.common && addrOk c.src.toNat && addrOk c.dst.toNat && canonical c.bind.toNat && c.sfmt == c.dfmt &&
  c.opr == .move && c.rm == .rne && !c.rtn && decide (c.x2.toNat = 1) && c.ss1 == 0 && c.ss2 == 0 && c.ds2 == 0 &&
  decide (1 ≤ n ∧ n ≤ 128 ∧ a ≤ n) && decide (c.src.toNat % 4 = 0) &&
  decide (1 ≤ e ∧ e % 128 = 0 ∧ e ≤ 2 ^ 20) && c.evenFor c.sfmt && decide (1 ≤ c.x1.toNat ∧ c.x1.toNat ≤ 4096) &&
  decide (c.bind.toNat % 8 = 0) && multiples c.dst c.ds1 0 c.sfmt.bytes

/-- Fields that FMCAST admits (R267, R283), the group's size apart. -/
def Cmd.okFmcast (c : Cmd) : Bool :=
  c.common && c.extents && addrOk c.src.toNat && canonical c.dst.toNat && c.sfmt == c.dfmt && c.opr == .move &&
  c.rm == .rne && c.arg == 0 && !c.rtn && c.bind != 0 && (!c.rsig || (!c.rloc && c.rdev == 0)) &&
  multiples c.src c.ss1 c.ss2 c.sfmt.bytes && multiples c.dst c.ds1 c.ds2 c.dfmt.bytes && c.evenFor c.sfmt

/-- Fields that FRED admits (R267, R284), the group's apart. -/
def Cmd.okFred (c : Cmd) : Bool :=
  c.common && c.extents && addrOk c.src.toNat && addrOk c.dst.toNat && c.sfmt == c.dfmt &&
  oprFmtOk true c.opr c.dfmt && c.rmOk && decide (c.argBits 50 14 = 0) && !c.rtn && c.bind != 0 &&
  (c.opr == .blend || decide (c.vlm1 = 0)) &&
  multiples c.src c.ss1 c.ss2 c.sfmt.bytes && multiples c.dst c.ds1 c.ds2 c.dfmt.bytes

/-- Fields that SIGR admits (R267, R286). -/
def Cmd.okSigr (c : Cmd) : Bool :=
  c.common && c.noShape && c.src == 0 && c.dst == 0 && c.sfmt == .fp32 && c.dfmt == .fp32 && c.opr == .move &&
  c.rm == .rne && !c.rtn && c.bind == 0 && c.rsig && c.arg != 0 && decide (c.arg.toNat < 2 ^ 32)

/-- Fields that PIPE admits (R267, R287); `unb` is UNB. A CCORE equal to the issuing core is refused by Y. -/
def Cmd.okPipe (unb : Bool) (c : Cmd) : Bool :=
  c.common && c.noShape && c.src == 0 && c.dst == 0 && c.sfmt == .fp32 && c.dfmt == .fp32 && c.opr == .move &&
  c.rm == .rne && !c.rtn && c.arg == 0 && decide (c.bind.toNat < 2 ^ 18) && decide (c.bind.toNat / 2 ^ 4 % 2 ^ 9 < 384) &&
  decide (c.bind.toNat / 2 ^ 17 = if unb then 1 else 0)

/-! ### Well-formed instructions -/

/-- Without .w2 the field VB of CQAPP is unused (R240). -/
def cqappOk (w2 : Bool) (vb : VReg) : Bool := w2 || vb == 0

/-- VCMP.un is a comparison of fp32 lanes only (R236). -/
def vcmpOk (c : VCond) (t : VTy) : Bool := c != .un || t == .fp32

/-- The shifts have no fp32 form (R234). -/
def shiftOk (t : VTy) : Bool := t != .fp32

/-- The modes 2 to 4 of CROWV take no index (R232). -/
def crowvOk (m : CrowMode) (a : XReg) : Bool := m == .row || m == .col || a == 0

/-- The mask destination of VSBAND.mask is a mask register (R225, R244). -/
def vsbandOk (s : SbSel) (vd : VReg) : Bool := s != .mask || decide (vd.toNat < 8)

/-- Without .t the field XB of DRN is 0 (R220). -/
def drnOk (tr : Bool) (b : XReg) : Bool := tr || b == 0

/-- The engines that a nest instruction may name (R175, R176). -/
def nestMaskOk (m : KMask) : Bool := (m.l || m.s) && !m.m && !m.y

/-- The instruction is one that an encoding exists for: no field holds what the decoder refuses. The rows that no
stream encodes are well-formed when they name what the device has. -/
def Instr.wf : Instr → Bool
  | .ldk sz sg _ _ _ _ => !(sz == 3 && sg)
  | .nestl m _ lev _ => nestMaskOk m && decide (lev.toNat < 6)
  | .nestb m _ _ _ => nestMaskOk m
  | .loopb m _ _ _ => !m.y
  | .jctlReissue m _ => !m.m
  | .drn _ _ tr _ _ xb _ => drnOk tr xb
  | .crowv _ m _ _ a => crowvOk m a
  | .vcmp _ c t _ _ _ _ => vcmpOk c t
  | .vshl _ t _ _ _ _ => shiftOk t
  | .vshr _ t _ _ _ _ => shiftOk t
  | .cqapp _ w2 _ _ _ vb _ => cqappOk w2 vb
  | .vsband _ s vd => vsbandOk s vd
  | .copy c => c.okCopy
  | .fill c => c.okFill
  | .accw c => c.okAccw
  | .ratom c => c.okRatom
  | .tnode c => c.okTnode
  | .kvcmt c => c.okKvcmt
  | .fmcast c => c.okFmcast
  | .fred c => c.okFred
  | .sigr c => c.okSigr
  | .pipeBind c => c.okPipe false
  | .pipeUnbind c => c.okPipe true
  | .remoteIncrement _ core _ _ => decide (core.toNat < 384)
  | .vintageEnWrite c _ _ => decide (c.toNat < 384)
  | _ => true

end Sys2Proof
end

