-- ==== Sys2Proof/Decode.lean ====
section
/-! DEFINITION. The decoder: K words (R145–R149, R169–R200), engine words (R150–R153, R201–R252), section headers
(R154) and copy commands (R157–R165), each total on any bits and refusing by name; and after it the encoder. Fields are
taken out of words as numbers: `fld w lo n` is bits [lo + n − 1 : lo]. -/

namespace Sys2Proof

/-- Why a word is refused: an opcode that no instruction has, or a reserved field or value (R8, R149, R153, R165). -/
inductive DecErr where
  | illegalOp | illegalOperand | copyMalformed
  deriving DecidableEq, Repr

abbrev Dec := Except DecErr Instr

/-- Bits [lo + n − 1 : lo] of `w` (the helper bits of R168). -/
def fld (w lo n : Nat) : Nat := w / 2 ^ lo % 2 ^ n

/-- One bit of `w`. -/
def flag (w lo : Nat) : Bool := decide (w / 2 ^ lo % 2 = 1)

/-- The instruction, where the fields are as its entry has them; ILLEGAL_OPERAND otherwise. -/
def need (ok : Bool) (i : Instr) : Dec := if ok then .ok i else .error .illegalOperand

/-- Every listed field, (low bit, width), is zero. -/
def zeros (w : Nat) : List (Nat × Nat) → Bool
  | [] => true
  | p :: ps => decide (fld w p.1 p.2 = 0) && zeros w ps

/-! ### Codes -/

def Scope.ofCode : Nat → Scope
  | 0 => .core | 1 => .die | 2 => .device | _ => .system

def Cond.ofCode : Nat → Option Cond
  | 0 => some .eq | 1 => some .ne | 2 => some .lt | 3 => some .ge | 4 => some .ltu | 5 => some .geu | _ => none

def Fmt.ofCode : Nat → Option Fmt
  | 0 => some .fp32 | 1 => some .bf16 | 2 => some .fp16 | 3 => some .bx8 | 4 => some .i4 | 5 => some .n4
  | 6 => some .i8 | 7 => some .n8 | 8 => some .i16 | 9 => some .n16 | 10 => some .i32 | 11 => some .n32 | _ => none

def Rm.ofCode : Nat → Option Rm
  | 0 => some .rne | 1 => some .rtz | 2 => some .rup | 3 => some .rdn | _ => none

def VTy.ofCode : Nat → Option VTy
  | 0 => some .fp32 | 10 => some .i32 | 11 => some .n32 | _ => none

def VCond.ofCode : Nat → Option VCond
  | 0 => some .eq | 1 => some .ne | 2 => some .lt | 3 => some .le | 4 => some .gt | 5 => some .ge | 6 => some .un
  | _ => none

def CrowMode.ofCode : Nat → Option CrowMode
  | 0 => some .row | 1 => some .col | 2 => some .sum | 3 => some .sq | 4 => some .amax | _ => none

def SbSel.ofCode : Nat → Option SbSel
  | 0 => some .mask | 1 => some .ver | 2 => some .wf | 3 => some .hdr | 4 => some .bits | _ => none

def Opr.ofCode : Nat → Option Opr
  | 0 => some .move | 1 => some .add | 2 => some .max | 3 => some .min | 4 => some .and | 5 => some .or
  | 6 => some .xor | 7 => some .blend | 8 => some .swap | 9 => some .cas | _ => none

/-! ### K words -/

/-- The register fields of a K word (R145). -/
def kD (w : Nat) : SReg := BitVec.ofNat 6 (fld w 51 6)
def kA (w : Nat) : SReg := BitVec.ofNat 6 (fld w 45 6)
def kB (w : Nat) : SReg := BitVec.ofNat 6 (fld w 39 6)

/-- IMM of KI and KE (R145). -/
def kImm (w : Nat) : BitVec 32 := BitVec.ofNat 32 (fld w 0 32)

/-- OFF of KB (R145). -/
def kOff (w : Nat) : BitVec 24 := BitVec.ofNat 24 (fld w 0 24)

/-- EMASK of KE: [38] L, [37] M, [36] S, [35] Y (R145). -/
def kMask (w : Nat) : KMask := { l := flag w 38, m := flag w 37, s := flag w 36, y := flag w 35 }

/-- KR d, a, b with no option: OPT and [31:0] zero. -/
def krDab (w : Nat) (f : SReg → SReg → SReg → Instr) : Dec :=
  need (zeros w [(0, 39)]) (f (kD w) (kA w) (kB w))

/-- KR d, a, b with .u in OPT[0] (R170). -/
def krDabU (w : Nat) (f : Bool → SReg → SReg → SReg → Instr) : Dec :=
  need (zeros w [(0, 32), (33, 6)]) (f (flag w 32) (kD w) (kA w) (kB w))

/-- KI d, a, IMM. -/
def kiDaI (w : Nat) (f : SReg → SReg → BitVec 32 → Instr) : Dec :=
  need (zeros w [(32, 13)]) (f (kD w) (kA w) (kImm w))

/-- KR d alone. -/
def krD (w : Nat) (f : SReg → Instr) : Dec := need (zeros w [(0, 51)]) (f (kD w))

/-- KR a alone. -/
def krA (w : Nat) (f : SReg → Instr) : Dec := need (zeros w [(0, 45), (51, 6)]) (f (kA w))

/-- A word that uses no field but its opcode. -/
def kNone (w : Nat) (i : Instr) : Dec := need (zeros w [(0, 57)]) i

/-- ACQ, REL and FENCE: SC in OPT[1:0] (R147, R174). -/
def krScope (w : Nat) (f : Scope → Instr) : Dec :=
  need (zeros w [(0, 32), (34, 23)]) (f (Scope.ofCode (fld w 32 2)))

/-- ORD and SC of LDK and STK: SC is 0 where ORD is 0 (R147). -/
def kOrd (w : Nat) : Option Scope := if flag w 35 then some (Scope.ofCode (fld w 32 2)) else none
def kOrdOk (w : Nat) : Bool := flag w 35 || decide (fld w 32 2 = 0)

/-- KI with a crew id in IMM[5:0] (R190). -/
def kiCrew (w : Nat) (f : BitVec 6 → Instr) : Dec :=
  need (zeros w [(6, 51)]) (f (BitVec.ofNat 6 (fld w 0 6)))

/-- BC: COND in [38:35] (R146). -/
def kBc (w : Nat) : Dec :=
  match Cond.ofCode (fld w 35 4) with
  | some c => need (zeros w [(24, 11), (51, 6)]) (.bc c (kA w) (kB w) (kOff w))
  | none => .error .illegalOperand

/-- JCTL: the op in OPT3 (R200). -/
def kJctl (w : Nat) : Dec :=
  match fld w 32 3 with
  | 0 => need (zeros w [(0, 32), (35, 16)]) (.jctlHead (kD w))
  | 1 => need (zeros w [(0, 32), (35, 16)]) (.jctlTail (kD w))
  | 2 => need (zeros w [(0, 32), (35, 10), (51, 6)]) (.jctlFree (kA w))
  | 3 => need (zeros w [(0, 32), (39, 6), (51, 6)] && !flag w 37) (.jctlReissue (kMask w) (kA w))
  | _ => .error .illegalOperand

/-- TINV: the mode in OPT[1:0] (R200). -/
def kTinv (w : Nat) : Dec :=
  let ok := zeros w [(0, 32), (34, 5), (51, 6)]
  match fld w 32 2 with
  | 0 => need ok (.tinvPage (kA w) (kB w))
  | 1 => need ok (.tinvAsid (kA w) (kB w))
  | 2 => need ok (.tinvAll (kA w) (kB w))
  | _ => .error .illegalOperand

/-- The K opcode map (R148) with each entry's fields. -/
def decodeK (w : Nat) : Dec :=
  match fld w 57 7 with
  | 0x00 => krDab w .add
  | 0x01 => kiDaI w .addi
  | 0x02 => krDab w .sub
  | 0x03 => krDab w .mul
  | 0x04 => krDabU w .mulh
  | 0x05 => krDabU w .div
  | 0x06 => krDabU w .rem
  | 0x07 => krDab w .and
  | 0x08 => kiDaI w .andi
  | 0x09 => krDab w .or
  | 0x0A => kiDaI w .ori
  | 0x0B => krDab w .xor
  | 0x0C => kiDaI w .xori
  | 0x0D => krDab w .shl
  | 0x0E => krDab w .shr
  | 0x0F => krDab w .sar
  | 0x10 => krDabU w .min
  | 0x11 => krDabU w .max
  | 0x12 => need (zeros w [(0, 45)]) (.clz (kD w) (kA w))
  | 0x13 => need (zeros w [(0, 45)]) (.popc (kD w) (kA w))
  | 0x14 => krDabU w .slt
  | 0x15 => need (zeros w [(0, 32), (38, 1)]) (.sel (kD w) (kA w) (kB w) (BitVec.ofNat 6 (fld w 32 6)))
  | 0x16 => need (zeros w [(32, 19)]) (.ldih (kD w) (kImm w))
  | 0x20 => need (zeros w [(24, 33)]) (.b (kOff w))
  | 0x21 => kBc w
  | 0x22 => need (zeros w [(24, 27)]) (.call (kD w) (kOff w))
  | 0x23 => krA w .ret
  | 0x24 => need (zeros w [(0, 45)]) (.jr (kD w) (kA w))
  | 0x25 => need (zeros w [(24, 21), (51, 6)]) (.loop (kA w) (kOff w))
  | 0x30 => need (zeros w [(34, 1), (39, 6)] && kOrdOk w && !(decide (fld w 37 2 = 3) && flag w 36))
      (.ldk (BitVec.ofNat 2 (fld w 37 2)) (flag w 36) (kOrd w) (kD w) (kA w) (kImm w))
  | 0x31 => need (zeros w [(34, 1), (36, 1), (51, 6)] && kOrdOk w)
      (.stk (BitVec.ofNat 2 (fld w 37 2)) (kOrd w) (kB w) (kA w) (kImm w))
  | 0x32 => krScope w .acq
  | 0x33 => krScope w .rel
  | 0x34 => krScope w .fence
  | 0x40 => need (zeros w [(3, 29), (39, 6), (51, 6)] && nestMaskOk (kMask w) && decide (fld w 0 3 < 6))
      (.nestl (kMask w) (BitVec.ofNat 3 (fld w 32 3)) (BitVec.ofNat 3 (fld w 0 3)) (kA w))
  | 0x41 => need (zeros w [(0, 32), (51, 6)] && nestMaskOk (kMask w))
      (.nestb (kMask w) (BitVec.ofNat 3 (fld w 32 3)) (kA w) (kB w))
  | 0x42 => need (zeros w [(4, 41), (51, 6)]) (.ringc (BitVec.ofNat 4 (fld w 0 4)) (kA w))
  | 0x43 => krA w .fmt
  | 0x44 => need (zeros w [(34, 11), (51, 6)]) (.cpw (BitVec.ofNat 2 (fld w 32 2)) (kA w) (kImm w))
  | 0x45 => need (zeros w [(0, 32), (35, 22)]) (.cpgo (BitVec.ofNat 2 (fld w 32 2)) (flag w 34))
  | 0x46 => need (zeros w [(0, 32), (34, 11), (51, 6)]) (.cpch (BitVec.ofNat 2 (fld w 32 2)) (kA w))
  | 0x47 => need (zeros w [(34, 23)]) (.waitq (BitVec.ofNat 2 (fld w 32 2)) (kImm w))
  | 0x48 => need (zeros w [(36, 9), (51, 6)]) (.waite (BitVec.ofNat 4 (fld w 32 4)) (kA w) (kImm w))
  | 0x49 => need (zeros w [(36, 21)]) (.sige (BitVec.ofNat 4 (fld w 32 4)) (kImm w))
  | 0x4A => need (zeros w [(16, 19), (39, 18)]) (.mark (BitVec.ofNat 16 (fld w 0 16)) (kMask w))
  | 0x4B => need (zeros w [(16, 41)]) (.rdvw (BitVec.ofNat 16 (fld w 0 16)))
  | 0x4C => need (zeros w [(16, 19), (35, 1), (39, 6), (51, 6)])
      (.loopb (kMask w) (kA w) (BitVec.ofNat 8 (fld w 0 8)) (BitVec.ofNat 8 (fld w 8 8)))
  | 0x4D => need (zeros w [(8, 27), (39, 6), (51, 6)]) (.ewr (kMask w) (BitVec.ofNat 8 (fld w 0 8)) (kA w))
  | 0x4E => need (zeros w [(8, 27), (39, 12)]) (.erd (kD w) (kMask w) (BitVec.ofNat 8 (fld w 0 8)))
  | 0x4F => need (zeros w [(4, 47)]) (.rdring (kD w) (BitVec.ofNat 4 (fld w 0 4)))
  | 0x60 => krD w .tnext
  | 0x61 => need (zeros w [(0, 32), (33, 24)]) (if flag w 32 then .tdoneEnd else .tdone)
  | 0x62 => kiCrew w .join
  | 0x63 => kiCrew w .leave
  | 0x64 => kiCrew w .cbar
  | 0x65 => kiCrew w .cbard
  | 0x66 => kNone w .sstep
  | 0x67 => need (zeros w [(4, 47)]) (.lees (kD w) (BitVec.ofNat 4 (fld w 0 4)))
  | 0x68 => need (zeros w [(32, 13), (51, 6)]) (.watch (kA w) (kImm w))
  | 0x69 => kNone w .waitl
  | 0x6A => krA w .est
  | 0x6B => kiDaI w .vtab
  | 0x6C => need (zeros w [(12, 39)]) (.rds (kD w) (BitVec.ofNat 12 (fld w 0 12)))
  | 0x6D => need (zeros w [(12, 27), (45, 12)]) (.wrs (BitVec.ofNat 12 (fld w 0 12)) (kB w))
  | 0x6E => need (zeros w [(32, 25)]) (.trap (kImm w))
  | 0x6F => krA w .ovl
  | 0x70 => kNone w .ovswap
  | 0x78 => krA w .eret
  | 0x79 => need (zeros w [(6, 45)]) (.ffrd (kD w) (BitVec.ofNat 6 (fld w 0 6)))
  | 0x7A => kJctl w
  | 0x7B => krA w .casksw
  | 0x7C => kTinv w
  | _ => .error .illegalOp

/-! ### Engine words -/

/-- The token bits of an engine word (R150). -/
def eTk (w : Nat) : Tk := { pp := flag w 87, pn := flag w 86, hp := flag w 85, hn := flag w 84 }

def xAt (w lo : Nat) : XReg := BitVec.ofNat 4 (fld w lo 4)
def vAt (w lo : Nat) : VReg := BitVec.ofNat 5 (fld w lo 5)
def mAt (w lo : Nat) : MReg := BitVec.ofNat 3 (fld w lo 3)
def qAt (w : Nat) : QReg := BitVec.ofNat 2 (fld w 75 2)

/-- XD, XA, XB, XC of L, S and common words (R201, R203). -/
def eXD (w : Nat) : XReg := xAt w 76
def eXA (w : Nat) : XReg := xAt w 72
def eXB (w : Nat) : XReg := xAt w 68
def eXC (w : Nat) : XReg := xAt w 64

/-- AOFF, DOFF, NEST of L and S words (R201). -/
def eAoff (w : Nat) : BitVec 32 := BitVec.ofNat 32 (fld w 19 32)
def eDoff (w : Nat) : BitVec 21 := BitVec.ofNat 21 (fld w 51 21)
def eNest (w : Nat) : NestNo := mAt w 77

/-- BRX: COND in FLG (R203, R207). -/
def eBrx (e : Eng) (w : Nat) : Dec :=
  match Cond.ofCode (fld w 80 4) with
  | some c => need (zeros w [(24, 44), (76, 4)])
      (.brx e (eTk w) c (eXA w) (eXB w) (BitVec.ofNat 24 (fld w 0 24)))
  | none => .error .illegalOperand

/-- LPS: REG in FLG[0]; CNT is 0 with REG, XA without (R203, R206). -/
def eLps (e : Eng) (w : Nat) : Dec :=
  need (zeros w [(24, 48), (76, 2), (81, 3)] &&
      (if flag w 80 then decide (fld w 0 24 = 0) else decide (fld w 72 4 = 0)))
    (.lps e (eTk w) (BitVec.ofNat 2 (fld w 78 2))
      (if flag w 80 then .reg (eXA w) else .imm (BitVec.ofNat 24 (fld w 0 24))))

/-- The common set, opcodes 0x00 to 0x0F (R203). -/
def decodeCommon (e : Eng) (w : Nat) : Dec :=
  match fld w 88 8 with
  | 0x00 => need (zeros w [(0, 84)]) (.nop e (eTk w))
  | 0x01 => need (zeros w [(6, 78)]) (.tok e (eTk w) (BitVec.ofNat 6 (fld w 0 6)))
  | 0x02 => need (zeros w [(16, 68)]) (.align e (eTk w) (BitVec.ofNat 16 (fld w 0 16)))
  | 0x03 => need (zeros w [(64, 12), (80, 4)]) (.xset e (eTk w) (eXD w) (BitVec.ofNat 64 (fld w 0 64)))
  | 0x04 => need (zeros w [(0, 68), (80, 4)]) (.xadd e (eTk w) (eXD w) (eXA w) (eXB w))
  | 0x05 => need (zeros w [(40, 32), (80, 4)])
      (.xaddi e (eTk w) (eXD w) (eXA w) (BitVec.ofNat 40 (fld w 0 40)))
  | 0x06 => need (zeros w [(0, 68), (80, 4)]) (.xmul e (eTk w) (eXD w) (eXA w) (eXB w))
  | 0x07 => eLps e w
  | 0x08 => need (zeros w [(0, 78), (80, 4)]) (.lpe e (eTk w) (BitVec.ofNat 2 (fld w 78 2)))
  | 0x09 => eBrx e w
  | 0x0A => need (zeros w [(0, 84)]) (.halte e (eTk w))
  | _ => .error .illegalOp

/-- L words, opcodes 0x10 to 0x3F (R210–R217). -/
def decodeL (w : Nat) : Dec :=
  let t := eTk w
  match fld w 88 8 with
  | 0x10 => need (zeros w [(0, 77), (80, 2), (83, 1)]) (.ldt t (flag w 82) (eNest w))
  | 0x11 => need (zeros w [(13, 6), (80, 4)])
      (.ldn t (eXD w) (eXA w) (eDoff w) (eAoff w) (BitVec.ofNat 13 (fld w 0 13)))
  | 0x12 => need (zeros w [(7, 57), (80, 4)])
      (.ldg t (xAt w 76) (eXA w) (eXB w) (eXC w) (BitVec.ofNat 7 (fld w 0 7)))
  | 0x13 => need (zeros w [(2, 17), (51, 21), (82, 2)])
      (.ldv t (flag w 81) (flag w 80) (BitVec.ofNat 2 (fld w 0 2)) (eXD w) (eXA w) (eAoff w))
  | 0x14 => need (zeros w [(6, 13), (51, 17), (80, 4)])
      (.mcf t (eXD w) (eXA w) (eXB w) (eAoff w) (BitVec.ofNat 6 (fld w 0 6)))
  | 0x15 => need (zeros w [(0, 66), (83, 1)])
      (.tld t (flag w 82) (flag w 81) (flag w 80) (eNest w) (xAt w 73) (xAt w 69) (mAt w 66))
  | 0x16 => need (zeros w [(21, 37), (80, 2), (83, 1)])
      (.trf t (flag w 82) (eNest w) (xAt w 73) (xAt w 69) (mAt w 66) (xAt w 62) (xAt w 58)
        (BitVec.ofNat 21 (fld w 0 21)))
  | 0x17 => need (zeros w [(7, 12), (51, 21), (80, 1), (82, 2)])
      (.ldsb t (flag w 81) (xAt w 76) (eXA w) (eAoff w) (BitVec.ofNat 7 (fld w 0 7)))
  | _ => .error .illegalOp

/-- S words, opcodes 0xC0 to 0xDF (R211, R213, R218–R222). -/
def decodeS (w : Nat) : Dec :=
  let t := eTk w
  match fld w 88 8 with
  | 0xC0 => need (zeros w [(0, 77), (80, 2), (83, 1)]) (.stt t (flag w 82) (eNest w))
  | 0xC1 => need (zeros w [(13, 6), (80, 4)])
      (.stn t (eXD w) (eXA w) (eDoff w) (eAoff w) (BitVec.ofNat 13 (fld w 0 13)))
  | 0xC2 => need (zeros w [(0, 64), (76, 1), (82, 2)] && (flag w 80 || decide (fld w 68 4 = 0)))
      (.drn t (flag w 81) (flag w 80) (mAt w 77) (eXA w) (eXB w) (eXC w))
  | 0xC3 => need (zeros w [(7, 1), (20, 44), (80, 4)])
      (.sct t (eXD w) (eXA w) (eXB w) (eXC w) (BitVec.ofNat 12 (fld w 8 12)) (BitVec.ofNat 7 (fld w 0 7)))
  | 0xC4 => need (zeros w [(2, 17), (51, 17), (76, 4), (80, 1), (82, 2)])
      (.stv t (flag w 81) (BitVec.ofNat 2 (fld w 0 2)) (eXB w) (eXA w) (eAoff w))
  | 0xC5 => need (zeros w [(0, 69), (80, 2), (83, 1)]) (.tstb t (flag w 82) (eNest w) (xAt w 73) (xAt w 69))
  | 0xC6 => need (zeros w [(0, 65), (80, 2), (83, 1)])
      (.tstl t (flag w 82) (eNest w) (xAt w 73) (xAt w 69) (xAt w 65))
  | 0xC7 => need (zeros w [(0, 50), (76, 4), (81, 3)])
      (.tstn t (flag w 80) (eXA w) (eXB w) (eXC w) (xAt w 60) (xAt w 56) (xAt w 52) (BitVec.ofNat 2 (fld w 50 2)))
  | _ => .error .illegalOp

/-- XA, XB, XC and IMM of M words (R225). -/
def mXA (w : Nat) : XReg := xAt w 49
def mXB (w : Nat) : XReg := xAt w 45
def mXC (w : Nat) : XReg := xAt w 41
def mImm (w : Nat) : BitVec 16 := BitVec.ofNat 16 (fld w 29 16)

/-- MSK and MK: the mask of .mk; MK is 0 without it (R233). -/
def mMk (w : Nat) : Option MReg := if flag w 83 then some (mAt w 57) else none
def mMkOk (w : Nat) : Bool := flag w 83 || decide (fld w 57 3 = 0)

/-- BX, VB and XB: operand b; the field that is not used is 0 (R233). -/
def mVb (w : Nat) : VSrc := if flag w 82 then .x (mXB w) else .v (vAt w 65)
def mVbOk (w : Nat) : Bool := if flag w 82 then decide (fld w 65 5 = 0) else decide (fld w 45 4 = 0)

/-- The lanes' type of a vector word; TY outside fp32, i32 and n32 is refused (R233). -/
def withTy (w : Nat) (f : VTy → Dec) : Dec :=
  match VTy.ofCode (fld w 53 4) with
  | some ty => f ty
  | none => .error .illegalOperand

/-- vd, va, vb under a type and a mask (R234). -/
def mArith (w : Nat) (f : VTy → Option MReg → VReg → VReg → VSrc → Instr) : Dec :=
  withTy w fun ty =>
    need (zeros w [(0, 45), (49, 4), (60, 5), (80, 2)] && mMkOk w && mVbOk w)
      (f ty (mMk w) (vAt w 75) (vAt w 70) (mVb w))

/-- vd, va under a type and a mask (R234, R237). -/
def mUnTy (w : Nat) (f : VTy → Option MReg → VReg → VReg → Instr) : Dec :=
  withTy w fun ty =>
    need (zeros w [(0, 53), (60, 10), (80, 3)] && mMkOk w) (f ty (mMk w) (vAt w 75) (vAt w 70))

/-- vd, va with TY = 0 under a mask (R234). -/
def mUn (w : Nat) (f : Option MReg → VReg → VReg → Instr) : Dec :=
  need (zeros w [(0, 57), (60, 10), (80, 3)] && mMkOk w) (f (mMk w) (vAt w 75) (vAt w 70))

/-- vd, va, vb with TY = 0 under a mask (R234, R238). -/
def mBin (w : Nat) (f : Option MReg → VReg → VReg → VSrc → Instr) : Dec :=
  need (zeros w [(0, 45), (49, 8), (60, 5), (80, 2)] && mMkOk w && mVbOk w) (f (mMk w) (vAt w 75) (vAt w 70) (mVb w))

/-- Whether a shift's type is one it admits (R234). -/
def mShift (w : Nat) (f : VTy → Option MReg → VReg → VReg → VSrc → Instr) : Dec :=
  withTy w fun ty => if shiftOk ty then mArith w f else .error .illegalOperand

/-- VCVT: the source format in TY, the destination format and RM in IMM (R235). -/
def mVcvt (w : Nat) : Dec :=
  match Fmt.ofCode (fld w 53 4), Fmt.ofCode (fld w 29 4), Rm.ofCode (fld w 33 3) with
  | some sf, some df, some rm =>
    need (zeros w [(0, 29), (36, 17), (60, 10), (80, 3)] && mMkOk w)
      (.vcvt (eTk w) (mMk w) sf df rm (vAt w 75) (vAt w 70))
  | _, _, _ => .error .illegalOperand

/-- VCMP: COND in IMM[2:0], the mask destination in MD (R236). -/
def mVcmp (w : Nat) : Dec :=
  withTy w fun ty =>
    match VCond.ofCode (fld w 29 3) with
    | some c =>
      need (zeros w [(0, 29), (32, 13), (49, 4), (60, 5), (78, 2), (80, 2)] && mMkOk w && mVbOk w && vcmpOk c ty)
        (.vcmp (eTk w) c ty (mMk w) (mAt w 75) (vAt w 70) (mVb w))
    | none => .error .illegalOperand

/-- VBCST: a lane of va, or with BX an x register (R238). -/
def mVbcst (w : Nat) : Dec :=
  if flag w 82 then
    need (zeros w [(0, 45), (49, 8), (60, 15), (80, 2)] && mMkOk w) (.vbcst (eTk w) (mMk w) (vAt w 75) (.x (mXB w)))
  else
    need (zeros w [(0, 29), (36, 21), (60, 10), (80, 2)] && mMkOk w)
      (.vbcst (eTk w) (mMk w) (vAt w 75) (.lane (vAt w 70) (BitVec.ofNat 7 (fld w 29 7))))

/-- VLD and VLD.m (R242). -/
def mVld (w : Nat) : Dec :=
  if flag w 80 then
    need (zeros w [(0, 29), (45, 4), (53, 22), (78, 2), (81, 3)]) (.vldM (eTk w) (mAt w 75) (mXA w) (mImm w))
  else
    need (zeros w [(0, 29), (45, 4), (53, 4), (60, 15), (80, 3)] && mMkOk w)
      (.vld (eTk w) (mMk w) (vAt w 75) (mXA w) (mImm w))

/-- VST and VST.m (R242). -/
def mVst (w : Nat) : Dec :=
  if flag w 80 then
    need (zeros w [(0, 29), (45, 4), (53, 17), (73, 7), (81, 3)]) (.vstM (eTk w) (mAt w 70) (mXA w) (mImm w))
  else
    need (zeros w [(0, 29), (45, 4), (53, 4), (60, 10), (75, 5), (80, 3)] && mMkOk w)
      (.vst (eTk w) (mMk w) (vAt w 70) (mXA w) (mImm w))

/-- VIOTA: b is an x register with BX (R238). -/
def mViota (w : Nat) : Dec :=
  need (zeros w [(0, 45), (49, 8), (60, 15), (80, 2)] && mMkOk w && (flag w 82 || decide (fld w 45 4 = 0)))
    (.viota (eTk w) (mMk w) (vAt w 75) (if flag w 82 then some (mXB w) else none))

/-- VSBAND: sel in IMM[2:0] (R244). -/
def mVsband (w : Nat) : Dec :=
  match SbSel.ofCode (fld w 29 3) with
  | some s => need (zeros w [(0, 29), (32, 43), (80, 4)] && vsbandOk s (vAt w 75)) (.vsband (eTk w) s (vAt w 75))
  | none => .error .illegalOperand

/-- CROWV: the mode in IMM[2:0] (R232). -/
def mCrowv (w : Nat) : Dec :=
  match CrowMode.ofCode (fld w 29 3) with
  | some m => need (zeros w [(0, 29), (32, 17), (53, 17), (75, 2), (80, 4)] && crowvOk m (mXA w))
      (.crowv (eTk w) m (vAt w 70) (mAt w 77) (mXA w))
  | none => .error .illegalOperand

/-- Words that name an accumulator and, some of them, one x register (R252). -/
def mQ (w : Nat) (f : QReg → Instr) : Dec := need (zeros w [(0, 75), (77, 7)]) (f (qAt w))
def mQX (w : Nat) (f : QReg → XReg → Instr) : Dec := need (zeros w [(0, 49), (53, 22), (77, 7)]) (f (qAt w) (mXA w))

/-- QAPL, QAPR, QFORM (R252). -/
def mQC (w : Nat) (f : Bool → CTile → QReg → Instr) : Dec :=
  need (zeros w [(0, 75), (81, 3)]) (f (flag w 80) (mAt w 77) (qAt w))

/-- M words, opcodes 0x40 to 0xBF (R226–R261). -/
def decodeM (w : Nat) : Dec :=
  let t := eTk w
  match fld w 88 8 with
  | 0x40 => need (zeros w [(0, 69), (82, 2)]) (.mma t (flag w 80) (flag w 81) (mAt w 77) (xAt w 73) (xAt w 69))
  | 0x41 => need (zeros w [(0, 77), (80, 4)]) (.czero t (mAt w 77))
  | 0x42 => need (zeros w [(0, 29), (53, 27), (81, 3)])
      (if flag w 80 then .cldOut t (mXA w) (mXB w) (mImm w) else .cld t (mXA w) (mXB w) (mImm w))
  | 0x43 => need (zeros w [(0, 70), (75, 2), (81, 3)]) (.cscl t (flag w 80) (mAt w 77) (vAt w 70))
  | 0x44 => need (zeros w [(0, 74), (80, 4)]) (.ctr t (mAt w 77) (mAt w 74))
  | 0x45 => mCrowv w
  | 0x46 => need (zeros w [(0, 49), (53, 17), (75, 2), (81, 3)])
      (.cvrow t (flag w 80) (mAt w 77) (vAt w 70) (mXA w))
  | 0x50 => mArith w (.vadd t)
  | 0x51 => mArith w (.vsub t)
  | 0x52 => mArith w (.vmul t)
  | 0x53 => withTy w fun ty =>
      need (zeros w [(0, 45), (49, 4), (80, 2)] && mMkOk w && mVbOk w)
        (.vfma t ty (mMk w) (vAt w 75) (vAt w 70) (mVb w) (vAt w 60))
  | 0x54 => mArith w (.vmax t)
  | 0x55 => mArith w (.vmin t)
  | 0x56 => mUnTy w (.vabs t)
  | 0x57 => mUnTy w (.vneg t)
  | 0x58 => mUn w (.vrcp t)
  | 0x59 => mUn w (.vrsq t)
  | 0x5A => mUn w (.vsqrt t)
  | 0x5B => mUn w (.vexp2 t)
  | 0x5C => mUn w (.vlog2 t)
  | 0x5D => mVcvt w
  | 0x5E => mVcmp w
  | 0x5F => need (zeros w [(0, 45), (49, 8), (60, 5), (80, 2), (83, 1)] && mVbOk w)
      (.vsel t (vAt w 75) (vAt w 70) (mVb w) (mAt w 57))
  | 0x60 => mBin w (.vand t)
  | 0x61 => mBin w (.vor t)
  | 0x62 => mBin w (.vxor t)
  | 0x63 => mShift w (.vshl t)
  | 0x64 => mShift w (.vshr t)
  | 0x65 => mUnTy w (.vreds t)
  | 0x66 => mUnTy w (.vredm t)
  | 0x67 => mVbcst w
  | 0x68 => mBin w (.vperm t)
  | 0x69 => need (zeros w [(0, 57), (60, 10), (80, 4)]) (.vcmpr t (vAt w 75) (vAt w 70) (mAt w 57))
  | 0x6A => need (zeros w [(0, 57), (60, 10), (80, 4)]) (.vexpd t (vAt w 75) (vAt w 70) (mAt w 57))
  | 0x6B => need (zeros w [(0, 45), (53, 4), (60, 5), (75, 5), (81, 3)] && cqappOk (flag w 80) (vAt w 65))
      (.cqapp t (flag w 80) (mXA w) (mXB w) (vAt w 70) (vAt w 65) (mAt w 57))
  | 0x6C => need (zeros w [(0, 45), (53, 4), (60, 15), (81, 3)])
      (.cqtake t (flag w 80) (vAt w 75) (mXA w) (mXB w) (mAt w 57))
  | 0x6D => mVld w
  | 0x6E => mVst w
  | 0x6F => need (zeros w [(0, 49), (53, 22), (80, 4)]) (.vpop t (vAt w 75) (xAt w 49))
  | 0x70 => need (zeros w [(0, 65), (68, 2), (73, 2), (78, 2), (80, 4)]) (.mand t (mAt w 75) (mAt w 70) (mAt w 65))
  | 0x71 => need (zeros w [(0, 65), (68, 2), (73, 2), (78, 2), (80, 4)]) (.mor t (mAt w 75) (mAt w 70) (mAt w 65))
  | 0x72 => need (zeros w [(0, 70), (73, 2), (78, 2), (80, 4)]) (.mnot t (mAt w 75) (mAt w 70))
  | 0x73 => mViota w
  | 0x74 => need (zeros w [(0, 49), (53, 4), (60, 20), (80, 4)]) (.vcnt t (mXA w) (mAt w 57))
  | 0x75 => mVsband w
  | 0x76 => need (zeros w [(0, 57), (60, 5), (80, 3)] && mMkOk w)
      (.vblend t (mMk w) (vAt w 75) (vAt w 70) (vAt w 65))
  | 0xA0 => need (zeros w [(0, 41), (53, 17), (75, 2), (80, 4)])
      (.tmask t (mAt w 77) (vAt w 70) (mXA w) (mXB w) (mXC w))
  | 0xB0 => mQX w (.qcfg t)
  | 0xB1 => mQ w (.qclr t)
  | 0xB2 => need (zeros w [(0, 45), (53, 17), (77, 7)]) (.qacc t (qAt w) (vAt w 70) (mXA w) (mXB w))
  | 0xB3 => mQC w (.qapl t)
  | 0xB4 => mQC w (.qapr t)
  | 0xB5 => mQ w (.qtrn t)
  | 0xB6 => mQC w (.qform t)
  | 0xB7 => need (zeros w [(0, 49), (53, 22), (77, 7)]) (.qcnt t (mXA w) (qAt w))
  | 0xB8 => mQ w (.qseal t)
  | 0xB9 => mQX w (.qsv t)
  | 0xBA => mQX w (.qrs t)
  | _ => .error .illegalOp

/-- An engine word in the stream of `e`: the common range and the engine's own (R152). -/
def decodeEng (e : Eng) (w : Nat) : Dec :=
  if fld w 92 4 = 0 then decodeCommon e w
  else match e with
    | .l => decodeL w
    | .m => decodeM w
    | .s => decodeS w

/-! ### Section headers -/

/-- A section header's fields (R154). -/
structure Hdr where
  sync : Bool
  nfa : Bool
  rq2 : BitVec 16
  rq1 : BitVec 16
  snum : BitVec 16
  n : Nat
  deriving DecidableEq, Repr

/-- A header whose reserved bits are zero and whose N is not 0 (R154, R155). -/
def decodeHdr (w : Nat) : Option Hdr :=
  if fld w 62 2 = 0 ∧ fld w 0 12 ≠ 0 then
    some { sync := flag w 61, nfa := flag w 60, rq2 := BitVec.ofNat 16 (fld w 44 16),
           rq1 := BitVec.ofNat 16 (fld w 28 16), snum := BitVec.ofNat 16 (fld w 12 16), n := fld w 0 12 }
  else none

/-! ### Copy commands -/

/-- Dword `k` of the 1,024 bits of a command. -/
def dw (w k : Nat) : Nat := fld w (64 * k) 64

/-- A wait clause (R159). -/
def clauseAt (w k : Nat) : Clause :=
  { en := flag (dw w k) 63, ev := BitVec.ofNat 4 (fld (dw w k) 32 4), thr := BitVec.ofNat 32 (fld (dw w k) 0 32) }

/-- The fields of a command (R157–R163); a reserved code reads as some constructor here and is refused below. -/
def cmdAt (w : Nat) : Cmd :=
  { queue := BitVec.ofNat 2 (fld (dw w 0) 8 2), crec := flag (dw w 0) 19, rsig := flag (dw w 0) 18,
    rtn := flag (dw w 0) 17, link := flag (dw w 0) 16, w0 := clauseAt w 1, w1 := clauseAt w 2,
    rdev := BitVec.ofNat 6 (fld (dw w 3) 57 6), rloc := flag (dw w 3) 56, rev := BitVec.ofNat 4 (fld (dw w 3) 52 4),
    rcore := BitVec.ofNat 9 (fld (dw w 3) 43 9), sigm := BitVec.ofNat 16 (fld (dw w 3) 0 16),
    src := BitVec.ofNat 64 (dw w 4), dst := BitVec.ofNat 64 (dw w 5),
    x0 := BitVec.ofNat 32 (fld (dw w 6) 0 32), x1 := BitVec.ofNat 32 (fld (dw w 6) 32 32),
    x2 := BitVec.ofNat 32 (fld (dw w 7) 0 32),
    ss1 := BitVec.ofNat 32 (fld (dw w 8) 0 32), ss2 := BitVec.ofNat 32 (fld (dw w 8) 32 32),
    ds1 := BitVec.ofNat 32 (fld (dw w 9) 0 32), ds2 := BitVec.ofNat 32 (fld (dw w 9) 32 32),
    sfmt := (Fmt.ofCode (fld (dw w 10) 0 4)).getD .i8, dfmt := (Fmt.ofCode (fld (dw w 10) 4 4)).getD .i8,
    opr := (Opr.ofCode (fld (dw w 10) 8 4)).getD .move, rm := (Rm.ofCode (fld (dw w 10) 12 3)).getD .rne,
    arg := BitVec.ofNat 48 (fld (dw w 10) 16 48),
    ret := BitVec.ofNat 64 (dw w 11), next := BitVec.ofNat 64 (dw w 12), bind := BitVec.ofNat 64 (dw w 13),
    crecAt := BitVec.ofNat 64 (dw w 14) }

/-- The reserved fields of a command are zero and its codes other than the formats are assigned (R157–R163). -/
def cmdReservedOk (w : Nat) : Bool :=
  zeros (dw w 0) [(10, 6), (20, 44)] && zeros (dw w 1) [(36, 27)] && zeros (dw w 2) [(36, 27)] &&
  zeros (dw w 3) [(16, 27), (63, 1)] && zeros (dw w 7) [(32, 32)] && zeros (dw w 10) [(15, 1)] &&
  decide (fld (dw w 10) 8 4 ≤ 9) && decide (fld (dw w 10) 12 3 ≤ 3) && decide (dw w 15 = 0)

/-- Every format. -/
def Fmt.all : List Fmt := [.fp32, .bf16, .fp16, .bx8, .i4, .n4, .i8, .n8, .i16, .n16, .i32, .n32]

/-- The checks of the fields but the formats pass: a reserved format code stands for any format with which they do (R163,
R165). -/
def Cmd.admitted (c : Cmd) (w : Nat) (ok : Cmd → Bool) : Bool :=
  let fs (k : Nat) (f : Fmt) : List Fmt := if 12 ≤ fld (dw w 10) k 4 then Fmt.all else [f]
  (fs 0 c.sfmt).any fun f => (fs 4 c.dfmt).any fun g => ok { c with sfmt := f, dfmt := g }

/-- The checks of a command (R165): every field but the format codes first, COPY_MALFORMED; then the format codes,
ILLEGAL_OPERAND. `any`: SFMT and DFMT may differ (R267). -/
def cmdNeed (w : Nat) (any ok : Bool) (i : Instr) : Dec :=
  if !(cmdReservedOk w && ok && (any || decide (fld (dw w 10) 0 4 = fld (dw w 10) 4 4))) then .error .copyMalformed
  else if 12 ≤ fld (dw w 10) 0 4 || 12 ≤ fld (dw w 10) 4 4 then .error .illegalOperand
  else .ok i

/-- A copy command from its 1,024 bits, dword 0 lowest (R157, R164, R165). -/
def decodeCmd (w : Nat) : Dec :=
  let c := cmdAt w
  match fld w 0 8 with
  | 0x01 => cmdNeed w true (c.admitted w Cmd.okCopy) (.copy c)
  | 0x02 => cmdNeed w false (c.admitted w Cmd.okFill) (.fill c)
  | 0x03 => cmdNeed w false (c.admitted w Cmd.okAccw) (.accw c)
  | 0x04 => cmdNeed w false (c.admitted w Cmd.okRatom) (.ratom c)
  | 0x05 => cmdNeed w false (c.admitted w Cmd.okTnode) (.tnode c)
  | 0x06 => cmdNeed w false (c.admitted w Cmd.okKvcmt) (.kvcmt c)
  | 0x07 => cmdNeed w false (c.admitted w Cmd.okFmcast) (.fmcast c)
  | 0x08 => cmdNeed w false (c.admitted w Cmd.okFred) (.fred c)
  | 0x09 => cmdNeed w false c.okSigr (.sigr c)
  | 0x0A => if flag (dw w 13) 17 then cmdNeed w false (c.okPipe true) (.pipeUnbind c)
      else cmdNeed w false (c.okPipe false) (.pipeBind c)
  | _ => .error .illegalOp

/-! ### The encoder -/

/-- A bit as a number. -/
def bit (b : Bool) : Nat := if b then 1 else 0

/-- A K word: opcode, d, a, b and what stands below bit 39 (R145). -/
def kWord (op : Nat) (d a b : SReg) (low : Nat) : Nat :=
  op * 2 ^ 57 + d.toNat * 2 ^ 51 + a.toNat * 2 ^ 45 + b.toNat * 2 ^ 39 + low

/-- EMASK in place. -/
def maskBits (m : KMask) : Nat := bit m.l * 2 ^ 38 + bit m.m * 2 ^ 37 + bit m.s * 2 ^ 36 + bit m.y * 2 ^ 35

/-- ORD and SC in place (R147). -/
def ordBits : Option Scope → Nat
  | none => 0
  | some sc => 2 ^ 35 + sc.code * 2 ^ 32

/-- The word of a K instruction; 0 for any other row (R145–R200). -/
def encodeK : Instr → Nat
  | .add d a b => kWord 0x00 d a b 0
  | .addi d a i => kWord 0x01 d a 0 i.toNat
  | .sub d a b => kWord 0x02 d a b 0
  | .mul d a b => kWord 0x03 d a b 0
  | .mulh u d a b => kWord 0x04 d a b (bit u * 2 ^ 32)
  | .div u d a b => kWord 0x05 d a b (bit u * 2 ^ 32)
  | .rem u d a b => kWord 0x06 d a b (bit u * 2 ^ 32)
  | .and d a b => kWord 0x07 d a b 0
  | .andi d a i => kWord 0x08 d a 0 i.toNat
  | .or d a b => kWord 0x09 d a b 0
  | .ori d a i => kWord 0x0A d a 0 i.toNat
  | .xor d a b => kWord 0x0B d a b 0
  | .xori d a i => kWord 0x0C d a 0 i.toNat
  | .shl d a b => kWord 0x0D d a b 0
  | .shr d a b => kWord 0x0E d a b 0
  | .sar d a b => kWord 0x0F d a b 0
  | .min u d a b => kWord 0x10 d a b (bit u * 2 ^ 32)
  | .max u d a b => kWord 0x11 d a b (bit u * 2 ^ 32)
  | .clz d a => kWord 0x12 d a 0 0
  | .popc d a => kWord 0x13 d a 0 0
  | .slt u d a b => kWord 0x14 d a b (bit u * 2 ^ 32)
  | .sel d a b c => kWord 0x15 d a b (c.toNat * 2 ^ 32)
  | .ldih d i => kWord 0x16 d 0 0 i.toNat
  | .b o => kWord 0x20 0 0 0 o.toNat
  | .bc c a b o => kWord 0x21 0 a b (c.code * 2 ^ 35 + o.toNat)
  | .call d o => kWord 0x22 d 0 0 o.toNat
  | .ret a => kWord 0x23 0 a 0 0
  | .jr d a => kWord 0x24 d a 0 0
  | .loop a o => kWord 0x25 0 a 0 o.toNat
  | .ldk sz sg o d a i => kWord 0x30 d a 0 (sz.toNat * 2 ^ 37 + bit sg * 2 ^ 36 + ordBits o + i.toNat)
  | .stk sz o b a i => kWord 0x31 0 a b (sz.toNat * 2 ^ 37 + ordBits o + i.toNat)
  | .acq sc => kWord 0x32 0 0 0 (sc.code * 2 ^ 32)
  | .rel sc => kWord 0x33 0 0 0 (sc.code * 2 ^ 32)
  | .fence sc => kWord 0x34 0 0 0 (sc.code * 2 ^ 32)
  | .nestl m n lev a => kWord 0x40 0 a 0 (maskBits m + n.toNat * 2 ^ 32 + lev.toNat)
  | .nestb m n a b => kWord 0x41 0 a b (maskBits m + n.toNat * 2 ^ 32)
  | .ringc r a => kWord 0x42 0 a 0 r.toNat
  | .fmt a => kWord 0x43 0 a 0 0
  | .cpw k a i => kWord 0x44 0 a 0 (k.toNat * 2 ^ 32 + i.toNat)
  | .cpgo q r => kWord 0x45 0 0 0 (bit r * 2 ^ 34 + q.toNat * 2 ^ 32)
  | .cpch q a => kWord 0x46 0 a 0 (q.toNat * 2 ^ 32)
  | .waitq q n => kWord 0x47 0 0 0 (q.toNat * 2 ^ 32 + n.toNat)
  | .waite e a i => kWord 0x48 0 a 0 (e.toNat * 2 ^ 32 + i.toNat)
  | .sige e i => kWord 0x49 0 0 0 (e.toNat * 2 ^ 32 + i.toNat)
  | .mark n m => kWord 0x4A 0 0 0 (maskBits m + n.toNat)
  | .rdvw n => kWord 0x4B 0 0 0 n.toNat
  | .loopb m a x s => kWord 0x4C 0 a 0 (maskBits m + s.toNat * 2 ^ 8 + x.toNat)
  | .ewr m sel a => kWord 0x4D 0 a 0 (maskBits m + sel.toNat)
  | .erd d m sel => kWord 0x4E d 0 0 (maskBits m + sel.toNat)
  | .rdring d r => kWord 0x4F d 0 0 r.toNat
  | .tnext d => kWord 0x60 d 0 0 0
  | .tdone => kWord 0x61 0 0 0 0
  | .tdoneEnd => kWord 0x61 0 0 0 (2 ^ 32)
  | .join c => kWord 0x62 0 0 0 c.toNat
  | .leave c => kWord 0x63 0 0 0 c.toNat
  | .cbar c => kWord 0x64 0 0 0 c.toNat
  | .cbard c => kWord 0x65 0 0 0 c.toNat
  | .sstep => kWord 0x66 0 0 0 0
  | .lees d i => kWord 0x67 d 0 0 i.toNat
  | .watch a i => kWord 0x68 0 a 0 i.toNat
  | .waitl => kWord 0x69 0 0 0 0
  | .est a => kWord 0x6A 0 a 0 0
  | .vtab d a i => kWord 0x6B d a 0 i.toNat
  | .rds d sp => kWord 0x6C d 0 0 sp.toNat
  | .wrs sp b => kWord 0x6D 0 0 b sp.toNat
  | .trap i => kWord 0x6E 0 0 0 i.toNat
  | .ovl a => kWord 0x6F 0 a 0 0
  | .ovswap => kWord 0x70 0 0 0 0
  | .eret a => kWord 0x78 0 a 0 0
  | .ffrd d i => kWord 0x79 d 0 0 i.toNat
  | .jctlHead d => kWord 0x7A d 0 0 0
  | .jctlTail d => kWord 0x7A d 0 0 (1 * 2 ^ 32)
  | .jctlFree a => kWord 0x7A 0 a 0 (2 * 2 ^ 32)
  | .jctlReissue m a => kWord 0x7A 0 a 0 (maskBits m + 3 * 2 ^ 32)
  | .casksw a => kWord 0x7B 0 a 0 0
  | .tinvPage a b => kWord 0x7C 0 a b 0
  | .tinvAsid a b => kWord 0x7C 0 a b (1 * 2 ^ 32)
  | .tinvAll a b => kWord 0x7C 0 a b (2 * 2 ^ 32)
  | _ => 0

/-- An engine word: opcode, token bits, FLG and OPS (R150). -/
def eWord (op : Nat) (t : Tk) (flg ops : Nat) : Nat :=
  op * 2 ^ 88 + bit t.pp * 2 ^ 87 + bit t.pn * 2 ^ 86 + bit t.hp * 2 ^ 85 + bit t.hn * 2 ^ 84 + flg * 2 ^ 80 + ops

/-- VD, VA in place (R225). -/
def vdva (d a : VReg) : Nat := d.toNat * 2 ^ 75 + a.toNat * 2 ^ 70

/-- MSK and MK (R233). -/
def mkFlg (m : Option MReg) : Nat := bit m.isSome * 2 ^ 3
def mkOps : Option MReg → Nat
  | none => 0
  | some m => m.toNat * 2 ^ 57

/-- BX, VB and XB (R233). -/
def vbFlg : VSrc → Nat
  | .v _ => 0
  | .x _ => 2 ^ 2
def vbOps : VSrc → Nat
  | .v r => r.toNat * 2 ^ 65
  | .x r => r.toNat * 2 ^ 45

/-- A vector word over vd, va, vb under a type and a mask. -/
def vArith (op : Nat) (t : Tk) (ty : VTy) (mk : Option MReg) (d a : VReg) (b : VSrc) (more : Nat) : Nat :=
  eWord op t (mkFlg mk + vbFlg b) (vdva d a + vbOps b + mkOps mk + ty.code * 2 ^ 53 + more)

/-- A vector word over vd, va. -/
def vUn (op : Nat) (t : Tk) (ty : VTy) (mk : Option MReg) (d a : VReg) : Nat :=
  eWord op t (mkFlg mk) (vdva d a + mkOps mk + ty.code * 2 ^ 53)

/-- REG, and CNT or XA, of LPS (R203). -/
def lpsFlg : LpCount → Nat
  | .imm _ => 0
  | .reg _ => 1
def lpsOps : LpCount → Nat
  | .imm n => n.toNat
  | .reg a => a.toNat * 2 ^ 72

/-- BX and the source of VBCST (R238). -/
def bcFlg : BcSrc → Nat
  | .lane _ _ => 0
  | .x _ => 2 ^ 2
def bcOps : BcSrc → Nat
  | .lane a n => a.toNat * 2 ^ 70 + n.toNat * 2 ^ 29
  | .x b => b.toNat * 2 ^ 45

/-- XB of VIOTA (R238). -/
def iotaOps : Option XReg → Nat
  | none => 0
  | some b => b.toNat * 2 ^ 45

/-- The word of an instruction of the common set; 0 for any other row (R203). -/
def encodeCommon : Instr → Nat
  | .nop _ t => eWord 0x00 t 0 0
  | .tok _ t n => eWord 0x01 t 0 n.toNat
  | .align _ t n => eWord 0x02 t 0 n.toNat
  | .xset _ t d i => eWord 0x03 t 0 (d.toNat * 2 ^ 76 + i.toNat)
  | .xadd _ t d a b => eWord 0x04 t 0 (d.toNat * 2 ^ 76 + a.toNat * 2 ^ 72 + b.toNat * 2 ^ 68)
  | .xaddi _ t d a i => eWord 0x05 t 0 (d.toNat * 2 ^ 76 + a.toNat * 2 ^ 72 + i.toNat)
  | .xmul _ t d a b => eWord 0x06 t 0 (d.toNat * 2 ^ 76 + a.toNat * 2 ^ 72 + b.toNat * 2 ^ 68)
  | .lps _ t lp n => eWord 0x07 t (lpsFlg n) (lp.toNat * 2 ^ 78 + lpsOps n)
  | .lpe _ t lp => eWord 0x08 t 0 (lp.toNat * 2 ^ 78)
  | .brx _ t c a b o => eWord 0x09 t c.code (a.toNat * 2 ^ 72 + b.toNat * 2 ^ 68 + o.toNat)
  | .halte _ t => eWord 0x0A t 0 0
  | _ => 0

/-- The word of an L instruction; 0 for any other row (R210–R217). -/
def encodeL : Instr → Nat
  | .ldt t ru n => eWord 0x10 t (bit ru * 2 ^ 2) (n.toNat * 2 ^ 77)
  | .ldn t d a df af len => eWord 0x11 t 0
      (d.toNat * 2 ^ 76 + a.toNat * 2 ^ 72 + df.toNat * 2 ^ 51 + af.toNat * 2 ^ 19 + len.toNat)
  | .ldg t r a b c n => eWord 0x12 t 0
      (r.toNat * 2 ^ 76 + a.toNat * 2 ^ 72 + b.toNat * 2 ^ 68 + c.toNat * 2 ^ 64 + n.toNat)
  | .ldv t sp sg sz d a af => eWord 0x13 t (bit sp * 2 ^ 1 + bit sg)
      (d.toNat * 2 ^ 76 + a.toNat * 2 ^ 72 + af.toNat * 2 ^ 19 + sz.toNat)
  | .mcf t d a b af len => eWord 0x14 t 0
      (d.toNat * 2 ^ 76 + a.toNat * 2 ^ 72 + b.toNat * 2 ^ 68 + af.toNat * 2 ^ 19 + len.toNat)
  | .tld t ru f d n lev bl k => eWord 0x15 t (bit ru * 2 ^ 2 + bit f * 2 ^ 1 + bit d)
      (n.toNat * 2 ^ 77 + lev.toNat * 2 ^ 73 + bl.toNat * 2 ^ 69 + k.toNat * 2 ^ 66)
  | .trf t ru n lev bl k fl xm mo => eWord 0x16 t (bit ru * 2 ^ 2)
      (n.toNat * 2 ^ 77 + lev.toNat * 2 ^ 73 + bl.toNat * 2 ^ 69 + k.toNat * 2 ^ 66 + fl.toNat * 2 ^ 62 +
        xm.toNat * 2 ^ 58 + mo.toNat)
  | .ldsb t sp r a af n => eWord 0x17 t (bit sp * 2 ^ 1)
      (r.toNat * 2 ^ 76 + a.toNat * 2 ^ 72 + af.toNat * 2 ^ 19 + n.toNat)
  | _ => 0

/-- The word of an S instruction; 0 for any other row (R218–R222). -/
def encodeS : Instr → Nat
  | .stt t ru n => eWord 0xC0 t (bit ru * 2 ^ 2) (n.toNat * 2 ^ 77)
  | .stn t d a df af len => eWord 0xC1 t 0
      (d.toNat * 2 ^ 76 + a.toNat * 2 ^ 72 + df.toNat * 2 ^ 51 + af.toNat * 2 ^ 19 + len.toNat)
  | .drn t ns tr c a b p => eWord 0xC2 t (bit ns * 2 ^ 1 + bit tr)
      (c.toNat * 2 ^ 77 + a.toNat * 2 ^ 72 + b.toNat * 2 ^ 68 + p.toNat * 2 ^ 64)
  | .sct t d a b c rb n => eWord 0xC3 t 0
      (d.toNat * 2 ^ 76 + a.toNat * 2 ^ 72 + b.toNat * 2 ^ 68 + c.toNat * 2 ^ 64 + rb.toNat * 2 ^ 8 + n.toNat)
  | .stv t sp sz b a af => eWord 0xC4 t (bit sp * 2 ^ 1)
      (a.toNat * 2 ^ 72 + b.toNat * 2 ^ 68 + af.toNat * 2 ^ 19 + sz.toNat)
  | .tstb t ru n bl sf => eWord 0xC5 t (bit ru * 2 ^ 2) (n.toNat * 2 ^ 77 + bl.toNat * 2 ^ 73 + sf.toNat * 2 ^ 69)
  | .tstl t ru n bl sf lev => eWord 0xC6 t (bit ru * 2 ^ 2)
      (n.toNat * 2 ^ 77 + bl.toNat * 2 ^ 73 + sf.toNat * 2 ^ 69 + lev.toNat * 2 ^ 65)
  | .tstn t add a b c bl lev sf q => eWord 0xC7 t (bit add)
      (a.toNat * 2 ^ 72 + b.toNat * 2 ^ 68 + c.toNat * 2 ^ 64 + bl.toNat * 2 ^ 60 + lev.toNat * 2 ^ 56 +
        sf.toNat * 2 ^ 52 + q.toNat * 2 ^ 50)
  | _ => 0

/-- The word of an M instruction of the tiles and vectors; 0 for any other row (R226–R247). -/
def encodeM : Instr → Nat
  | .mma t z bt c ra rb => eWord 0x40 t (bit bt * 2 ^ 1 + bit z)
      (c.toNat * 2 ^ 77 + ra.toNat * 2 ^ 73 + rb.toNat * 2 ^ 69)
  | .czero t c => eWord 0x41 t 0 (c.toNat * 2 ^ 77)
  | .cld t a b len => eWord 0x42 t 0 (a.toNat * 2 ^ 49 + b.toNat * 2 ^ 45 + len.toNat * 2 ^ 29)
  | .cldOut t a b len => eWord 0x42 t 1 (a.toNat * 2 ^ 49 + b.toNat * 2 ^ 45 + len.toNat * 2 ^ 29)
  | .cscl t col c va => eWord 0x43 t (bit col) (c.toNat * 2 ^ 77 + va.toNat * 2 ^ 70)
  | .ctr t c cs => eWord 0x44 t 0 (c.toNat * 2 ^ 77 + cs.toNat * 2 ^ 74)
  | .crowv t m vd c a => eWord 0x45 t 0 (c.toNat * 2 ^ 77 + vd.toNat * 2 ^ 70 + a.toNat * 2 ^ 49 + m.code * 2 ^ 29)
  | .cvrow t col c va a => eWord 0x46 t (bit col) (c.toNat * 2 ^ 77 + va.toNat * 2 ^ 70 + a.toNat * 2 ^ 49)
  | .vadd t ty mk d a b => vArith 0x50 t ty mk d a b 0
  | .vsub t ty mk d a b => vArith 0x51 t ty mk d a b 0
  | .vmul t ty mk d a b => vArith 0x52 t ty mk d a b 0
  | .vfma t ty mk d a b c => vArith 0x53 t ty mk d a b (c.toNat * 2 ^ 60)
  | .vmax t ty mk d a b => vArith 0x54 t ty mk d a b 0
  | .vmin t ty mk d a b => vArith 0x55 t ty mk d a b 0
  | .vabs t ty mk d a => vUn 0x56 t ty mk d a
  | .vneg t ty mk d a => vUn 0x57 t ty mk d a
  | .vrcp t mk d a => vUn 0x58 t .fp32 mk d a
  | .vrsq t mk d a => vUn 0x59 t .fp32 mk d a
  | .vsqrt t mk d a => vUn 0x5A t .fp32 mk d a
  | .vexp2 t mk d a => vUn 0x5B t .fp32 mk d a
  | .vlog2 t mk d a => vUn 0x5C t .fp32 mk d a
  | .vcvt t mk sf df rm d a => eWord 0x5D t (mkFlg mk)
      (vdva d a + mkOps mk + sf.code * 2 ^ 53 + rm.code * 2 ^ 33 + df.code * 2 ^ 29)
  | .vcmp t c ty mk d a b => eWord 0x5E t (mkFlg mk + vbFlg b)
      (d.toNat * 2 ^ 75 + a.toNat * 2 ^ 70 + vbOps b + mkOps mk + ty.code * 2 ^ 53 + c.code * 2 ^ 29)
  | .vsel t d a b m => eWord 0x5F t (vbFlg b) (vdva d a + vbOps b + m.toNat * 2 ^ 57)
  | .vand t mk d a b => vArith 0x60 t .fp32 mk d a b 0
  | .vor t mk d a b => vArith 0x61 t .fp32 mk d a b 0
  | .vxor t mk d a b => vArith 0x62 t .fp32 mk d a b 0
  | .vshl t ty mk d a b => vArith 0x63 t ty mk d a b 0
  | .vshr t ty mk d a b => vArith 0x64 t ty mk d a b 0
  | .vreds t ty mk d a => vUn 0x65 t ty mk d a
  | .vredm t ty mk d a => vUn 0x66 t ty mk d a
  | .vbcst t mk d s => eWord 0x67 t (mkFlg mk + bcFlg s) (d.toNat * 2 ^ 75 + mkOps mk + bcOps s)
  | .vperm t mk d a b => vArith 0x68 t .fp32 mk d a b 0
  | .vcmpr t d a m => eWord 0x69 t 0 (vdva d a + m.toNat * 2 ^ 57)
  | .vexpd t d a m => eWord 0x6A t 0 (vdva d a + m.toNat * 2 ^ 57)
  | .cqapp t w2 xa xb va vb m => eWord 0x6B t (bit w2)
      (vdva 0 va + vb.toNat * 2 ^ 65 + m.toNat * 2 ^ 57 + xa.toNat * 2 ^ 49 + xb.toNat * 2 ^ 45)
  | .cqtake t w2 d xa xb m => eWord 0x6C t (bit w2)
      (vdva d 0 + m.toNat * 2 ^ 57 + xa.toNat * 2 ^ 49 + xb.toNat * 2 ^ 45)
  | .vld t mk d a i => eWord 0x6D t (mkFlg mk) (vdva d 0 + mkOps mk + a.toNat * 2 ^ 49 + i.toNat * 2 ^ 29)
  | .vldM t d a i => eWord 0x6D t 1 (d.toNat * 2 ^ 75 + a.toNat * 2 ^ 49 + i.toNat * 2 ^ 29)
  | .vst t mk v a i => eWord 0x6E t (mkFlg mk) (vdva 0 v + mkOps mk + a.toNat * 2 ^ 49 + i.toNat * 2 ^ 29)
  | .vstM t m a i => eWord 0x6E t 1 (m.toNat * 2 ^ 70 + a.toNat * 2 ^ 49 + i.toNat * 2 ^ 29)
  | .vpop t d r => eWord 0x6F t 0 (vdva d 0 + r.toNat * 2 ^ 49)
  | .mand t d a b => eWord 0x70 t 0 (d.toNat * 2 ^ 75 + a.toNat * 2 ^ 70 + b.toNat * 2 ^ 65)
  | .mor t d a b => eWord 0x71 t 0 (d.toNat * 2 ^ 75 + a.toNat * 2 ^ 70 + b.toNat * 2 ^ 65)
  | .mnot t d a => eWord 0x72 t 0 (d.toNat * 2 ^ 75 + a.toNat * 2 ^ 70)
  | .viota t mk d b => eWord 0x73 t (mkFlg mk + bit b.isSome * 2 ^ 2) (vdva d 0 + mkOps mk + iotaOps b)
  | .vcnt t d m => eWord 0x74 t 0 (m.toNat * 2 ^ 57 + d.toNat * 2 ^ 49)
  | .vsband t s d => eWord 0x75 t 0 (d.toNat * 2 ^ 75 + s.code * 2 ^ 29)
  | .vblend t mk d a b => eWord 0x76 t (mkFlg mk) (vdva d a + b.toNat * 2 ^ 65 + mkOps mk)
  | .tmask t c va xa xb xc => eWord 0xA0 t 0
      (c.toNat * 2 ^ 77 + va.toNat * 2 ^ 70 + xa.toNat * 2 ^ 49 + xb.toNat * 2 ^ 45 + xc.toNat * 2 ^ 41)
  | _ => 0

/-- The word of an instruction of the orthogonal accumulators; 0 for any other row (R252). -/
def encodeQ : Instr → Nat
  | .qcfg t q a => eWord 0xB0 t 0 (q.toNat * 2 ^ 75 + a.toNat * 2 ^ 49)
  | .qclr t q => eWord 0xB1 t 0 (q.toNat * 2 ^ 75)
  | .qacc t q va a b => eWord 0xB2 t 0 (q.toNat * 2 ^ 75 + va.toNat * 2 ^ 70 + a.toNat * 2 ^ 49 + b.toNat * 2 ^ 45)
  | .qapl t tr c q => eWord 0xB3 t (bit tr) (c.toNat * 2 ^ 77 + q.toNat * 2 ^ 75)
  | .qapr t tr c q => eWord 0xB4 t (bit tr) (c.toNat * 2 ^ 77 + q.toNat * 2 ^ 75)
  | .qtrn t q => eWord 0xB5 t 0 (q.toNat * 2 ^ 75)
  | .qform t tr c q => eWord 0xB6 t (bit tr) (c.toNat * 2 ^ 77 + q.toNat * 2 ^ 75)
  | .qcnt t d q => eWord 0xB7 t 0 (q.toNat * 2 ^ 75 + d.toNat * 2 ^ 49)
  | .qseal t q => eWord 0xB8 t 0 (q.toNat * 2 ^ 75)
  | .qsv t q a => eWord 0xB9 t 0 (q.toNat * 2 ^ 75 + a.toNat * 2 ^ 49)
  | .qrs t q a => eWord 0xBA t 0 (q.toNat * 2 ^ 75 + a.toNat * 2 ^ 49)
  | _ => 0

/-- The word of an engine instruction (R150–R252): each part is 0 for the rows of the others. -/
def encodeEng (i : Instr) : Nat := encodeCommon i + encodeL i + encodeS i + encodeM i + encodeQ i

/-- A wait clause's dword (R159). -/
def clauseDw (c : Clause) : Nat := bit c.en * 2 ^ 63 + c.ev.toNat * 2 ^ 32 + c.thr.toNat

/-- Dwords 0 to 15 of a command with opcode `opc` (R157–R163). -/
def cmdDws (opc : Nat) (c : Cmd) : List Nat :=
  [ bit c.crec * 2 ^ 19 + bit c.rsig * 2 ^ 18 + bit c.rtn * 2 ^ 17 + bit c.link * 2 ^ 16 + c.queue.toNat * 2 ^ 8 + opc,
    clauseDw c.w0, clauseDw c.w1,
    c.rdev.toNat * 2 ^ 57 + bit c.rloc * 2 ^ 56 + c.rev.toNat * 2 ^ 52 + c.rcore.toNat * 2 ^ 43 + c.sigm.toNat,
    c.src.toNat, c.dst.toNat, c.x1.toNat * 2 ^ 32 + c.x0.toNat, c.x2.toNat,
    c.ss2.toNat * 2 ^ 32 + c.ss1.toNat, c.ds2.toNat * 2 ^ 32 + c.ds1.toNat,
    c.arg.toNat * 2 ^ 16 + c.rm.code * 2 ^ 12 + c.opr.code * 2 ^ 8 + c.dfmt.code * 2 ^ 4 + c.sfmt.code,
    c.ret.toNat, c.next.toNat, c.bind.toNat, c.crecAt.toNat, 0 ]

/-- Dwords side by side, the first lowest. -/
def joinDws : List Nat → Nat
  | [] => 0
  | d :: ds => d + 2 ^ 64 * joinDws ds

/-- The opcode and the fields of a copy command (R164). -/
def cmdOf : Instr → Option (Nat × Cmd)
  | .copy c => some (0x01, c)
  | .fill c => some (0x02, c)
  | .accw c => some (0x03, c)
  | .ratom c => some (0x04, c)
  | .tnode c => some (0x05, c)
  | .kvcmt c => some (0x06, c)
  | .fmcast c => some (0x07, c)
  | .fred c => some (0x08, c)
  | .sigr c => some (0x09, c)
  | .pipeBind c => some (0x0A, c)
  | .pipeUnbind c => some (0x0A, c)
  | _ => none

/-- The 1,024 bits of a copy command. -/
def encodeCmd (i : Instr) : Nat :=
  match cmdOf i with
  | some p => joinDws (cmdDws p.1 p.2)
  | none => 0

/-- What stands in a stream or a queue: a K word, an engine word in the stream of an engine, a copy command, or
nothing (a row that no stream encodes). -/
inductive Form where
  | k
  | eng (e : Eng)
  | cmd
  | event
  deriving DecidableEq, Repr

/-- The container of an instruction's encoding (R145, R150, R157). -/
def Instr.form : Instr → Form
  | .nop e _ | .tok e _ _ | .align e _ _ | .xset e _ _ _ | .xadd e _ _ _ _ | .xaddi e _ _ _ _ | .xmul e _ _ _ _
  | .lps e _ _ _ | .lpe e _ _ | .brx e _ _ _ _ _ | .halte e _ => .eng e
  | .ldt .. | .ldn .. | .ldg .. | .ldv .. | .mcf .. | .tld .. | .trf .. | .ldsb .. => .eng .l
  | .stt .. | .stn .. | .drn .. | .sct .. | .stv .. | .tstb .. | .tstl .. | .tstn .. => .eng .s
  | .mma .. | .czero .. | .cld .. | .cldOut .. | .cscl .. | .ctr .. | .crowv .. | .cvrow .. | .vadd .. | .vsub ..
  | .vmul .. | .vfma .. | .vmax .. | .vmin .. | .vabs .. | .vneg .. | .vrcp .. | .vrsq .. | .vsqrt .. | .vexp2 ..
  | .vlog2 .. | .vcvt .. | .vcmp .. | .vsel .. | .vand .. | .vor .. | .vxor .. | .vshl .. | .vshr .. | .vreds ..
  | .vredm .. | .vbcst .. | .vperm .. | .vcmpr .. | .vexpd .. | .cqapp .. | .cqtake .. | .vld .. | .vldM .. | .vst ..
  | .vstM .. | .vpop .. | .mand .. | .mor .. | .mnot .. | .viota .. | .vcnt .. | .vsband .. | .vblend .. | .tmask ..
  | .qcfg .. | .qclr .. | .qacc .. | .qapl .. | .qapr .. | .qtrn .. | .qform .. | .qcnt .. | .qseal .. | .qsv ..
  | .qrs .. => .eng .m
  | .copy _ | .fill _ | .accw _ | .ratom _ | .tnode _ | .kvcmt _ | .fmcast _ | .fred _ | .sigr _ | .pipeBind _
  | .pipeUnbind _ => .cmd
  | .add .. | .addi .. | .sub .. | .mul .. | .mulh .. | .div .. | .rem .. | .and .. | .andi .. | .or .. | .ori ..
  | .xor .. | .xori .. | .shl .. | .shr .. | .sar .. | .min .. | .max .. | .clz .. | .popc .. | .slt .. | .sel ..
  | .ldih .. | .b .. | .bc .. | .call .. | .ret .. | .jr .. | .loop .. | .ldk .. | .stk .. | .acq .. | .rel ..
  | .fence .. | .nestl .. | .nestb .. | .ringc .. | .rdring .. | .fmt .. | .cpw .. | .cpgo .. | .cpch .. | .waitq ..
  | .waite .. | .sige .. | .mark .. | .rdvw .. | .loopb .. | .ewr .. | .erd .. | .tnext .. | .tdone | .tdoneEnd
  | .join .. | .leave .. | .cbar .. | .cbard .. | .sstep | .lees .. | .watch .. | .waitl | .est .. | .vtab .. | .rds ..
  | .wrs .. | .trap .. | .ovl .. | .ovswap | .eret .. | .ffrd .. | .jctlHead .. | .jctlTail .. | .jctlFree ..
  | .jctlReissue .. | .casksw .. | .tinvPage .. | .tinvAsid .. | .tinvAll .. => .k
  | .sectionStart _ | .formatUnderflow _ | .chainFetch _ | .commandBegin _ | .commandComplete _ | .remoteIncrement ..
  | .fredCombine _ | .fabricAccess _ | .combiningMergeTimeout _ | .eviction .. | .tileAgeing _ | .overlayLoadDone
  | .coreStop .. | .tokenTimeout _ | .watchdog .. | .firmwareResume _ | .caskSwitch .. | .quantumBoundary
  | .completionGrant _ | .drainEscalation _ | .checkpointSaveDone | .gangStart .. | .gangAbort _ | .lqtailWrite ..
  | .lqctlWrite .. | .vcapWrite _ | .vintageEnWrite .. | .residencyChange .. | .smgenWrite .. | .remapNack _ | .remap _
  | .aslotWrite .. | .migctl .. | .apertureWindowWrite .. | .hostApertureAccess .. | .hostAtomicop .. | .registerWrite ..
  | .coldReset | .vfFlr _ | .pfFlr | .attest _ | .cert _ | .log _ | .loadimg _ | .powerStep | .monitorEntryEviction
  | .dataPoisoned .. => .event

/-- The bits of a well-formed instruction that a stream or a queue holds: how many, and the number they make. -/
def encode (i : Instr) : Option (Nat × Nat) :=
  match i.form with
  | .k => some (64, encodeK i)
  | .eng _ => some (96, encodeEng i)
  | .cmd => some (1024, encodeCmd i)
  | .event => none

/-- The decoder of a container. -/
def decodeForm : Form → Nat → Dec
  | .k, w => decodeK w
  | .eng e, w => decodeEng e w
  | .cmd, w => decodeCmd w
  | .event, _ => .error .illegalOp

/-! ### Words as the opcode table numbers them -/

/-- Which stream a 96-bit word of the table stands in: L's range and the common set, M's, S's (R152). -/
def tableStream (w : Nat) : Eng :=
  if fld w 88 8 < 0x40 then .l else if fld w 88 8 < 0xC0 then .m else .s

/-- The instruction of a word of `nbits` bits: a K word to 64, an engine word to 96, a copy command above. -/
def decodeWord (nbits w : Nat) : Dec :=
  if nbits ≤ 64 then decodeK w else if nbits ≤ 96 then decodeEng (tableStream w) w else decodeCmd w

/-- The bits of an instruction, numbered as spec/opcode_table.json numbers them: all streams are stored little-endian
(R7, R144, R157), so bit k of the number is bit k of the word. -/
def decodeTableWord (nbits w : Nat) : Option Instr :=
  match decodeWord nbits (w % 2 ^ nbits) with
  | .ok i => some i
  | .error _ => none

end Sys2Proof
end

