-- ==== Sys2Proof/Machine/Num.lean ====
section
/-! DEFINITION. Number formats and arithmetic (R75–R94): exact reals, rounding, conversion, bx8, the elementary
functions, summation trees. Values are exact until one rounding narrows them. -/

namespace Sys2Proof


/-- An exact value: NaN, an infinity, or ± num / den with den > 0. Zero keeps its sign (R87). -/
inductive XR where
  | nan
  | inf (neg : Bool)
  | fin (neg : Bool) (num den : Nat)
  deriving DecidableEq, Repr, Inhabited

/-- What computing one element raised: flags IV DZ OF UF NX in bits 4 to 0 (R36), whether a rounding overflowed
(MXC1), whether bx8 saturated (MXC2), whether an integer accumulator wrapped (MXC3). -/
structure Rz where
  fl : BitVec 5 := 0
  ovf : Bool := false
  sat : Bool := false
  wrap : Bool := false
  deriving DecidableEq, Repr, Inhabited

def flIV : BitVec 5 := 16
def flDZ : BitVec 5 := 8
def flOF : BitVec 5 := 4
def flUF : BitVec 5 := 2
def flNX : BitVec 5 := 1

/-- Both of two. -/
def Rz.or (a b : Rz) : Rz :=
  { fl := a.fl ||| b.fl, ovf := a.ovf || b.ovf, sat := a.sat || b.sat, wrap := a.wrap || b.wrap }

/-- A flag alone, if `c`. -/
def rzIf (c : Bool) (f : BitVec 5) : Rz := { fl := if c then f else 0 }

/-- What an operation raises one of whose operands is a NaN: no IV (R92, R246). -/
def Rz.onNan (r : Rz) (nan : Bool) : Rz := if nan then { r with fl := r.fl &&& ~~~ flIV } else r

/-- floor(log2 n) of n > 0. -/
def lg (n : Nat) : Nat := Nat.log2 n

/-- An exact integer. -/
def XR.ofInt (i : Int) : XR := .fin (decide (i < 0)) i.natAbs 1

/-- Multiplication by 2^e, exact. -/
def XR.scale (x : XR) (e : Int) : XR :=
  match x with
  | .fin s n d => if 0 ≤ e then .fin s (n * 2 ^ e.toNat) d else .fin s n (d * 2 ^ (-e).toNat)
  | y => y

/-- Whether a value is NaN. -/
def XR.isNan : XR → Bool
  | .nan => true
  | _ => false

/-- Whether a value is a zero. -/
def XR.isZero : XR → Bool
  | .fin _ 0 _ => true
  | _ => false

/-- The value with its sign flipped. -/
def XR.neg : XR → XR
  | .nan => .nan
  | .inf s => .inf (!s)
  | .fin s n d => .fin (!s) n d

/-- The magnitude. -/
def XR.abs : XR → XR
  | .nan => .nan
  | .inf _ => .inf false
  | .fin _ n d => .fin false n d

/-- a < b on values that are not NaN; zeros of both signs are equal. -/
def XR.lt : XR → XR → Bool
  | .nan, _ | _, .nan => false
  | .inf s, .inf t => s && !t
  | .inf s, .fin _ _ _ => s
  | .fin _ _ _, .inf t => !t
  | .fin s n d, .fin t m e =>
    decide ((if s then -(n : Int) else n) * (e : Int) < (if t then -(m : Int) else m) * (d : Int))

/-- a = b on values that are not NaN. -/
def XR.eq (a b : XR) : Bool := !a.isNan && !b.isNan && !a.lt b && !b.lt a

/-- The exact sum, with the sign of a zero sum as R87 has it; IV where infinities cancel. -/
def XR.add (rm : Rm) (a b : XR) : XR × Rz :=
  match a, b with
  | .nan, _ | _, .nan => (.nan, {})
  | .inf s, .inf t => if s = t then (.inf s, {}) else (.nan, rzIf true flIV)
  | .inf s, .fin _ _ _ => (.inf s, {})
  | .fin _ _ _, .inf t => (.inf t, {})
  | .fin s n d, .fin t m e =>
    let x := n * e
    let y := m * d
    if s = t then (.fin s (x + y) (d * e), {})
    else if x = y then (.fin (decide (rm = .rdn)) 0 1, {})
    else if y < x then (.fin s (x - y) (d * e), {})
    else (.fin t (y - x) (d * e), {})

/-- The exact product; IV at infinity times zero. -/
def XR.mul (a b : XR) : XR × Rz :=
  match a, b with
  | .nan, _ | _, .nan => (.nan, {})
  | .inf s, .inf t => (.inf (s != t), {})
  | .inf s, .fin t m _ => if m = 0 then (.nan, rzIf true flIV) else (.inf (s != t), {})
  | .fin s n _, .inf t => if n = 0 then (.nan, rzIf true flIV) else (.inf (s != t), {})
  | .fin s n d, .fin t m e => (.fin (s != t) (n * m) (d * e), {})

/-! ### Binary floating formats -/

/-- Precision, exponent bits' bias, and width of fp32, bf16 and fp16 (R75). -/
def Fmt.prec : Fmt → Nat
  | .bf16 => 8 | .fp16 => 11 | _ => 24
def Fmt.bias : Fmt → Nat
  | .fp16 => 15 | _ => 127

/-- The canonical NaN, an infinity, the largest finite value (R75, R76). -/
def Fmt.nanBits (f : Fmt) : Nat := (2 ^ (f.bits - f.prec) - 1) * 2 ^ (f.prec - 1) + 2 ^ (f.prec - 2)
def Fmt.infBits (f : Fmt) (s : Bool) : Nat :=
  (if s then 2 ^ (f.bits - 1) else 0) + (2 ^ (f.bits - f.prec) - 1) * 2 ^ (f.prec - 1)
def Fmt.maxBits (f : Fmt) (s : Bool) : Nat := f.infBits s - 1

/-- The value of a floating code of `f` (R75, R76). -/
def floatVal (f : Fmt) (b : Nat) : XR :=
  let s := decide (b / 2 ^ (f.bits - 1) % 2 = 1)
  let p1 := f.prec - 1
  let e := b / 2 ^ p1 % 2 ^ (f.bits - f.prec)
  let m := b % 2 ^ p1
  if e = 2 ^ (f.bits - f.prec) - 1 then (if m = 0 then .inf s else .nan)
  else
    let q : Int := ((if e = 0 then 1 else e) : Int) - f.bias - p1
    (XR.fin s (if e = 0 then m else m + 2 ^ p1) 1).scale q

/-- Whether a rounding goes away from zero: `r` of `d` parts remain above the even or odd `n` (R80). -/
def roundUp (rm : Rm) (s : Bool) (n r d : Nat) : Bool :=
  match rm with
  | .rne => decide (d < 2 * r) || (decide (d = 2 * r) && decide (n % 2 = 1))
  | .rtz => false
  | .rup => !s && decide (0 < r)
  | .rdn => s && decide (0 < r)

/-- floor(log2 (num / den)) of a positive value. -/
def lgRat (num den : Nat) : Int :=
  let k : Int := (lg num : Int) - lg den
  let below : Bool := if 0 ≤ k then decide (num < den * 2 ^ k.toNat) else decide (num * 2 ^ (-k).toNat < den)
  if below then k - 1 else k

/-- The rounding of an exact value to a floating format under `rm` (R83): the code, and what it raises. -/
def roundFloat (f : Fmt) (rm : Rm) (x : XR) : Nat × Rz :=
  match x with
  | .nan => (f.nanBits, {})
  | .inf s => (f.infBits s, {})
  | .fin s num den =>
    let sgn := if s then 2 ^ (f.bits - 1) else 0
    if num = 0 then (sgn, {})
    else
      let qmin : Int := 2 - (f.bias : Int) - f.prec
      let q := max (lgRat num den - (f.prec - 1 : Nat)) qmin
      let n0 := if 0 ≤ q then num else num * 2 ^ (-q).toNat
      let d0 := if 0 ≤ q then den * 2 ^ q.toNat else den
      let n := n0 / d0
      let r := n0 % d0
      let m := if roundUp rm s n r d0 then n + 1 else n
      let bits := (q - qmin).toNat * 2 ^ (f.prec - 1) + m
      let inexact := decide (r ≠ 0)
      if f.infBits false ≤ bits then
        let toMax : Bool := match rm with
          | .rne => false
          | .rtz => true
          | .rup => s
          | .rdn => !s
        (if toMax then f.maxBits s else f.infBits s, { fl := flOF ||| flNX, ovf := !toMax })
      else
        (sgn + bits, { fl := (if inexact then flNX else 0) |||
          (if inexact && decide (bits < 2 ^ (f.prec - 1)) then flUF else 0) })

/-! ### bx8 -/

/-- The exact value of a bx8 code t > 0, in units of 10^−8 (R77, R78). -/
def bx8Mag (t : Nat) : Nat :=
  let p := lg t
  let z := 6 - p
  (2 ^ (p + 1) + 9 * (2 * (t - 2 ^ p) + 1)) * 10 ^ 8 / (10 ^ (z + 1) * 2 ^ (p + 1))

/-- The exact value of a bx8 code (R77). -/
def bx8Exact (c : Nat) : XR :=
  let t := c % 128
  let s := decide (c / 128 % 2 = 1)
  if t = 0 then (if s then .nan else .fin false 0 1) else .fin s (bx8Mag t) (10 ^ 8)

/-- The largest code whose value is at most num / den, bit by bit from bit `b − 1` down. -/
def bx8Floor (num den : Nat) : Nat → Nat → Nat
  | 0, t => t
  | b + 1, t => bx8Floor num den b (if bx8Mag (t + 2 ^ b) * den ≤ num * 10 ^ 8 then t + 2 ^ b else t)

/-- bx8_encode (R79). -/
def bx8Encode (x : XR) : Nat × Rz :=
  match x with
  | .nan => (0x80, {})
  | .inf s => ((if s then 128 else 0) + 0x7F, { sat := true })
  | .fin s num den =>
    let sb := if s then 128 else 0
    if num = 0 then (0, {})
    else if 99296875 * den < num * 10 ^ 8 then (sb + 0x7F, { fl := flOF ||| flNX, sat := true })
    else
      let t := bx8Floor num den 7 0
      let lo : Int := if t = 0 then 0 else bx8Mag t
      let below : Int := (num : Int) * 10 ^ 8 - lo * den
      let above : Int := (bx8Mag (t + 1) : Int) * den - (num : Int) * 10 ^ 8
      let c := if t = 127 then t
        else if below < above then t
        else if above < below then t + 1
        else if t % 2 = 0 then t else t + 1
      if c = 0 then (0, { fl := flUF ||| flNX })
      else (sb + c, rzIf (decide (bx8Mag c * den ≠ num * 10 ^ 8)) flNX)

/-! ### Conversion -/

/-- Signed integer formats (R75). -/
def Fmt.signed : Fmt → Bool
  | .i4 | .i8 | .i16 | .i32 => true
  | _ => false

/-- The least and greatest integer of an integer format (R75). -/
def Fmt.least (f : Fmt) : Int := if f.signed then -(2 ^ (f.bits - 1) : Nat) else 0
def Fmt.most (f : Fmt) : Int := if f.signed then (2 ^ (f.bits - 1) : Nat) - 1 else (2 ^ f.bits : Nat) - 1

/-- The integer that a `w`-bit code reads as: sx and zx (R168). -/
def sxN (v w : Nat) : Int := if v / 2 ^ (w - 1) % 2 = 1 then (v % 2 ^ w : Nat) - (2 ^ w : Nat) else (v % 2 ^ w : Nat)
def intVal (f : Fmt) (v : Nat) : Int := if f.signed then sxN v f.bits else (v % 2 ^ f.bits : Nat)

/-- The exact value of an element (R77 for bx8, R82 otherwise). -/
def exactVal (f : Fmt) (b : Nat) : XR :=
  if f.isInt then XR.ofInt (intVal f b)
  else if f = .bx8 then bx8Exact b
  else floatVal f b

/-- An exact value rounded to an integer under `rm` (R83), and whether it was inexact. -/
def roundInt (rm : Rm) (s : Bool) (num den : Nat) : Int × Bool :=
  let n := num / den
  let r := num % den
  let m := if roundUp rm s n r den then n + 1 else n
  (if s then -(m : Int) else m, decide (r ≠ 0))

/-- The code of an integer in `w` bits. -/
def intBits (w : Nat) (i : Int) : Nat := (i % (2 ^ w : Nat)).toNat

/-- cvt(x, f, rm) (R83): the code of the element, and what it raises. -/
def cvt (x : XR) (f : Fmt) (rm : Rm) : Nat × Rz :=
  if f = .bx8 then bx8Encode x
  else if f.isInt then
    match x with
    | .nan => (0, rzIf true flIV)
    | .inf s => (intBits f.bits (if s then f.least else f.most), rzIf true flIV)
    | .fin s num den =>
      let n := roundInt rm s num den
      if n.1 < f.least then (intBits f.bits f.least, rzIf true flIV)
      else if f.most < n.1 then (intBits f.bits f.most, rzIf true flIV)
      else (intBits f.bits n.1, rzIf n.2 flNX)
  else roundFloat f rm x

/-- Whether a code of a floating format or bx8 is NaN. -/
def isNanCode (f : Fmt) (b : Nat) : Bool := !f.isInt && (exactVal f b).isNan

/-- Whether a code is an infinity. -/
def isInfCode (f : Fmt) (b : Nat) : Bool :=
  f.isFloat && (decide (b = f.infBits false) || decide (b = f.infBits true))

/-! ### fp32 -/

/-- The value of an fp32 lane. -/
def f32 (b : Lane) : XR := floatVal .fp32 b.toNat

/-- bx8_decode: the fp32 value nearest the exact value of a code (R77). -/
def bx8Decode (c : Nat) : XR := floatVal .fp32 (roundFloat .fp32 .rne (bx8Exact c)).1

/-- dec of R82: what an element of an MMA operand stands for. -/
def operandVal (f : Fmt) (b : Nat) : XR := if f = .bx8 then bx8Decode b else exactVal f b

/-- rnd32(x, rm) (R85). -/
def rnd32 (x : XR) (rm : Rm) : Lane × Rz :=
  let r := roundFloat .fp32 rm x
  (BitVec.ofNat 32 r.1, r.2)

/-- An exact operation, then one rounding. -/
def rnd32Of (x : XR × Rz) (rm : Rm) : Lane × Rz :=
  let r := rnd32 x.1 rm
  (r.1, x.2.or r.2)

/-- fp32 addition and multiplication, rounded once (R88). -/
def add32 (rm : Rm) (a b : Lane) : Lane × Rz := rnd32Of ((f32 a).add rm (f32 b)) rm
def mul32 (rm : Rm) (a b : Lane) : Lane × Rz := rnd32Of ((f32 a).mul (f32 b)) rm

/-- a − b. -/
def sub32 (rm : Rm) (a b : Lane) : Lane × Rz := rnd32Of ((f32 a).add rm (f32 b).neg) rm

/-- a × b + c, rounded once (R88). -/
def fma32 (rm : Rm) (a b c : Lane) : Lane × Rz :=
  let p := (f32 a).mul (f32 b)
  let s := p.1.add rm (f32 c)
  let r := rnd32Of (s.1, p.2.or s.2) rm
  (r.1, r.2.onNan ((f32 a).isNan || (f32 b).isNan || (f32 c).isNan))

/-- The canonical NaN and the infinities of fp32 (R76). -/
def nan32 : Lane := 0x7FC00000
def inf32 : Lane := 0x7F800000
def ninf32 : Lane := 0xFF800000
def one32 : Lane := 0x3F800000
def nzero32 : Lane := 0x80000000

/-- The larger of two codes of a floating format: NaN if either is, −0 below +0 (R88). `minimum` picks the smaller. -/
def maxMinCode (f : Fmt) (minimum : Bool) (a b : Nat) : Nat :=
  let x := exactVal f a
  let y := exactVal f b
  if x.isNan || y.isNan then f.nanBits
  else if x.lt y then (if minimum then a else b)
  else if y.lt x then (if minimum then b else a)
  else if minimum then (if a / 2 ^ (f.bits - 1) % 2 = 1 then a else b)
  else (if a / 2 ^ (f.bits - 1) % 2 = 1 then b else a)

/-- VMAX and VMIN on fp32 lanes (R88). -/
def max32 (a b : Lane) : Lane := BitVec.ofNat 32 (maxMinCode .fp32 false a.toNat b.toNat)
def min32 (a b : Lane) : Lane := BitVec.ofNat 32 (maxMinCode .fp32 true a.toNat b.toNat)

/-! ### Summation trees -/

/-- One level of the tree of R85: neighbours added, each sum rounded once. -/
def treeLevel (rm : Rm) : List XR → List XR × Rz
  | a :: b :: xs =>
    let s := rnd32Of (a.add rm b) rm
    let t := treeLevel rm xs
    (f32 s.1 :: t.1, s.2.or t.2)
  | xs => (xs, {})

/-- `d` levels of the tree, from 2^d exact leaves to the root (R85). -/
def treeSum (rm : Rm) : Nat → List XR → XR × Rz
  | 0, xs => (xs.headD (.fin false 0 1), {})
  | d + 1, xs =>
    let l := treeLevel rm xs
    let t := treeSum rm d l.1
    (t.1, l.2.or t.2)

/-- A list of exact products and what forming them raised. -/
def products : List (XR × XR) → List XR × Rz
  | [] => ([], {})
  | p :: ps =>
    let m := p.1.mul p.2
    let t := products ps
    (m.1 :: t.1, m.2.or t.2)

/-- An inner product in the tree of R85 without an accumulator step: 2^d pairs. -/
def innerTree (rm : Rm) (d : Nat) (ps : List (XR × XR)) : XR × Rz :=
  let p := products ps
  let t := treeSum rm d p.1
  (t.1, p.2.or t.2)

/-- mma_elem (R85): the tree over products already formed, then the accumulator. -/
def accTree (rm : Rm) (d : Nat) (acc : Lane) (ps : List XR) : Lane × Rz :=
  let t := treeSum rm d ps
  let s := rnd32Of ((f32 acc).add rm t.1) rm
  (s.1, t.2.or s.2)

/-! ### Elementary functions -/

/-- The integer square root, bit by bit from 2^(b − 1) down. -/
def isqrtFrom (n : Nat) : Nat → Nat → Nat
  | 0, r => r
  | b + 1, r => isqrtFrom n b (if (r + 2 ^ b) * (r + 2 ^ b) ≤ n then r + 2 ^ b else r)

/-- floor(√n). -/
def isqrt (n : Nat) : Nat := isqrtFrom n (lg n / 2 + 1) 0

/-- √(num / den) as r / 2^200 where it is exact, and strictly between r and r + 1 otherwise. -/
def sqrtRat (num den : Nat) : XR :=
  let n := num * 2 ^ 400
  let r := isqrt (n / den)
  if r * r * den = n then .fin false r (2 ^ 200) else .fin false (2 * r + 1) (2 ^ 201)

/-- 2^f for the `bits`-bit fraction f = k / 2^bits in units of 2^−220: the product of the constants 2^(2^−i) of its
set bits, each the square root of the one before; `c` is the constant of the bit before the next one. -/
def exp2Frac : Nat → Nat → Nat → Nat → Nat
  | 0, _, _, acc => acc
  | b + 1, k, c, acc =>
    let c' := isqrt (c * 2 ^ 220)
    exp2Frac b (k % 2 ^ b) c' (if k / 2 ^ b % 2 = 1 then acc * c' / 2 ^ 220 else acc)

/-- VEXP2 (R90): the fp32 value nearest 2^x. A non-integer x has an irrational power, so a value within 2^−200 of it
rounds as it does. -/
def vexp2 (a : Lane) : Lane × Rz :=
  match f32 a with
  | .nan => (nan32, {})
  | .inf s => (if s then 0 else inf32, {})
  | .fin s num den =>
    if num = 0 then (one32, {})
    else if num * 2 ^ 26 < den then (one32, rzIf true flNX)
    else if 256 * den ≤ num then rnd32 (if s then .fin false 1 (2 ^ 256) else .fin false (2 ^ 256) 1) .rne
    else
      let k : Int := (if s then -(num : Int) else num) * (2 ^ 60 : Nat) / den
      let n := k / (2 ^ 60 : Nat)
      let f := (k % (2 ^ 60 : Nat)).toNat
      if f = 0 then rnd32 ((XR.fin false 1 1).scale n) .rne
      else rnd32 ((XR.fin false (2 * exp2Frac 60 f (2 * 2 ^ 220) (2 ^ 220) + 1) (2 ^ 221)).scale n) .rne

/-- The binary digits of log2 of y / 2^320 in [1, 2), by repeated squaring. -/
def log2Digits : Nat → Nat → Nat → Nat
  | 0, _, acc => acc
  | d + 1, y, acc =>
    let z := y * y / 2 ^ 320
    if 2 ^ 321 ≤ z then log2Digits d (z / 2) (2 * acc + 1) else log2Digits d z (2 * acc)

/-- VLOG2 (R90): exact at powers of two, and otherwise irrational: 120 digits decide the rounding. -/
def vlog2 (a : Lane) : Lane × Rz :=
  match f32 a with
  | .nan => (nan32, {})
  | .inf s => if s then (nan32, rzIf true flIV) else (inf32, {})
  | .fin s num den =>
    if num = 0 then (ninf32, rzIf true flDZ)
    else if s then (nan32, rzIf true flIV)
    else
      let e := lgRat num den
      let y := if 0 ≤ e then num * 2 ^ 320 / (den * 2 ^ e.toNat) else num * 2 ^ (-e).toNat * 2 ^ 320 / den
      if y = 2 ^ 320 then rnd32 (XR.ofInt e) .rne
      else
        let k : Int := e * (2 ^ 121 : Nat) + 2 * log2Digits 120 y 0 + 1
        rnd32 (.fin (decide (k < 0)) k.natAbs (2 ^ 121)) .rne

/-- VRCP (R90). -/
def vrcp (a : Lane) : Lane × Rz :=
  match f32 a with
  | .nan => (nan32, {})
  | .inf s => (if s then nzero32 else 0, {})
  | .fin s num den => if num = 0 then (if s then ninf32 else inf32, rzIf true flDZ) else rnd32 (.fin s den num) .rne

/-- VRSQ (R90). -/
def vrsq (a : Lane) : Lane × Rz :=
  match f32 a with
  | .nan => (nan32, {})
  | .inf s => if s then (nan32, rzIf true flIV) else (0, {})
  | .fin s num den =>
    if num = 0 then (if s then ninf32 else inf32, rzIf true flDZ)
    else if s then (nan32, rzIf true flIV)
    else rnd32 (sqrtRat den num) .rne

/-- VSQRT (R90). -/
def vsqrt (a : Lane) : Lane × Rz :=
  match f32 a with
  | .nan => (nan32, {})
  | .inf s => if s then (nan32, rzIf true flIV) else (inf32, {})
  | .fin s num den =>
    if num = 0 then (a, {})
    else if s then (nan32, rzIf true flIV)
    else rnd32 (sqrtRat num den) .rne

/-- exp_e(x) = VEXP2(rnd32(x × LOG2E)) (R91). -/
def expE (a : Lane) : Lane × Rz :=
  let p := mul32 .rne a 0x3FB8AA3B
  let r := vexp2 p.1
  (r.1, p.2.or r.2)

/-! ### Blend -/

/-- The weights of the two operands of a blend (R246): which operand passes exactly, or m, e1, e2. -/
inductive BlendK where
  | nan
  | first
  | second
  | mix (m e1 e2 : Lane)
  deriving DecidableEq, Repr

/-- The case of R246 that the two maxima decide, with what the weights raise apart from IV, which stands with each element that it
makes a NaN (DEDUCED, log 67). -/
def blendKind (m1 m2 : Lane) : BlendK × Rz :=
  if (f32 m1).isNan || (f32 m2).isNan then (.nan, {})
  else if m1 = ninf32 then (.second, {})
  else if m2 = ninf32 then (.first, {})
  else
    let m := max32 m1 m2
    let d1 := sub32 .rne m1 m
    let d2 := sub32 .rne m2 m
    let e1 := expE d1.1
    let e2 := expE d2.1
    (.mix m e1.1 e2.1, (((d1.2.or d2.2).or e1.2).or e2.2).onNan true)

/-- One of s and v[j] of a blend: IV where it is a NaN, whether its own steps make it one or the weights, and none where one of its
operands is a NaN (R92, R246; DEDUCED, log 67). -/
def blendWord (k : BlendK) (a b : Lane) : Lane × Rz :=
  match k with
  | .nan => (nan32, {})
  | .first => (a, {})
  | .second => (b, {})
  | .mix _ e1 e2 =>
    let p := mul32 .rne a e1
    let q := mul32 .rne b e2
    let s := add32 .rne p.1 q.1
    let w := rzIf ((f32 e1).isNan || (f32 e2).isNan) flIV
    (s.1, (((p.2.or q.2).or s.2).or w).onNan ((f32 a).isNan || (f32 b).isNan))

/-- The m of a blend. -/
def blendMax (k : BlendK) (m1 m2 : Lane) : Lane :=
  match k with
  | .nan => nan32
  | .first => m1
  | .second => m2
  | .mix m _ _ => m

/-! ### Scales -/

/-- pow2_scale(m, f) (R82) for the magnitude of a row: the least e with m × 2^−e ≤ maxmag(f), in [−128, 127]. -/
def pow2Scale (m : XR) (f : Fmt) : Int :=
  let mx : XR := if f = .bx8 then .fin false 99296875 (10 ^ 8)
    else if f.isInt then XR.ofInt f.most
    else floatVal f (f.maxBits false)
  match m, mx with
  | .fin _ 0 _, _ => 0
  | .fin _ num den, .fin _ n d =>
    let k := lgRat (num * d) (den * n)
    let fits : Bool := !(XR.fin false n d).lt ((XR.fin false num den).scale (-k))
    max (-128) (min 127 (if fits then k else k + 1))
  | _, _ => 127

end Sys2Proof
end

