-- ==== Sys2Proof/Machine/Lift.lean ====
section
/-! DEFINITION. The arithmetic of coefficient trees (R51–R58, R67–R69): headers, lifting, reconstruction and the update
of one node. Values are w-bit two's complement, held as numbers below 2^w. -/

namespace Sys2Proof

/-- asr(v, 1) of a w-bit value (R168). -/
def asr1 (w v : Nat) : Nat := intBits w (sxN v w / 2)

/-- A forward step: detail, average, whether it wraps (R56). -/
def liftPair (w x y : Nat) : Nat × Nat × Bool :=
  let e := sxN x w - sxN y w
  let d := intBits w e
  (d, (y + asr1 w d) % 2 ^ w, decide (e < -(2 ^ (w - 1) : Nat)) || decide (((2 ^ (w - 1) : Nat) : Int) ≤ e))

/-- The inverse step: left and right value (R56). -/
def unliftPair (w a d : Nat) : Nat × Nat :=
  let y := intBits w ((a : Int) - asr1 w d)
  ((y + d) % 2 ^ w, y)

/-- One level of lifting: averages, details, whether a step wraps. -/
def liftLevel (w : Nat) : List Nat → List Nat × List Nat × Bool
  | x :: y :: xs =>
    let p := liftPair w x y
    let r := liftLevel w xs
    (p.2.1 :: r.1, p.1 :: r.2.1, p.2.2 || r.2.2)
  | _ => ([], [], false)

/-- lift (R57): the body positions [0, 2^l) and whether a step wraps. -/
def lift (w : Nat) : Nat → List Nat → List Nat × Bool
  | 0, as => (as, false)
  | l + 1, as =>
    let r := liftLevel w as
    let q := lift w l r.1
    (q.1 ++ r.2.1, q.2 || r.2.2)

/-- Averages and details joined into the next level. -/
def unliftLevel (w : Nat) : List Nat → List Nat → List Nat
  | a :: as, d :: ds =>
    let p := unliftPair w a d
    p.1 :: p.2 :: unliftLevel w as ds
  | _, _ => []

/-- recon (R57): the averages of level l from the body. -/
def recon (w : Nat) : Nat → List Nat → List Nat
  | 0, body => body.take 1
  | l + 1, body => unliftLevel w (recon w l body) ((body.drop (2 ^ l)).take (2 ^ l))

/-- The details of level l, 1 or above (R53). -/
def detailsOf (l : Nat) (body : List Nat) : List Nat := (body.drop (2 ^ (l - 1))).take (2 ^ (l - 1))

/-- The magnitude of a detail (R52). -/
def magOf (w d : Nat) : Nat := (sxN d w).natAbs

/-- The bit length of a magnitude. -/
def bitLen (n : Nat) : Nat := if n = 0 then 0 else Nat.log2 n + 1

/-- The exact MAXD of a level (R52). -/
def maxdOf (w : Nat) (ds : List Nat) : Nat := bitLen (ds.foldl (fun m d => max m (magOf w d)) 0)

/-! ### Headers (R51) -/

/-- A header as its fields: SCL as a byte, W, FMT, L, VER, and MAXD as a dword. -/
structure BlkHdr where
  scl : Nat
  wrap : Bool
  fmt : Nat
  levels : Nat
  ver : Nat
  maxd : Nat
  deriving DecidableEq, Repr

/-- Dword 0 read as a header. -/
def BlkHdr.ofDwords (d0 d1 : Nat) : BlkHdr :=
  { scl := fld d0 40 8, wrap := flag d0 38, fmt := fld d0 36 2, levels := fld d0 32 4, ver := fld d0 0 32, maxd := d1 }

/-- Dword 0 of a header. -/
def BlkHdr.dword0 (h : BlkHdr) : Nat :=
  h.scl * 2 ^ 40 + bit h.wrap * 2 ^ 38 + h.fmt * 2 ^ 36 + h.levels * 2 ^ 32 + h.ver

/-- MAXD of level l as a reader takes it (R52). -/
def BlkHdr.maxdAt (h : BlkHdr) (w l : Nat) : Nat := min w (fld h.maxd (8 * (l - 1)) 8)

/-- MAXD of level l written. -/
def setMaxd (maxd l v : Nat) : Nat := maxd - fld maxd (8 * (l - 1)) 8 * 2 ^ (8 * (l - 1)) + v * 2 ^ (8 * (l - 1))

/-- Exact MAXD of levels 1 to l written, from the body. -/
def exactMaxd (w : Nat) (body : List Nat) : Nat → Nat → Nat
  | 0, maxd => maxd
  | l + 1, maxd => setMaxd (exactMaxd w body l maxd) (l + 1) (maxdOf w (detailsOf (l + 1) body))

/-- The code of a block format: 0 i8, 1 i16, 2 i32 (R51). -/
def fmtNo : Fmt → Nat
  | .i8 => 0
  | .i16 => 1
  | _ => 2

/-- The checks of R55 on a header, in the order of the table: L, FMT and reserved bits; the format; L; the level. -/
def hdrFault (d0 : Nat) (f : Fmt) (l lev : Nat) : Option Nat :=
  if fld d0 48 16 ≠ 0 ∨ flag d0 39 ∨ fld d0 36 2 = 3 ∨ fld d0 32 4 = 0 ∨ 8 < fld d0 32 4 then some 0x02
  else if fld d0 36 2 ≠ fmtNo f then some 0x04
  else if fld d0 32 4 ≠ l then some 0x02
  else if l < lev then some 0x02
  else none

/-- The bytes of a prefix of level l: header and body positions [0, 2^l) (R53). -/
def prefixBytes (f : Fmt) (l : Nat) : Nat := 16 + 2 ^ l * f.bytes

/-- A block lies where R54 asks for. -/
def blockPlaced (va : Nat) (f : Fmt) (l : Nat) : Bool :=
  decide (va % 128 = 0) && decide (va % 2048 + 16 + 2 ^ l * f.bytes ≤ 2048)

/-! ### A node update (R69) -/

/-- The path of a node update from level `lev` up: the body, MAXD, whether a step wrapped, and the root. `olds lev` are
the old averages of a level. -/
def nodePath (w : Nat) (olds : Nat → List Nat) : Nat → Nat → Nat → List Nat × Nat × Bool → List Nat × Nat × Bool
  | 0, _, cur, r => (r.1.set 0 cur, r.2)
  | lev + 1, idx, cur, r =>
    let sib := (olds (lev + 1)).getD (if idx % 2 = 0 then idx + 1 else idx - 1) 0
    let p := if idx % 2 = 0 then liftPair w cur sib else liftPair w sib cur
    let old := min w (fld r.2.1 (8 * lev) 8)
    nodePath w olds lev (idx / 2) p.2.1
      (r.1.set (2 ^ lev + idx / 2) p.1, setMaxd r.2.1 (lev + 1) (min w (max old (bitLen (magOf w p.1)))), r.2.2 || p.2.2)

/-- The block after a node update: header and body positions [0, 2^l) rewritten. -/
def nodeUpdate (w l k v : Nat) (add : Bool) (h : BlkHdr) (body : List Nat) : BlkHdr × List Nat :=
  let cur := if add then ((recon w l body).getD k 0 + v) % 2 ^ w else v
  let r := nodePath w (fun lev => recon w lev body) l k cur (body, h.maxd, false)
  ({ h with ver := (h.ver + 1) % 2 ^ 32, wrap := h.wrap || r.2.2, maxd := r.2.1 }, r.1)

/-- The block that TSTB writes (R67). -/
def wholeBlock (w l ver scl fmt : Nat) (leaves : List Nat) : BlkHdr × List Nat :=
  let r := lift w l leaves
  ({ scl := scl, wrap := r.2, fmt := fmt, levels := l, ver := (ver + 1) % 2 ^ 32, maxd := exactMaxd w r.1 l 0 }, r.1)

/-- The header and the positions [0, 2^l) that TSTL writes (R68). -/
def levelWrite (w l : Nat) (h : BlkHdr) (avgs : List Nat) : BlkHdr × List Nat :=
  let r := lift w l avgs
  ({ h with ver := (h.ver + 1) % 2 ^ 32, wrap := h.wrap || r.2, maxd := exactMaxd w r.1 l h.maxd }, r.1)

end Sys2Proof
end

