-- ==== Sys2Proof/Machine/Maps.lean ====
section
/-! DEFINITION. Finite maps as plain data. A map is a list of (key, value) pairs with strictly rising keys; what an
unlisted key reads as is the default `d`, and no listed value equals it, so that equal maps are equal lists. Registers,
local memories and device memory are all held so. `aGet` and `aSet` hold structures, whose defaults are kept listed. -/

namespace Sys2Proof

/-- A map from Nat keys. -/
abbrev SMap (α : Type) := List (Nat × α)

/-- What key `k` reads as. -/
def smGet {α : Type} (d : α) : SMap α → Nat → α
  | [], _ => d
  | p :: m, k => if p.1 = k then p.2 else smGet d m k

/-- The listed pairs of `vals` from key `base` on, without the defaults. -/
def smCells {α : Type} [DecidableEq α] (d : α) : Nat → List α → SMap α
  | _, [] => []
  | base, v :: vs => if v = d then smCells d (base + 1) vs else (base, v) :: smCells d (base + 1) vs

/-- Keys `base`, `base + 1`, … take the values of `vals`; every other key keeps its value. -/
def smSetRange {α : Type} [DecidableEq α] (d : α) (m : SMap α) (base : Nat) (vals : List α) : SMap α :=
  m.filter (fun p => decide (p.1 < base)) ++ smCells d base vals ++
    m.filter (fun p => decide (base + vals.length ≤ p.1))

/-- Key `k` takes the value `v`. -/
def smSet {α : Type} [DecidableEq α] (d : α) (m : SMap α) (k : Nat) (v : α) : SMap α :=
  smSetRange d m k [v]

/-- The values of `n` keys from `base` on. -/
def smGetRange {α : Type} (d : α) (m : SMap α) (base n : Nat) : List α :=
  let hit := m.filter (fun p => decide (base ≤ p.1) && decide (p.1 < base + n))
  (List.range n).map (fun i => smGet d hit (base + i))

/-- The keys rise strictly. -/
def smRising {α : Type} : SMap α → Bool
  | [] => true
  | [_] => true
  | p :: q :: m => decide (p.1 < q.1) && smRising (q :: m)

/-- The canonical form: rising keys, no default listed. -/
def smWf {α : Type} [DecidableEq α] (d : α) (m : SMap α) : Bool :=
  smRising m && m.all (fun p => decide (p.2 ≠ d))

/-- What a byte of memory that nothing has written reads as. Device memory reads zero after bring-up (R379, STAGE 6);
local memories and the memories of the host and of peers: log entries 3 and 5. -/
def Memory.unlisted : Byte := 0

/-- The canonical form of a memory: addresses strictly rising, no entry equal to what an unlisted address reads as. -/
def Memory.wf (m : List Host.Cell) : Bool := smWf Memory.unlisted m

/-- Structures by key. -/
def aGet {α : Type} (d : α) : SMap α → Nat → α
  | [], _ => d
  | p :: m, k => if p.1 = k then p.2 else aGet d m k

/-- A structure by key, if it is listed. -/
def aFind {α : Type} (m : SMap α) (k : Nat) : Option α :=
  (m.find? (fun p => p.1 = k)).map (·.2)

/-- Key `k` holds `v`, which stays listed. -/
def aSet {α : Type} (m : SMap α) (k : Nat) (v : α) : SMap α :=
  m.filter (fun p => decide (p.1 < k)) ++ (k, v) :: m.filter (fun p => decide (k < p.1))

/-- Key `k` is listed no longer. -/
def aDel {α : Type} (m : SMap α) (k : Nat) : SMap α :=
  m.filter (fun p => decide (p.1 ≠ k))

/-- Sets of numbers: rising lists. -/
def nsAdd (m : List Nat) (k : Nat) : List Nat :=
  m.filter (fun p => decide (p < k)) ++ k :: m.filter (fun p => decide (k < p))

/-- Without `k`. -/
def nsDel (m : List Nat) (k : Nat) : List Nat := m.filter (fun p => decide (p ≠ k))

/-- Without the numbers of a range. -/
def nsDelRange (m : List Nat) (base n : Nat) : List Nat :=
  m.filter (fun p => decide (p < base) || decide (base + n ≤ p))

/-- Whether a range meets the set. -/
def nsHits (m : List Nat) (base n : Nat) : Bool :=
  m.any (fun p => decide (base ≤ p) && decide (p < base + n))

/-- `n` numbers from `base` on, added. -/
def nsAddRange (m : List Nat) (base : Nat) : Nat → List Nat
  | 0 => m
  | n + 1 => nsAddRange (nsAdd m (base + n)) base n

end Sys2Proof
end

