-- ==== Sys2Proof/Machine/State.lean ====
section
/-! DEFINITION. The state of a K384: everything the spec gives the machine, as plain data, and the state right after
reset. Core state stands once per cask (R321); device state stands in `Dev`. INVENTORY.md lists every piece with its
rule and its reset value. -/

namespace Sys2Proof.Machine

open Sys2Proof

/-- Why the machine itself stops. Faults of the K384 (R330) are no stops of the model: they are next states, in which
the core has stopped or its handler runs (R331, R347). -/
inductive Fault where
  /-- Raised by `step` when the turn names a core the device does not have (R1: cores are numbered 0–383). Safe. -/
  | noSuchCore
  deriving DecidableEq, Repr

/-- Why an instruction has no meaning. -/
inductive Refusal where
  /-- Raised by an arm of `exec` whose instruction has no meaning yet. Safe. -/
  | notModelled (mnemonic : String)
  deriving DecidableEq, Repr

/-- A fault as an engine raises it: its code (R330), the faulting VA or block address (frame word 1) and the status
(frame word 2). -/
structure Flt where
  code : Nat
  va : Word := 0
  stat : Word := 0
  deriving DecidableEq, Repr, Inhabited

/-! ### Turns -/

/-- Who moves at a step (log 1): K, an engine, M with a word that issues now and finishes at a later step (R223), the
issued word `k` of M that finishes now, entry `pos` of a copy queue, the K store buffer, the L1, which writes a dirty line
home and keeps it (R300), a home slice, whose L2 takes in or gives up a line (R358, R361), a slice or a station of a
partition that adopts a new slice map (R359), stage-1 firmware, which raises the fused minimum SVN of a stage (R384), the
physical function, which reads a register of BAR0 (R379, R387, R390), or one of the events of the opcode table. -/
inductive Agent where
  | k
  | eng (e : Eng)
  | issue
  | finish (k : Nat)
  | y (q : YNo) (pos : Nat)
  | buf
  | clean (asid : BitVec 10) (line : Nat)
  | l2 (fill : Bool) (asid : BitVec 10) (line : Nat)
  | adopt (part : Nat) (slice : Bool) (i : Nat)
  | fuse (stage svn : Nat)
  | bar (r : BarReg)
  | ev (i : Instr)
  deriving DecidableEq, Repr, Inhabited

/-- Which core, cask and agent move next, and how many further units of work the agent gets done (log 1). -/
structure Turn where
  core : Nat
  cask : Bool
  agent : Agent
  burst : Nat
  deriving DecidableEq, Repr, Inhabited

/-- A wait or stall that the watchdog times (R336): the RTC value at which it began (the elapsed time while the cask
is switched out), the tick of the last attempt, and whether it is a token wait (R28). -/
structure Wait where
  since : Nat
  tried : Nat
  token : Bool
  deriving DecidableEq, Repr

/-! ### One cask -/

/-- K's registers and the privileged registers of a cask (R34, R196, R308). `priv`: inside a handler, at system
privilege (R307, R347). -/
structure KRegs where
  s : SMap Word
  kpc : Nat
  priv : Bool
  hvec : Nat
  asid : BitVec 10
  lq : BitVec 8
  lid : BitVec 32
  wdog : BitVec 32
  monen : Bool
  estv : BitVec 32
  tag : Word
  cyc : Word
  deriving DecidableEq, Repr

/-- Local memories of a cask and the poisoned addresses in each (R32, R37, R38, R344, R346). The keys of `acmP` are
byte offsets of the map of R39. `spare`: the 64 KiB of the ACM that hold neither tiles nor accumulators (R3). -/
structure LocalMem where
  spm : SMap Byte
  spare : SMap Byte
  klm : SMap Byte
  ik : SMap Byte
  il : SMap Byte
  im : SMap Byte
  is : SMap Byte
  spmP : List Nat
  klmP : List Nat
  acmP : List Nat
  ikP : List Nat
  ilP : List Nat
  imP : List Nat
  isP : List Nat
  deriving DecidableEq, Repr

/-- One copy of a nest table (R43): base, log2 of the element size, target, six levels of count and stride. -/
structure NestCopy where
  base : Word
  elog : Nat
  toSpm : Bool
  target : Nat
  levels : List (Nat × Int)
  deriving DecidableEq, Repr

/-- A nest table: active copy, shadow copy, READY (R43). `jnum`: the journal entry of the shadow (R337). -/
structure Nest where
  act : NestCopy
  shd : NestCopy
  ready : Bool
  jnum : Nat
  deriving DecidableEq, Repr

/-- A marker queued in an engine: its number and the words ahead of it that have not retired (R46): words still to be
issued, and settled TSTN words. `toHalt`: it stands behind every word to the HALTE. -/
structure Mark where
  n : BitVec 16
  ahead : Nat
  owed : List Nat
  deriving DecidableEq, Repr

/-- What a TLD or TRF has read of one block: its header; the values of its nodes, the mask bits and the values of the fine
row, for a TLD (R59–R64); for a TRF the position and the values of each group (R65). -/
structure BlkRead where
  hdr : BlkHdr
  vals : List Nat := []
  mask : List Bool := []
  fine : List Nat := []
  groups : List (Nat × List Nat) := []
  deriving DecidableEq, Repr

/-- The point in progress of a word that moves it piece by piece (R114): whether it has been laid out, the pieces still to
move (place in the bytes, address, length), the bytes; the scale and the counts of a row of a DRN; the mask of a group of
blocks and the blocks read so far. -/
structure Point where
  opened : Bool := false
  parts : List (Nat × Nat × Nat) := []
  data : List Byte := []
  scale : Int := 0
  counts : List Nat := []
  mask : Nat := 0
  blks : List BlkRead := []
  deriving DecidableEq, Repr

/-- No point in progress. -/
def Point.none : Point := {}

/-- The word an engine works on: it has passed its checks and taken its pops, and has not retired. `begun`: it has
issued (a word that still waits for READY, for FQ or for a ring has not, R223); its completion number, its place, its
progress (R202), whether it swapped its nest (R43) and the journal entry that frees (R337), the pops it took, the
format word it holds and the place of that word among all that FQ has given (R333), whether it is settled, the token scopes
it started under (R106), counts and row scales of a DRN so far (R220, R341), the rings it names (R42), those whose HEAD
advances when it retires (R41), whether it is a reissued word, what it has read and not yet written, the point in progress,
where the engine goes on if not at the next word (0: word n of the section, 1: the section at n, 2: halted, 3: the stream of
a new image at n), the section that ends with it, and which of its pushes it has made: each FIFO has its own room (R45). -/
structure Flight where
  begun : Bool
  cn : Nat
  hoff : Nat
  idx : Nat
  prog : Nat
  swp : Bool
  jfree : Option Nat
  popP : Nat
  popN : Nat
  fmtw : Option Word
  fmtn : Nat
  settled : Bool
  tks : BitVec 12
  pnan : Nat
  pinf : Nat
  psat : Nat
  pwrp : Nat
  scales : List Int
  rings : List Nat
  pops : List Nat
  again : Bool
  aux : List Nat
  pt : Point
  jump : Option (Nat × Nat)
  ends : Option (BitVec 16)
  donP : Bool
  donN : Bool
  deriving DecidableEq, Repr

/-- A TSTN that is settled and has not finished: its completion number, the pushes that it has still to make, and whether its
TNODE has completed, so that only the pushes remain (R45, R222, R340). -/
structure Owed where
  cn : Nat
  hp : Bool
  hn : Bool
  ready : Bool
  deriving DecidableEq, Repr

/-- A word that a stop left unsettled, to be reissued (R340). `scales`: those of the rows that a DRN has stored (R220).
`aux`: rows that it has read and not yet pushed (R64). -/
structure Redo where
  cn : Nat
  hoff : Nat
  idx : Nat
  prog : Nat
  swp : Bool
  jfree : Option Nat
  pnan : Nat
  pinf : Nat
  psat : Nat
  pwrp : Nat
  scales : List Int
  aux : List Nat
  deriving DecidableEq, Repr

/-- What the interlock of M watches (R223, R262): registers, tiles, accumulators, rings, the side-band latch, the order of
the vector words at the SPM (R103), and `n` bytes of the SPM from `a` on (log 26). -/
inductive Res where
  | x (n : XReg)
  | v (n : VReg)
  | m (n : MReg)
  | c (n : CTile)
  | q (n : QReg)
  | ring (n : RingNo)
  | latch
  | vmem
  | spm (a n : Nat)
  deriving DecidableEq, Repr

/-- The units of M (R223). -/
inductive MUnit where
  | array | vector | port
  deriving DecidableEq, Repr

/-- A word of M that has issued and has not finished while later ones issue (R223): the word, how it stands, the x registers
as they were when it issued (R180), what it reads and writes, its unit, whether a stop cancels it (R263), and the wait of
its pushes. -/
structure Late where
  i : Instr
  f : Flight
  x : SMap Word
  reads : List Res
  writes : List Res
  unit : MUnit
  apply : Bool
  wait : Option Wait
  deriving DecidableEq, Repr

/-- What stands aside while word `k` of the late words of M finishes: its entry, and the engine's own word, wait and x
registers. -/
structure Held where
  k : Nat
  l : Late
  flight : Option Flight
  wait : Option Wait
  ewr : List (Nat × Word)
  x : SMap Word
  deriving DecidableEq, Repr

/-- One of L, M and S. `nests` is unused in M. `rsnPend`: sections whose words have all issued and that wait for TSTN
words to finish before the retired section number takes theirs (R156). `redo`: words to be reissued before the engine
goes on at its place. `iters`: the iterations of lp0 begun since LOOPB armed the engine; `need`: the iteration that the
next word waits to begin (R206); `skewFree`: L's counter has reached 0 since (R179). `late` and `held`: the words of M that
have issued and not finished (R223); `done`: number, header and index of the settled words that issued behind a word that is
not (R333, R335). -/
structure EngSt where
  x : SMap Word
  lp : SMap Nat
  lpStart : SMap Nat
  rpt : Nat
  skew : Nat
  iters : Nat
  need : Option Nat
  skewFree : Bool
  rsn : BitVec 16
  retired : Bool
  rsnPend : List (BitVec 16 × List Nat)
  hoff : Nat
  idx : Nat
  started : Bool
  snum : BitVec 16
  count : Nat
  nfa : Bool
  halted : Bool
  cn : Nat
  flight : Option Flight
  owed : List Owed
  redo : List Redo
  late : List Late
  held : Option Held
  done : List (Nat × Nat × Nat)
  ewr : List (Nat × Word)
  marks : List Mark
  aligned : Option Nat
  nests : SMap Nest
  wait : Option Wait
  deriving DecidableEq, Repr

/-- An orthogonal accumulator (R250). Keys: V[r][k] at 128 * k + r, T[i][k] at 64 * i + k. -/
structure QAcc where
  v : SMap Lane
  t : SMap Lane
  n : Nat
  kc : Nat
  rack : Bool
  tr : Bool
  base : Nat
  bmax : Nat
  b : Nat
  deriving DecidableEq, Repr

/-- M's registers (R34, R36, R243). Keys: lane i of v_k at 128 * k + i; c_n[r][j] at 16384 * n + 128 * r + j. -/
structure MSt where
  v : SMap Lane
  m : SMap (BitVec 128)
  c : SMap Lane
  q : SMap QAcc
  flags : BitVec 5
  mxc : SMap Nat
  latch : BitVec 512
  deriving DecidableEq, Repr

/-- A ring (R40): word 0 as it reads, HEAD and TAIL, the side-bands of its rows at 128 * slot + row (R61), and the
two sides of a PIPE binding: where a producer's tiles go, where a consumer's come from, as 2 * core + cask and a ring
number (R287). -/
structure Ring where
  w0 : Word
  head : Nat
  tail : Nat
  sb : SMap (BitVec 512)
  toPipe : Option (Nat × Nat)
  fromPipe : Option (Nat × Nat)
  deriving DecidableEq, Repr

/-- The six token FIFOs (R6, R45). -/
structure Tokens where
  lm : Nat
  ml : Nat
  ms : Nat
  sm : Nat
  sl : Nat
  ls : Nat
  deriving DecidableEq, Repr

/-- An entry of the marker table (R46): number, mask, pending set, and the number of the last command forked before the MARK
(R108). -/
structure MarkEnt where
  n : BitVec 16
  mask : KMask
  pend : KMask
  cnum : Nat
  deriving DecidableEq, Repr

/-- What couples the engines (R40–R48, R106). `fqWait`: the consumers that have reached FQ, in order, with the RTC
value at which each did (R44). `fqPops`: how many words FQ has given, by which they go back in order (R333). -/
structure Coupling where
  rings : SMap Ring
  fq : List Word
  fqWait : List (Eng × Nat)
  fqPops : Nat
  tok : Tokens
  ev : SMap (BitVec 32)
  mtab : SMap MarkEnt
  lastMark : Option (BitVec 16)
  rv : Word
  dth : BitVec 32
  tks : BitVec 12
  deriving DecidableEq, Repr

/-- A copy command in its queue: its 128 bytes as forked, its numbers, and how far it has come (R265–R271). `forked`: the
step at which it was forked (R284). `path`: the path list that a KVCMT has read (R281). `cls`: the widest class among the
locations that a command with return data has touched (R113). `owner`: the TSTN that forked it, with its pushes (R222). `part`, `left` and `data`: how far its unit in progress has come, the
pieces that it has still to move and the bytes that it has read (R114). -/
structure YEnt where
  bytes : List Byte
  cnum : Nat
  jnum : Nat
  begun : Bool
  cursor : Nat
  flags : BitVec 5
  wraps : Nat
  sats : Nat
  infs : Nat
  nans : Nat
  status : Nat
  done : Bool
  tbeg : Word
  forked : Nat
  path : Option (List Nat)
  cls : Nat
  owner : Option Owed
  part : Nat
  left : List Nat
  data : List Byte
  wait : Option Wait
  deriving DecidableEq, Repr

/-- A chain that Y has not finished fetching: the journal number of its start, the VA of its next entry and the queue
that entry goes to (R183, R342). `queue` is none when the entry's own QUEUE names it. -/
structure Chain where
  start : Nat
  next : Word
  queue : Option Nat
  wait : Option Wait
  deriving DecidableEq, Repr

/-- A marker that Y holds: its number and the commands ahead of it that have not completed (R46). -/
structure YMark where
  n : BitVec 16
  cnums : List Nat
  deriving DecidableEq, Repr

/-- A command with return data that has completed and that K has not joined: its queue, its number, the widest class that it
touched, the counters of its own core that its completion incremented and the address of its record (R108, R113). -/
structure Unjoined where
  queue : Nat
  cnum : Nat
  cls : Nat
  evs : List Nat
  rec_ : Option Nat
  deriving DecidableEq, Repr

/-- The copy engine of a cask. `parked`: no command goes on (R270). `failed`: a fault of Y stopped the core, in this
queue, or in the fetch of a chain (4): no command begins, and those that have begun go on in the other queues (R165). -/
structure YSt where
  queues : SMap (List YEnt)
  cnum : Nat
  ycn : Nat
  ydone : List Nat
  staging : SMap Byte
  written : BitVec 4
  jhead : Nat
  jtail : Nat
  jfreed : List Nat
  chains : List Chain
  marks : List YMark
  unjoined : List Unjoined
  parked : Bool
  failed : Option Nat
  deriving DecidableEq, Repr

/-- A K store that is not yet in the L1 (R101, R102): its VA and bytes, the ASID it issued under, and the canonical pair
that its translation gave it (R357). -/
structure StoreEnt where
  va : Nat
  bytes : List Byte
  asid : BitVec 10
  casid : BitVec 10
  cva : Nat
  deriving DecidableEq, Repr

/-- A pending overlay (R198): streams' VAs, lengths and offsets in bytes, trailer mask, whether the load has
finished, and the fault it met. -/
structure Overlay where
  vas : List Word
  lens : List Nat
  offs : List Nat
  trailer : BitVec 7
  loaded : Bool
  flt : Option Flt
  deriving DecidableEq, Repr

/-- Where a strand stands in a barrier it has arrived in (R190, R191): the crew, or none for the superstep, the phase,
and for a CBARD that it drops. -/
structure Arrived where
  crew : Option Nat
  phase : Nat
  deriving DecidableEq, Repr

/-- The strand of a cask and what K waits on. `arr`: the arrivals it has not returned from (R190). `ybound`: the last
command number issued when an SSTEP began to wait (R24). `frame`: the hardware frame (R334). `deferred`: a fault held
for the next switch-in (R332), with its queue and command number. -/
structure Strand where
  live : Bool
  ord : Nat
  held : Option Nat
  frame : SMap Word
  stopped : Bool
  kstop : Bool
  lees : SMap Word
  armed : Option (Nat × Nat)
  evt : Bool
  spur : Bool
  gDie : Nat
  gDev : Nat
  gSys : Nat
  ovl : Option Overlay
  trailer : BitVec 7
  extents : List (Nat × Nat)
  arr : List Arrived
  ybound : Option Nat
  sbuf : List StoreEnt
  wait : Option Wait
  ckpt : Bool
  deferred : Option (CoreUnit × Flt × Nat × Nat)
  deriving DecidableEq, Repr

/-- The state a cask has one copy of (R321). -/
structure Cask where
  kr : KRegs
  mem : LocalMem
  eL : EngSt
  eM : EngSt
  eS : EngSt
  mx : MSt
  cp : Coupling
  yy : YSt
  st : Strand
  deriving DecidableEq, Repr

/-! ### One core -/

/-- An L1 line (R98–R100): its tag, its bytes, which are dirty and which poisoned (bit i for byte i), the stamps, the
fill that brought it (R71), whether its page may be written, the page type (R96), and whether it has been marked stale,
whatever its stamps (R100, R109). -/
structure L1Line where
  asid : BitVec 10
  line : Nat
  data : List Byte
  dirty : BitVec 128
  pois : BitVec 128
  gDie : Nat
  gDev : Nat
  gSys : Nat
  fill : Nat
  w : Bool
  ty : Nat
  stale : Bool
  deriving DecidableEq, Repr

/-- An entry of the station's table of synonyms (R357): the requester's pair, the canonical pair, and the requester's
own permission to write. -/
structure Syn where
  asid : BitVec 10
  page : Nat
  casid : BitVec 10
  cpage : Nat
  w : Bool
  deriving DecidableEq, Repr

/-- A monitor counter with its selector (R390). -/
structure Mon where
  sel : Word
  val : BitVec 48
  deriving DecidableEq, Repr

/-- A request for a line that a slice has turned away in a change of the slice map, or will (R359, R360): the unit that asks
(5 * cask + the unit's number), for Y the queue and the number of the command, the line, the generation that was being adopted
when it was sent last, the slice that has it and has not answered, and the REMAP_NACKs that it has taken in a row. -/
structure Ask where
  unit : Nat
  queue : Nat
  cnum : Nat
  asid : BitVec 10
  line : Nat
  gen : BitVec 8
  slice : Option Nat
  nacks : Nat
  deriving DecidableEq, Repr

/-- A core: its casks, the residency mode and the cask that issues (R309), what it has once. `fills`: the next fill's
number. `asks`: the requests that wait for the new slice map (R360). -/
structure Core where
  k0 : Cask
  k1 : Cask
  cur : Bool
  dual : Bool
  l1 : List L1Line
  syn : List Syn
  mon : SMap Mon
  fills : Nat
  asks : List Ask
  deriving DecidableEq, Repr

/-! ### The device -/

/-- A launch queue's registers (R310, R311); `ctl` as LQCTL reads, `pass` of 64 bits (R315). `taken`: the launch of
its head record, while it runs or waits. `tickets` and `open_`: TICKETS and EN as the last boundary read them (R311, R316). -/
structure LQueue where
  base : Word
  ctl : Word
  head : Nat
  tail : Nat
  pass : Nat
  taken : Option Nat
  tickets : Nat
  open_ : Bool
  deriving DecidableEq, Repr

/-- An arrival at a barrier: strand ordinal, ring cycle, whether it is a drop (R26). -/
structure Arrival where
  ord : Nat
  at_ : Nat
  drop : Bool
  deriving DecidableEq, Repr

/-- A crew, or the superstep (R21, R24): members (unused in the superstep), phase, arrivals in the current phase, and
each strand's start of the phase (R27). -/
structure Crew where
  members : List Nat
  phase : Nat
  arrived : List Arrival
  start : Nat
  starts : SMap Nat
  deriving DecidableEq, Repr

/-- The pre-emption policies (R326). -/
inductive Policy where
  | drain | kill | checkpoint
  deriving DecidableEq, Repr

/-- A launch the scheduler has taken (R9–R31, R312–R329). `lease`: (core, cask), in increasing core id; `granted`: it
holds its cores; `lists`: the press lists by core; `aged`: the tiles on the lists have spent the ageing interval
(R18); `ests`: the latest EST of each strand (R194); `saved`: strands saved by a single-resident checkpoint (R327);
`incs`: increments held for strands that have not started: core, counter, increment (R304). -/
structure Launch where
  queue : Nat
  asid : BitVec 10
  dwords : List Word
  lease : List (Nat × Bool)
  granted : Bool
  begun : Bool
  started : List Nat
  ended : List Nat
  startAt : Nat
  lists : SMap (List Nat)
  aged : Bool
  crews : SMap Crew
  sstep : Crew
  tiles : Nat
  ests : SMap Nat
  policy : Option Policy
  drainAt : Nat
  gangT : Option Nat
  glate : Nat
  incs : List (Nat × Nat × BitVec 32)
  argVa : Word
  saved : SMap Cask
  deriving DecidableEq, Repr

/-- A partition (R363, R358, R359, R361): core ids, slices, functions, PA ranges in 64 KiB granules, residency, the
slice map and the staged one, SMGEN, L2POL. While BUSY is 1, `next` is the map that is being adopted, `adopted` the slices
and `stations` the cores that have adopted it. -/
structure Partition where
  cores : List Nat
  slices : List Nat
  fns : List Nat
  ranges : SMap (Nat × Nat)
  dual : Bool
  smap : SMap Nat
  staged : SMap Nat
  next : SMap Nat
  adopted : List Nat
  stations : List Nat
  gen : BitVec 8
  busy : Bool
  l2pol : BitVec 8
  deriving DecidableEq, Repr

/-- A line that the L2 of a home slice holds (R349, R358, R359): its tag, its bytes, which of them are dirty and which
poisoned, and the leaf under which it was brought in, by which a hit is served without a walk (R354): the log2 of its page and
the entry. -/
structure L2Line where
  asid : BitVec 10
  line : Nat
  data : List Byte
  dirty : BitVec 128
  pois : BitVec 128
  lg : Nat
  pte : Word
  deriving DecidableEq, Repr

/-- A cached leaf of a translation cache (R354): controller, ASID, VA and log2 size of the page, and the leaf. -/
structure Leaf where
  ctl : Nat
  asid : BitVec 10
  va : Nat
  lg : Nat
  pte : Word
  deriving DecidableEq, Repr

/-- A synonym filter's entry (R357). -/
structure SynEnt where
  ctl : Nat
  frame : Nat
  casid : BitVec 10
  cpage : Nat
  deriving DecidableEq, Repr

/-- An entry of the vintage table (R195, R319): `seen` is set once the core has been enabled since boot. -/
structure Vint where
  exf : Nat
  apxf : Nat
  tcls : Nat
  en : Bool
  spare : Bool
  seen : Bool
  deriving DecidableEq, Repr

/-- The result of a FRED that waits for this device's command: the data, the flags and the counts that the combining
nodes raised (R285, R305), and whether the device has written it. -/
structure FredResult where
  data : List Byte
  fl : BitVec 5
  nans : Nat
  infs : Nat
  wraps : Nat
  written : Bool
  deriving DecidableEq, Repr

/-- A contribution to a FRED that the routers hold (R284): TAG, rank, dwords 6, 7 and 10, the participants and, of this device's
own, the data. -/
structure Contrib where
  tag : Nat
  rank : Nat
  d6 : Word
  d7 : Word
  d10 : Word
  mask : Word
  data : List Byte
  deriving DecidableEq, Repr

/-- The value of a subtree of a FRED's nodes that the router of a rank has sent here: TAG, the rank, the data, the flags and the
counts that the nodes have raised (R285, R371). -/
structure NodeVal where
  tag : Nat
  rank : Nat
  data : List Byte
  fl : BitVec 5
  nans : Nat
  infs : Nat
  wraps : Nat
  deriving DecidableEq, Repr

/-- A packet as it leaves: the port that it takes, the rank that it comes from, and its flow: source core id plus source queue
(R370). -/
structure Sent where
  port : Nat
  org : Nat
  src : Nat
  pkt : Packet
  deriving DecidableEq, Repr

/-- A write of the scheduler that a slice holds while the slice map changes (R359): partition, ASID, VA, bytes. -/
structure Posted where
  part : Nat
  asid : BitVec 10
  va : Nat
  bytes : List Byte
  deriving DecidableEq, Repr

/-- An aperture window as written (R366). -/
structure Window where
  v : Bool
  asid : BitVec 10
  page : Nat
  deriving DecidableEq, Repr

/-- The security processor (R379–R389). `log` holds entries of 128 bytes. `flr`: the sequence in progress is that of a PF_FLR
(R378). `job`: SMCMD of the command that runs, while BUSY is 1 (R387). -/
structure Secure where
  stage : Nat
  err : Nat
  flr : Bool
  recovery : Bool
  slotB : Bool
  failch : Nat
  ms : SMap (List Byte)
  log : List (List Byte)
  svn : SMap Nat
  result : Nat
  lost : Bool
  job : Option Word
  mbox : SMap Byte
  image : Option (List Byte)
  deriving DecidableEq, Repr

/-- Everything outside the cores. Keys of `pmem`: rank * 2^64 + VA in the peer's mapping. `l2`: the lines in the L2s of the
home slices, over `dmem`. `shadow`: what a read from the PCI Express controller still sees of words that a combining
buffer covers, with the line's last combine and its slice in `combT` (R277, R124). `freed`: casks that completed launches have freed since the last boundary; `grantDue`: partitions
in which one has completed since cores were last granted (R316). `hostOk`, `hostData`: how the last request of the host was
answered (R366, R124). `sched`: SCHEDCTL as the last boundary read it (R318). `gangTook`: the members of a gang that have taken
its record, as rank 0 knows them: gang id, rank, RTC; `gangLate`: rank and gang id of the members that are late (R328,
R329). `trained`: every channel passed training at the last cold reset (R378). `svnMin`: fused minimum SVNs as
they have been raised, by stage (R384). -/
structure Dev where
  rtc : Nat
  dmem : List Host.Cell
  hmem : List Host.Cell
  pmem : List Host.Cell
  dmemP : List Nat
  hmemP : List Nat
  pmemP : List Nat
  l2 : List L2Line
  shadow : SMap (Option Byte)
  combT : SMap (Nat × Nat)
  vint : SMap Vint
  lqs : SMap LQueue
  schedctl : Word
  sched : Word
  freed : List (Nat × Bool)
  grantDue : List Nat
  quant : Nat
  capf : Nat
  capfNew : Nat
  lastQ : Nat
  lastP : Nat
  launches : SMap Launch
  parts : SMap Partition
  ctxbase : Word
  aslot : SMap (BitVec 8)
  leaves : List Leaf
  synf : List SynEnt
  cdtab : SMap (BitVec 8)
  cdlen : SMap Nat
  wins : SMap Window
  hostOk : Bool
  hostData : List Byte
  migDone : Bool
  fgrp : Word
  froute : SMap (BitVec 16)
  contribs : List Contrib
  nodes : List NodeVal
  results : SMap FredResult
  agreed : List Nat
  disagree : List Nat
  out : List Sent
  posted : List Posted
  gangTook : List (Nat × Nat × Nat)
  gangLate : List (Nat × Nat)
  logbase : Word
  logctl : Word
  logwr : Nat
  logrd : Nat
  logovf : Nat
  smon : SMap Mon
  cmon : SMap Mon
  trip : Bool
  tio : Nat
  tds : SMap Nat
  pmod : Nat
  tthr : Nat
  plimw : Nat
  sec : Secure
  trained : Bool
  svnMin : SMap Nat
  deriving DecidableEq, Repr

/-- The K384. `tick` counts the steps: the free values of Config are taken at it (log 1). -/
structure State where
  cores : SMap Core
  dev : Dev
  turn : Turn
  tick : Nat
  deriving DecidableEq, Repr

/-! ### Reset -/

/-- K's registers at strand start, with no launch (R34; logs 2). -/
def KRegs.reset (dual : Bool) : KRegs :=
  { s := [(6, BitVec.allOnes 64), (7, BitVec.allOnes 64), (8, BitVec.allOnes 64),
          (63, if dual then 0x00010000 else 0x00030000)],
    kpc := 0, priv := false, hvec := 0, asid := 0, lq := 0, lid := 0, wdog := 0, monen := false, estv := 0, tag := 0,
    cyc := 0 }

/-- Local memories that read zero everywhere (R322, R144; log 3). -/
def LocalMem.reset : LocalMem :=
  { spm := [], spare := [], klm := [], ik := [], il := [], im := [], is := [], spmP := [], klmP := [], acmP := [], ikP := [],
    ilP := [], imP := [], isP := [] }

/-- A nest copy at reset: levels count 1, stride 0 (R176), the rest log 2. -/
def NestCopy.reset : NestCopy :=
  { base := 0, elog := 0, toSpm := false, target := 0, levels := List.replicate 6 (1, 0) }

/-- READY is 0 at reset (R43). -/
def Nest.reset : Nest :=
  { act := NestCopy.reset, shd := NestCopy.reset, ready := false, jnum := 0 }

/-- An engine at strand start (R32–R34, R48). -/
def EngSt.reset : EngSt :=
  { x := [], lp := [], lpStart := [], rpt := 0, skew := 0, iters := 0, need := none, skewFree := true, rsn := 0xFFFF,
    retired := false, rsnPend := [], hoff := 0, idx := 0, started := false, snum := 0, count := 0, nfa := false, halted := false, cn := 0,
    flight := none, owed := [], redo := [], late := [], held := none, done := [], ewr := [], marks := [], aligned := none, nests := [],
    wait := none }

/-- An accumulator at strand start: empty, Kc 64, policy FAULT, TR 0 (R34, R250). -/
def QAcc.reset : QAcc :=
  { v := [], t := [], n := 0, kc := 64, rack := false, tr := false, base := 0, bmax := 0, b := 0 }

/-- M at strand start (R34, R36, R243). -/
def MSt.reset : MSt :=
  { v := [], m := [], c := [], q := [], flags := 0, mxc := [], latch := 0 }

/-- A ring at reset (R40). -/
def Ring.reset : Ring :=
  { w0 := 0, head := 0, tail := 0, sb := [], toPipe := none, fromPipe := none }

/-- A mask that names nobody. -/
def KMask.none : KMask := { l := false, m := false, s := false, y := false }

/-- A marker table entry at reset (R46). -/
def MarkEnt.reset : MarkEnt := { n := 0xFFFF, mask := KMask.none, pend := KMask.none, cnum := 0 }

/-- The couplings at strand start (R35, R40–R46, R106). -/
def Coupling.reset : Coupling :=
  { rings := [], fq := [], fqWait := [], fqPops := 0, tok := { lm := 0, ml := 0, ms := 0, sm := 0, sl := 0, ls := 0 }, ev := [],
    mtab := [], lastMark := none, rv := BitVec.allOnes 64, dth := 0xFFFFFFFF, tks := 0 }

/-- Y at strand start (R166, R265, R337, R374). -/
def YSt.reset : YSt :=
  { queues := [], cnum := 0, ycn := 0, ydone := [], staging := [], written := 0, jhead := 1, jtail := 1, jfreed := [],
    chains := [], marks := [], unjoined := [], parked := false, failed := none }

/-- The lees record before a strand's first barrier (R26). -/
def leesReset : SMap Word :=
  [(0, 0xFF0000000000FFFF), (2, 0x000000000000FFFF), (4, 0x000000000000FFFF), (6, 0x000000000000FFFF),
   (8, 0x000000000000FFFF)]

/-- The hardware frame at reset: RSN of L, M and S (R334). -/
def frameReset : SMap Word := [(8, 0x000FFFF000000000), (14, 0x000FFFF000000000), (20, 0x000FFFF000000000)]

/-- A cask without a strand (R29, R98, R199; logs 2). -/
def Strand.reset : Strand :=
  { live := false, ord := 0, held := none, frame := frameReset, stopped := false, kstop := false,
    lees := leesReset, armed := none, evt := false, spur := false, gDie := 0, gDev := 0, gSys := 0, ovl := none,
    trailer := 0x7F, extents := [], arr := [], ybound := none, sbuf := [], wait := none, ckpt := false, deferred := none }

/-- A cask as R34 and R322 reset it. -/
def Cask.reset (dual : Bool) : Cask :=
  { kr := KRegs.reset dual, mem := LocalMem.reset, eL := EngSt.reset, eM := EngSt.reset, eS := EngSt.reset,
    mx := MSt.reset, cp := Coupling.reset, yy := YSt.reset, st := Strand.reset }

/-- A core at reset (R309, R390). -/
def Core.reset : Core :=
  { k0 := Cask.reset false, k1 := Cask.reset false, cur := false, dual := false, l1 := [], syn := [], mon := [],
    fills := 0, asks := [] }

/-- A launch queue at reset (R310). -/
def LQueue.reset : LQueue :=
  { base := 0, ctl := 0, head := 0, tail := 0, pass := 0, taken := none, tickets := 0, open_ := false }

/-- A crew with no members. -/
def Crew.reset : Crew := { members := [], phase := 0, arrived := [], start := 0, starts := [] }

/-- No launch. -/
def Launch.reset : Launch :=
  { queue := 0, asid := 0, dwords := List.replicate 16 0, lease := [], granted := false, begun := false, started := [],
    ended := [], startAt := 0, lists := [], aged := false, crews := [], sstep := Crew.reset, tiles := 0, ests := [],
    policy := none, drainAt := 0, gangT := none, glate := 0, incs := [], argVa := 0, saved := [] }

/-- A partition that does not exist yet. -/
def Partition.reset : Partition :=
  { cores := [], slices := [], fns := [], ranges := [], dual := false, smap := [], staged := [], next := [], adopted := [], stations := [], gen := 0, busy := false,
    l2pol := 0 }

/-- A vintage entry before STAGE 0x4 copies the table (R379). -/
def Vint.reset : Vint := { exf := 0, apxf := 0, tcls := 0, en := false, spare := false, seen := false }

/-- A monitor at reset (R390). -/
def Mon.reset : Mon := { sel := 0, val := 0 }

/-- An aperture window before the first write. -/
def Window.reset : Window := { v := false, asid := 0, page := 0 }

/-- The security processor at power-on (R381, R386, R387; log 2). -/
def Secure.reset : Secure :=
  { stage := 1, err := 0, flr := false, recovery := false, slotB := false, failch := 0xFF, ms := [], log := [], svn := [],
    result := 0, lost := false, job := none, mbox := [], image := none }

/-- The device right after reset: the boot ROM starts (R379, STAGE 0x1). -/
def Dev.reset : Dev :=
  { rtc := 0, dmem := [], hmem := [], pmem := [], dmemP := [], hmemP := [], pmemP := [], l2 := [], shadow := [], combT := [], vint := [], lqs := [],
    schedctl := 0xFFFF0064001412C0, sched := 0xFFFF0064001412C0, freed := [], grantDue := [], quant := 4800, capf := 256, capfNew := 256, lastQ := 0, lastP := 0,
    launches := [], parts := [], ctxbase := 0, aslot := [], leaves := [], synf := [], cdtab := [], cdlen := [],
    wins := [], hostOk := true, hostData := [], migDone := false, fgrp := 0, froute := [], contribs := [], nodes := [], results := [], agreed := [], disagree := [], out := [], posted := [], gangTook := [], gangLate := [],
    logbase := 0, logctl := 0, logwr := 0, logrd := 0, logovf := 0, smon := [], cmon := [], trip := false, tio := 0,
    tds := [], pmod := 0, tthr := 105, plimw := 1650, sec := Secure.reset, trained := false, svnMin := [] }

/-- The machine right after a cold reset: every core without a strand, the boot ROM at STAGE 0x1, and bring-up the
first event (R378, R379). -/
def State.reset : State :=
  { cores := [], dev := Dev.reset, turn := { core := 0, cask := false, agent := .ev .coldReset, burst := 0 },
    tick := 0 }

end Sys2Proof.Machine
end

