-- ==== Sys2Proof/Config.lean ====
section
/-! DEFINITION. What an implementation fixes and the spec leaves open, as free values: opaque constants without a body,
applied to the step counter or to what they depend on. No proof can see a value of one; a claim holds for every value.
notes/assumptions/ names each. -/

namespace Sys2Proof

open Sys2Proof.Machine

/-! ### Who moves, and how fast (log 1, log 8) -/

/-- The agent that moves at the step after step `tick`. -/
opaque Config.nextTurn : Nat → Turn
/-- Ring cycles that pass at step `tick`. -/
opaque Config.ringDelta : Nat → Nat
/-- Core cycles that have passed for a core since its CYC was last read (R196). -/
opaque Config.cycDelta : Nat → BitVec 64
/-- Cycle events that a monitor has counted since it was last read (R391). -/
opaque Config.monDelta : Nat → Nat → Nat
/-- Events of a channel that pass with time, by counter: cycles with every walker busy from 0 on, corrected errors from 192 on. -/
opaque Config.unitDelta : Nat → Nat → Nat

/-- The other units of the core that move in the cycle of step `tick` (R332, log 1). -/
opaque Config.together : Nat → List Agent

/-! ### Engines -/

/-- How many words the sequencer of an engine has fetched ahead of the word it issues, at step `tick` (R46, log 7). -/
opaque Config.fetchAhead : Nat → Eng → Nat
/-- Which way an approximate product differs: numerator and denominator of a fraction of the bound of R94, at element
and term (log 9). -/
opaque Config.apx : Nat → Nat → Nat → Int × Nat

/-- Which of the pieces that are left of a wide access moves next, at step `tick` with `n` left (R114, log 59). -/
opaque Config.nextPart : Nat → Nat → Nat

/-- Which line leaves a full L1 (log 47). -/
opaque Config.l1Victim : Nat → Nat

/-! ### Choices of the runtime, the scheduler and the firmware (R317, R396, log 10) -/

/-- The order in which the scheduler prefers free cores. -/
opaque Config.leaseOrder : Nat → List (Nat × Bool)
/-- The context of the slot that a launch takes, at step `tick` from a queue. -/
opaque Config.asidChoice : Nat → Nat → BitVec 10
/-- The launch id, at step `tick` for a launch of a queue. -/
opaque Config.lidChoice : Nat → Nat → BitVec 32
/-- The VA of the arguments buffer, at step `tick` for a launch id. -/
opaque Config.argVa : Nat → Nat → Word

/-! ### The outside (log 11) -/

/-- How the host answers a request: 0 success, 1 Unsupported Request, 2 Completer Abort, 3 a poisoned reply (R272). -/
opaque Config.hostStatus : Nat → Nat
/-- Whether the peer of a rank that FROUTE reaches answers without an error at step `tick` (R272, R370). -/
opaque Config.peerOk : Nat → Nat → Bool
/-- Whether the device of a rank has done, by step `tick`, what it was sent (R285, R286). -/
opaque Config.applied : Nat → Nat → Bool
/-- Temperatures of D0–D3 and the I/O die (index 4), °C, and the module power, W, as the sensors read (R393). -/
opaque Config.temp : Nat → Nat → Nat
opaque Config.power : Nat → Nat

/-- What a read of a register in BAR0 answers, at step `tick`, where no rule says (log 73). -/
opaque Config.unread : Nat → Word

/-- The BAR0 offsets of registers for which the spec gives none, by register (R368; log 12). -/
opaque Config.bar0 : Nat → Nat

/-! ### Fuses, flash, tests at bring-up (R379, R384, R389, log 12) -/

/-- The fused vintage table: EXF, APXF, TCLS, enable and spare bits of a core (R195, R379). -/
opaque Config.fuseExf : Nat → Nat
opaque Config.fuseApxf : Nat → Nat
opaque Config.fuseTcls : Nat → Nat
opaque Config.fuseEn : Nat → Bool
opaque Config.fuseSpare : Nat → Bool
/-- Whether the fuses read without error. -/
opaque Config.fuseOk : Bool
/-- The fused hash of the stage-1 key, the minimum SVNs, the serial number. -/
opaque Config.khash : List Byte
opaque Config.minSvn : Nat → Nat
opaque Config.serial : List Byte
/-- Flash: the image of a stage in slot A (false) or B (true). -/
opaque Config.flash : Bool → Nat → List Byte
/-- Whether a channel trains, a core and a slice pass the SRAM test, at step `tick`. -/
opaque Config.trains : Nat → Nat → Bool
opaque Config.coreOk : Nat → Nat → Bool
opaque Config.sliceOk : Nat → Nat → Bool
/-- The device identity key: the modulus below its highest bit, the private exponent; the salt of a signature at step `tick`;
and the certificate of a modulus (R383, R389). -/
opaque Config.idModulus : Nat
opaque Config.idExponent : Nat
opaque Config.salt : Nat → List Byte
opaque Config.cert : Nat → List Byte
/-- The 56-byte text of a log entry (R386). -/
opaque Config.logText : Nat → List Byte

end Sys2Proof
end

