-- ==== Sys2Proof/Machine/Regs.lean ====
section
/-! DEFINITION. Actions, and the named operations over registers, local memories, tokens, the device log, monitors and
waits. -/

namespace Sys2Proof

/-- The unit of an engine. -/
def Eng.unit : Eng → CoreUnit
  | .l => .l
  | .m => .m
  | .s => .s

/-- The engine numbers of frame word 0 (R334). -/
def CoreUnit.num : CoreUnit → Nat
  | .k => 0 | .l => 1 | .m => 2 | .s => 3 | .y => 4

/-- The engine of a unit. -/
def CoreUnit.engine : CoreUnit → Option Eng
  | .l => some .l
  | .m => some .m
  | .s => some .s
  | _ => none

/-- Removing an engine from a pending set. -/
def KMask.without (m : KMask) : CoreUnit → KMask
  | .l => { m with l := false }
  | .m => { m with m := false }
  | .s => { m with s := false }
  | .y => { m with y := false }
  | .k => m

/-- A mask names nobody. -/
def KMask.empty (m : KMask) : Bool := !m.l && !m.m && !m.s && !m.y

end Sys2Proof

namespace Sys2Proof.Machine

open Sys2Proof

/-! ### Actions -/

/-- Why an action does not complete: a fault, a wait that the watchdog times (a token wait or another, R28), or a stall
that it does not time (FQ empty, R44; the skew of LOOPB, R179). -/
inductive Stop where
  | trap (f : Flt)
  | wait (token : Bool)
  | hold
  deriving DecidableEq, Repr, Inhabited

/-- Actions on the machine and on one cask. What an action has done before it stops stays done. -/
abbrev Act := EStateM Stop State
abbrev CAct := EStateM Stop Cask

/-- Fault codes (R330). -/
def cIllegalOp := 0x01
def cIllegalOperand := 0x02
def cFormatUnderflow := 0x03
def cFormatMismatch := 0x04
def cTokenTimeout := 0x05
def cRingBounds := 0x06
def cAlignment := 0x07
def cNotPresent := 0x10
def cProtection := 0x11
def cUncorrectable := 0x20
def cFetchEcc := 0x21
def cRemapNackLimit := 0x22
def cCopyMalformed := 0x30
def cStageIncomplete := 0x31
def cQCapacity := 0x40
def cQTransposed := 0x41
def cCrewMembership := 0x50
def cWatchdog := 0x60
def cTrap := 0x70

/-- Raise a fault (R168, raise). -/
def raise {σ α : Type} (code : Nat) (va : Word := 0) : EStateM Stop σ α := throw (.trap { code := code, va := va })

/-- Raise a fault unless `ok`. -/
def check {σ : Type} (ok : Bool) (code : Nat) (va : Word := 0) : EStateM Stop σ Unit :=
  if ok then pure () else raise code va

/-- Wait until `ok` (R28). -/
def await {σ : Type} (ok : Bool) (token : Bool := false) : EStateM Stop σ Unit :=
  if ok then pure () else throw (.wait token)

/-- Stall until `ok`, untimed. -/
def holdTill {σ : Type} (ok : Bool) : EStateM Stop σ Unit := if ok then pure () else throw .hold

/-- Do `f` for the numbers from `i` on, `n` of them. -/
def forFrom {σ : Type} (f : Nat → EStateM Stop σ Unit) : Nat → Nat → EStateM Stop σ Unit
  | _, 0 => pure ()
  | i, n + 1 => do
    f i
    forFrom f (i + 1) n

/-- Do `f` for every item of a list. -/
def forList {σ α : Type} (f : α → EStateM Stop σ Unit) : List α → EStateM Stop σ Unit
  | [] => pure ()
  | x :: xs => do
    f x
    forList f xs

/-! ### Bytes (R7) -/

/-- The low `n` bytes of a number, least significant first. -/
def bytesOf : Nat → Nat → List Byte
  | 0, _ => []
  | n + 1, v => BitVec.ofNat 8 v :: bytesOf n (v / 256)

/-- The number that little-endian bytes make. -/
def natOf : List Byte → Nat
  | [] => 0
  | b :: bs => b.toNat + 256 * natOf bs

/-- A list of bytes cut into pieces of `n`. -/
def pieces (n : Nat) : Nat → List Byte → List (List Byte)
  | 0, _ => []
  | k + 1, bs => bs.take n :: pieces n k (bs.drop n)

/-! ### Cores and casks -/

/-- Core `c`. -/
def State.core (s : State) (c : Nat) : Core := aGet Core.reset s.cores c

/-- Core `c` replaced. -/
def State.setCore (s : State) (c : Nat) (k : Core) : State := { s with cores := aSet s.cores c k }

/-- A cask of a core. -/
def Core.cask (k : Core) (b : Bool) : Cask := if b then k.k1 else k.k0

/-- A cask of a core replaced. -/
def Core.setCask (k : Core) (b : Bool) (c : Cask) : Core := if b then { k with k1 := c } else { k with k0 := c }

/-- Cask `b` of core `c`. -/
def State.caskAt (s : State) (c : Nat) (b : Bool) : Cask := (s.core c).cask b

/-- Cask `b` of core `c` replaced. -/
def State.setCaskAt (s : State) (c : Nat) (b : Bool) (k : Cask) : State := s.setCore c ((s.core c).setCask b k)

/-- The cask whose turn it is. -/
def State.cask (s : State) : Cask := s.caskAt s.turn.core s.turn.cask

/-- The cask whose turn it is, replaced. -/
def State.setCask (s : State) (k : Cask) : State := s.setCaskAt s.turn.core s.turn.cask k

/-- The cask whose turn it is, changed. -/
def State.updCask (s : State) (f : Cask → Cask) : State := s.setCask (f s.cask)

/-- Whether the core whose turn it is is in dual-resident mode. -/
def State.dual (s : State) : Bool := (s.core s.turn.core).dual

/-- An action of one cask, on the cask whose turn it is. -/
def onCask {α : Type} (m : CAct α) : Act α := fun s =>
  match m s.cask with
  | .ok a c => .ok a (s.setCask c)
  | .error e c => .error e (s.setCask c)

/-- An action that leaves no trace when it does not complete (R224). -/
def whole {σ α : Type} (m : EStateM Stop σ α) : EStateM Stop σ α := fun s =>
  match m s with
  | .ok a t => .ok a t
  | .error e _ => .error e s

/-! ### Windows (R32, R37, R38, R321) -/

def spmSize (dual : Bool) : Nat := if dual then 0x100000 else 0x200000
def klmSize (dual : Bool) : Nat := if dual then 0x20000 else 0x40000
def klmUser (dual : Bool) : Nat := if dual then 0x10000 else 0x30000
def imemSize (dual : Bool) : Nat := if dual then 0x10000 else 0x20000
/-- The frame area (R335). -/
def frameAt (dual : Bool) : Nat := klmSize dual - 0x400

/-! ### Registers (R34) -/

/-- sreg(n): s0 reads 0. -/
def Cask.sreg (c : Cask) (n : SReg) : Word := if n = 0 then 0 else smGet 0 c.kr.s n.toNat

/-- s_n written: a write of s0 is discarded (R169). -/
def Cask.setS (c : Cask) (n : SReg) (v : Word) : Cask :=
  if n = 0 then c else { c with kr := { c.kr with s := smSet 0 c.kr.s n.toNat v } }

/-- The state of an engine. -/
def Cask.eng (c : Cask) : Eng → EngSt
  | .l => c.eL
  | .m => c.eM
  | .s => c.eS

/-- The state of an engine replaced. -/
def Cask.setEng (c : Cask) (e : Eng) (st : EngSt) : Cask :=
  match e with
  | .l => { c with eL := st }
  | .m => { c with eM := st }
  | .s => { c with eS := st }

/-- The state of an engine changed. -/
def Cask.updEng (c : Cask) (e : Eng) (f : EngSt → EngSt) : Cask := c.setEng e (f (c.eng e))

/-- xreg(n) of an engine: x0 reads 0. -/
def Cask.xreg (c : Cask) (e : Eng) (n : XReg) : Word := if n = 0 then 0 else smGet 0 (c.eng e).x n.toNat

/-- x_n of an engine written: a write of x0 is discarded. -/
def Cask.setX (c : Cask) (e : Eng) (n : XReg) (v : Word) : Cask :=
  if n = 0 then c else c.updEng e fun st => { st with x := smSet 0 st.x n.toNat v }

/-- The lanes of a vector register, lane 0 first. -/
def Cask.vreg (c : Cask) (n : VReg) : List Lane := smGetRange 0 c.mx.v (128 * n.toNat) 128

/-- The lanes of v_n written. -/
def Cask.setV (c : Cask) (n : VReg) (ls : List Lane) : Cask :=
  { c with mx := { c.mx with v := smSetRange 0 c.mx.v (128 * n.toNat) ls } }

/-- A mask register. -/
def Cask.mreg (c : Cask) (n : MReg) : BitVec 128 := smGet 0 c.mx.m n.toNat

/-- A mask register written. -/
def Cask.setM (c : Cask) (n : MReg) (v : BitVec 128) : Cask :=
  { c with mx := { c.mx with m := smSet 0 c.mx.m n.toNat v } }

/-- The words of a tile, row-major (R228). -/
def Cask.tile (c : Cask) (n : CTile) : List Lane := smGetRange 0 c.mx.c (16384 * n.toNat) 16384

/-- The words of a tile written. -/
def Cask.setTile (c : Cask) (n : CTile) (ls : List Lane) : Cask :=
  { c with mx := { c.mx with c := smSetRange 0 c.mx.c (16384 * n.toNat) ls } }

/-- A tile or an accumulator belongs to this cask (R34): every one in single-resident mode, half of them in dual. -/
def tileOwned (dual cask : Bool) (n : CTile) : Bool := !dual || decide (n.toNat / 4 = if cask then 1 else 0)
def qOwned (dual cask : Bool) (n : QReg) : Bool := !dual || decide (n.toNat / 2 = if cask then 1 else 0)

/-- An accumulator. -/
def Cask.qacc (c : Cask) (n : QReg) : QAcc := aGet QAcc.reset c.mx.q n.toNat

/-- An accumulator replaced. -/
def Cask.setQ (c : Cask) (n : QReg) (q : QAcc) : Cask := { c with mx := { c.mx with q := aSet c.mx.q n.toNat q } }

/-- An event counter. -/
def Cask.evreg (c : Cask) (n : Nat) : BitVec 32 := smGet 0 c.cp.ev n

/-- An event counter written. -/
def Cask.setEv (c : Cask) (n : Nat) (v : BitVec 32) : Cask :=
  { c with cp := { c.cp with ev := smSet 0 c.cp.ev n v } }

/-- An increment of an event counter, modulo 2^32 (R35). -/
def Cask.addEv (c : Cask) (n : Nat) (v : BitVec 32) : Cask := c.setEv n (c.evreg n + v)

/-- ev_reached (R35, R168). -/
def evReached (e n : BitVec 32) : Bool := decide ((e - n).toNat < 2 ^ 31)

/-- serial_ge (R33, R168). -/
def serialGe (a b : BitVec 16) : Bool := decide ((a - b).toNat < 2 ^ 15)

/-- Flags ORed into MFLAGS and counts added to MXC0–MXC3 with saturation (R36, R92). -/
def Cask.record (c : Cask) (fl : BitVec 5) (nans infs sats wraps : Nat) : Cask :=
  let add (k n : Nat) (m : SMap Nat) : SMap Nat := smSet 0 m k (min (smGet 0 m k + n) 0xFFFFFFFF)
  { c with mx := { c.mx with
      flags := c.mx.flags ||| fl,
      mxc := add 3 wraps (add 2 sats (add 1 infs (add 0 nans c.mx.mxc))) } }

/-! ### Local memories -/

/-- Bytes of the SPM, and bytes written, which clears their poison (R346). -/
def Cask.spmBytes (c : Cask) (a n : Nat) : List Byte := smGetRange 0 c.mem.spm a n
def Cask.setSpm (c : Cask) (a : Nat) (bs : List Byte) : Cask :=
  { c with mem := { c.mem with spm := smSetRange 0 c.mem.spm a bs, spmP := nsDelRange c.mem.spmP a bs.length } }

/-- Bytes of the KLM, and bytes written. -/
def Cask.klmBytes (c : Cask) (a n : Nat) : List Byte := smGetRange 0 c.mem.klm a n
def Cask.setKlm (c : Cask) (a : Nat) (bs : List Byte) : Cask :=
  { c with mem := { c.mem with klm := smSetRange 0 c.mem.klm a bs, klmP := nsDelRange c.mem.klmP a bs.length } }

/-- The instruction memory of K or an engine, and its poisoned bytes. -/
def Cask.imem (c : Cask) : CoreUnit → SMap Byte
  | .k => c.mem.ik
  | .l => c.mem.il
  | .m => c.mem.im
  | _ => c.mem.is
def Cask.imemP (c : Cask) : CoreUnit → List Nat
  | .k => c.mem.ikP
  | .l => c.mem.ilP
  | .m => c.mem.imP
  | _ => c.mem.isP

/-- Bytes of an instruction memory as a number. -/
def Cask.fetch (c : Cask) (u : CoreUnit) (a n : Nat) : Nat := natOf (smGetRange 0 (c.imem u) a n)

/-- A stream loaded: the bytes written, their poison gone (R344). -/
def Cask.setImem (c : Cask) (u : CoreUnit) (a : Nat) (bs : List Byte) : Cask :=
  let m := smSetRange 0 (c.imem u) a bs
  let p := nsDelRange (c.imemP u) a bs.length
  match u with
  | .k => { c with mem := { c.mem with ik := m, ikP := p } }
  | .l => { c with mem := { c.mem with il := m, ilP := p } }
  | .m => { c with mem := { c.mem with im := m, imP := p } }
  | _ => { c with mem := { c.mem with is := m, isP := p } }

/-! ### Token FIFOs (R6, R45) -/

/-- The FIFO an engine pops: from its previous neighbour, or from its next one. -/
def Tokens.popCount (t : Tokens) (e : Eng) (prev : Bool) : Nat :=
  match e, prev with
  | .l, true => t.sl
  | .l, false => t.ml
  | .m, true => t.lm
  | .m, false => t.sm
  | .s, true => t.ms
  | .s, false => t.ls

/-- The FIFO an engine pops, set. -/
def Tokens.setPop (t : Tokens) (e : Eng) (prev : Bool) (n : Nat) : Tokens :=
  match e, prev with
  | .l, true => { t with sl := n }
  | .l, false => { t with ml := n }
  | .m, true => { t with lm := n }
  | .m, false => { t with sm := n }
  | .s, true => { t with ms := n }
  | .s, false => { t with ls := n }

/-- The FIFO an engine pushes: to its previous neighbour, or to its next one. -/
def Tokens.pushCount (t : Tokens) (e : Eng) (prev : Bool) : Nat :=
  match e, prev with
  | .l, true => t.ls
  | .l, false => t.lm
  | .m, true => t.ml
  | .m, false => t.ms
  | .s, true => t.sm
  | .s, false => t.sl

/-- The FIFO an engine pushes, set. -/
def Tokens.setPush (t : Tokens) (e : Eng) (prev : Bool) (n : Nat) : Tokens :=
  match e, prev with
  | .l, true => { t with ls := n }
  | .l, false => { t with lm := n }
  | .m, true => { t with ml := n }
  | .m, false => { t with ms := n }
  | .s, true => { t with sm := n }
  | .s, false => { t with sl := n }

/-- The low bit of the token scope of the FIFO an engine pushes, in TKS (R106). -/
def scopeBit (e : Eng) (prev : Bool) : Nat :=
  match e, prev with
  | .l, true => 8
  | .l, false => 0
  | .m, true => 2
  | .m, false => 4
  | .s, true => 6
  | .s, false => 10

/-- Tokens changed. -/
def Cask.setTok (c : Cask) (t : Tokens) : Cask := { c with cp := { c.cp with tok := t } }

/-! ### The device log (R368) -/

/-- An entry of the device log: written at LOGWR, or counted in LOGOVF where the log is off or full. -/
def State.logAdd (s : State) (code fn part core : Nat) (value : Nat) : State :=
  let d := s.dev
  let sz := 2 ^ (d.logctl.toNat % 32)
  if d.logctl.toNat / 2 ^ 31 % 2 = 0 ∨ (d.logwr + 2 ^ 64 - d.logrd) % 2 ^ 64 = sz then
    { s with dev := { d with logovf := d.logovf + 1 } }
  else
    let e := bytesOf 8 (code + 256 * fn + 2 ^ 16 * part + 2 ^ 32 * core) ++ bytesOf 8 value ++ bytesOf 8 d.rtc ++
      bytesOf 8 0
    { s with dev := { d with
        hmem := smSetRange Memory.unlisted d.hmem (d.logbase.toNat + 32 * (d.logwr % sz)) e,
        logwr := d.logwr + 1 } }

/-- A register write that is refused is logged with the register's offset in BAR0 (R368, code 0x03): the function that wrote,
and the partition and the core whose register it is (log 12). -/
def State.refuse (s : State) (off : Nat) (fn part core : Nat := 0) : State := s.logAdd 0x03 fn part core off

/-! ### Monitors (R390, R391) -/

/-- A counter that counts event `evt` of a cask, advanced by `n`; a wrap sets OVF. -/
def Mon.bump (m : Mon) (evt n : Nat) (cask : Bool) : Mon :=
  let f := m.sel.toNat / 2 ^ 38 % 4
  if m.sel.toNat % 2 ^ 16 = evt ∧ m.sel.toNat / 2 ^ 37 % 2 = 1 ∧ (f = 0 ∨ f = if cask then 2 else 1) then
    { sel := if 2 ^ 48 ≤ m.val.toNat + n then m.sel ||| (1 <<< 48) else m.sel, val := m.val + BitVec.ofNat 48 n }
  else m

/-- The counters of unit `u`, four of each slice or channel, at an event of it. -/
def tallyUnit (m : SMap Mon) (u evt n : Nat) : SMap Mon :=
  m.map fun p => if p.1 / 4 = u then (p.1, p.2.bump evt n false) else p

/-- An event of slice `j`, and of channel `h`, counted (R391). -/
def Dev.sliceCount (d : Dev) (j evt n : Nat) : Dev := { d with smon := tallyUnit d.smon j evt n }
def Dev.chanCount (d : Dev) (h evt n : Nat) : Dev := { d with cmon := tallyUnit d.cmon h evt n }

/-- An event of a cask of a core, counted, and one of the cask whose turn it is. -/
def State.countAt (s : State) (c : Nat) (b : Bool) (evt n : Nat) : State :=
  let k := s.core c
  if k.mon.isEmpty then s
  else s.setCore c { k with mon := k.mon.map fun p => (p.1, p.2.bump evt n b) }
def State.count (s : State) (evt n : Nat) : State := s.countAt s.turn.core s.turn.cask evt n

/-- The events of a core that are cycles (R391). -/
def cycleEvents : List Nat := [1, 7, 8, 12]

/-- A counter of a core brought up to now: `n` core cycles for the cask that issues, and a free amount of the other cycle
events (R391). -/
def Mon.tick (m : Mon) (n other : Nat) (cask : Bool) : Mon :=
  (((m.bump 1 n cask).bump 7 other cask).bump 8 other cask).bump 12 other cask

/-- CYC of a resident strand brought up to now (R196). -/
def Cask.tickCyc (c : Cask) (n : BitVec 64) : Cask := if c.st.live then { c with kr := { c.kr with cyc := c.kr.cyc + n } } else c

/-- What counts cycles in a core brought up to now, by a free number of core cycles: CYC of its strands and the cycle counters
(R196, R391; log 8). -/
def State.tickCycles (s : State) (c : Nat) : State :=
  let k := s.core c
  let n := Config.cycDelta s.tick
  s.setCore c { k with
    k0 := k.k0.tickCyc n, k1 := k.k1.tickCyc n,
    mon := k.mon.map fun p => (p.1, p.2.tick n.toNat (Config.monDelta s.tick p.1) k.cur) }

/-! ### Waits (R28, R336) -/

/-- A wait attempted at this step: it keeps its start. -/
def Wait.again (w : Option Wait) (rtc tick : Nat) (token : Bool) : Option Wait :=
  match w with
  | some x => some { since := x.since, tried := tick, token := token }
  | none => some { since := rtc, tried := tick, token := token }

/-- K waits. -/
def State.kWaits (s : State) (token : Bool) : State :=
  s.updCask fun c => { c with st := { c.st with wait := Wait.again c.st.wait s.dev.rtc s.tick token } }

/-- An engine waits. -/
def State.eWaits (s : State) (e : Eng) (token : Bool) : State :=
  s.updCask fun c => c.updEng e fun st => { st with wait := Wait.again st.wait s.dev.rtc s.tick token }

/-! ### K's program counter -/

/-- A K word retires and K goes on at `pc` (R32, R169). -/
def State.kRetire (s : State) (pc : Nat) : State :=
  (s.updCask fun c => { c with kr := { c.kr with kpc := pc }, st := { c.st with wait := none } }).count 2 1

/-- A K word retires and K goes on at the next one. -/
def State.kNext (s : State) : State := s.kRetire (s.cask.kr.kpc + 8)

end Sys2Proof.Machine
end

