-- ==== Sys2Proof/Machine/Mem.lean ====
section
/-! DEFINITION. Memory below the registers: page walks (R349–R355), synonyms (R356, R357), home slices (R358), the
memories behind them, line monitors (R29), combining buffers (R277), the L1 with its generations (R96–R101), the K store
buffer (R101, R102), and the accesses of the engines. -/

namespace Sys2Proof.Machine

open Sys2Proof

/-! ### Partitions and homes -/

/-- The partition as the station of core `c` sees it: under the map that is being adopted once the station has adopted it
(R359). -/
def Partition.seenBy (p : Partition) (c : Nat) : Partition :=
  if p.busy && p.stations.contains c then { p with smap := p.next } else p

/-- The partition as an I/O die sees it, which has no station: under the new map once every slice has adopted it, so that the
slices that gained granules serve them (R359, step 2; log 21). -/
def Partition.seenIo (p : Partition) : Partition :=
  if p.busy && p.slices.all p.adopted.contains then { p with smap := p.next } else p

/-- The partition that holds a core (R363), as the core's station sees it. -/
def Dev.partOfCore (d : Dev) (c : Nat) : Partition :=
  match d.parts.find? (fun p => p.2.cores.contains c) with
  | some p => p.2.seenBy c
  | none => Partition.reset

/-- The function that a slot is bound to, where its entry is valid, and that of an ASID's slot (R350). -/
def Dev.fnOfSlot (d : Dev) (k : Nat) : Option Nat :=
  let e := smGet 0 d.aslot k
  if e.getLsbD 7 then some (e.toNat % 128) else none
def Dev.fnOfAsid (d : Dev) (asid : BitVec 10) : Option Nat := d.fnOfSlot (asid.toNat / 16)

/-- The number of the partition that holds a core. -/
def Dev.partNo (d : Dev) (c : Nat) : Nat :=
  match d.parts.find? (fun p => p.2.cores.contains c) with
  | some p => p.1
  | none => 0

/-- The number of the partition that a function is bound to; the physical function's is 0 (R363; log 13). -/
def Dev.partOfFn (d : Dev) (f : Nat) : Nat :=
  match d.parts.find? (fun p => p.2.fns.contains f) with
  | some p => p.1
  | none => 0

/-- A log entry about an access under an ASID: the function of its slot, and the core and partition of the requester; the
partition is the function's where no core made the access (R368). -/
def State.accessLog (s : State) (code : Nat) (core : Option Nat) (asid : BitVec 10) (value : Nat) : State :=
  let f := (s.dev.fnOfAsid asid).getD 0
  match core with
  | some c => s.logAdd code f (s.dev.partNo c) c value
  | none => s.logAdd code f (s.dev.partOfFn f) 0 value

/-- The partition of an access that does not come from a core: the one its ASID's function is bound to, and partition 0
for the physical function (R363; log 13). -/
def Dev.partOfAsid (d : Dev) (asid : BitVec 10) : Partition :=
  match d.fnOfAsid asid with
  | some f =>
    match d.parts.find? (fun p => p.2.fns.contains f) with
    | some p => p.2
    | none => aGet Partition.reset d.parts 0
  | none => aGet Partition.reset d.parts 0

/-- The home slice of a canonical pair under a slice map (R358). -/
def homeSlice (p : Partition) (asid : BitVec 10) (va : Nat) : Nat :=
  let g := fld va 11 41
  let idx := (((fld g 0 10) ^^^ (fld g 10 10)) ^^^ ((fld g 20 10) ^^^ (fld g 30 10))) ^^^
    ((fld g 40 1 * 2 ^ 9) ^^^ asid.toNat)
  smGet 0 p.smap idx

/-- The controller that translates for a slice (R354). -/
def controllerOf (j : Nat) : Nat := 12 * (j / 24) + j % 24 / 2

/-- The channel that a translated access goes to (R354). -/
def channelOf (pa : Nat) : Nat := fld pa 11 29 % 48

/-- The bytes of device memory: 384 GiB (R3). -/
def memSize : Nat := 0x6000000000

/-! ### Page walks -/

/-- What an access needs of a page (R352). -/
inductive Need where
  | read | write | both | any
  deriving DecidableEq, Repr

/-- A walk's end: a leaf with the log2 of its page size, or a fault with whether it is logged as malformed. -/
inductive Walk where
  | leaf (lg : Nat) (pte : Word)
  | fault (code : Nat) (malformed : Bool)
  deriving DecidableEq, Repr

/-- The bytes of device memory as a number, or nothing where one is poisoned. -/
def Dev.phys (d : Dev) (pa n : Nat) : Option Nat :=
  if nsHits d.dmemP pa n then none else some (natOf (smGetRange Memory.unlisted d.dmem pa n))

/-- The granules of 64 KiB from `g` to `last` lie in ranges of the list, base and limit inclusive; at most `n` ranges are
needed. -/
def covered (rs : SMap (Nat × Nat)) : Nat → Nat → Nat → Bool
  | 0, _, _ => false
  | n + 1, g, last =>
    match rs.find? fun r => decide (r.2.1 ≤ g) && decide (g ≤ r.2.2) with
    | none => false
    | some r => decide (last ≤ r.2.2) || covered rs n (r.2.2 + 1) last

/-- Whether `n` device PAs from `pa` on lie in the partition's ranges (R363) and in device memory (R3). -/
def Partition.holds (p : Partition) (pa n : Nat) : Bool :=
  decide (pa + n ≤ memSize) && covered p.ranges p.ranges.length (pa / 2 ^ 16) ((pa + n - 1) / 2 ^ 16)

/-- ADDR of a PTE, as an address (R352). -/
def pteAddr (e : Nat) : Nat := fld e 8 44 * 2 ^ 8

/-- A leaf's checks (R353). -/
def leafOk (p : Partition) (lg e : Nat) : Bool :=
  decide (fld e 62 2 = 0) && decide (fld e 4 4 = 0) && decide (fld e 58 2 ≠ 3) &&
  decide (pteAddr e % 2 ^ lg = 0) && !(flag e 2 && !flag e 1) && (decide (lg = 16) || !flag e 60) &&
  (decide (fld e 58 2 = 2) || decide (fld e 52 6 = 0)) &&
  (decide (fld e 58 2 ≠ 0) || (decide (fld e 48 4 = 0) && decide (fld e 40 8 = 0) && p.holds (pteAddr e) (2 ^ lg)))

/-- A next-table entry's checks (R353). -/
def tableOk (p : Partition) (sizeLg e : Nat) : Bool :=
  decide (fld e 62 2 = 0) && decide (fld e 4 4 = 0) && decide (fld e 58 2 ≠ 3) && !(flag e 2 && !flag e 1) &&
  decide (fld e 40 12 = 0) && decide (pteAddr e % 2 ^ sizeLg = 0) && p.holds (pteAddr e) (2 ^ sizeLg)

/-- One level of a walk: the levels below, each (low VA bit, index width, log2 of its table's size, leaf allowed), from
the table at `table` on (R351). -/
def walkFrom (d : Dev) (p : Partition) (va : Nat) : Nat → List (Nat × Nat × Nat × Bool) → Walk
  | _, [] => .fault cNotPresent false
  | table, (lo, n, _, leafAllowed) :: rest =>
    match d.phys (table + 8 * fld va lo n) 8 with
    | none => .fault cUncorrectable false
    | some e =>
      if !flag e 0 then .fault cNotPresent false
      else if flag e 3 then
        (if leafAllowed && leafOk p lo e then .leaf lo (BitVec.ofNat 64 e) else .fault cProtection true)
      else match rest with
        | [] => .fault cProtection true
        | l :: ls => if tableOk p l.2.2.1 e then walkFrom d p va (pteAddr e) (l :: ls) else .fault cProtection true

/-- The levels A to D (R351). -/
def walkLevels : List (Nat × Nat × Nat × Bool) :=
  [(39, 13, 16, false), (30, 9, 12, true), (21, 9, 12, true), (16, 5, 8, true)]

/-- The walk of a canonical VA under an ASID (R351, R353). -/
def walk (d : Dev) (p : Partition) (asid : BitVec 10) (va : Nat) : Walk :=
  match d.phys (d.ctxbase.toNat + 8 * asid.toNat) 8 with
  | none => .fault cUncorrectable false
  | some e =>
    if !flag e 0 then .fault cNotPresent false
    else if p.holds (fld e 16 24 * 2 ^ 16) (2 ^ 16) then walkFrom d p va (fld e 16 24 * 2 ^ 16) walkLevels
    else .fault cProtection true

/-- A cached leaf of a controller for an address (R354). -/
def Dev.cached (d : Dev) (ctl : Nat) (asid : BitVec 10) (va : Nat) : Option Leaf :=
  d.leaves.find? fun l => l.ctl = ctl ∧ l.asid = asid ∧ l.va / 2 ^ l.lg = va / 2 ^ l.lg

/-- A leaf put into its controller's cache of 4,096 entries; the oldest leaves a full one (log 14). -/
def Dev.cacheLeaf (d : Dev) (l : Leaf) : Dev :=
  let mine := d.leaves.filter fun x => x.ctl = l.ctl
  if mine.length < 4096 then { d with leaves := d.leaves ++ [l] }
  else match mine with
    | [] => { d with leaves := [l] }
    | x :: _ => { d with leaves := (d.leaves.erase x) ++ [l] }

/-- A line that the L2 of its home slice holds. -/
def Dev.l2At (d : Dev) (asid : BitVec 10) (line : Nat) : Option L2Line :=
  d.l2.find? fun x => x.asid = asid ∧ x.line = line

/-- A leaf from the translating controller's cache, or by a walk that fills it, which the channel counts (R354, R391). A
malformed entry is logged with the VA (R353, R368); `core` made the access, if one did. -/
def leafBelow (core : Option Nat) (p : Partition) (asid : BitVec 10) (va : Nat) : Act (Nat × Nat × Nat) := fun s =>
  let ctl := controllerOf (homeSlice p asid va)
  match s.dev.cached ctl asid va with
  | some l => .ok (ctl, l.lg, l.pte.toNat) s
  | none =>
    let d := (s.dev.chanCount ctl 4 1).chanCount ctl 5 1
    match walk s.dev p asid va with
    | .leaf lg pte =>
      .ok (ctl, lg, pte.toNat) { s with dev := d.cacheLeaf { ctl := ctl, asid := asid, va := va, lg := lg, pte := pte } }
    | .fault code malformed =>
      let s1 : State := { s with dev := d }
      .error (.trap { code := code, va := BitVec.ofNat 64 va })
        (if malformed then s1.accessLog 0x04 core asid va else s1)

/-- The leaf for an access under `asid` in partition `p`, and its controller. A slice sends its misses there alone: a line that
its L2 holds keeps the leaf under which it was brought in (R354). -/
def leafFor (core : Option Nat) (p : Partition) (asid : BitVec 10) (va : Nat) : Act (Nat × Nat × Nat) := fun s =>
  match s.dev.l2At asid (va / 128) with
  | some x => .ok (controllerOf (homeSlice p asid va), x.lg, x.pte.toNat) s
  | none => leafBelow core p asid va s

/-- Whether a PTE permits what an access needs (R352). -/
def permits (e : Nat) : Need → Bool
  | .read => flag e 1
  | .write => flag e 2
  | .both => flag e 1 && flag e 2
  | .any => true

/-- Where a translated access performs: the page type (0 device, 1 host, 2 peer), the address in that memory (a peer's
keyed rank × 2^64 + VA), the canonical pair, whether the page is system-atomic, readable and writable for the requester,
and the home slice (R358). -/
structure Loc where
  ty : Nat
  addr : Nat
  asid : BitVec 10
  va : Nat
  sa : Bool
  r : Bool
  w : Bool
  slice : Nat
  deriving DecidableEq, Repr

/-- The location that a leaf gives an address. -/
def locOf (asid : BitVec 10) (va lg e slice : Nat) (w : Bool) : Loc :=
  let ty := fld e 58 2
  let a := pteAddr e + va % 2 ^ lg
  { ty := ty, addr := if ty = 2 then fld e 52 6 * 2 ^ 64 + a else a, asid := asid, va := va, sa := flag e 61,
    r := flag e 1, w := w && flag e 2, slice := slice }

/-- Translation of an access (R353, R357). A page with SH = 1 is looked up in the synonym filter: a pair that is not
canonical answers with the canonical pair (`some`), under which the access is sent again; `own` says whether the
requester's own entry lets it write. The L2 holds lines of canonical pairs alone. -/
def translate1 (core : Option Nat) (p : Partition) (asid : BitVec 10) (va : Nat) (need : Need) (ownW : Bool) :
    Act (Loc × Option (BitVec 10 × Nat)) := do
  let r ← leafFor core p asid va
  let e := r.2.2
  check (permits e need && (ownW || need = .read || need = .any)) cProtection (BitVec.ofNat 64 va)
  let loc := locOf asid va r.2.1 e (homeSlice p asid va) ownW
  let s ← get
  if flag e 60 && (s.dev.l2At asid (va / 128)).isNone then do
    match s.dev.synf.find? (fun x => x.ctl = r.1 ∧ x.frame = pteAddr e / 2 ^ 16) with
    | some x =>
      if x.casid = asid ∧ x.cpage = va / 2 ^ 16 then pure (loc, none) else pure (loc, some (x.casid, x.cpage))
    | none => do
      modify fun s => s.accessLog 0x04 core asid va
      raise cProtection (BitVec.ofNat 64 va)
  else pure (loc, none)

/-- The number of the unit that asks, in the requests of its core; K's store buffer asks as K. -/
def askNo (cask : Bool) (u : CoreUnit) : Nat := (if cask then 5 else 0) + u.num

/-- Who asks (R360): the unit, and which of its requests: for Y the queue and the command, or 4 and the chain; for an engine
the word; for K the word, its store buffer, or what else asks in its name. -/
def State.asker (s : State) : Nat × Nat × Nat :=
  let c := s.cask
  let b := s.turn.cask
  let word (e : Eng) : Nat × Nat × Nat := (askNo b e.unit, 0, ((c.eng e).flight.map (·.cn)).getD 0)
  let cmd (q : Nat) (pos : List YEnt → Nat) : Nat × Nat × Nat :=
    let es := aGet [] c.yy.queues q
    (askNo b .y, q, (es[pos es]?.map (·.cnum)).getD 0)
  match s.turn.agent with
  | .k => (askNo b .k, 0, c.kr.kpc)
  | .buf => (askNo b .k, 1, 0)
  | .eng e => word e
  | .issue | .finish _ => word .m
  | .y q pos => cmd q.toNat fun _ => pos
  | .ev (.commandBegin q) => cmd q.toNat fun es => (es.takeWhile (·.begun)).length
  | .ev (.commandComplete q) => cmd q.toNat fun _ => 0
  | .ev (.chainFetch k) => (askNo b .y, 4, k)
  | _ => (askNo b .k, 2, 0)

/-- The slice that homes a granule has adopted a map under which the granule is another's (R359). -/
def Partition.lost (p : Partition) (asid : BitVec 10) (va : Nat) : Bool :=
  p.busy && p.adopted.contains (homeSlice p asid va) &&
    decide (homeSlice { p with smap := p.next } asid va ≠ homeSlice p asid va)

/-- A request that the station of core `c` sends under the map it knows comes to a slice that has lost the granule: the slice
performs nothing and answers REMAP_NACK (R360). -/
def Partition.nacks (p : Partition) (c : Nat) (asid : BitVec 10) (va : Nat) : Bool :=
  !p.stations.contains c && p.lost asid va

/-- A dirty line of an L1 cannot be written home now (R360). -/
def State.stuck (s : State) (c : Nat) (l : L1Line) : Bool :=
  decide (l.dirty ≠ 0) && (s.dev.partOfCore c).nacks c l.asid (l.line * 128)

/-- The request of an asker for a line. -/
def Ask.mine (x : Ask) (a : Nat × Nat × Nat) (asid : BitVec 10) (line : Nat) : Bool :=
  decide (x.unit = a.1 ∧ x.queue = a.2.1 ∧ x.cnum = a.2.2 ∧ x.asid = asid ∧ x.line = line)

/-- A request is sent: one that is turned away waits until the station has adopted the new map, and then it is sent again; in
the next change it may be turned away again (R359, R360). -/
def station (c : Nat) (q : BitVec 10 × Nat) : Act Unit := fun s =>
  let k := s.core c
  let a := s.asker
  let p := s.dev.partOfCore c
  let mine (x : Ask) : Bool := x.mine a q.1 (q.2 / 128)
  if p.nacks c q.1 q.2 then
    let j := homeSlice p q.1 q.2
    .error .hold (match k.asks.find? mine with
      | some x => if x.gen = p.gen then s
        else s.setCore c { k with asks := k.asks.map fun y => if mine y then { y with gen := p.gen, slice := some j } else y }
      | none =>
        let x : Ask := { unit := a.1, queue := a.2.1, cnum := a.2.2, asid := q.1, line := q.2 / 128, gen := p.gen, slice := some j, nacks := 0 }
        s.setCore c { k with asks := k.asks ++ [x] })
  else .ok () (if k.asks.any mine then s.setCore c { k with asks := k.asks.filter fun y => !mine y } else s)

/-- The pair that the station of core `c` substitutes (R357). -/
def Core.substitute (k : Core) (asid : BitVec 10) (va : Nat) : BitVec 10 × Nat × Bool :=
  match k.syn.find? (fun x => x.asid = asid ∧ x.page = va / 2 ^ 16) with
  | some x => (x.casid, x.cpage * 2 ^ 16 + va % 2 ^ 16, x.w)
  | none => (asid, va, true)

/-- A synonym kept by the station, the least recently used leaving a full table of 64 (R357). -/
def Core.keepSyn (k : Core) (x : Syn) : Core :=
  let rest := k.syn.filter fun y => ¬ (y.asid = x.asid ∧ y.page = x.page)
  { k with syn := x :: rest.take 63 }

/-- The station looks an address up: a synonym that it holds is the latest used (R357). -/
def State.touch (s : State) (c : Nat) (asid : BitVec 10) (va : Nat) : State :=
  match (s.core c).syn.find? (fun x => x.asid = asid ∧ x.page = va / 2 ^ 16) with
  | some x => s.setCore c ((s.core c).keepSyn x)
  | none => s

/-- The translation of an access that core `c` sends, with the station's synonyms (R357). -/
def translate (c : Nat) (asid : BitVec 10) (va : Nat) (need : Need) : Act Loc := do
  modify fun s => s.touch c asid va
  let s ← get
  let p := s.dev.partOfCore c
  let q := (s.core c).substitute asid va
  station c (q.1, q.2.1)
  let r ← translate1 (some c) p q.1 q.2.1 need q.2.2
  match r.2 with
  | none => pure r.1
  | some (ca, cp) => do
    modify fun s => s.setCore c ((s.core c).keepSyn
      { asid := asid, page := va / 2 ^ 16, casid := ca, cpage := cp, w := r.1.w })
    station c (ca, cp * 2 ^ 16 + va % 2 ^ 16)
    let r2 ← translate1 (some c) p ca (cp * 2 ^ 16 + va % 2 ^ 16) need r.1.w
    check r2.2.isNone cProtection (BitVec.ofNat 64 va)
    pure r2.1

/-- The translation of an access that no station sends, in partition `p`: the router's, the PCI Express controller's,
the scheduler's. A request for a granule that its slice has lost is held until the slices that gained granules serve them
(R359; log 21). -/
def translateIo (p0 : Partition) (asid : BitVec 10) (va : Nat) (need : Need) : Act Loc := do
  let p := p0.seenIo
  holdTill (!p.lost asid va)
  let r ← translate1 none p asid va need true
  match r.2 with
  | none => pure r.1
  | some (ca, cp) => do
    holdTill (!p.lost ca (cp * 2 ^ 16 + va % 2 ^ 16))
    let r2 ← translate1 none p ca (cp * 2 ^ 16 + va % 2 ^ 16) need r.1.w
    check r2.2.isNone cProtection (BitVec.ofNat 64 va)
    pure { r2.1 with r := r.1.r && r2.1.r }

/-! ### The memories behind the homes -/

/-- Whether the peer of a location can be reached (R369, R370). -/
def State.reachable (s : State) (rank : Nat) : Bool :=
  decide ((smGet 0 s.dev.froute rank).toNat ≠ 0) && Config.peerOk s.tick rank

/-- The port of a mask that a packet takes: number `n` mod the count of the set bits, counted among them from bit 0 (R370). -/
def portOf (mask : BitVec 16) (n : Nat) : Nat :=
  let ps := (List.range 16).filter fun i => mask.getLsbD i
  ps.getD (n % ps.length) 0

/-- RANK of FGRP (R369). -/
def Dev.rank (d : Dev) : Nat := fld d.fgrp.toNat 9 6

/-- The flow of a packet that the agent whose turn it is sends: its core id plus, for Y, its queue (R370; log 17). -/
def State.flow (s : State) : Nat :=
  match s.turn.agent with
  | .y q _ => s.turn.core + q.toNat
  | _ => s.turn.core

/-- A packet of a flow leaves on a port of its destination's route (R370). -/
def State.forward (s : State) (org src : Nat) (p : Packet) : State :=
  { s with dev := { s.dev with
    out := s.dev.out ++ [{ port := portOf (smGet 0 s.dev.froute p.rank) (src + p.rank), org := org, src := src, pkt := p }] } }

/-- A packet of this device leaves. -/
def State.send (s : State) (p : Packet) : State := s.forward s.dev.rank s.flow p

/-- A read of `n` bytes of a peer's memory sends its request (R370). -/
def State.askPeer (s : State) (l : Loc) (n : Nat) : State :=
  if l.ty = 0 ∨ l.ty = 1 then s else s.send (.read (l.addr / 2 ^ 64) (BitVec.ofNat 64 l.addr) n)

/-- The device of a rank is a late member of the gang of the strand whose turn it is (R329). -/
def State.lateRank (s : State) (rank : Nat) : Bool :=
  match aFind s.dev.launches s.cask.kr.lid.toNat with
  | some l => flag (l.dwords.getD 0 0).toNat 3 && s.dev.gangLate.contains (rank, fld (l.dwords.getD 14 0).toNat 0 16)
  | none => false

/-- The memory of a page type. -/
def Dev.memOf (d : Dev) : Nat → List Host.Cell
  | 0 => d.dmem
  | 1 => d.hmem
  | _ => d.pmem

/-- The poisoned bytes of the memory of a page type. -/
def Dev.poisOf (d : Dev) : Nat → List Nat
  | 0 => d.dmemP
  | 1 => d.hmemP
  | _ => d.pmemP

/-- The combining buffer of a line merged into the home (R277), which its slice counts (R391). -/
def Dev.merge (d : Dev) (line : Nat) : Dev :=
  let d1 := match aFind d.combT line with
    | some t => d.sliceCount t.2 6 1
    | none => d
  { d1 with shadow := d1.shadow.filter (fun p => decide (p.1 / 128 ≠ line)), combT := aDel d1.combT line }

/-- The 128 mask bits of `n` bytes from byte `i` on. -/
def lineMask (i n : Nat) : BitVec 128 := BitVec.ofNat 128 ((2 ^ n - 1) * 2 ^ i)

/-- The poisoned bytes of the line at `base`, as a mask. -/
def poisonMask (ps : List Nat) (base : Nat) : BitVec 128 :=
  ps.foldl (fun m p => if base ≤ p ∧ p < base + 128 then m ||| BitVec.ofNat 128 (2 ^ (p - base)) else m) 0

/-- A line put into the L2 in place of the one with its tag. -/
def Dev.putL2 (d : Dev) (x : L2Line) : Dev :=
  { d with l2 := x :: d.l2.filter fun y => ¬ (y.asid = x.asid ∧ y.line = x.line) }

/-- Bytes written into a line of the L2. -/
def L2Line.write (x : L2Line) (i : Nat) (bs : List Byte) : L2Line :=
  let m := lineMask i bs.length
  { x with data := x.data.take i ++ bs ++ x.data.drop (i + bs.length), dirty := x.dirty ||| m, pois := x.pois &&& ~~~ m }

/-- What the bytes at a device address read as when `mem` stands in memory and the L2 may hold their lines. -/
def Dev.overL2 (d : Dev) (asid : BitVec 10) (va : Nat) (mem : List Byte) : List Byte :=
  if d.l2.isEmpty then mem
  else (mem.zip (List.range mem.length)).map fun p => match d.l2At asid ((va + p.2) / 128) with
    | some x => x.data.getD ((va + p.2) % 128) 0
    | none => p.1

/-- The bytes at a location, at its home. -/
def State.homeBytes (s : State) (l : Loc) (n : Nat) : List Byte :=
  let mem := smGetRange Memory.unlisted (s.dev.memOf l.ty) l.addr n
  if l.ty = 0 then s.dev.overL2 l.asid l.va mem else mem

/-- Whether byte `i` from a location on is poisoned at its home, and whether one of `n` is (R346). -/
def State.homePoisonAt (s : State) (l : Loc) (i : Nat) : Bool :=
  match if l.ty = 0 then s.dev.l2At l.asid ((l.va + i) / 128) else none with
  | some x => x.pois.getLsbD ((l.va + i) % 128)
  | none => (s.dev.poisOf l.ty).contains (l.addr + i)
def State.homePoison (s : State) (l : Loc) (n : Nat) : Bool :=
  if s.dev.l2.isEmpty then nsHits (s.dev.poisOf l.ty) l.addr n
  else (List.range n).any fun i => s.homePoisonAt l i

/-- The poisoned bytes of a line at its home, as a mask. -/
def State.homeMask (s : State) (l : Loc) : BitVec 128 :=
  match if l.ty = 0 then s.dev.l2At l.asid (l.va / 128) else none with
  | some x => x.pois
  | none => poisonMask (s.dev.poisOf l.ty) (l.addr - l.va % 128)

/-- The traffic classes of a home slice (R361). -/
inductive Traffic where
  | demand | tree | copy | mcast
  deriving DecidableEq, Repr

/-- An access of a class comes to the home slice of a device line: counted as a hit or a miss of the L2, and a miss as a
read or a write of the channel (R391). -/
def Dev.access (d : Dev) (l : Loc) (k : Traffic) (wr : Bool) : Dev :=
  if l.ty ≠ 0 then d
  else match d.l2At l.asid (l.va / 128) with
    | some _ => if k = .demand then d.sliceCount l.slice 2 1 else d
    | none =>
      (match k with
        | .demand => d.sliceCount l.slice 3 1
        | .tree => d.sliceCount l.slice 8 1
        | .copy => d.sliceCount l.slice 9 1
        | .mcast => d).chanCount (channelOf l.addr) (if wr then 3 else 2) 1
def State.access (s : State) (l : Loc) (k : Traffic) (wr : Bool) : State := { s with dev := s.dev.access l k wr }

/-- A line whose old bytes the home has just read is written: a write of the channel where the L2 does not hold it. -/
def Dev.wrote (d : Dev) (l : Loc) : Dev :=
  if l.ty = 0 ∧ (d.l2At l.asid (l.va / 128)).isNone then d.chanCount (channelOf l.addr) 3 1 else d

/-- Elements of an atomic performed at the home slice of a device location, counted (R391). -/
def State.atomics (s : State) (l : Loc) (n : Nat) : State :=
  if l.ty = 0 then { s with dev := s.dev.sliceCount l.slice 5 n } else s

/-- A read comes to the home: combined values merge first (R277). -/
def State.reach (s : State) (l : Loc) (k : Traffic) : State :=
  let d := s.dev.access l k false
  { s with dev := if l.ty = 0 then d.merge (l.addr / 128) else d }

/-- A read of `n` bytes comes to the home, the home of a peer's line being the peer (R358, R370). -/
def State.reads (s : State) (l : Loc) (k : Traffic) (n : Nat) : State := (s.reach l k).askPeer l n

/-- The line monitors of a cask that watch the line (R29). -/
def Cask.wake (c : Cask) (asid : BitVec 10) (line : Nat) : Cask :=
  if c.st.armed = some (asid.toNat, line) then { c with st := { c.st with evt := true } } else c

/-- Every monitor of a line woken (R29). -/
def State.wakeLine (s : State) (asid : BitVec 10) (line : Nat) : State :=
  { s with cores := s.cores.map fun p => (p.1, { p.2 with k0 := p.2.k0.wake asid line, k1 := p.2.k1.wake asid line }) }

/-- The monitors of the lines that `h` selects, woken (R29). -/
def Cask.wakeIf (c : Cask) (h : BitVec 10 → Nat → Bool) : Cask :=
  match c.st.armed with
  | some (a, line) => if h (BitVec.ofNat 10 a) line then { c with st := { c.st with evt := true } } else c
  | none => c
def State.wakeLines (s : State) (h : BitVec 10 → Nat → Bool) : State :=
  { s with cores := s.cores.map fun p => (p.1, { p.2 with k0 := p.2.k0.wakeIf h, k1 := p.2.k1.wakeIf h }) }

/-- Bytes put into the memory behind a home, inside one line: into the L2 where it holds the line. Their poison goes
(R346). -/
def Dev.put (d : Dev) (l : Loc) (bs : List Byte) : Dev :=
  let m := smSetRange Memory.unlisted (d.memOf l.ty) l.addr bs
  let ps := nsDelRange (d.poisOf l.ty) l.addr bs.length
  match l.ty with
  | 0 => match d.l2At l.asid (l.va / 128) with
    | some x => d.putL2 (x.write (l.va % 128) bs)
    | none => { d with dmem := m, dmemP := ps }
  | 1 => { d with hmem := m, hmemP := ps }
  | _ => { d with pmem := m, pmemP := ps }

/-- Bytes written at their home, inside one line: poison of the bytes is cleared, combined values merge first, and the line's
monitors wake (R29, R115, R277, R346). -/
def State.homeDo (s : State) (l : Loc) (bs : List Byte) : State :=
  let d := if l.ty = 0 then s.dev.merge (l.addr / 128) else s.dev
  State.wakeLine { s with dev := d.put l bs } l.asid (l.va / 128)

/-- Bytes written at their home; a write for a peer is sent to it (R371). -/
def State.homeWrite (s : State) (l : Loc) (bs : List Byte) : State :=
  let t := s.homeDo l bs
  if l.ty = 0 ∨ l.ty = 1 then t else t.send (.write (l.addr / 2 ^ 64) (BitVec.ofNat 64 l.addr) bs)

/-- Poison added at a location, inside one line (R346). -/
def State.homePoisonAdd (s : State) (l : Loc) (n : Nat) : State :=
  let d := s.dev
  let ps := nsAddRange (d.poisOf l.ty) l.addr n
  match l.ty with
  | 0 => match d.l2At l.asid (l.va / 128) with
    | some x => { s with dev := d.putL2 { x with pois := x.pois ||| lineMask (l.va % 128) n } }
    | none => { s with dev := { d with dmemP := ps } }
  | 1 => { s with dev := { d with hmemP := ps } }
  | _ => { s with dev := { d with pmemP := ps } }

/-! ### The L1 -/

/-- The class of a line as core `c` sees it: 1 die, 2 device, 3 system (R96). -/
def State.classOf (s : State) (c : Nat) (ty : Nat) (asid : BitVec 10) (va : Nat) : Nat :=
  if ty ≠ 0 then 3
  else if homeSlice (s.dev.partOfCore c) asid va / 24 = c / 96 then 1 else 2

/-- A line's stamp, and a cask's generation, at a class. -/
def L1Line.stamp (l : L1Line) : Nat → Nat
  | 1 => l.gDie
  | 2 => l.gDev
  | _ => l.gSys
def Strand.gen (t : Strand) : Nat → Nat
  | 1 => t.gDie
  | 2 => t.gDev
  | _ => t.gSys

/-- A line of core `c`'s L1. -/
def Core.lineAt (k : Core) (asid : BitVec 10) (line : Nat) : Option L1Line :=
  k.l1.find? fun x => x.asid = asid ∧ x.line = line

/-- A line put in place of the one with its tag. -/
def Core.putLine (k : Core) (l : L1Line) : Core :=
  { k with l1 := l :: k.l1.filter fun x => ¬ (x.asid = l.asid ∧ x.line = l.line) }

/-- A line dropped. -/
def Core.dropLine (k : Core) (asid : BitVec 10) (line : Nat) : Core :=
  { k with l1 := k.l1.filter fun x => ¬ (x.asid = asid ∧ x.line = line) }

/-- Whether a line is fresh for cask `b` of core `c` (R98, R100). -/
def State.fresh (s : State) (c : Nat) (b : Bool) (l : L1Line) : Bool :=
  let k := s.classOf c l.ty l.asid (l.line * 128)
  !l.stale && decide (l.stamp k = (s.caskAt c b).st.gen k)

/-- Bytes chosen by a mask, bit i for byte i. -/
def mergeBytes (mask : BitVec 128) : Nat → List Byte → List Byte → List Byte
  | i, a :: as, b :: bs => (if mask.getLsbD i then a else b) :: mergeBytes mask (i + 1) as bs
  | _, _, _ => []

/-- The runs of set bits of a mask from bit `i` on, as (start, length). -/
def maskRuns (m : BitVec 128) : Nat → Nat → Option Nat → List (Nat × Nat)
  | 0, i, some st => [(st, i - st)]
  | 0, _, none => []
  | n + 1, i, st =>
    if m.getLsbD i then maskRuns m n (i + 1) (some (st.getD i))
    else match st with
      | some k => (k, i - k) :: maskRuns m n (i + 1) none
      | none => maskRuns m n (i + 1) none

/-- The dirty bytes of a line written home and the line made clean (R101, R300). Without a valid writable mapping they
are dropped and logged (R355). DESIGN CHOICE: the dirty bytes of one line perform together (R114 gives them no order; log 70). -/
def State.writeBack (s : State) (c : Nat) (l : L1Line) : State :=
  let clean (s : State) : State := s.setCore c ((s.core c).putLine { l with dirty := 0 })
  if l.dirty = 0 then s
  else match translate1 (some c) (s.dev.partOfCore c) l.asid (l.line * 128) .write true s with
    | .ok (loc, _) s1 =>
      clean ((maskRuns l.dirty 128 0 none).foldl (fun s r =>
        let here : Loc := { loc with addr := loc.addr + r.1, va := loc.va + r.1 }
        let s2 := s.homeWrite here ((l.data.drop r.1).take r.2)
        (maskRuns (l.pois &&& lineMask r.1 r.2) 128 0 none).foldl (fun s p =>
          s.homePoisonAdd { loc with addr := loc.addr + p.1, va := loc.va + p.1 } p.2) s2) (s1.access loc .demand true))
    | .error _ s1 => clean (s1.accessLog 0x05 (some c) l.asid (l.line * 128))

/-- The lines of an L1: 1 MiB of 128-byte lines (R3). -/
def l1Lines : Nat := 8192

/-- The lines of core `c` that can leave its L1 for a fill: those that the fill in progress has not brought (R71) and that can be
written home (R360). -/
def State.leavers (s : State) (c : Nat) : List L1Line :=
  (s.core c).l1.filter fun x => decide (x.fill ≠ (s.core c).fills) && !s.stuck c x

/-- The line that leaves a full L1. -/
def State.victim (s : State) (c : Nat) : Option L1Line := (s.leavers c)[Config.l1Victim s.tick % (s.leavers c).length]?

/-- A line is in the L1 of core `c`, or there is room for it without another line's leaving. -/
def State.fits (s : State) (c : Nat) (asid : BitVec 10) (line : Nat) : Bool :=
  ((s.core c).lineAt asid line).isSome || decide ((s.core c).l1.length < l1Lines)

/-- `n` lines can come into the L1 of core `c`. -/
def State.roomFor (s : State) (c n : Nat) : Bool := decide (n ≤ l1Lines - (s.core c).l1.length + (s.leavers c).length)

/-- Room in the L1 of core `c` for a line that it does not hold: the line that leaves is written home first (R3, R13). -/
def State.makeRoom (s : State) (c : Nat) (asid : BitVec 10) (line : Nat) : State :=
  if s.fits c asid line then s
  else match s.victim c with
    | some v =>
      let t := s.writeBack c v
      t.setCore c ((t.core c).dropLine v.asid v.line)
    | none => s

/-- A line filled from its home, keeping the bytes the core holds dirty (R98, R99). -/
def State.fillLine (s : State) (c : Nat) (b : Bool) (l : Loc) (k : Traffic := .demand) : State :=
  let line := l.va / 128
  let base : Loc := { l with addr := l.addr - l.va % 128, va := line * 128 }
  let s1 := (s.makeRoom c l.asid line).reads base k 128
  let home := s1.homeBytes base 128
  let ps := s1.homeMask base
  let t := (s1.caskAt c b).st
  let k := s1.core c
  let new : L1Line := match k.lineAt l.asid line with
    | some old => { old with data := mergeBytes old.dirty 0 old.data home, pois := (old.pois &&& old.dirty) ||| (ps &&& ~~~ old.dirty) }
    | none => { asid := l.asid, line := line, data := home, dirty := 0, pois := ps, gDie := 0, gDev := 0, gSys := 0,
                fill := 0, w := l.w, ty := l.ty, stale := false }
  s1.setCore c ((k.putLine { new with
    gDie := t.gDie, gDev := t.gDev, gSys := t.gSys, fill := k.fills, w := l.w, ty := l.ty, stale := false }))

/-- The next fill of core `c` is a new one (R71). -/
def State.nextFill (s : State) (c : Nat) : State := s.setCore c { s.core c with fills := (s.core c).fills + 1 }

/-- The reply of a peer that cannot be reached is poisoned (R272; log 15). -/
def peerCheck (l : Loc) : Act Unit := do
  let s ← get
  check (decide (l.ty ≠ 2) || s.reachable (l.addr / 2 ^ 64)) cUncorrectable (BitVec.ofNat 64 l.va)

/-- An access of a strand to a peer: it waits while the peer is a late member of its gang (R329). -/
def peerReach (l : Loc) : Act Unit := do
  let s ← get
  holdTill (decide (l.ty ≠ 2) || !s.lateRank (l.addr / 2 ^ 64))
  peerCheck l

/-- A line filled from its home on a miss of the L1 (R98, R391); the fill waits while no line can leave for it (R360). -/
def fill (c : Nat) (b : Bool) (l : Loc) : Act Unit := do
  let s ← get
  holdTill (s.fits c l.asid (l.va / 128) || s.roomFor c 1)
  modify fun s => ((s.fillLine c b l).nextFill c).count 0xA 1

/-- The line of a load, filled where it is absent or stale (R98). -/
def lineForLoad (va : Nat) : Act L1Line := do
  modify fun s => s.touch s.turn.core s.cask.kr.asid va
  let s ← get
  let c := s.turn.core
  let b := s.turn.cask
  let q := (s.core c).substitute s.cask.kr.asid va
  match (s.core c).lineAt q.1 (q.2.1 / 128) with
  | some l =>
    if s.fresh c b l then do
      modify fun s => s.count 0x9 1
      pure l
    else do
      let loc ← translate c s.cask.kr.asid va .read
      peerReach loc
      fill c b loc
      pure l
  | none => do
    let loc ← translate c s.cask.kr.asid va .read
    peerReach loc
    fill c b loc
    let s ← get
    pure (((s.core c).lineAt loc.asid (loc.va / 128)).getD
      { asid := 0, line := 0, data := [], dirty := 0, pois := 0, gDie := 0, gDev := 0, gSys := 0, fill := 0, w := false, ty := 0,
        stale := false })

/-- The bytes that the store buffer holds over what the L1 gave for a canonical pair: the latest store wins (R102, R357). -/
def forwardBuf (buf : List StoreEnt) (asid : BitVec 10) (va : Nat) (bs : List Byte) : List Byte :=
  buf.foldl (fun bs e => (List.range bs.length).zipWith (fun i b =>
    if e.casid = asid ∧ e.cva ≤ va + i ∧ va + i < e.cva + e.bytes.length then (e.bytes.drop (va + i - e.cva)).headD b
    else b) bs) bs

/-- The bytes of a line that the store buffer holds, as a mask. -/
def bufMask (buf : List StoreEnt) (asid : BitVec 10) (line : Nat) : BitVec 128 :=
  buf.foldl (fun m e => if e.casid = asid ∧ e.cva / 128 = line then m ||| lineMask (e.cva % 128) e.bytes.length else m) 0

/-- The bytes of a load inside one line, through the L1, with what a store buffer holds on top; a byte that it reads in
the L1 may be poisoned (R96–R99, R102, R346). -/
def l1LoadOver (buf : List StoreEnt) (va n : Nat) : Act (List Byte) := do
  let l0 ← lineForLoad va
  let s ← get
  match (s.core s.turn.core).lineAt l0.asid l0.line with
  | some l => do
    check (decide (l.pois &&& lineMask (va % 128) n &&& ~~~ bufMask buf l.asid l.line = 0)) cUncorrectable (BitVec.ofNat 64 va)
    pure (forwardBuf buf l.asid (128 * l.line + va % 128) ((l.data.drop (va % 128)).take n))
  | none => pure []

/-- The bytes of a load inside one line, through the L1. -/
def l1Load (va n : Nat) : Act (List Byte) := l1LoadOver [] va n

/-- The bytes of a store under an ASID inside one line, into the L1 (R97). A hit needs the permission of the requester's
own entry and of the canonical one (R357). -/
def l1StoreAs (asid : BitVec 10) (va : Nat) (bs : List Byte) : Act Unit := do
  modify fun s => s.touch s.turn.core asid va
  let s ← get
  let c := s.turn.core
  let b := s.turn.cask
  let q := (s.core c).substitute asid va
  let hit := match (s.core c).lineAt q.1 (q.2.1 / 128) with
    | some l => s.fresh c b l && l.w && q.2.2
    | none => false
  if hit then modify fun s => s.count 0x9 1
  else do
    let loc ← translate c asid va .write
    peerReach loc
    fill c b loc
  let s ← get
  let q := (s.core c).substitute asid va
  match (s.core c).lineAt q.1 (q.2.1 / 128) with
  | some l =>
    let i := va % 128
    let m := lineMask i bs.length
    set (s.setCore c ((s.core c).putLine { l with
      data := l.data.take i ++ bs ++ l.data.drop (i + bs.length), dirty := l.dirty ||| m, pois := l.pois &&& ~~~ m }))
  | none => pure ()

/-- The bytes of a store of the cask whose turn it is, inside one line. -/
def l1Store (va : Nat) (bs : List Byte) : Act Unit := do
  let s ← get
  l1StoreAs s.cask.kr.asid va bs

/-- The lines of core `c` that `f` selects, written home. -/
def State.writeBackIf (s : State) (c : Nat) (f : L1Line → Bool) : State :=
  ((s.core c).l1.filter fun l => decide (l.dirty ≠ 0) && f l).foldl (fun s l => s.writeBack c l) s

/-- The dirty lines of core `c` that `f` selects can be written home now: no slice turns one away (R359, R360). -/
def State.homeFree (s : State) (c : Nat) (f : L1Line → Bool := fun _ => true) : Bool :=
  (s.core c).l1.all fun l => !f l || !s.stuck c l

/-! ### The K store buffer, release and acquire (R101, R102) -/

/-- The oldest store of the buffer performed in the L1. A store whose mapping has gone since it was issued is dropped and
logged like a write-back, with the VA of its line (R355, R368; log 16); one whose station waits for a new slice map waits. -/
def drainStore : List StoreEnt → Act Unit
  | [] => pure ()
  | e :: es => do
    (fun s => match l1StoreAs e.asid e.va e.bytes s with
      | .ok _ t => .ok () t
      | .error (.trap _) t => .ok () (t.accessLog 0x05 (some t.turn.core) e.asid (e.va / 128 * 128))
      | .error r t => .error r t)
    modify fun s => s.updCask fun c => { c with st := { c.st with sbuf := es } }

/-- Stores of the buffer performed, oldest first. -/
def drainList : List StoreEnt → Act Unit
  | [] => pure ()
  | e :: es => do
    drainStore (e :: es)
    drainList es

/-- Every store of the buffer performed in the L1 (R101). -/
def drainBuf : Act Unit := do
  let s ← get
  drainList s.cask.st.sbuf

/-- The scopes die, device, system up to a scope, as classes (R101). -/
def scopeClass : Scope → Nat
  | .core => 0 | .die => 1 | .device => 2 | .system => 3

/-- Dirty lines of core `c` written home, one after another; a write-back that its slice turns away waits and is sent again
(R360). -/
def linesHomeAt (c : Nat) (f : State → State) : List L1Line → Act Unit
  | [] => pure ()
  | l :: ls => do
    station c (l.asid, l.line * 128)
    modify fun s => f (s.writeBack c l)
    linesHomeAt c f ls

/-- The dirty lines of core `c` whose class lies within a scope, as a class. -/
def State.dirtyIn (s : State) (c k : Nat) : List L1Line :=
  (s.core c).l1.filter fun l => decide (l.dirty ≠ 0) && decide (s.classOf c l.ty l.asid (l.line * 128) ≤ k)

/-- release(S) (R101); the lines that it writes home are counted (R391). -/
def release (sc : Scope) : Act Unit := do
  drainBuf
  let s ← get
  linesHomeAt s.turn.core (fun s => s.count 0xF 1) (s.dirtyIn s.turn.core (scopeClass sc))

/-- G at a class, set. -/
def Strand.setGen (t : Strand) (k v : Nat) : Strand :=
  match k with
  | 1 => { t with gDie := v }
  | 2 => { t with gDev := v }
  | _ => { t with gSys := v }

/-- The advance of G at one class, with the check of R100: a line that already carries the new value is marked stale. -/
def State.advance (s : State) (k : Nat) : State :=
  let c := s.turn.core
  let new := (s.cask.st.gen k + 1) % 16
  let hit (l : L1Line) : Bool := decide (s.classOf c l.ty l.asid (l.line * 128) = k) && decide (l.stamp k = new)
  let lines := (s.core c).l1.map fun l => if hit l then { l with stale := true } else l
  let s1 := s.setCore c { s.core c with l1 := lines }
  s1.updCask fun x => { x with st := x.st.setGen k new }

/-- acquire(S) (R101). -/
def State.acquire (s : State) (sc : Scope) : State :=
  (List.range (scopeClass sc)).foldl (fun s k => s.advance (k + 1)) s

/-- acquire(S) as an action. -/
def acquire (sc : Scope) : Act Unit := modify fun s => s.acquire sc

/-! ### Accesses of the engines through the L1, over any number of lines -/

/-- The parts of an access inside each 128-byte line: (address, length). -/
def lineParts : Nat → Nat → Nat → List (Nat × Nat)
  | 0, _, _ => []
  | _ + 1, _, 0 => []
  | f + 1, va, n =>
    let k := min n (128 - va % 128)
    (va, k) :: lineParts f (va + k) (n - k)

/-- Bytes loaded through the L1. -/
def loadParts : List (Nat × Nat) → Act (List Byte)
  | [] => pure []
  | p :: ps => do
    let a ← l1Load p.1 p.2
    let b ← loadParts ps
    pure (a ++ b)
def memLoad (va n : Nat) : Act (List Byte) := loadParts (lineParts (n / 128 + 2) va n)

/-- Bytes stored into the L1. -/
def storeParts : List (Nat × Nat) → List Byte → Act Unit
  | [], _ => pure ()
  | p :: ps, bs => do
    l1Store p.1 (bs.take p.2)
    storeParts ps (bs.drop p.2)
def memStore (va : Nat) (bs : List Byte) : Act Unit := storeParts (lineParts (bs.length / 128 + 2) va bs.length) bs

/-- Bytes read at the home, bypassing the L1 (R107, R201, R214). -/
def homeParts (need : Need) : List (Nat × Nat) → Act (List Byte)
  | [] => pure []
  | p :: ps => do
    check (canonical p.1) cProtection (BitVec.ofNat 64 p.1)
    let s ← get
    let loc ← translate s.turn.core s.cask.kr.asid p.1 need
    peerReach loc
    modify fun s => s.reads loc .demand p.2
    let s ← get
    check (!s.homePoison loc p.2) cUncorrectable (BitVec.ofNat 64 p.1)
    let rest ← homeParts need ps
    pure (s.homeBytes loc p.2 ++ rest)
def homeLoad (va n : Nat) : Act (List Byte) := homeParts .read (lineParts (n / 128 + 2) va n)

/-- A clean copy of a line in the L1 of the core whose turn it is, invalidated (R109). A line with dirty bytes keeps them, and
its clean bytes are stale (R99). -/
def State.dropClean (s : State) (asid : BitVec 10) (line : Nat) : State :=
  let c := s.turn.core
  match (s.core c).lineAt asid line with
  | some l => s.setCore c (if l.dirty = 0 then (s.core c).dropLine asid line else (s.core c).putLine { l with stale := true })
  | none => s

/-- Bytes written at the home by the core's Y or tree store, inside one line; the core's own clean copy is dropped. -/
def homeStore1 (va : Nat) (bs : List Byte) : Act Unit := do
  let s ← get
  let loc ← translate s.turn.core s.cask.kr.asid va .write
  peerReach loc
  modify fun s => ((s.access loc .demand true).homeWrite loc bs).dropClean loc.asid (loc.va / 128)
def homeStoreParts : List (Nat × Nat) → List Byte → Act Unit
  | [], _ => pure ()
  | p :: ps, bs => do
    homeStore1 p.1 (bs.take p.2)
    homeStoreParts ps (bs.drop p.2)
def homeStore (va : Nat) (bs : List Byte) : Act Unit :=
  homeStoreParts (lineParts (bs.length / 128 + 2) va bs.length) bs

/-- The canonical pair of an address under the ASID of the cask whose turn it is (R357). -/
def State.canonPair (s : State) (va : Nat) : BitVec 10 × Nat :=
  let c := s.turn.core
  let q := (s.core c).substitute s.cask.kr.asid va
  match translate1 (some c) (s.dev.partOfCore c) q.1 q.2.1 .any true s with
  | .ok (_, some r) _ => (r.1, r.2 * 2 ^ 16 + va % 2 ^ 16)
  | _ => (q.1, q.2.1)

/-- The lines of an address range that the core holds, under their canonical pairs (R357). -/
def State.linesOf (s : State) (va n : Nat) : List L1Line :=
  (lineParts (n / 128 + 2) va n).filterMap fun p =>
    let q := s.canonPair p.1
    (s.core s.turn.core).lineAt q.1 (q.2 / 128)

/-- The lines of an address range that the core holds dirty, written home (R120 note d). -/
def flushRange (va n : Nat) : Act Unit := do
  let s ← get
  linesHomeAt s.turn.core id ((s.linesOf va n).filter fun l => decide (l.dirty ≠ 0))

/-- The requests that write a range through at a scope are sent before the store performs (R359, R360). -/
def askLines (c : Nat) : List L1Line → Act Unit
  | [] => pure ()
  | l :: ls => do
    station c (l.asid, l.line * 128)
    askLines c ls
def throughReady (sc : Nat) (va n : Nat) : Act Unit := do
  let s ← get
  askLines s.turn.core ((s.linesOf va n).filter fun l => decide (s.classOf s.turn.core l.ty l.asid (l.line * 128) ≤ sc))

/-- Stores performed at a scope: lines of a range whose class lies within it are written through (R97, R106). -/
def writeThrough (sc : Nat) (va n : Nat) : Act Unit := modify fun s =>
  let c := s.turn.core
  (s.linesOf va n).foldl (fun s l => if s.classOf c l.ty l.asid (l.line * 128) ≤ sc then s.writeBack c l else s) s

/-! ### Accesses of the scheduler, the router and the PCI Express controller -/

/-- Bytes read at the home. -/
def ioParts (p : Partition) (asid : BitVec 10) (need : Need) : List (Nat × Nat) → Act (List Byte)
  | [] => pure []
  | q :: qs => do
    check (canonical q.1) cProtection (BitVec.ofNat 64 q.1)
    let loc ← translateIo p asid q.1 need
    peerCheck loc
    modify fun s => s.reads loc .demand q.2
    let s ← get
    check (!s.homePoison loc q.2) cUncorrectable (BitVec.ofNat 64 q.1)
    let rest ← ioParts p asid need qs
    pure (s.homeBytes loc q.2 ++ rest)
def ioLoad (p : Partition) (asid : BitVec 10) (va n : Nat) : Act (List Byte) :=
  ioParts p asid .read (lineParts (n / 128 + 2) va n)

/-- Bytes written at the home. -/
def ioStoreParts (p : Partition) (asid : BitVec 10) : List (Nat × Nat) → List Byte → Act Unit
  | [], _ => pure ()
  | q :: qs, bs => do
    check (canonical q.1) cProtection (BitVec.ofNat 64 q.1)
    let loc ← translateIo p asid q.1 .write
    peerCheck loc
    modify fun s => (s.access loc .demand true).homeWrite loc (bs.take q.2)
    ioStoreParts p asid qs (bs.drop q.2)
def ioStore (p : Partition) (asid : BitVec 10) (va : Nat) (bs : List Byte) : Act Unit :=
  ioStoreParts p asid (lineParts (bs.length / 128 + 2) va bs.length) bs

/-- A write that nothing waits for: one that a slice holds performs once the slices that gained granules serve them (R359). -/
def State.ioPost (s : State) (w : Posted) : State :=
  match ioStore (aGet Partition.reset s.dev.parts w.part) w.asid w.va w.bytes s with
  | .ok _ t => t
  | .error .hold _ => { s with dev := { s.dev with posted := s.dev.posted ++ [w] } }
  | .error _ t => t

/-- The writes that slices hold, tried again. -/
def State.postAgain (s : State) : State :=
  s.dev.posted.foldl State.ioPost { s with dev := { s.dev with posted := [] } }

/-! ### The L2 (R355, R358, R359, R361; log 46) -/

/-- The lines of a slice: 2 MiB of 128-byte lines (R3). -/
def l2Lines : Nat := 16384

/-- The granule of a pair moves to another slice in the change of the slice map that is in progress (R359). -/
def Partition.moves (p : Partition) (asid : BitVec 10) (va : Nat) : Bool :=
  p.busy && decide (homeSlice p asid va ≠ homeSlice { p with smap := p.next } asid va)

/-- The home slice takes a device line into its L2, with the leaf that translates it: a canonical pair, where it has room. -/
def State.l2Fill (s : State) (asid : BitVec 10) (line : Nat) : State :=
  let p := s.dev.partOfAsid asid
  if (s.dev.l2At asid line).isSome || !canonical (128 * line) || p.moves asid (128 * line) then s
  else match leafFor none p asid (128 * line) s, translate1 none p asid (128 * line) .any true s with
    | .ok (_, lg, e) _, .ok (loc, none) t =>
      let mine := t.dev.l2.filter fun x => homeSlice p x.asid (128 * x.line) = loc.slice
      if loc.ty = 0 ∧ mine.length < l2Lines then
        let x : L2Line :=
          { asid := asid, line := line, data := smGetRange Memory.unlisted t.dev.dmem loc.addr 128, dirty := 0,
            pois := poisonMask t.dev.dmemP loc.addr, lg := lg, pte := BitVec.ofNat 64 e }
        { t with dev := (t.dev.chanCount (channelOf loc.addr) 2 1).putL2 x }
      else s
    | _, _ => s

/-- A line leaves the L2 of its home: its dirty bytes are written to memory, and the line's monitors wake (R29). Without a
valid writable mapping they are dropped and logged (R355). -/
def State.l2Out (s : State) (x : L2Line) : State :=
  let d := { s.dev with l2 := s.dev.l2.filter fun y => ¬ (y.asid = x.asid ∧ y.line = x.line) }
  let s0 := State.wakeLine { s with dev := d } x.asid x.line
  if x.dirty = 0 then s0
  else match translate1 none (s0.dev.partOfAsid x.asid) x.asid (128 * x.line) .write true s0 with
    | .ok (loc, _) t =>
      let t1 : State := { t with dev := t.dev.chanCount (channelOf loc.addr) 3 1 }
      (maskRuns x.dirty 128 0 none).foldl (fun t r =>
        let t2 : State := { t with dev := t.dev.put { loc with addr := loc.addr + r.1, va := loc.va + r.1 } ((x.data.drop r.1).take r.2) }
        (maskRuns (x.pois &&& lineMask r.1 r.2) 128 0 none).foldl (fun t p =>
          t.homePoisonAdd { loc with addr := loc.addr + p.1, va := loc.va + p.1 } p.2) t2) t1
    | .error _ t => t.accessLog 0x05 none x.asid (128 * x.line)

/-- The lines of the L2s that `f` selects, written to memory and invalidated. -/
def State.l2Flush (s : State) (f : L2Line → Bool) : State := (s.dev.l2.filter f).foldl (fun s x => s.l2Out x) s

/-! ### Checks of addresses, in the order of R397 -/

/-- A memory operand: aligned, then canonical (R201, R397). -/
def checkMem {σ : Type} (va align : Nat) : EStateM Stop σ Unit := do
  check (decide (va % align = 0)) cAlignment (BitVec.ofNat 64 va)
  check (canonical va) cProtection (BitVec.ofNat 64 va)

/-- An SPM operand of `n` bytes: aligned, then inside the window (R37, R397). An empty range is inside it. -/
def checkSpm {σ : Type} (dual : Bool) (a n align : Nat) : EStateM Stop σ Unit := do
  check (decide (a % align = 0)) cAlignment (BitVec.ofNat 64 a)
  check (decide (n = 0) || decide (a + n ≤ spmSize dual)) cProtection (BitVec.ofNat 64 a)

/-- Bytes of the SPM; a poisoned one raises UNCORRECTABLE (R346). -/
def spmLoad (a n : Nat) : CAct (List Byte) := do
  let c ← get
  check (!nsHits c.mem.spmP a n) cUncorrectable (BitVec.ofNat 64 a)
  pure (c.spmBytes a n)

end Sys2Proof.Machine
end

