-- ==== Sys2Proof/Machine/Ops.lean ====
section
/-! DEFINITION. The named operations on the machine: markers (R46, R47), the journal (R337–R339), the fault frame and the
issue logs (R334, R335); taking an exception, ONE operation for every engine (`coreStop`, R331–R347), and the return from
one (`resumeCask`, R340, R348); how a K word and an engine word run (`kRun`, `eRun`). -/

namespace Sys2Proof.Machine

open Sys2Proof

/-! ### Markers (R46, R47) -/

/-- The low bit of an engine's field of RV (R46). -/
def rvBit : CoreUnit → Nat
  | .m => 16
  | .s => 32
  | .y => 48
  | _ => 0

/-- `n` replaces 16 bits of a word from bit `lo` on. -/
def setBits16 (w : Word) (lo : Nat) (n : BitVec 16) : Word :=
  (w &&& ~~~ ((0xFFFF : Word) <<< lo)) ||| ((n.setWidth 64) <<< lo)

/-- An engine retires marker `n`: its field of RV, and the pending set of the entry that holds n (R46). -/
def Cask.retireMark (c : Cask) (u : CoreUnit) (n : BitVec 16) : Cask :=
  let k := n.toNat % 16
  let e := aGet MarkEnt.reset c.cp.mtab k
  { c with cp := { c.cp with
      rv := setBits16 c.cp.rv (rvBit u) n,
      mtab := if e.n = n then aSet c.cp.mtab k { e with pend := e.pend.without u } else c.cp.mtab } }

/-- The markers at the front of an engine that nothing stands ahead of, in the order they were placed. -/
def frontMarks : List Mark → List (BitVec 16) × List Mark
  | [] => ([], [])
  | m :: ms =>
    if m.ahead = 0 ∧ m.owed.isEmpty then
      let r := frontMarks ms
      (m.n :: r.1, r.2)
    else ([], m :: ms)

/-- Markers of an engine retire while nothing stands ahead of them (R46). -/
def Cask.fireMarks (c : Cask) (e : Eng) : Cask :=
  let r := frontMarks (c.eng e).marks
  r.1.foldl (fun c n => c.retireMark e.unit n) (c.updEng e fun st => { st with marks := r.2 })

/-! ### The journal (R337, R338) -/

/-- The numbers of the journal count modulo 2^32. -/
def jnext (n : Nat) : Nat := (n + 1) % 2 ^ 32

/-- Entries held. -/
def YSt.jheld (y : YSt) : Nat := (y.jhead + 2 ^ 32 - y.jtail) % 2 ^ 32

/-- The KLM address of an entry (R337). -/
def jaddr (dual : Bool) (n : Nat) : Nat := klmUser dual + 192 * (n % 336)

/-- The tail advances over freed entries in order. -/
def jadvance : Nat → YSt → YSt
  | 0, y => y
  | f + 1, y =>
    if y.jtail ≠ y.jhead ∧ y.jfreed.contains y.jtail then
      jadvance f { y with jtail := jnext y.jtail, jfreed := nsDel y.jfreed y.jtail }
    else y

/-- An entry is freed (R337). -/
def Cask.jfree (c : Cask) (n : Nat) : Cask :=
  { c with yy := jadvance 336 { c.yy with jfreed := nsAdd c.yy.jfreed n } }

/-- What an entry records besides the command (R338): KIND, queue, CNUM, CHAIN, and the small fields of a nest launch
or of a TSTN. -/
structure JInfo where
  kind : Nat
  queue : Nat := 0
  cnum : Nat := 0
  chain : Nat := 0
  push : Nat := 0
  engine : Nat := 0
  nest : Nat := 0
  deriving Repr

/-- A journal entry is written, or the writer stalls while 336 are held (R337). The entry's number is returned. -/
def journal (dual : Bool) (cmd : List Byte) (i : JInfo) : CAct Nat := do
  let c ← get
  await (decide (c.yy.jheld < 336))
  let n := c.yy.jhead
  let meta0 := n + i.cnum * 2 ^ 32
  let meta1 := i.kind + i.queue * 2 ^ 8 + i.push * 2 ^ 10 + i.engine * 2 ^ 13 + i.nest * 2 ^ 14 + i.chain * 2 ^ 32
  let c1 := c.setKlm (jaddr dual n) (cmd.take 128 ++ List.replicate (128 - cmd.length) 0 ++ bytesOf 8 meta0 ++
    bytesOf 8 meta1 ++ List.replicate 48 0)
  set { c1 with yy := { c1.yy with jhead := jnext n } }
  pure n

/-- Saturation at 2^32 − 1. -/
def sat32 (n : Nat) : Nat := min n 0xFFFFFFFF

/-- WRAPS, SATS, INFS and NANS, each saturated (R269, R338). -/
def YEnt.countBytes (y : YEnt) : List Byte :=
  bytesOf 8 (sat32 y.wraps * 2 ^ 32 + sat32 y.sats) ++ bytesOf 8 (sat32 y.infs * 2 ^ 32 + sat32 y.nans)

/-- The cursor, flags and counts of a command that has begun, into its entry (R339). -/
def Cask.jprogress (c : Cask) (dual : Bool) (y : YEnt) : Cask :=
  c.setKlm (jaddr dual y.jnum + 144) (bytesOf 8 y.cursor ++ bytesOf 8 y.flags.toNat ++ y.countBytes)

/-- DONE in the entry of a command that has completed and whose entry the tail has not passed (R339). -/
def Cask.jdone (c : Cask) (dual : Bool) (n : Nat) : Cask :=
  let a := jaddr dual n + 136
  let v := natOf (c.klmBytes a 8)
  if v % 2 ^ 8 = 1 ∨ v % 2 ^ 8 = 2 ∨ v % 2 ^ 8 = 3 then
    (if v / 2 ^ 17 % 2 = 1 then c else c.setKlm a (bytesOf 8 (v + 2 ^ 17)))
  else c

/-! ### The word an engine stands at -/

/-- The engine stands behind a section with NFA that has not retired: it fetches nothing (R154, R156). -/
def EngSt.sealed (st : EngSt) : Bool := st.nfa && !st.started && !st.owed.isEmpty

/-- The header of the section at `h` in an engine's instruction memory, as a number. -/
def Cask.hdrAt (c : Cask) (e : Eng) (h : Nat) : Nat := c.fetch e.unit h 8

/-- Word `i` of the section at `h`. -/
def Cask.wordAt (c : Cask) (e : Eng) (h i : Nat) : Nat := c.fetch e.unit (h + 8 + 12 * i) 12

/-- How a word stands that is executed again (R333). -/
def Flight.redo (f : Flight) : Redo :=
  { cn := f.cn, hoff := f.hoff, idx := f.idx, prog := f.prog, swp := f.swp, jfree := f.jfree, pnan := f.pnan,
    pinf := f.pinf, psat := f.psat, pwrp := f.pwrp, scales := f.scales, aux := f.aux }

/-- The words of an engine that have issued and are not settled, in issue order (R333): the one in progress, then the
reissued ones that have not begun. -/
def EngSt.unsettled (st : EngSt) : List Redo :=
  match st.flight with
  | some f =>
    if f.settled || !f.begun then st.redo
    else
      { f.redo with aux := if f.prog = 0 then [] else f.aux } :: (if f.again then st.redo.drop 1 else st.redo)
  | none => st.redo

/-- The place after word `i` of the section at `h` with `n` words: the next word, or the next header. -/
def afterWord (h i n : Nat) : Nat × Nat := if i + 1 < n then (h, i + 1) else (h + 8 + 12 * n, 0)

/-- The numbers of the words that an engine has issued and that are not settled. A word of M counts that a stop cancels
(R263, R333). -/
def EngSt.openCns (st : EngSt) : List Nat :=
  let own : Option Flight → List Nat
    | some f => if f.begun && !f.settled then [f.cn] else []
    | none => []
  ((st.late.filter fun l => l.apply && !l.f.settled).map (·.f.cn)) ++ own (st.held.bind (·.flight)) ++ own st.flight ++
    st.redo.map (·.cn)

/-- How many words ago a number was given, of an engine that has given `cn` last. -/
def ageOf (cn n : Nat) : Nat := (cn + 2 ^ 32 - n) % 2 ^ 32

/-- The oldest of the numbers. -/
def oldest (cn : Nat) : List Nat → Option Nat
  | [] => none
  | n :: ns => match oldest cn ns with
    | some m => if ageOf cn n < ageOf cn m then some m else some n
    | none => some n

/-- The settled words that issued behind one that is not, once the word `f` is settled too (R333, R335). -/
def EngSt.noteDone (st : EngSt) (f : Flight) : List (Nat × Nat × Nat) :=
  match oldest st.cn st.openCns with
  | none => []
  | some b =>
    ((st.done.filter fun d => d.1 ≠ f.cn) ++ [(f.cn, f.hoff, f.idx)]).filter fun d => decide (ageOf st.cn d.1 < ageOf st.cn b)

/-- Where an engine goes on once its issued words are settled: (header, index) (NHOFF and NIDX of R335). A word in
progress that is new is followed by the word after it. -/
def EngSt.onward (st : EngSt) : Nat × Nat :=
  match st.flight with
  | some f => if f.settled || f.again || !f.begun then (st.hoff, st.idx)
    else match f.jump with
      | some (3, h) => (h, 0)
      | _ => afterWord f.hoff f.idx st.count
  | none => (st.hoff, st.idx)

/-! ### The frame (R334) and the issue logs (R335) -/

/-- What a stop reports (frame words 0 to 2). -/
structure StopInfo where
  code : Nat := 0
  eng : Nat := 0
  multi : Bool := false
  kind : Nat := 0
  yq : Nat := 0
  ycmd : Nat := 0
  va : Word := 0
  stat : Word := 0
  deriving Repr

/-- DONEM (R334): bit i for word CN + 2 + i. -/
def donem (done : List (Nat × Nat × Nat)) (cn : Nat) : Nat :=
  (List.range 32).foldl (fun a i => if done.any fun d => decide (d.1 = (cn + 2 + i) % 2 ^ 32) then a + 2 ^ i else a) 0

/-- The six words of an engine's block. `hdr`: the stop is for its section header (R155). SNUM is the number in the header
that HOFF names. -/
def engBlock (c : Cask) (e : Eng) (hdr : Bool) : List Nat :=
  let st := c.eng e
  let u := st.unsettled
  let here := if hdr then (st.hoff, 4095) else match u with
    | r :: _ => (r.hoff, r.idx)
    | [] => (st.hoff, st.idx)
  let cn := match u with
    | r :: _ => (r.cn + 2 ^ 32 - 1) % 2 ^ 32
    | [] => st.cn
  let prog := match u with
    | r :: _ => r.prog
    | [] => 0
  let lp (n : Nat) := smGet 0 st.lp n
  let sv := (List.range 4).foldl (fun a n => if (aFind st.lpStart n).isSome then a + 2 ^ n else a) 0
  let sta := (List.range 4).foldl (fun a n => a + smGet 0 st.lpStart n * 2 ^ (12 * n)) 0
  [ (if st.halted then 0 else here.2) * 2 ^ 52 + st.rsn.toNat * 2 ^ 36 +
      fld (c.hdrAt e here.1) 12 16 * 2 ^ 20 +
      bit st.halted * 2 ^ 19 + here.1,
    cn + donem st.done cn * 2 ^ 32, lp 0 + lp 1 * 2 ^ 24, lp 2 + lp 3 * 2 ^ 24, sv * 2 ^ 48 + sta,
    st.rpt * 2 ^ 40 + st.skew * 2 ^ 32 + (if st.halted then 0 else prog % 2 ^ 32) ]

/-- YDONE: bit i for command YCN + 2 + i (R334). -/
def ydoneWords (y : YSt) : List Nat :=
  (List.range 4).map fun w => (List.range 64).foldl (fun a i =>
    if y.ydone.contains ((y.ycn + 2 + 64 * w + i) % 2 ^ 32) then a + 2 ^ i else a) 0

/-- TKN (R334). -/
def tkn (t : Tokens) : Nat :=
  t.lm + t.ml * 2 ^ 7 + t.ms * 2 ^ 14 + t.sm * 2 ^ 21 + t.ls * 2 ^ 28 + t.sl * 2 ^ 35

/-- The counts of a stopped DRN (R341). -/
def drnCounts (st : EngSt) : Nat × Nat :=
  match st.unsettled with
  | r :: _ => (r.pnan + r.pinf * 2 ^ 32, r.psat + r.pwrp * 2 ^ 32)
  | [] => (0, 0)

/-- The words of a frame (R334), as a list of 64. -/
def frameWords (c : Cask) (i : StopInfo) (kpc : Nat) (hdrOf : Option Eng) : List Nat :=
  let d := drnCounts c.eS
  [ i.code * 2 ^ 56 + i.eng * 2 ^ 53 + bit i.multi * 2 ^ 52 + i.kind * 2 ^ 50 + i.yq * 2 ^ 48 + i.ycmd,
    i.va.toNat, i.stat.toNat, kpc, c.kr.tag.toNat, tkn c.cp.tok, c.yy.ycn, c.yy.jhead * 2 ^ 32 + c.yy.jtail ] ++
  engBlock c .l (hdrOf == some .l) ++ engBlock c .m (hdrOf == some .m) ++ engBlock c .s (hdrOf == some .s) ++
  ydoneWords c.yy ++ [d.1, d.2] ++ List.replicate 32 0

/-- An entry of an issue log: the word's number and the entry's 32 bits (R335). -/
def Redo.entry (r : Redo) : Nat × Nat := (r.cn, bit r.swp * 2 ^ 29 + r.hoff * 2 ^ 12 + r.idx)
def doneEntry (d : Nat × Nat × Nat) : Nat × Nat := (d.1, 2 ^ 31 + d.2.1 * 2 ^ 12 + d.2.2)

/-- An entry at its place in issue order. -/
def putEntry (cn : Nat) (x : Nat × Nat) : List (Nat × Nat) → List (Nat × Nat)
  | [] => [x]
  | y :: ys => if ageOf cn y.1 < ageOf cn x.1 then x :: y :: ys else y :: putEntry cn x ys

/-- An engine's issue log, 160 bytes (R335). -/
def issueLog (c : Cask) (e : Eng) : List Byte :=
  let st := c.eng e
  let u := if st.halted then [] else
    (st.done.map doneEntry).foldl (fun l x => putEntry st.cn x l) (st.unsettled.map Redo.entry)
  let n := st.onward
  let snum := fld (c.hdrAt e n.1) 12 16
  bytesOf 8 (u.length * 2 ^ 58 + n.2 * 2 ^ 46 + snum * 2 ^ 30 + n.1) ++ List.replicate 24 0 ++
  ((u.take 32).map fun x => bytesOf 4 x.2).flatten ++
  List.replicate (128 - 4 * (min u.length 32)) 0

/-- The cask as the frame of a suspend switch shows it: DONEM is 0 (R343). DESIGN CHOICE: a strand that a fault has stopped, whose
handler asks for the switch, keeps DONEM, for ERET reissues its words by it (R340; log 20). -/
def Cask.inFrame (c : Cask) (kind : Nat) : Cask :=
  if kind = 2 ∧ ¬ c.st.stopped then c.updEng .m fun st => { st with done := [] } else c

/-- The frame and the issue logs written: the hardware frame, and the frame area of the KLM (R334, R335). -/
def Cask.writeFrame (c : Cask) (dual : Bool) (i : StopInfo) (kpc : Nat) (hdrOf : Option Eng) : Cask :=
  let d := c.inFrame i.kind
  let ws := frameWords d i kpc hdrOf
  let c1 := c.setKlm (frameAt dual) ((ws.map (bytesOf 8)).flatten ++ issueLog d .l ++ issueLog d .m ++ issueLog d .s ++
    List.replicate 32 0)
  { c1 with st := { c1.st with frame := smSetRange 0 c1.st.frame 0 (ws.map (BitVec.ofNat 64)) } }

/-- An action on behalf of a cask, whoever's turn it is. -/
def asCask {α : Type} (c : Nat) (b : Bool) (m : Act α) : Act α := fun s =>
  let t := s.turn
  match m { s with turn := { t with core := c, cask := b } } with
  | .ok a u => .ok a { u with turn := t }
  | .error e u => .error e { u with turn := t }

/-- An action whose stops are dropped. -/
def tryAct (m : Act Unit) (s : State) : State :=
  match m s with
  | .ok _ t => t
  | .error _ t => t

/-! ### Completion records (R269) -/

/-- The 64 bytes of a completion record. -/
def recordBytes (y : YEnt) (done : Bool) (tend : Nat) : List Byte :=
  bytesOf 8 (bit done * 2 ^ 63 + y.status * 2 ^ 40 + (y.bytes.headD 0).toNat * 2 ^ 32 + y.cnum) ++ bytesOf 8 y.cursor ++
  bytesOf 8 y.flags.toNat ++ y.countBytes ++ bytesOf 8 y.tbeg.toNat ++ bytesOf 8 (if done then tend else 0) ++
  bytesOf 8 0

/-- CREC, and the address of the record, of a command's bytes (R157, R158). -/
def recordAt (bs : List Byte) : Option Nat :=
  if flag (natOf (bs.take 8)) 19 then some (natOf ((bs.drop 112).take 8)) else none

/-- Y's access to its cask's SPM, at an address of the form of R161. -/
def spmForm (a n : Nat) : Act Nat := do
  let s ← get
  check (isSpmForm a && decide (a % 2 ^ 21 + n ≤ spmSize s.dual)) cProtection (BitVec.ofNat 64 a)
  pure (a % 2 ^ 21)

/-- The record of a command written at its home, if it has one. -/
def writeRecord (y : YEnt) (done : Bool) : Act Unit := do
  match recordAt y.bytes with
  | none => pure ()
  | some a => do
    let s ← get
    let bs := recordBytes y done s.dev.rtc
    if isSpmForm a then do
      let o ← spmForm a 64
      modify fun s => s.updCask fun c => c.setSpm o bs
    else do
      check (canonical a) cProtection (BitVec.ofNat 64 a)
      homeStore a bs

/-- The commands of a cask that a stop leaves begun and not completed: every one, or those of the queue of a fault of Y
(R165, R270). -/
def YSt.stoppedCmds (y : YSt) : List (Nat × YEnt) :=
  let qs : SMap (List YEnt) := match y.failed with
    | some q => y.queues.filter fun (p : Nat × List YEnt) => decide (p.1 = q)
    | none => y.queues
  (qs.foldl (fun l p => l ++ p.2.map fun y => (p.1, y)) []).filter (·.2.begun)

/-- A fault that Y raises while its queues park for a checkpoint is held for the next switch-in; the first one stays (R332). -/
def State.deferY (s : State) (n : Nat) (b : Bool) (q : Nat) (y : YEnt) (f : Flt) : State :=
  let c := s.caskAt n b
  if c.st.deferred.isSome then s
  else s.setCaskAt n b { c with st := { c.st with
    deferred := some (.y, { f with stat := BitVec.ofNat 64 y.cursor }, q, y.cnum) } }

/-- The records that Y writes when it stops commands (R269, R270). A record that cannot be written is left out; when a
checkpoint parks the queues (`hold`), its fault is held (R332). -/
def State.stopRecords (s : State) (n : Nat) (b hold : Bool) : State :=
  (s.caskAt n b).yy.stoppedCmds.foldl (fun s p =>
    match asCask n b (writeRecord p.2 false) s with
    | .ok _ t => t
    | .error (.trap f) t => if hold then t.deferY n b p.1 p.2 f else t
    | .error _ t => t) s

/-! ### Taking an exception (R331–R347) -/

/-- A late word without the x register `n` among those that its finish writes. -/
def Late.unwrite (n : Nat) (l : Late) : Late :=
  { l with writes := l.writes.filter fun r => match r with
      | .x k => decide (k.toNat ≠ n)
      | _ => true }

/-- EWR writes an x register of an engine between two words: words that start later see the value, so a late word that started
earlier and has not finished writes that register no more (R180). -/
def Cask.ewrX (c : Cask) (e : Eng) (n : Nat) (v : Word) : Cask :=
  (c.setX e (BitVec.ofNat 4 n) v).updEng e fun st => { st with late := st.late.map (Late.unwrite n) }

/-- Values that K wrote to the engine's x registers while a word was in progress (R180). -/
def Cask.applyEwr (c : Cask) (e : Eng) : Cask :=
  let ws := (c.eng e).ewr
  ws.foldl (fun c p => c.ewrX e p.1 p.2) (c.updEng e fun st => { st with ewr := [] })

/-- Format words in the order in which FQ gave them. -/
def putFormat (f : Flight) : List Flight → List Flight
  | [] => [f]
  | g :: gs => if f.fmtn < g.fmtn then f :: g :: gs else g :: putFormat f gs

/-- The format words that words hold go back to the head of FQ, the one that FQ gave first in front (R333). -/
def Cask.fqBack (c : Cask) (fs : List Flight) : Cask :=
  { c with cp := { c.cp with fq := (fs.foldr putFormat []).filterMap (·.fmtw) ++ c.cp.fq } }

/-- The word of an engine that a stop leaves unsettled. -/
def EngSt.open_ (st : EngSt) : List Flight := st.flight.toList.filter fun f => !f.settled

/-- A word that is not settled gives its pops back (R333) and is kept for reissue. -/
def Cask.giveBack (c : Cask) (e : Eng) : Cask :=
  let st := c.eng e
  let c1 := match st.flight with
    | some f =>
      if f.settled then c
      else
        let t1 := c.cp.tok.setPop e true (c.cp.tok.popCount e true + f.popP)
        let t2 := t1.setPop e false (t1.popCount e false + f.popN)
        c.setTok t2
    | none => c
  let on := st.onward
  let c2 := match st.flight with
    | some f => if f.settled then c1 else c1.applyEwr e
    | none => c1
  c2.updEng e fun st => { st with
    redo := st.unsettled,
    hoff := on.1, idx := on.2, started := st.started && decide (on.1 = st.hoff),
    flight := (match st.flight with
      | some f => if f.settled then some f else none
      | none => none),
    wait := none, aligned := none }

/-- Late word `k` of M stands in the engine, the engine's own word aside. Its x registers are those that it issued with
(R180). -/
def Cask.lateIn (c : Cask) (k : Nat) : Cask :=
  match c.eM.late[k]? with
  | none => c
  | some l => c.updEng .m fun st => { st with
      late := st.late.eraseIdx k, flight := some l.f, wait := l.wait, ewr := [], x := if l.f.settled then st.x else l.x,
      held := some { k := k, l := l, flight := st.flight, wait := st.wait, ewr := st.ewr, x := st.x } }

/-- The x registers that a late word writes, as it leaves them, over those of the engine. -/
def mergeX (ws : List Res) (old new : SMap Word) : SMap Word :=
  ws.foldl (fun m r => match r with
    | .x n => smSet 0 m n.toNat (smGet 0 new n.toNat)
    | _ => m) old

/-- The engine's own word stands in it again. The late word is gone where it has finished. -/
def Cask.lateOut (c : Cask) : Cask :=
  match c.eM.held with
  | none => c
  | some h => c.updEng .m fun st =>
      let back : List Late := match st.flight with
        | some f => [{ h.l with f := f, wait := st.wait }]
        | none => []
      let ran := !h.l.f.settled && (back.all fun l => l.f.settled)
      { st with
        late := st.late.take h.k ++ back ++ st.late.drop h.k, flight := h.flight, wait := h.wait, ewr := h.ewr, held := none,
        x := if ran then mergeX h.l.writes h.x st.x else h.x }

/-- The late words of M that are not settled. -/
def EngSt.openLate (st : EngSt) : List Flight := (st.late.map (·.f)).filter fun f => !f.settled

/-- Late words of M that are not settled, those that `p` selects, give back their pops and are kept for reissue (R263,
R333). -/
def Cask.cancelIf (c : Cask) (p : Late → Bool) : Cask :=
  let fs := (c.eM.late.filter p).map (·.f)
  let t1 := c.cp.tok.setPop .m true (c.cp.tok.popCount .m true + (fs.map (·.popP)).sum)
  let t2 := t1.setPop .m false (t1.popCount .m false + (fs.map (·.popN)).sum)
  (c.setTok t2).updEng .m fun st => { st with
    redo := fs.map Flight.redo ++ st.redo, late := st.late.filter fun l => !p l,
    done := st.done.filter fun d => fs.all fun f => decide (f.cn ≠ d.1) }

/-- Every late word of M that is not settled is cancelled. -/
def Cask.cancelLate (c : Cask) : Cask := c.cancelIf fun l => !l.f.settled

/-- QAPL, QAPR and QFORM: a stop cancels them (R263). -/
def isApply : Instr → Bool
  | .qapl .. | .qapr .. | .qform .. => true
  | _ => false

/-- The word of M at a place is an apply word. -/
def Cask.appliesAt (c : Cask) (h i : Nat) : Bool :=
  match decodeEng .m (c.wordAt .m h i) with
  | .ok x => isApply x
  | .error _ => false

/-- The apply words in flight are cancelled, and their format words go back to the head of FQ; a word of M that stands behind
them and has not begun gives back what it has taken, so that they come first (R263, R323, R333). -/
def Cask.cancelApply (c : Cask) : Cask :=
  let p (l : Late) : Bool := l.apply && !l.f.settled
  let ls := c.eM.late.filter p
  let own := c.eM.open_.filter fun f => if f.begun then c.appliesAt f.hoff f.idx else !ls.isEmpty
  let c1 := if own.isEmpty then c else c.giveBack .m
  let c2 := (c1.cancelIf p).fqBack (ls.map (·.f) ++ own)
  if ls.isEmpty && own.isEmpty then c2
  else { c2 with cp := { c2.cp with fqWait := c2.cp.fqWait.filter fun x => x.1 ≠ .m } }

/-- The engines stop, and every word that is not settled is given back: the token counts of the frame are those after the
give-back (R331, R333, R334). -/
def Cask.stopEngines (c : Cask) : Cask :=
  let c0 := c.lateOut
  let fs := c0.eL.open_ ++ c0.eM.openLate ++ c0.eM.open_ ++ c0.eS.open_
  let c1 := ((((c0.giveBack .s).giveBack .m).giveBack .l).cancelLate).fqBack fs
  { c1 with cp := { c1.cp with fqWait := [] } }

/-- Y's part of a stop: the progress of every command that has begun and DONE of every one that has completed, in the
journal (R270, R339). After a fault of Y in queue `q` the commands that have begun in the other queues go on (R165). -/
def Cask.parkY (c : Cask) (dual : Bool) (q : Option Nat) : Cask :=
  let c1 := (c.yy.queues.foldl (fun l p => l ++ p.2) []).foldl (fun c y => if y.begun then c.jprogress dual y else c) c
  let c2 := c1.yy.jfreed.foldl (fun c n => c.jdone dual n) c1
  { c2 with yy := { c2.yy with parked := q.isNone, failed := q } }

/-- The queue of a fault of Y: 4 where a chain was fetched, which has no command number. -/
def StopInfo.failed (i : StopInfo) : Option Nat :=
  if i.eng = CoreUnit.num .y then some (if i.ycmd = 0 then 4 else i.yq) else none

/-- A cask takes an exception: the engines stop, unsettled words give their pops back, Y parks, the frame and the logs
are written; then K enters the handler at HVEC at system privilege, or stops where HVEC is 0 (R307, R331, R347). -/
def Cask.takeFault (c : Cask) (dual : Bool) (i : StopInfo) (kpc : Nat) (hdrOf : Option Eng) : Cask :=
  let c1 := (c.stopEngines.parkY dual i.failed).writeFrame dual i kpc hdrOf
  let c2 := { c1 with st := { c1.st with stopped := true, wait := none, spur := true, ybound := none } }
  if c2.kr.hvec = 0 then { c2 with kr := { c2.kr with kpc := kpc }, st := { c2.st with kstop := true } }
  else { c2 with kr := { c2.kr with kpc := c2.kr.hvec, priv := true } }

/-- The fault's report, as frame words 0 to 2 hold it. -/
def stopInfo (u : CoreUnit) (f : Flt) (yq ycmd : Nat) : StopInfo :=
  { code := f.code, eng := u.num, yq := yq, ycmd := ycmd, va := f.va, stat := f.stat }

/-- A fault of cask `b` of core `n`, whose K resumes at `kpc`. Inside a handler it stops K with the first frame kept
and is logged (R347). -/
def State.takeFaultAt (s : State) (n : Nat) (b : Bool) (i : StopInfo) (kpc : Nat) (hdrOf : Option Eng) : State :=
  let c := s.caskAt n b
  if c.kr.priv then
    (s.setCaskAt n b { c with st := { c.st with kstop := true, wait := none } }).accessLog 0x0C (some n) c.kr.asid
      (i.code + c.kr.kpc * 2 ^ 8)
  else (s.setCaskAt n b (c.takeFault (s.core n).dual i kpc hdrOf)).stopRecords n b false

/-- Taking an exception in the cask whose turn it is: `u` raised `f`; K resumes at its own place. -/
def State.coreStop (s : State) (u : CoreUnit) (f : Flt) : State :=
  s.takeFaultAt s.turn.core s.turn.cask (stopInfo u f 0 0) s.cask.kr.kpc none

/-! ### Resuming (R340–R342, R348) -/

/-- The unsettled words of an issue log, from entry `k` on (R335, R340). The journal entry that a word frees is live
state of the engine. -/
def logRedo (old : List Redo) (bytes : List Byte) (cn prog : Nat) : Nat → Nat → List Redo
  | _, 0 => []
  | k, n + 1 =>
    let v := natOf ((bytes.drop (32 + 4 * k)).take 4)
    let num := (cn + 1 + k) % 2 ^ 32
    let rest := logRedo old bytes cn prog (k + 1) n
    if v / 2 ^ 31 % 2 = 1 then rest
    else
      { cn := num, hoff := fld v 12 17, idx := fld v 0 12, prog := if k = 0 then prog else 0,
        swp := v / 2 ^ 29 % 2 = 1, jfree := ((old.find? fun r => r.cn = num).map (·.jfree)).getD none,
        pnan := 0, pinf := 0, psat := 0, pwrp := 0,
        scales := ((old.find? fun r => r.cn = num).map (·.scales)).getD [],
        aux := ((old.find? fun r => r.cn = num).map (·.aux)).getD [] } :: rest

/-- The settled words of an issue log, from entry `k` on: they are skipped (R340). -/
def logDone (bytes : List Byte) (cn : Nat) : Nat → Nat → List (Nat × Nat × Nat)
  | _, 0 => []
  | k, n + 1 =>
    let v := natOf ((bytes.drop (32 + 4 * k)).take 4)
    let rest := logDone bytes cn (k + 1) n
    if v / 2 ^ 31 % 2 = 1 then ((cn + 1 + k) % 2 ^ 32, fld v 12 17, fld v 0 12) :: rest else rest

/-- An engine resumes from the hardware frame and its issue log (R340). The first word of S takes back its counts
(R341). -/
def Cask.resumeEng (c : Cask) (e : Eng) (b : Nat) (log : List Byte) : Cask :=
  let w (n : Nat) : Nat := (smGet 0 c.st.frame n).toNat
  if fld (w b) 19 1 = 1 then c.updEng e fun st => { st with halted := true, wait := none }
  else
    let d := natOf (log.take 8)
    let h := fld d 0 17
    let i := fld d 46 12
    let hd := c.hdrAt e h
    c.updEng e fun st =>
      let rs := logRedo st.redo log (fld (w (b + 1)) 0 32) (fld (w (b + 5)) 0 32) 0 (min (fld d 58 6) 32)
      let rs' := if e = .s then (match rs with
          | r :: t => { r with pnan := fld (w 30) 0 32, pinf := fld (w 30) 32 32, psat := fld (w 31) 0 32,
                               pwrp := fld (w 31) 32 32 } :: t
          | [] => [])
        else rs
      let begun := decide (i ≠ 0) || (st.started && decide (st.hoff = h) && decide (st.idx = i))
      { st with
        rsn := BitVec.ofNat 16 (fld (w b) 36 16), redo := rs', hoff := h, idx := i, started := begun,
        snum := if i ≠ 0 then BitVec.ofNat 16 (fld hd 12 16) else st.snum,
        count := if i ≠ 0 then fld hd 0 12 else st.count,
        nfa := if i ≠ 0 then flag hd 60 else st.nfa, wait := none,
        late := st.late.map fun l => { l with wait := none },
        done := logDone log (fld (w (b + 1)) 0 32) 0 (min (fld d 58 6) 32) }

/-- The command that a journal entry holds, as it enters its queue on resume (R338, R340). What the entry does not
record stays as the live command of its number has it. -/
def Cask.reissued (c : Cask) (dual : Bool) (n : Nat) : Option (Nat × YEnt) :=
  let a := jaddr dual n
  let m := natOf (c.klmBytes (a + 136) 8)
  let cnum := natOf (c.klmBytes (a + 132) 4)
  let kind := fld m 0 8
  let k := (cnum + 2 ^ 32 - c.yy.ycn) % 2 ^ 32
  if (kind = 1 ∨ kind = 2 ∨ kind = 3) ∧ ¬ flag m 17 ∧ ¬ c.yy.jfreed.contains n ∧ 0 < k ∧ k < 2 ^ 31 ∧
      ¬ c.yy.ydone.contains cnum then
    let live := (c.yy.queues.foldl (fun l p => l ++ p.2) []).find? fun y => y.jnum = n
    some (fld m 8 2,
      { bytes := c.klmBytes a 128, cnum := cnum, jnum := n,
        begun := (live.map (·.begun)).getD false,
        cursor := natOf (c.klmBytes (a + 144) 8),
        flags := BitVec.ofNat 5 (natOf (c.klmBytes (a + 152) 8)),
        wraps := natOf (c.klmBytes (a + 164) 4), sats := natOf (c.klmBytes (a + 160) 4),
        infs := natOf (c.klmBytes (a + 172) 4), nans := natOf (c.klmBytes (a + 168) 4),
        status := (live.map (·.status)).getD 0, done := (live.map (·.done)).getD false,
        tbeg := (live.map (·.tbeg)).getD 0, forked := (live.map (·.forked)).getD 0, path := none, cls := (live.map (·.cls)).getD 0,
        owner := if kind = 3 then some { cn := fld m 32 32, hp := flag m 11, hn := flag m 10, ready := false } else none,
        part := 0, left := [], data := [], wait := none })
  else none

/-- The journal numbers from `n` on. -/
def jnums : Nat → Nat → List Nat
  | _, 0 => []
  | n, k + 1 => n :: jnums (jnext n) k

/-- The commands that Y takes up again, in the order of their numbers, which is that of the journal (R340). -/
def Cask.resumeY (c : Cask) (dual : Bool) : Cask :=
  let es := (jnums c.yy.jtail c.yy.jheld).filterMap fun n => c.reissued dual n
  let qs := es.foldl (fun (m : SMap (List YEnt)) p => aSet m p.1 (aGet [] m p.1 ++ [p.2])) []
  { c with yy := { c.yy with queues := qs, parked := false,
                             chains := c.yy.chains.map fun x => { x with wait := none } } }

/-- The strand resumes from the frame at KLM address `fa` (R340, R348): KPC and TAG from there, every other field from
the hardware frame. K leaves the handler. Where the KPC is not that of the stopped word, no word of K has an arrival to
return from (R190). -/
def Cask.resumeCask (c : Cask) (dual : Bool) (fa : Nat) : Cask :=
  let log (k : Nat) := c.klmBytes (fa + 512 + 160 * k) 160
  let c1 := ((c.resumeEng .l 8 (log 0)).resumeEng .m 14 (log 1)).resumeEng .s 20 (log 2)
  let c2 := (if c1.yy.failed.isSome then c1.parkY dual none else c1).resumeY dual
  let pc := fld (natOf (c.klmBytes (fa + 24) 8)) 0 18
  { c2 with
    kr := { c2.kr with kpc := pc, priv := false, tag := BitVec.ofNat 64 (natOf (c.klmBytes (fa + 32) 8)) },
    st := { c2.st with stopped := false, kstop := false, wait := none,
                       arr := if pc = (smGet 0 c.st.frame 3).toNat then c2.st.arr else [] } }

/-! ### Running a K word -/

/-- A K word's action run to its outcome: the next state, the exception it takes, or the wait it is in. -/
def kRun (m : Act Unit) (s : State) : Host.Outcome State Fault Refusal :=
  match m s with
  | .ok _ t => .next t
  | .error (.trap f) t => .next (t.coreStop .k f)
  | .error (.wait token) t => .next (t.kWaits token)
  | .error .hold t => .next t

/-- A K word of opcodes 0x40 to 0x77 other than RDS and WRS: ILLEGAL_OPERAND in a handler (R347). -/
def kUser (m : Act Unit) (s : State) : Host.Outcome State Fault Refusal :=
  kRun (do
    check (!s.cask.kr.priv) cIllegalOperand
    m) s

/-- A privileged K word: PROTECTION at user privilege (R2, R149). -/
def kPriv (m : Act Unit) (s : State) : Host.Outcome State Fault Refusal :=
  kRun (do
    check s.cask.kr.priv cProtection
    m) s

/-- The K word retires. -/
def kDone : Act Unit := modify State.kNext

/-- The core drains K's store buffer before a handshake (R104). -/
def handshake : Act Unit := drainBuf

/-! ### Running an engine word -/

/-- What one unit of a word leaves: more units, none (the word is settled and finishes), or a word that is settled and
finishes later (TSTN, R222). -/
inductive Prog where
  | more | last | owed
  deriving DecidableEq, Repr

/-- How a word runs: its own checks, made before it pops (R153); how many tokens its bits pop and push (R205); and its
next unit of work (R202). -/
structure Plan where
  pops : Nat := 1
  pushes : Nat := 1
  pre : Act Unit
  unit : Act Prog

/-- The word in progress. -/
def Flight.start (cn h i : Nat) (tks : BitVec 12) : Flight :=
  { begun := false, cn := cn, hoff := h, idx := i, prog := 0, swp := false, jfree := none, popP := 0, popN := 0, fmtw := none,
    fmtn := 0, settled := false, tks := tks, pnan := 0, pinf := 0, psat := 0, pwrp := 0, scales := [], rings := [], pops := [],
    again := false, aux := [], pt := Point.none, jump := none, ends := none, donP := false, donN := false }

/-- The word in progress of an engine. -/
def Cask.flightOf (c : Cask) (e : Eng) : Flight := (c.eng e).flight.getD (Flight.start 0 0 0 0)

/-- The word in progress, changed. -/
def Cask.updFlight (c : Cask) (e : Eng) (f : Flight → Flight) : Cask :=
  c.updEng e fun st => { st with flight := st.flight.map f }

/-- The place of the next word to issue: a reissued one first. -/
def EngSt.place (st : EngSt) : Nat × Nat :=
  match st.redo with
  | r :: _ => (r.hoff, r.idx)
  | [] => (st.hoff, st.idx)

/-- A word takes its pops (R45). It begins later, with its first unit (`Cask.begin`). -/
def Cask.issue (c : Cask) (e : Eng) (t : Tk) (pops : Nat) : Cask :=
  let st := c.eng e
  let np := if t.pp then pops else 0
  let nn := if t.pn then pops else 0
  let t1 := c.cp.tok.setPop e true (c.cp.tok.popCount e true - np)
  let t2 := t1.setPop e false (t1.popCount e false - nn)
  let f := match st.redo with
    | r :: _ => { Flight.start r.cn r.hoff r.idx c.cp.tks with
        prog := r.prog, swp := r.swp, jfree := r.jfree, pnan := r.pnan, pinf := r.pinf, psat := r.psat, pwrp := r.pwrp,
        scales := r.scales, aux := r.aux, again := true, popP := np, popN := nn }
    | [] => { Flight.start ((st.cn + 1) % 2 ^ 32) st.hoff st.idx c.cp.tks with popP := np, popN := nn }
  (c.setTok t2).updEng e fun st => { st with flight := some f }

/-- The word in progress begins: it has issued, under the token scopes in force (R106), and a new word takes its completion
number (R333). -/
def Cask.begin (c : Cask) (e : Eng) : Cask :=
  c.updEng e fun st => match st.flight with
    | some f => if f.begun then st
      else { st with flight := some { f with begun := true, tks := c.cp.tks }, cn := if f.again then st.cn else f.cn }
    | none => st

/-- Token pops can be made (R45, R205). DEDUCED: a word with two pop bits takes both at once, as soon as both FIFOs hold enough
(log 62). -/
def Cask.popsReady (c : Cask) (e : Eng) (t : Tk) (n : Nat) : Bool :=
  (!t.pp || decide (n ≤ c.cp.tok.popCount e true)) && (!t.pn || decide (n ≤ c.cp.tok.popCount e false))

/-- Pushes have room (R45, R205, R333). -/
def Cask.pushReady (c : Cask) (e : Eng) (hp hn : Bool) (n : Nat) : Bool :=
  (!hp || decide (c.cp.tok.pushCount e true + n ≤ 32)) && (!hn || decide (c.cp.tok.pushCount e false + n ≤ 32))

/-- Pushes made. -/
def Cask.push (c : Cask) (e : Eng) (hp hn : Bool) (n : Nat) : Cask :=
  let t1 := if hp then c.cp.tok.setPush e true (c.cp.tok.pushCount e true + n) else c.cp.tok
  c.setTok (if hn then t1.setPush e false (t1.pushCount e false + n) else t1)

/-- The markers and the sections behind the word of a number wait for its finish alone. -/
def EngSt.owes (st : EngSt) (n : Nat) : Bool := st.owed.any fun x => decide (x.cn = n)

/-- The word in progress is settled: the engine's place moves on, a reissued word leaves the list, and a nest launch
that it swapped in is freed from the journal (R333, R337). The place has moved on already behind a late word. -/
def Cask.settle (c0 : Cask) (e : Eng) : Cask :=
  let c := c0.begin e
  let f := c.flightOf e
  let c2 := c.updEng e fun st =>
    if e == .m && st.held.isSome then { st with flight := some { f with settled := true, ends := none } }
    else if f.again then
      let h := c.hdrAt e f.hoff
      let last := decide (f.idx + 1 = fld h 0 12) || (match f.jump with
        | some (2, _) => true
        | _ => false)
      { st with redo := st.redo.drop 1, flight := some { f with
          settled := true, ends := if last && !st.owes f.cn then some (BitVec.ofNat 16 (fld h 12 16)) else none } }
    else match f.jump with
      | some (0, i) => { st with idx := i, flight := some { f with settled := true } }
      | some (1, h) => { st with hoff := h, idx := 0, started := false, lpStart := [],
                                 flight := some { f with settled := true, ends := some st.snum } }
      | some (3, h) => { st with hoff := h, idx := 0, started := false, lpStart := [], flight := some { f with
          settled := true, ends := if f.idx + 1 = st.count then some st.snum else none } }
      | some (_, _) => { st with flight := some { f with settled := true, ends := some st.snum } }
      | none =>
        let p := afterWord f.hoff f.idx st.count
        if p.1 = f.hoff then { st with idx := p.2, flight := some { f with settled := true } }
        else { st with hoff := p.1, idx := 0, started := false, lpStart := [],
                       flight := some { f with settled := true, ends := some st.snum } }
  let c1 := c2.updEng e fun st => { st with done := st.noteDone f }
  match f.jfree with
  | some n => c1.jfree n
  | none => c1

/-- Sections whose every word has retired give their number to the retired section number, in order (R156). -/
def popSections : List (BitVec 16 × List Nat) → BitVec 16 → Bool → BitVec 16 × Bool × List (BitVec 16 × List Nat)
  | [], r, b => (r, b, [])
  | p :: ps, r, b => if p.2.isEmpty then popSections ps p.1 true else (r, b, p :: ps)

/-- The engine's retired section number brought up to date. -/
def EngSt.sections (st : EngSt) : EngSt :=
  let r := popSections st.rsnPend st.rsn st.retired
  { st with rsn := r.1, retired := r.2.1, rsnPend := r.2.2 }

/-- One word fewer ahead of every marker; at the end of an NFA section none (R154); behind a taken branch a number
that is not fixed; behind a HALTE none (R46, R208). `owed`: a TSTN that stays ahead until its TNODE completes. -/
def marksAfter (ms : List Mark) (f : Flight) (nfa : Bool) (free : Nat) (owed : Option Nat) : List Mark :=
  ms.map fun m =>
    if m.ahead = 0 then m
    else
      let a := match f.jump with
        | some (2, _) => 0
        | some (1, _) => if nfa then 0 else min (m.ahead - 1) free
        | _ => if nfa && f.ends.isSome then 0 else m.ahead - 1
      { m with ahead := a, owed := m.owed ++ owed.toList }

/-- What waited for the finish of word `n` waits no more. -/
def Cask.release (c : Cask) (e : Eng) (n : Nat) : Cask :=
  (c.updEng e fun st => EngSt.sections { st with
    owed := st.owed.filter fun x => x.cn ≠ n,
    marks := st.marks.map fun m => { m with owed := nsDel m.owed n },
    rsnPend := st.rsnPend.map fun p => (p.1, nsDel p.2 n) }).fireMarks e

/-- The word in progress leaves the engine: it has finished, or `owed` keeps it until its TNODE completes, or, in M, until
its finish (R223). For a word that is owed already, what waits for it knows its number. -/
def Cask.retire (c : Cask) (e : Eng) (free : Nat) (owed : Option Owed) : Cask :=
  let f := c.flightOf e
  let cnO := owed.map (·.cn)
  if (c.eng e).owes f.cn then
    let c2 := (c.updEng e fun st => { st with flight := none, wait := none }).applyEwr e
    if owed.isSome then c2 else c2.release e f.cn
  else
  let c1 := c.updEng e fun st =>
    let waiting := st.owed.map (·.cn) ++ cnO.toList
    let st1 := { st with
      flight := none, wait := none, owed := st.owed ++ owed.toList,
      halted := st.halted || (match f.jump with
        | some (2, _) => true
        | _ => false),
      marks := marksAfter st.marks f st.nfa free cnO,
      rsnPend := st.rsnPend ++ (f.ends.map fun n => (n, waiting)).toList }
    st1.sections
  (c1.applyEwr e).fireMarks e

/-- The monitor event of a settled word of an engine (R391). -/
def settledEvent : Eng → Nat
  | .l => 3 | .m => 4 | .s => 5

/-- A push to a FIFO that is still to be made has room. -/
def Cask.roomP (c : Cask) (e : Eng) (hp : Bool) (n : Nat) : Bool := hp && c.pushReady e true false n
def Cask.roomN (c : Cask) (e : Eng) (hn : Bool) (n : Nat) : Bool := hn && c.pushReady e false true n

/-- A TSTN whose TNODE has completed pushes to each FIFO that has room; once it has made all its pushes it finishes, and with it
everything that waited for it (R45, R222, R340). -/
def Cask.finishOwed (c : Cask) (e : Eng) (o : Owed) : Cask :=
  let p := c.roomP e o.hp 1
  let n := c.roomN e o.hn 1
  let c1 := c.push e p n 1
  let o1 : Owed := { o with hp := o.hp && !p, hn := o.hn && !n, ready := true }
  if o1.hp || o1.hn then c1.updEng e fun st => { st with owed := st.owed.map fun x => if x.cn = o.cn then o1 else x }
  else c1.release e o.cn

/-- Every TSTN whose TNODE has completed finishes before S goes on; a full FIFO holds S (R45, R222). -/
def finishReady (e : Eng) : List Owed → Act Unit
  | [] => pure ()
  | o :: os => do
    if o.ready then do
      modify fun s => s.updCask fun c => c.finishOwed e o
      let s ← get
      await (!(s.cask.eng e).owes o.cn) true
    finishReady e os

/-- The slots of a ring, and a ring of a cask (R40). -/
def Ring.slots (r : Ring) : Nat := fld r.w0.toNat 40 8 + 1
def Cask.ring (c : Cask) (n : Nat) : Ring := aGet Ring.reset c.cp.rings n
def Cask.setRing (c : Cask) (n : Nat) (r : Ring) : Cask := { c with cp := { c.cp with rings := aSet c.cp.rings n r } }

/-- HEAD advances (R41). -/
def Cask.popRing (c : Cask) (n : Nat) : Cask :=
  let r := c.ring n
  c.setRing n { r with head := (r.head + 1) % (2 * r.slots) }

/-- HEAD of every ring whose tile the word in progress has read advances (R41). -/
def Cask.popRings (c : Cask) (e : Eng) : Cask := (c.flightOf e).pops.foldl (fun c n => c.popRing n) c

/-- The pushes of the finish that find room, while another finds none: the word keeps what it has pushed (R45, R205). -/
def Cask.pushSome (c : Cask) (e : Eng) (hp hn : Bool) (n : Nat) : Cask :=
  let p := c.roomP e hp n
  let q := c.roomN e hn n
  (c.push e p q n).updFlight e fun f => { f with donP := f.donP || p, donN := f.donN || q }

/-- The finish of the word in progress: its pushes, each as its FIFO has room, the slots that it frees, and then it retires; a full
FIFO holds it (R41, R45). -/
def finishWord (e : Eng) (t : Tk) (pushes : Nat) : Act Unit := do
  let s ← get
  let f := s.cask.flightOf e
  let hp := t.hp && !f.donP
  let hn := t.hn && !f.donN
  if s.cask.pushReady e hp hn pushes then
    modify fun s => s.updCask fun c => ((c.push e hp hn pushes).popRings e).retire e (Config.fetchAhead s.tick e) none
  else do
    modify fun s => s.updCask fun c => c.pushSome e hp hn pushes
    throw (.wait true)

/-- Units of the word in progress, at most `n`, while there are more. -/
def runUnits (unit : Act Prog) : Nat → Act Prog
  | 0 => pure .more
  | n + 1 => do
    let p ← unit
    match p with
    | .more => runUnits unit n
    | _ => pure p

/-- The engine may begin the iteration that its next word belongs to (R179, R206): L has begun iteration i + k, or its
counter has reached 0. -/
def Cask.skewOk (c : Cask) (e : Eng) (i : Nat) : Bool :=
  let st := c.eng e
  e == .l || st.skewFree || decide (st.rpt = 0) || decide (i + st.skew < c.eL.iters)

/-- The iteration that a loop word announced begins. DESIGN CHOICE: the watchdog does not time the wait for L's iteration:
R169 calls every wait of its chapter a watchdog wait, and neither R28 nor R159 lists this one (R336; log 58). -/
def beginIteration (e : Eng) : Act Unit := do
  let s ← get
  match (s.cask.eng e).need with
  | none => pure ()
  | some i => do
    holdTill (s.cask.skewOk e i)
    modify fun s => s.updCask fun c => c.updEng e fun st => { st with need := none, iters := i + 1 }

/-- The action of an engine whose turn it is on the word it stands at: the word's checks, its pops, its units, and its
finish (R45, R153, R202, R333). A word that has popped and not begun is checked again, for K can have written its x registers
(R180). -/
def eAct (e : Eng) (t : Tk) (p : Plan) : Act Unit := do
  let s ← get
  finishReady e (s.cask.eng e).owed
  let s ← get
  match (s.cask.eng e).flight with
  | some f =>
    if f.settled then finishWord e t p.pushes
    else do
      if !f.begun then p.pre
      runRest
  | none => do
    beginIteration e
    p.pre
    let s ← get
    await (s.cask.popsReady e t p.pops) true
    set (s.updCask fun c => c.issue e t p.pops)
    runRest
where
  /-- The units of the word in progress, and its finish after the last one. -/
  runRest : Act Unit := do
    let s ← get
    let r ← runUnits p.unit (s.turn.burst + 1)
    match r with
    | .more => modify fun s => s.updCask fun c => c.updEng e fun st => { st with wait := none }
    | .last => do
      modify fun s => (s.updCask fun c => c.settle e).count (settledEvent e) 1
      finishWord e t p.pushes
    | .owed =>
      modify fun s => (s.updCask fun c =>
        let f := c.flightOf e
        (c.settle e).retire e (Config.fetchAhead s.tick e) (some { cn := f.cn, hp := t.hp, hn := t.hn, ready := false })).count (settledEvent e) 1

/-- STAT of a fault of an engine: the progress of the faulting word in L and S, 0 in M (R334). -/
def eStat (c : Cask) (e : Eng) : Word :=
  match e with
  | .m => 0
  | _ => match (c.eng e).unsettled with
    | r :: _ => BitVec.ofNat 64 r.prog
    | [] => 0

/-- An engine word's action run to its outcome. -/
def eRun (e : Eng) (t : Tk) (p : Plan) (s : State) : Host.Outcome State Fault Refusal :=
  match eAct e t p s with
  | .ok _ u => .next u
  | .error (.trap f) u => .next (u.coreStop e.unit { f with stat := eStat u.cask e })
  | .error (.wait token) u => .next (u.eWaits e token)
  | .error .hold u => .next u

/-- A word of one unit that acts on the cask alone and either completes or leaves no trace (R224). -/
def cRun (e : Eng) (t : Tk) (pre body : CAct Unit) : State → Host.Outcome State Fault Refusal :=
  eRun e t { pre := onCask pre, unit := do
    onCask (whole body)
    pure .last }

end Sys2Proof.Machine
end

