-- ==== Sys2Proof/Machine/KInt.lean ====
section
/-! DEFINITION. The integer instructions of K (R170). None of them faults and none sets a flag. -/

namespace Sys2Proof.Machine

open Sys2Proof

/-- s_d takes a value and K goes on at the next word (R169, R170). -/
def State.kSet (s : State) (d : SReg) (v : Word) : State := (s.updCask fun c => c.setS d v).kNext

/-- sreg(n) of the cask whose turn it is. -/
def State.sreg (s : State) (n : SReg) : Word := s.cask.sreg n

/-- A KI immediate, sign-extended or zero-extended to 64 bits (R148). -/
def sxImm (imm : BitVec 32) : Word := imm.signExtend 64
def zxImm (imm : BitVec 32) : Word := imm.setWidth 64

/-- High 64 bits of the 128-bit product (R170). -/
def mulHigh (u : Bool) (a b : Word) : Word :=
  if u then BitVec.ofNat 64 (a.toNat * b.toNat / 2 ^ 64) else BitVec.ofInt 64 (a.toInt * b.toInt / 2 ^ 64)

/-- The quotient, truncated toward zero, with the boundary results of R170. -/
def quotient (u : Bool) (a b : Word) : Word :=
  if b = 0 then BitVec.allOnes 64
  else if u then BitVec.ofNat 64 (a.toNat / b.toNat)
  else BitVec.ofInt 64 (Int.tdiv a.toInt b.toInt)

/-- The remainder, with the sign of a, and the boundary results of R170. -/
def remainder (u : Bool) (a b : Word) : Word :=
  if b = 0 then a
  else if u then BitVec.ofNat 64 (a.toNat % b.toNat)
  else BitVec.ofInt 64 (Int.tmod a.toInt b.toInt)

/-- a < b, signed or unsigned. -/
def less (u : Bool) (a b : Word) : Bool := if u then decide (a.toNat < b.toNat) else decide (a.toInt < b.toInt)

/-- The number of leading zeros of a word, from bit `n` − 1 down (R168, clz). -/
def leadingZeros (v : Word) : Nat → Nat
  | 0 => 0
  | n + 1 => if v.getLsbD n then 0 else 1 + leadingZeros v n

/-- The number of ones in bits `n` − 1 to 0 (R168, popc). -/
def ones (v : Word) : Nat → Nat
  | 0 => 0
  | n + 1 => (if v.getLsbD n then 1 else 0) + ones v n

/-- ADD (R170). -/
def execAdd (d a b : SReg) (s : State) : Host.Outcome State Fault Refusal :=
  .next (s.kSet d (s.sreg a + s.sreg b))

/-- ADDI (R170). -/
def execAddi (d a : SReg) (imm : BitVec 32) (s : State) : Host.Outcome State Fault Refusal :=
  .next (s.kSet d (s.sreg a + sxImm imm))

/-- SUB (R170). -/
def execSub (d a b : SReg) (s : State) : Host.Outcome State Fault Refusal :=
  .next (s.kSet d (s.sreg a - s.sreg b))

/-- MUL (R170). -/
def execMul (d a b : SReg) (s : State) : Host.Outcome State Fault Refusal :=
  .next (s.kSet d (s.sreg a * s.sreg b))

/-- MULH (R170). -/
def execMulh (u : Bool) (d a b : SReg) (s : State) : Host.Outcome State Fault Refusal :=
  .next (s.kSet d (mulHigh u (s.sreg a) (s.sreg b)))

/-- DIV (R170). -/
def execDiv (u : Bool) (d a b : SReg) (s : State) : Host.Outcome State Fault Refusal :=
  .next (s.kSet d (quotient u (s.sreg a) (s.sreg b)))

/-- REM (R170). -/
def execRem (u : Bool) (d a b : SReg) (s : State) : Host.Outcome State Fault Refusal :=
  .next (s.kSet d (remainder u (s.sreg a) (s.sreg b)))

/-- AND (R170). -/
def execAnd (d a b : SReg) (s : State) : Host.Outcome State Fault Refusal :=
  .next (s.kSet d (s.sreg a &&& s.sreg b))

/-- ANDI (R170). -/
def execAndi (d a : SReg) (imm : BitVec 32) (s : State) : Host.Outcome State Fault Refusal :=
  .next (s.kSet d (s.sreg a &&& zxImm imm))

/-- OR (R170). -/
def execOr (d a b : SReg) (s : State) : Host.Outcome State Fault Refusal :=
  .next (s.kSet d (s.sreg a ||| s.sreg b))

/-- ORI (R170). -/
def execOri (d a : SReg) (imm : BitVec 32) (s : State) : Host.Outcome State Fault Refusal :=
  .next (s.kSet d (s.sreg a ||| zxImm imm))

/-- XOR (R170). -/
def execXor (d a b : SReg) (s : State) : Host.Outcome State Fault Refusal :=
  .next (s.kSet d (s.sreg a ^^^ s.sreg b))

/-- XORI (R170). -/
def execXori (d a : SReg) (imm : BitVec 32) (s : State) : Host.Outcome State Fault Refusal :=
  .next (s.kSet d (s.sreg a ^^^ zxImm imm))

/-- SHL (R170). -/
def execShl (d a b : SReg) (s : State) : Host.Outcome State Fault Refusal :=
  .next (s.kSet d (s.sreg a <<< ((s.sreg b).toNat % 64)))

/-- SHR (R170). -/
def execShr (d a b : SReg) (s : State) : Host.Outcome State Fault Refusal :=
  .next (s.kSet d (s.sreg a >>> ((s.sreg b).toNat % 64)))

/-- SAR (R170). -/
def execSar (d a b : SReg) (s : State) : Host.Outcome State Fault Refusal :=
  .next (s.kSet d ((s.sreg a).sshiftRight ((s.sreg b).toNat % 64)))

/-- MIN (R170). -/
def execMin (u : Bool) (d a b : SReg) (s : State) : Host.Outcome State Fault Refusal :=
  .next (s.kSet d (if less u (s.sreg b) (s.sreg a) then s.sreg b else s.sreg a))

/-- MAX (R170). -/
def execMax (u : Bool) (d a b : SReg) (s : State) : Host.Outcome State Fault Refusal :=
  .next (s.kSet d (if less u (s.sreg a) (s.sreg b) then s.sreg b else s.sreg a))

/-- CLZ (R170). -/
def execClz (d a : SReg) (s : State) : Host.Outcome State Fault Refusal :=
  .next (s.kSet d (BitVec.ofNat 64 (leadingZeros (s.sreg a) 64)))

/-- POPC (R170). -/
def execPopc (d a : SReg) (s : State) : Host.Outcome State Fault Refusal :=
  .next (s.kSet d (BitVec.ofNat 64 (ones (s.sreg a) 64)))

/-- SLT (R170). -/
def execSlt (u : Bool) (d a b : SReg) (s : State) : Host.Outcome State Fault Refusal :=
  .next (s.kSet d (if less u (s.sreg a) (s.sreg b) then 1 else 0))

/-- SEL (R170). -/
def execSel (d a b c : SReg) (s : State) : Host.Outcome State Fault Refusal :=
  .next (s.kSet d (if s.sreg c ≠ 0 then s.sreg a else s.sreg b))

/-- LDIH (R148, R170). -/
def execLdih (d : SReg) (imm : BitVec 32) (s : State) : Host.Outcome State Fault Refusal :=
  .next (s.kSet d (zxImm imm <<< 32))

end Sys2Proof.Machine
end

