-- ==== Sys2Proof/Machine/KFlow.lean ====
section
/-! DEFINITION. The flow instructions of K (R146, R171). -/

namespace Sys2Proof.Machine

open Sys2Proof

/-- The target of a taken KB branch, as a signed byte offset (R146). -/
def State.kTarget (s : State) (off : BitVec 24) : Int := (s.cask.kr.kpc : Int) + 8 * off.toInt

/-- A transfer to byte offset `t`: ILLEGAL_OPERAND outside the window, and then no other effect (R146, R171); else `f`
takes effect and K goes on at the target. -/
def kTransfer (t : Int) (f : State → State) (s : State) : Host.Outcome State Fault Refusal :=
  if 0 ≤ t ∧ t < imemSize s.dual then .next ((f s).kRetire t.toNat)
  else .next (s.coreStop .k { code := cIllegalOperand, va := BitVec.ofInt 64 t })

/-- A transfer to a register's value: ALIGNMENT where it is no multiple of 8 (R171). -/
def kJump (t : Word) (f : State → State) (s : State) : Host.Outcome State Fault Refusal :=
  if t.toNat % 8 = 0 then kTransfer t.toNat f s else .next (s.coreStop .k { code := cAlignment, va := t })

/-- The link: s_d takes the address of the next word. -/
def State.kLink (s : State) (d : SReg) : State := s.updCask fun c => c.setS d (BitVec.ofNat 64 (s.cask.kr.kpc + 8))

/-- Whether a condition holds (R146). -/
def Cond.holds (c : Cond) (a b : Word) : Bool :=
  match c with
  | .eq => decide (a = b)
  | .ne => decide (a ≠ b)
  | .lt => less false a b
  | .ge => !less false a b
  | .ltu => less true a b
  | .geu => !less true a b

/-- B (R171). -/
def execB (off : BitVec 24) (s : State) : Host.Outcome State Fault Refusal := kTransfer (s.kTarget off) id s

/-- BC (R146, R171). -/
def execBc (cond : Cond) (a b : SReg) (off : BitVec 24) (s : State) : Host.Outcome State Fault Refusal :=
  if Cond.holds cond (s.sreg a) (s.sreg b) then kTransfer (s.kTarget off) id s else .next s.kNext

/-- CALL (R171). -/
def execCall (d : SReg) (off : BitVec 24) (s : State) : Host.Outcome State Fault Refusal :=
  kTransfer (s.kTarget off) (fun s => s.kLink d) s

/-- RET (R171). -/
def execRet (a : SReg) (s : State) : Host.Outcome State Fault Refusal := kJump (s.sreg a) id s

/-- JR: sreg(a) is read before the link is written (R171). -/
def execJr (d a : SReg) (s : State) : Host.Outcome State Fault Refusal := kJump (s.sreg a) (fun s => s.kLink d) s

/-- LOOP (R171). -/
def execLoop (a : SReg) (off : BitVec 24) (s : State) : Host.Outcome State Fault Refusal :=
  if (s.sreg a).toNat ≤ 1 then .next (s.kSet a 0)
  else kTransfer (s.kTarget off) (fun t => t.updCask fun c => c.setS a (s.sreg a - 1)) s

end Sys2Proof.Machine
end

