-- ==== Sys2Proof/Machine/KMem.lean ====
section
/-! DEFINITION. K's memory and ordering instructions (R147, R172–R174, R101, R102). -/

namespace Sys2Proof.Machine

open Sys2Proof

/-- The effective address of a K memory word (R172). -/
def State.kEa (s : State) (a : SReg) (imm : BitVec 32) : Nat := (s.sreg a + sxImm imm).toNat

/-- Addresses below this one are in the KLM (R172). -/
def klmLimit : Nat := 0x40000

/-- The checks of a KLM access, in the order of R397: alignment, then the window; a store at user privilege stays out of
the journal ring (R38). -/
def checkKlm (s : State) (ea n align : Nat) (store : Bool) : Act Unit := do
  check (decide (ea % align = 0)) cAlignment (BitVec.ofNat 64 ea)
  check (decide (ea + n ≤ if store && !s.cask.kr.priv then klmUser s.dual else klmSize s.dual)) cProtection
    (BitVec.ofNat 64 ea)

/-- A load from the KLM; a poisoned byte raises UNCORRECTABLE (R346). -/
def klmLoad (ea n : Nat) : Act (List Byte) := do
  let s ← get
  check (!nsHits s.cask.mem.klmP ea n) cUncorrectable (BitVec.ofNat 64 ea)
  pure (s.cask.klmBytes ea n)

/-- A K load from memory: the L1, with the bytes that wait in the store buffer on top (R102). -/
def kLoad (ea n : Nat) : Act (List Byte) := do
  let s ← get
  l1LoadOver s.cask.st.sbuf ea n

/-- LDK.acq's access: the line is read at its home and the clean bytes of an L1 copy are replaced; bytes that the core
holds dirty or in the store buffer keep the core's value (R101). A byte that it takes from the home may be poisoned there
(R346). -/
def kLoadHome (ea n : Nat) : Act (List Byte) := do
  let s ← get
  let c := s.turn.core
  let loc ← translate c s.cask.kr.asid ea .read
  peerReach loc
  let s ← get
  let m := lineMask (ea % 128) n &&& ~~~ bufMask s.cask.st.sbuf loc.asid (loc.va / 128)
  match (s.core c).lineAt loc.asid (loc.va / 128) with
  | none => do
    set (s.reads loc .demand n)
    let s ← get
    check (decide (s.homeMask loc &&& m = 0)) cUncorrectable (BitVec.ofNat 64 ea)
    pure (forwardBuf s.cask.st.sbuf loc.asid loc.va (s.homeBytes loc n))
  | some _ => do
    set ((s.fillLine c s.turn.cask loc).nextFill c)
    let s ← get
    match (s.core c).lineAt loc.asid (loc.va / 128) with
    | none => pure []
    | some l => do
      check (decide (l.pois &&& m = 0)) cUncorrectable (BitVec.ofNat 64 ea)
      pure (forwardBuf s.cask.st.sbuf loc.asid loc.va ((l.data.drop (ea % 128)).take n))

/-- A K store to memory: checked and translated when it issues, then it waits in the store buffer (R102). -/
def kStore (ea : Nat) (bs : List Byte) : Act Unit := do
  let s ← get
  let loc ← translate s.turn.core s.cask.kr.asid ea .write
  modify fun s => s.updCask fun c => { c with st := { c.st with
    sbuf := c.st.sbuf ++ [{ va := ea, bytes := bs, asid := s.cask.kr.asid, casid := loc.asid, cva := loc.va }] } }

/-- STK.rel's store: written through to its home; an L1 copy takes the bytes as clean ones (R101). -/
def kStoreHome (ea : Nat) (bs : List Byte) : Act Unit := do
  let s ← get
  let c := s.turn.core
  let loc ← translate c s.cask.kr.asid ea .write
  peerReach loc
  modify fun s => (s.access loc .demand true).homeWrite loc bs
  modify fun s =>
    match (s.core c).lineAt loc.asid (loc.va / 128) with
    | some l =>
      let i := loc.va % 128
      let m := ~~~ lineMask i bs.length
      s.setCore c ((s.core c).putLine { l with
        data := l.data.take i ++ bs ++ l.data.drop (i + bs.length), dirty := l.dirty &&& m, pois := l.pois &&& m })
    | none => s

/-- A loaded value, extended to 64 bits as SG gives (R173). -/
def extendLoad (sz : Nat) (sg : Bool) (v : Nat) : Word :=
  let w := 8 * 2 ^ sz
  if sg && decide (2 ^ (w - 1) ≤ v) then BitVec.ofNat 64 (v + 2 ^ 64 - 2 ^ w) else BitVec.ofNat 64 v

/-- The acquire of LDK.acq: at core scope it is an ordinary LDK (R101). -/
def acquireFor : Option Scope → Act Unit
  | none => pure ()
  | some sc => acquire sc

/-- The release of STK.rel: at core scope it is an ordinary STK (R101). -/
def releaseFor : Option Scope → Act Unit
  | none | some .core => pure ()
  | some sc => release sc

/-- LDK's value. -/
def ldkAct (sz : BitVec 2) (ord : Option Scope) (ea : Nat) : Act (List Byte) := do
  let s ← get
  let n := 2 ^ sz.toNat
  if ea < klmLimit then do
    checkKlm s ea n n false
    klmLoad ea n
  else do
    checkMem ea n
    match ord with
    | none | some .core => kLoad ea n
    | some _ => kLoadHome ea n

/-- K joins the commands that `f` selects: an acquire at the widest class that those with return data have touched (R108,
R113). -/
def State.joins (s : State) (f : Unjoined → Bool) : State :=
  let us := s.cask.yy.unjoined.filter f
  if us.isEmpty then s
  else
    ((List.range (us.foldl (fun m u => max m u.cls) 0)).foldl (fun s k => s.advance (k + 1)) s).updCask fun c =>
      { c with yy := { c.yy with unjoined := c.yy.unjoined.filter fun u => !f u } }
def joins (f : Unjoined → Bool) : Act Unit := modify fun s => s.joins f

/-- A load of `bs` from `ea` reads the completion record of a command as complete, under whichever VA of its canonical pair: DONE
is the highest bit of its word 0 (R108, R269, R357). -/
def readsDone (s : State) (ea : Nat) (bs : List Byte) (u : Unjoined) : Bool :=
  match u.rec_ with
  | some a =>
    let p := s.canonPair ea
    let q := s.canonPair (a + 7)
    decide (p.1 = q.1) && decide (p.2 ≤ q.2) && decide (128 ≤ (bs.getD (q.2 - p.2) 0).toNat)
  | none => false

/-- The joins of an LDK.acq: the commands whose completion record it reads as complete (R108). -/
def joinsFor (ord : Option Scope) (ea : Nat) (bs : List Byte) : Act Unit :=
  match ord with
  | none | some .core => pure ()
  | some _ => if ea < klmLimit then pure () else modify fun s => s.joins (readsDone s ea bs)

/-- LDK (R101, R102, R108, R147, R172, R173). -/
def execLdk (sz : BitVec 2) (sg : Bool) (ord : Option Scope) (d a : SReg) (imm : BitVec 32) (s : State) :
    Host.Outcome State Fault Refusal :=
  kRun (do
    let bs ← ldkAct sz ord (s.kEa a imm)
    acquireFor ord
    joinsFor ord (s.kEa a imm) bs
    modify fun s => s.kSet d (extendLoad sz.toNat sg (natOf bs))) s

/-- STK (R101, R102, R147, R172, R173). Its checks come before its release. -/
def execStk (sz : BitVec 2) (ord : Option Scope) (b a : SReg) (imm : BitVec 32) (s : State) :
    Host.Outcome State Fault Refusal :=
  let ea := s.kEa a imm
  let n := 2 ^ sz.toNat
  let bs := bytesOf n (s.sreg b).toNat
  kRun (do
    if ea < klmLimit then do
      checkKlm s ea n n true
      modify fun s => s.updCask fun c => c.setKlm ea bs
      releaseFor ord
    else do
      checkMem ea n
      match ord with
      | none | some .core => kStore ea bs
      | some sc => do
        let _ ← translate s.turn.core s.cask.kr.asid ea .write
        release sc
        kStoreHome ea bs
    kDone) s

/-- ACQ (R101, R174). -/
def execAcq (sc : Scope) (s : State) : Host.Outcome State Fault Refusal :=
  kRun (do
    acquire sc
    kDone) s

/-- REL (R101, R174). -/
def execRel (sc : Scope) (s : State) : Host.Outcome State Fault Refusal :=
  kRun (do
    release sc
    kDone) s

/-- FENCE (R101, R174). -/
def execFence (sc : Scope) (s : State) : Host.Outcome State Fault Refusal :=
  kRun (do
    release sc
    acquire sc
    kDone) s

end Sys2Proof.Machine
end

