-- ==== Sys2Proof/Machine/Flags.lean ====
section
/-! DEFINITION. Flags and counters (R36, R83, R92): what the elements of one instruction add to MFLAGS and MXC0–MXC3. -/

namespace Sys2Proof.Machine

open Sys2Proof

/-- What an instruction's elements add up to: the flags, and the counts of NaN results, overflows to infinity, bx8
saturations and integer wraps (R92). -/
structure Tally where
  fl : BitVec 5 := 0
  nans : Nat := 0
  infs : Nat := 0
  sats : Nat := 0
  wraps : Nat := 0
  deriving DecidableEq, Repr

/-- Two tallies together. -/
def Tally.plus (a b : Tally) : Tally :=
  { fl := a.fl ||| b.fl, nans := a.nans + b.nans, infs := a.infs + b.infs, sats := a.sats + b.sats,
    wraps := a.wraps + b.wraps }

/-- One element of format `f` with code `v`: each counter counts it at most once (R92). -/
def tallyOf (f : Fmt) (v : Nat) (r : Rz) : Tally :=
  { fl := r.fl, nans := bit (isNanCode f v), infs := bit (isInfCode f v && r.ovf), sats := bit r.sat,
    wraps := bit r.wrap }

/-- The elements of an instruction, written in format `f`. -/
def tally (f : Fmt) (es : List (Nat × Rz)) : Tally := es.foldl (fun t e => t.plus (tallyOf f e.1 e.2)) {}

/-- fp32 lanes. -/
def tally32 (es : List (Lane × Rz)) : Tally := es.foldl (fun t e => t.plus (tallyOf .fp32 e.1.toNat e.2)) {}

/-- What ring pops raise: flags and bx8 saturations only (R84). -/
def tallyPop (rs : List Rz) : Tally :=
  rs.foldl (fun t r => t.plus { fl := r.fl, sats := bit r.sat }) {}

/-- One element made of several words: the flags of all, each counter at most once (R276). -/
def Tally.once (t : Tally) : Tally :=
  { t with nans := min t.nans 1, infs := min t.infs 1, sats := min t.sats 1, wraps := min t.wraps 1 }

/-- A tally recorded in MFLAGS and the MXC counters (R36, R92). -/
def Cask.tally (c : Cask) (t : Tally) : Cask := c.record t.fl t.nans t.infs t.sats t.wraps

end Sys2Proof.Machine
end

