-- ==== Sys2Proof/Machine/Operands.lean ====
section
/-! DEFINITION. The operand forms of the engines: packed elements (R7), vectors, scalars and masks (R233), format words
(R44, R80, R81), ring slots with the conversion of a pop (R40, R41, R84), nest tables (R43, R210) and the addresses of
L, M and S (R201). -/

namespace Sys2Proof

/-! ### Packed elements (R7) -/

/-- Elements packed least significant first; the odd last nibble of a 4-bit format stands alone in its byte. -/
def packCodes (f : Fmt) : List Nat → List Byte
  | [] => []
  | [a] => if f.bits = 4 then [BitVec.ofNat 8 (a % 16)] else Machine.bytesOf f.bytes a
  | a :: b :: xs =>
    if f.bits = 4 then BitVec.ofNat 8 (a % 16 + b % 16 * 16) :: packCodes f xs
    else Machine.bytesOf f.bytes a ++ packCodes f (b :: xs)

/-- The nibbles of bytes, low one first. -/
def nibbles : List Byte → List Nat
  | [] => []
  | b :: bs => b.toNat % 16 :: b.toNat / 16 :: nibbles bs

/-- `n` elements unpacked from bytes. -/
def unpackCodes (f : Fmt) (n : Nat) (bs : List Byte) : List Nat :=
  if f.bits = 4 then (nibbles bs).take n else (Machine.pieces f.bytes n bs).map Machine.natOf

/-- A list cut into `k` rows of `n`. -/
def rowsOf {α : Type} (n : Nat) : Nat → List α → List (List α)
  | 0, _ => []
  | k + 1, xs => xs.take n :: rowsOf n k (xs.drop n)

/-- The block format of an integer element size: 1, 2 and 4 bytes (R55). -/
def blockFmt : Nat → Option Fmt
  | 1 => some .i8
  | 2 => some .i16
  | 4 => some .i32
  | _ => none

/-! ### Fields of a format word (R80) -/

def fwXf (w : Nat) : Nat := fld w 0 4
def fwBf (w : Nat) : Nat := fld w 4 4
def fwAf (w : Nat) : Nat := fld w 8 4
def fwOf (w : Nat) : Nat := fld w 12 4
def fwApx (w : Nat) : Bool := flag w 16
def fwRm (w : Nat) : Rm := (Rm.ofCode (fld w 17 3)).getD .rne
def fwAsc (w : Nat) : Int := sxN (fld w 24 8) 8
def fwBsc (w : Nat) : Int := sxN (fld w 32 8) 8
def fwOsc (w : Nat) : Int := sxN (fld w 40 8) 8

/-- The fields that every popping command checks: the reserved ones and RM (R81). -/
def fwCommon (w : Nat) : Bool := decide (fld w 48 16 = 0) && decide (fld w 20 4 = 0) && decide (fld w 17 3 < 4)

/-- MMA's formats and K-depth for a format word, or none where the combination is outside the table of R81. -/
def fwMma (w : Nat) : Option (Fmt × Fmt × Bool × Nat) :=
  match Fmt.ofCode (fwXf w), Fmt.ofCode (fwBf w), Fmt.ofCode (fwAf w) with
  | some x, some b, some a =>
    let noScale := decide (fwAsc w = 0) && decide (fwBsc w = 0)
    if x = .bx8 ∧ b = .bx8 ∧ a = .fp32 then some (x, b, true, 64)
    else if (x = .i8 ∨ x = .n8) ∧ (b = .i8 ∨ b = .n8) ∧ a = .i32 ∧ noScale then some (x, b, false, 64)
    else if (x = .i4 ∨ x = .n4) ∧ (b = .i4 ∨ b = .n4) ∧ a = .i32 ∧ noScale then some (x, b, false, 128)
    else if x = b ∧ (x = .bf16 ∨ x = .fp16) ∧ a = .fp32 then some (x, b, true, 32)
    else if x = b ∧ x = .fp32 ∧ a = .fp32 then some (x, b, true, 8)
    else none
  | _, _, _ => none

end Sys2Proof

namespace Sys2Proof.Machine

open Sys2Proof

/-! ### Vectors, scalars, masks (R233) -/

/-- Operand b of a vector word: a vector, or the low 32 bits of an x register in every lane. -/
def Cask.vsrc (c : Cask) : VSrc → List Lane
  | .v r => c.vreg r
  | .x r => List.replicate 128 ((c.xreg .m r).setWidth 32)

/-- The active lanes: those of the mask, or all. -/
def Cask.active (c : Cask) : Option MReg → BitVec 128
  | some m => c.mreg m
  | none => BitVec.allOnes 128

/-- New lanes where the mask has a 1, old ones elsewhere; `i` counts from the first lane. -/
def mergeLanes (m : BitVec 128) : Nat → List Lane → List Lane → List Lane
  | i, o :: os, n :: ns => (if m.getLsbD i then n else o) :: mergeLanes m (i + 1) os ns
  | _, _, _ => []

/-- The items of active lanes. -/
def activeOf {α : Type} (m : BitVec 128) : Nat → List α → List α
  | _, [] => []
  | i, x :: xs => if m.getLsbD i then x :: activeOf m (i + 1) xs else activeOf m (i + 1) xs

/-- The numbers of the set bits, from bit `i` on, of `n` bits. -/
def setBits (m : BitVec 128) (n : Nat) : List Nat := (List.range n).filter fun i => m.getLsbD i

/-- A mask from its bits, bit 0 first. -/
def maskOf (bs : List Bool) : BitVec 128 := BitVec.ofNat 128 (bs.foldr (fun b n => 2 * n + bit b) 0)

/-- popc of a mask. -/
def maskCount (m : BitVec 128) : Nat := (setBits m 128).length

/-- A vector word's fp32 results, written to the active lanes and recorded (R233). -/
def Cask.putLanes (c : Cask) (m : BitVec 128) (vd : VReg) (rs : List (Lane × Rz)) (counted : Bool) : Cask :=
  let c1 := c.setV vd (mergeLanes m 0 (c.vreg vd) (rs.map (·.1)))
  if counted then c1.tally (tally32 (activeOf m 0 rs)) else c1

/-! ### Rings (R40–R42, R61) -/

def Ring.srcf (r : Ring) : Fmt := (Fmt.ofCode (fld r.w0.toNat 52 4)).getD .fp32
def Ring.snkf (r : Ring) : Fmt := (Fmt.ofCode (fld r.w0.toNat 48 4)).getD .fp32
def Ring.rows (r : Ring) : Nat := fld r.w0.toNat 33 7 + 1
def Ring.cols (r : Ring) : Nat := fld r.w0.toNat 26 7 + 1
def Ring.base (r : Ring) : Nat := fld r.w0.toNat 0 21
/-- PIPE: the ring is filled by a remote engine (R42). -/
def Ring.pipe (r : Ring) : Bool := flag r.w0.toNat 56
/-- The bytes of a tile, and of a slot (R40). -/
def Ring.tileBytes (r : Ring) : Nat := rowBytes r.srcf (r.rows * r.cols)
def Ring.slotBytes (r : Ring) : Nat := (r.tileBytes + 127) / 128 * 128
/-- DEPTH (R40). -/
def Ring.depth (r : Ring) : Nat := (r.tail + 2 * r.slots - r.head) % (2 * r.slots)
/-- Word 1 (R40). -/
def Ring.word1 (r : Ring) : Word := BitVec.ofNat 64 (r.depth * 2 ^ 18 + r.head * 2 ^ 9 + r.tail)
/-- The SPM address of the slot that a counter names. -/
def Ring.slotAt (r : Ring) (n : Nat) : Nat := r.base + n % r.slots * r.slotBytes

/-- Late words of M that name a ring and have not advanced its HEAD: those ahead of the word that works now (R41, R229). -/
def Cask.pendingPops (c : Cask) (n : Nat) : Nat :=
  let ahead := match c.eM.held with
    | some h => c.eM.late.take h.k
    | none => c.eM.late
  (ahead.filter fun l => l.writes.any fun r => match r with
    | .ring m => decide (m.toNat = n)
    | _ => false).length

/-- An element as a pop delivers it: cvt to SNKF under RNE, a tree row's integers scaled by 2^SCL first where SNKF is
floating (R60, R84). -/
def popCode (src snk : Fmt) (scl : Int) (v : Nat) : Nat × Rz := cvt ((exactVal src v).scale scl) snk .rne

/-- SCL as a pop applies it: only to a tree row, and only towards a floating format (R60). DESIGN CHOICE: bx8 counts as none,
and takes no scale (log 48). -/
def sbScl (sb : BitVec 512) (snk : Fmt) : Int :=
  if fld sb.toNat 408 4 ≠ 0 ∧ snk.isFloat then sxN (fld sb.toNat 392 8) 8 else 0

/-- The tile that stands first in a ring, behind those that late words of M take, as the pop delivers it: in rows, with what
the conversion raises and the side-band of its row 0. HEAD stays until the word retires (R41). -/
def headTile (n : Nat) : CAct (List (List Nat) × List Rz × BitVec 512) := do
  let c ← get
  let r := c.ring n
  let h := r.head + c.pendingPops n
  let bs ← spmLoad (r.slotAt h) r.tileBytes
  let sb := smGet 0 r.sb (128 * (h % r.slots))
  let es := (unpackCodes r.srcf (r.rows * r.cols) bs).map (popCode r.srcf r.snkf (sbScl sb r.snkf))
  pure (rowsOf r.cols r.rows (es.map (·.1)), es.map (·.2), sb)

/-- Where the tiles of a local L or S word that names a ring go: core, cask and ring. A ring that a remote engine fills
refuses them (R42); a bound producer ring sends them to the consumer (R287). -/
def ringDest (n : RingNo) : Act (Nat × Bool × Nat) := do
  let s ← get
  let r := s.cask.ring n.toNat
  check (!r.pipe) cRingBounds
  match r.toPipe with
  | some (k, m) => pure (k / 2, decide (k % 2 = 1), m)
  | none => pure (s.turn.core, s.turn.cask, n.toNat)

/-- A tile written into the next slot of a ring, once it has room, and TAIL advanced (R41). `sb` is the side-band of its
row 0; the other rows have none. -/
def pushTile (d : Nat × Bool × Nat) (bs : List Byte) (sb : BitVec 512) : Act Unit := do
  let s ← get
  let c := s.caskAt d.1 d.2.1
  let r := c.ring d.2.2
  let slot := r.tail % r.slots
  let c1 := c.setSpm (r.slotAt r.tail) bs
  let side := sb :: List.replicate (r.rows - 1) 0
  set (s.setCaskAt d.1 d.2.1 (c1.setRing d.2.2
    { r with tail := (r.tail + 1) % (2 * r.slots), sb := smSetRange 0 r.sb (128 * slot) side }))

/-- Wait for room in a ring (R41). -/
def ringRoom (d : Nat × Bool × Nat) : Act Unit := do
  let s ← get
  let r := (s.caskAt d.1 d.2.1).ring d.2.2
  await (decide (r.depth < r.slots))

/-- The word in progress names rings (R42). -/
def Cask.naming (c : Cask) (e : Eng) (ns : List RingNo) : Cask := c.updFlight e fun f => { f with rings := ns.map (·.toNat) }

/-- The word in progress reads tiles of rings, and frees their slots when it retires (R41). -/
def Cask.taking (c : Cask) (e : Eng) (ns : List RingNo) : Cask := c.updFlight e fun f => { f with pops := ns.map (·.toNat) }

/-- An issued word names a ring, until it retires (R42). -/
def Cask.ringNamed (c : Cask) (n : Nat) : Bool :=
  ([c.eL, c.eM, c.eS].any fun st => match st.flight with
    | some f => f.rings.contains n
    | none => false) || decide (0 < c.pendingPops n)

/-! ### Nest tables (R43) -/

/-- The number of points of a nest. -/
def NestCopy.points (n : NestCopy) : Nat := n.levels.foldl (fun k l => k * l.1) 1

/-- The address of point `p`, level 0 innermost (R210). -/
def pointOffset : List (Nat × Int) → Nat → Int
  | [], _ => 0
  | l :: ls, p => (p % l.1 : Nat) * l.2 + pointOffset ls (p / l.1)
def NestCopy.point (n : NestCopy) (p : Nat) : Nat :=
  (BitVec.ofInt 64 ((n.base.toNat : Int) + pointOffset n.levels p)).toNat

/-- The element size of a nest in bytes. -/
def NestCopy.elem (n : NestCopy) : Nat := 2 ^ n.elog

/-- A nest table of an engine, and one replaced. -/
def Cask.nest (c : Cask) (e : Eng) (n : Nat) : Nest := aGet Nest.reset (c.eng e).nests n
def Cask.setNest (c : Cask) (e : Eng) (n : Nat) (t : Nest) : Cask :=
  c.updEng e fun st => { st with nests := aSet st.nests n t }

/-- A firing word takes its nest: with the reuse option, or where it took it before it was stopped, the active copy as
it is; otherwise it waits for READY and swaps the shadow in (R43). The word has then begun. -/
def fire (e : Eng) (ru : Bool) (n : NestNo) : CAct NestCopy := do
  let c ← get
  let f := c.flightOf e
  let t := c.nest e n.toNat
  if ru || f.swp || decide (0 < f.prog) then do
    set (c.begin e)
    check (t.act.levels.all fun l => decide (l.1 ≠ 0)) cIllegalOperand
    pure t.act
  else do
    await t.ready
    set (((c.setNest e n.toNat { t with act := t.shd, ready := false }).updFlight e fun f =>
      { f with swp := true, jfree := some t.jnum }).begin e)
    check (t.shd.levels.all fun l => decide (l.1 ≠ 0)) cIllegalOperand
    pure t.shd

/-! ### Addresses of L, M and S (R201) -/

/-- xreg(a) + sx(AOFF, 32), modulo 2^64. -/
def Cask.xea (c : Cask) (e : Eng) (a : XReg) (off : BitVec 32) : Nat := (c.xreg e a + off.signExtend 64).toNat

/-! ### The format queue (R44) -/

/-- A consumer that has passed its checks and its pops reaches FQ and keeps its place. -/
def Cask.reachFq (c : Cask) (e : Eng) (rtc : Nat) : Cask :=
  if c.cp.fqWait.any (fun p => p.1 = e) then c
  else { c with cp := { c.cp with fqWait := c.cp.fqWait ++ [(e, rtc)] } }

/-- The consumer leaves the queue of those that wait. -/
def Cask.leaveFq (c : Cask) (e : Eng) : Cask :=
  { c with cp := { c.cp with fqWait := c.cp.fqWait.filter fun p => decide (p.1 ≠ e) } }

/-- The format word of the word in progress: the one it holds, or the head of FQ in its turn, once `ok` admits it; a
word that is refused stays at the head (R44, R81). -/
def takeFormat (e : Eng) (ok : Nat → Act Unit) : Act Nat := do
  let s ← get
  match (s.cask.flightOf e).fmtw with
  | some w => pure w.toNat
  | none => do
    modify fun s => s.updCask fun c => c.reachFq e s.dev.rtc
    let s ← get
    match s.cask.cp.fq, s.cask.cp.fqWait with
    | w :: ws, p :: _ => do
      holdTill (decide (p.1 = e))
      modify fun s => s.updCask fun c => c.leaveFq e
      ok w.toNat
      modify fun s => s.updCask fun c =>
        ({ c with cp := { c.cp with fq := ws, fqPops := c.cp.fqPops + 1 } }).updFlight e fun f =>
          { f with fmtw := some w, fmtn := c.cp.fqPops }
      pure w.toNat
    | _, _ => throw .hold

end Sys2Proof.Machine
end

