-- ==== Sys2Proof/Machine/KShape.lean ====
section
/-! DEFINITION. K's words that shape the engines (R175–R180). -/

namespace Sys2Proof.Machine

open Sys2Proof

/-- The engines that a mask names, in the order L, M, S. -/
def KMask.engines (m : KMask) : List Eng :=
  (if m.l then [.l] else []) ++ (if m.m then [.m] else []) ++ (if m.s then [.s] else [])

/-- K stalls while READY of a named table is 1 (R43). -/
def nestFree (m : KMask) (n : NestNo) : Act Unit := do
  let s ← get
  await ((KMask.engines m).all fun e => !(s.cask.nest e n.toNat).ready)

/-- NESTL (R175). -/
def execNestl (m : KMask) (n : NestNo) (lev : BitVec 3) (a : SReg) (s : State) : Host.Outcome State Fault Refusal :=
  kUser (do
    nestFree m n
    let v := (s.sreg a).toNat
    let l : Nat × Int := (fld v 40 24, sxN (fld v 0 40) 40)
    modify fun s => s.updCask fun c => (KMask.engines m).foldl (fun c e =>
      let t := c.nest e n.toNat
      c.setNest e n.toNat { t with shd := { t.shd with levels := t.shd.levels.set lev.toNat l } }) c
    kDone) s

/-- A level as a dword of the nest descriptor (R141). -/
def levelDword (l : Nat × Int) : Nat := l.1 * 2 ^ 40 + intBits 40 l.2

/-- A shadow table in the descriptor layout of R141. -/
def NestCopy.descriptor (n : NestCopy) : List Byte :=
  bytesOf 8 n.base.toNat ++ bytesOf 8 (n.target * 2 ^ 8 + bit n.toSpm * 4 + n.elog) ++
    (n.levels.map fun l => bytesOf 8 (levelDword l)).flatten

/-- The table that word 1 of a descriptor completes (R141, R176). -/
def NestCopy.complete (t : NestCopy) (base w : Word) : NestCopy :=
  { t with base := base, elog := fld w.toNat 0 2, toSpm := flag w.toNat 2, target := fld w.toNat 8 21 }

/-- The checks of NESTB on its second operand (R176). -/
def nestbOk (dual : Bool) (w : Word) : Act Unit := do
  check (decide (fld w.toNat 29 35 = 0 ∧ fld w.toNat 3 5 = 0)) cIllegalOperand
  if flag w.toNat 2 then check (decide (fld w.toNat 8 21 < spmSize dual)) cProtection (BitVec.ofNat 64 (fld w.toNat 8 21))
  else check (decide (fld w.toNat 12 17 = 0)) cIllegalOperand

/-- One table completed, with its journal entry (R176, R337). -/
def completeNest (dual : Bool) (n : NestNo) (base w : Word) (e : Eng) : CAct Unit := do
  let c ← get
  let t := c.nest e n.toNat
  let shd := NestCopy.complete t.shd base w
  let num ← journal dual (NestCopy.descriptor shd) { kind := 4, engine := if e = .s then 1 else 0, nest := n.toNat }
  modify fun c => c.setNest e n.toNat { t with shd := shd, ready := true, jnum := num }

/-- NESTB (R176): a handshake; one journal entry for each table, L's first. -/
def execNestb (m : KMask) (n : NestNo) (a b : SReg) (s : State) : Host.Outcome State Fault Refusal :=
  kUser (do
    nestbOk s.dual (s.sreg b)
    nestFree m n
    handshake
    onCask (whole (forList (completeNest s.dual n (s.sreg a) (s.sreg b)) (KMask.engines m)))
    kDone) s

/-- The checks of RINGC on its descriptor, in the order of R40. DEDUCED: SIZE of R40's range is the number of slots, the field
plus 1 (log 61). -/
def ringcOk (s : State) (n : RingNo) (w : Word) : Act Unit := do
  let r : Ring := { Ring.reset with w0 := w }
  check (decide (fld w.toNat 52 4 < 12 ∧ fld w.toNat 48 4 < 12)) cIllegalOperand
  check (decide (r.base % 128 = 0 ∧ r.base + r.slots * r.slotBytes ≤ spmSize s.dual)) cRingBounds
  let old := s.cask.ring n.toNat
  check (!old.pipe && old.toPipe.isNone) cRingBounds

/-- The bits of word 0 that RINGC writes: PIPE and the reserved ones stay 0 (R40, R177). -/
def ringMask : Word := 0x00FFFFFFFC1FFFFF

/-- RINGC (R42, R177). -/
def execRingc (n : RingNo) (a : SReg) (s : State) : Host.Outcome State Fault Refusal :=
  kUser (do
    ringcOk s n (s.sreg a)
    await (decide ((s.cask.ring n.toNat).depth = 0) && !s.cask.ringNamed n.toNat)
    handshake
    modify fun s => s.updCask fun c =>
      c.setRing n.toNat { c.ring n.toNat with w0 := s.sreg a &&& ringMask, head := 0, tail := 0 }
    kDone) s

/-- Word 1 of a ring: a bound producer ring reads the consumer's (R42, R287). -/
def State.ringWord1 (s : State) (n : Nat) : Word :=
  match (s.cask.ring n).toPipe with
  | some (k, m) => ((s.caskAt (k / 2) (decide (k % 2 = 1))).ring m).word1
  | none => (s.cask.ring n).word1

/-- RDRING (R42, R177). -/
def execRdring (d : SReg) (n : RingNo) (s : State) : Host.Outcome State Fault Refusal :=
  kUser (modify fun s => s.kSet d (s.ringWord1 n.toNat)) s

/-- FMT (R44, R178). -/
def execFmt (a : SReg) (s : State) : Host.Outcome State Fault Refusal :=
  kUser (do
    await (decide (s.cask.cp.fq.length < 32))
    handshake
    modify fun s => s.updCask fun c => { c with cp := { c.cp with fq := c.cp.fq ++ [s.sreg a] } }
    kDone) s

/-- The skew that LOOPB gives an engine (R179). -/
def loopSkew (m s : BitVec 8) : Eng → Nat
  | .l => 0
  | .m => m.toNat
  | .s => s.toNat

/-- LOOPB (R48, R179). -/
def execLoopb (mk : KMask) (a : SReg) (m sk : BitVec 8) (s : State) : Host.Outcome State Fault Refusal :=
  kUser (do
    let n := (s.sreg a).toNat
    check (decide (0 < n ∧ n < 2 ^ 24)) cIllegalOperand
    check (mk.l || mk.m || mk.s) cIllegalOperand
    check ((mk.m || m == 0) && (mk.s || sk == 0)) cIllegalOperand
    check (mk.l || (m == 0 && sk == 0)) cIllegalOperand
    await ((KMask.engines mk).all fun e => decide ((s.cask.eng e).rpt = 0))
    handshake
    modify fun s => s.updCask fun c => (KMask.engines mk).foldl (fun c e =>
      c.updEng e fun st => { st with
        rpt := n, skew := loopSkew m sk e, iters := 0, skewFree := !mk.l && decide (c.eL.rpt = 0) }) c
    kDone) s

/-- The one engine that EMASK names for an x selector (R180). -/
def oneEngine (m : KMask) : Option Eng :=
  match KMask.engines m, m.y with
  | [e], false => some e
  | _, _ => none

/-- What a selector of EWR and ERD names (R180). -/
inductive EState where
  | x (e : Eng) (n : XReg)
  | ev (n : Nat)
  | mflags
  | mxc (n : Nat)
  | dth
  | tks
  | rv
  deriving DecidableEq, Repr

/-- The state that a selector and a mask name, or none where they raise ILLEGAL_OPERAND (R180). -/
def eState (m : KMask) (sel : BitVec 8) : Option EState :=
  let n := sel.toNat
  if n < 0x10 then (oneEngine m).map fun e => .x e (BitVec.ofNat 4 n)
  else if m.l || m.m || m.s || m.y then none
  else if n < 0x20 then some (.ev (n - 0x10))
  else if n = 0x20 then some .mflags
  else if n < 0x25 then some (.mxc (n - 0x21))
  else if n = 0x25 then some .dth
  else if n = 0x26 then some .tks
  else if n = 0x27 then some .rv
  else none

/-- TKS admits codes 0 to 2 in each field (R106). -/
def tksOk (v : Word) : Bool := (List.range 6).all fun i => decide (fld v.toNat (2 * i) 2 ≠ 3)

/-- The word in progress of an engine has issued. -/
def EngSt.busy (st : EngSt) : Bool := st.flight.any (·.begun)

/-- EWR's write (R35, R36, R106, R180). A write of an x register waits for the end of the word in progress, where that has
issued. -/
def Cask.ewrWrite (c : Cask) (v : Word) : EState → Cask
  | .x e n => if (c.eng e).busy then c.updEng e fun st => { st with ewr := st.ewr ++ [(n.toNat, v)] } else c.ewrX e n.toNat v
  | .ev n => c.setEv n (v.setWidth 32)
  | .mflags => { c with mx := { c.mx with flags := v.setWidth 5 } }
  | .mxc n => { c with mx := { c.mx with mxc := smSet 0 c.mx.mxc n (v.toNat % 2 ^ 32) } }
  | .dth => { c with cp := { c.cp with dth := v.setWidth 32 } }
  | .tks => { c with cp := { c.cp with tks := v.setWidth 12 } }
  | .rv => c

/-- ERD's value (R36, R180). -/
def Cask.erdRead (c : Cask) : EState → Word
  | .x e n => c.xreg e n
  | .ev n => (c.evreg n).setWidth 64
  | .mflags => c.mx.flags.setWidth 64
  | .mxc n => BitVec.ofNat 64 (smGet 0 c.mx.mxc n)
  | .dth => c.cp.dth.setWidth 64
  | .tks => c.cp.tks.setWidth 64
  | .rv => c.cp.rv

/-- EWR (R180). -/
def execEwr (m : KMask) (sel : BitVec 8) (a : SReg) (s : State) : Host.Outcome State Fault Refusal :=
  kUser (do
    match eState m sel with
    | none => raise cIllegalOperand
    | some .rv => raise cIllegalOperand
    | some x => do
      check (x != .tks || tksOk (s.sreg a)) cIllegalOperand
      handshake
      modify fun s => s.updCask fun c => c.ewrWrite (s.sreg a) x
      kDone) s

/-- ERD (R180). -/
def execErd (d : SReg) (m : KMask) (sel : BitVec 8) (s : State) : Host.Outcome State Fault Refusal :=
  kUser (do
    match eState m sel with
    | none => raise cIllegalOperand
    | some x => modify fun s => s.kSet d (s.cask.erdRead x)) s

end Sys2Proof.Machine
end

