-- ==== Sys2Proof/Machine/KCopy.lean ====
section
/-! DEFINITION. K's words that issue and join copy commands, events and markers (R166, R181–R187, R46, R47, R107,
R108). -/

namespace Sys2Proof.Machine

open Sys2Proof

/-- CPW (R166, R181). -/
def execCpw (k : BitVec 2) (a : SReg) (imm : BitVec 32) (s : State) : Host.Outcome State Fault Refusal :=
  kUser (do
    let ea := s.kEa a imm
    checkKlm s ea 32 32 false
    let bs ← klmLoad ea 32
    modify fun s => s.updCask fun c => { c with yy := { c.yy with
      staging := smSetRange 0 c.yy.staging (32 * k.toNat) bs, written := c.yy.written ||| (1 <<< k.toNat) } }
    kDone) s

/-- The commands of a queue, outstanding from their fork until they complete (R184). -/
def YSt.queue (y : YSt) (q : Nat) : List YEnt := aGet [] y.queues q

/-- The commands of every queue. -/
def YSt.all (y : YSt) : List YEnt := y.queues.foldl (fun l p => l ++ p.2) []

/-- A command's bytes with QUEUE set (R158, R166). -/
def withQueue (bs : List Byte) (q : Nat) : List Byte :=
  bs.set 1 (BitVec.ofNat 8 ((bs.getD 1 0).toNat / 4 * 4 + q))

/-- A command as it enters its queue. -/
def YEnt.fork (bs : List Byte) (cnum jnum forked : Nat) (owner : Option Owed) : YEnt :=
  { bytes := bs, cnum := cnum, jnum := jnum, begun := false, cursor := 0, flags := 0, wraps := 0, sats := 0, infs := 0,
    nans := 0, status := 0, done := false, tbeg := 0, forked := forked, path := none, cls := 0, owner := owner,
    part := 0, left := [], data := [], wait := none }

/-- A command takes the strand's next number, is journalled and enters its queue (R182, R265, R337). The writer waits
while the queue holds 64 or the journal 336. `tick` is the step of the fork. -/
def fork (dual : Bool) (tick q kind chain : Nat) (bs : List Byte) (owner : Option Owed) : CAct Unit := do
  let c ← get
  await (decide ((c.yy.queue q).length < 64))
  let num := (c.yy.cnum + 1) % 2 ^ 32
  let push := match owner with
    | some o => 2 * bit o.hp + bit o.hn
    | none => 0
  let j ← journal dual bs { kind := kind, queue := q, cnum := num, chain := chain, push := push }
  modify fun c => { c with yy := { c.yy with
    cnum := num, queues := aSet c.yy.queues q (c.yy.queue q ++ [YEnt.fork bs num j tick owner]) } }

/-- CPGO: the stores that K has buffered are performed first, and then the command enters its queue (R107, R122, R166, R182). -/
def execCpgo (q : YNo) (reuse : Bool) (s : State) : Host.Outcome State Fault Refusal :=
  kUser (do
    check (reuse || s.cask.yy.written == 15) cStageIncomplete
    let bs := withQueue (smGetRange 0 s.cask.yy.staging 0 128) q.toNat
    drainBuf
    onCask (whole (fork s.dual s.tick q.toNat 1 0 bs none))
    modify fun s => s.updCask fun c => { c with yy := { c.yy with written := 0 } }
    kDone) s

/-- The journal's record of a chain start: dword 12 holds the VA, dword 0 the queue (R338). -/
def chainBytes (va : Word) (q : Nat) : List Byte :=
  bytesOf 8 (q * 2 ^ 8) ++ List.replicate 88 0 ++ bytesOf 8 va.toNat ++ List.replicate 24 0

/-- CPCH (R183). -/
def execCpch (q : YNo) (a : SReg) (s : State) : Host.Outcome State Fault Refusal :=
  kUser (do
    let va := s.sreg a
    check (decide (va.toNat % 128 = 0)) cAlignment va
    drainBuf
    onCask (do
      let j ← journal s.dual (chainBytes va q.toNat) { kind := 5, queue := q.toNat }
      modify fun c => { c with yy := { c.yy with
        chains := c.yy.chains ++ [{ start := j, next := va, queue := some q.toNat, wait := none }] } })
    kDone) s

/-- WAITQ (R108, R184). -/
def execWaitq (q : YNo) (n : BitVec 32) (s : State) : Host.Outcome State Fault Refusal :=
  kUser (do
    check (decide (1 ≤ n.toNat ∧ n.toNat ≤ 64)) cIllegalOperand
    await (decide ((s.cask.yy.queue q.toNat).length < n.toNat))
    joins fun u => decide (u.queue = q.toNat)
    kDone) s

/-- WAITE (R35, R108, R185). -/
def execWaite (ev : EvNo) (a : SReg) (imm : BitVec 32) (s : State) : Host.Outcome State Fault Refusal :=
  kUser (do
    await (evReached (s.cask.evreg ev.toNat) ((s.sreg a).setWidth 32 + imm))
    joins fun u => u.evs.contains ev.toNat
    kDone) s

/-- SIGE (R35, R186). -/
def execSige (ev : EvNo) (imm : BitVec 32) (s : State) : Host.Outcome State Fault Refusal :=
  kUser (do
    modify fun s => s.updCask fun c => c.addEv ev.toNat imm
    kDone) s

/-- The words of an engine that stand ahead of a marker: those it has fetched and that have not retired (R46). How many
it has fetched beyond the one it works on is a free value (log 7), and none beyond a section with NFA that has not retired
(R154). -/
def EngSt.queued (st : EngSt) (ahead : Nat) : Nat :=
  let issued := (st.redo.filter fun r => !st.owes r.cn).length + (match st.flight with
    | some f => if (f.again && !f.settled) || st.owes f.cn then 0 else 1
    | none => if st.started && st.wait.isSome && st.redo.isEmpty then 1 else 0)
  if st.halted then 0 else issued + (if st.sealed then 0 else ahead)

/-- A marker placed in L, M or S; it retires at once where nothing stands ahead of it (R46). -/
def Cask.placeMark (c : Cask) (n : BitVec 16) (ahead : Nat) (e : Eng) : Cask :=
  (c.updEng e fun st => { st with
    marks := st.marks ++ [{ n := n, ahead := st.queued ahead, owed := st.owed.map (·.cn) }] }).fireMarks e

/-- The markers at the front of Y that nothing stands ahead of. -/
def frontYMarks : List YMark → List (BitVec 16) × List YMark
  | [] => ([], [])
  | m :: ms =>
    if m.cnums.isEmpty then
      let r := frontYMarks ms
      (m.n :: r.1, r.2)
    else ([], m :: ms)

/-- Y's markers retire, in the order they were placed (R46). -/
def Cask.fireYMarks (c : Cask) : Cask :=
  let r := frontYMarks c.yy.marks
  let c1 : Cask := { c with yy := { c.yy with marks := r.2 } }
  r.1.foldl (fun c n => c.retireMark .y n) c1

/-- A marker placed behind the last command of each queue of Y (R46). -/
def Cask.placeYMark (c : Cask) (n : BitVec 16) : Cask :=
  let c1 : Cask := { c with yy := { c.yy with marks := c.yy.marks ++ [{ n := n, cnums := c.yy.all.map (·.cnum) }] } }
  c1.fireYMarks

/-- MARK (R46, R187). -/
def execMark (n : BitVec 16) (m : KMask) (s : State) : Host.Outcome State Fault Refusal :=
  kUser (do
    check (match s.cask.cp.lastMark with
      | some l => serialGe n l && n != l
      | none => true) cIllegalOperand
    await (KMask.empty (aGet MarkEnt.reset s.cask.cp.mtab (n.toNat % 16)).pend)
    modify fun s => s.updCask fun c =>
      let c1 : Cask := { c with cp := { c.cp with
        mtab := aSet c.cp.mtab (n.toNat % 16) { n := n, mask := m, pend := m, cnum := c.yy.cnum }, lastMark := some n } }
      let c2 := (KMask.engines m).foldl (fun c e => c.placeMark n (Config.fetchAhead s.tick e) e) c1
      if m.y then c2.placeYMark n else c2
    kDone) s

/-- RDVW (R47, R108, R187). -/
def execRdvw (n : BitVec 16) (s : State) : Host.Outcome State Fault Refusal :=
  kUser (do
    let e := aGet MarkEnt.reset s.cask.cp.mtab (n.toNat % 16)
    check (decide (e.n = n)) cIllegalOperand
    await (KMask.empty e.pend)
    joins fun u => e.mask.y && decide (ageOf s.cask.yy.cnum e.cnum ≤ ageOf s.cask.yy.cnum u.cnum)
    kDone) s

end Sys2Proof.Machine
end

