-- ==== Sys2Proof/Machine/Lease.lean ====
section
/-! DEFINITION. What strands share: the launch and its fields (R9–R12, R312, R313), the press lists (R14, R17, R18),
crews and supersteps (R21–R24), the lees record (R26, R27), and how a strand and a launch end (R12, R310, R343). -/

namespace Sys2Proof.Machine

open Sys2Proof

/-! ### The launch record (R312) -/

/-- Dword `i` of a launch's record. -/
def Launch.dw (l : Launch) (i : Nat) : Nat := (l.dwords.getD i 0).toNat
def Launch.prio (l : Launch) : Nat := fld (l.dw 0) 48 16
def Launch.ageCode (l : Launch) : Nat := fld (l.dw 0) 32 16
def Launch.strands (l : Launch) : Nat := fld (l.dw 0) 16 9
def Launch.crewCount (l : Launch) : Nat := fld (l.dw 0) 8 8
def Launch.gang (l : Launch) : Bool := flag (l.dw 0) 3
def Launch.restart (l : Launch) : Bool := flag (l.dw 0) 2
def Launch.full0 (l : Launch) : Bool := flag (l.dw 0) 1
def Launch.approx (l : Launch) : Bool := flag (l.dw 0) 0
def Launch.e0 (l : Launch) : Nat := fld (l.dw 6) 0 16 + 1
def Launch.e1 (l : Launch) : Nat := fld (l.dw 6) 16 16 + 1
def Launch.e2 (l : Launch) : Nat := fld (l.dw 6) 32 16 + 1
def Launch.gangId (l : Launch) : Nat := fld (l.dw 14) 0 16

/-- A launch of the device, and a launch changed. -/
def State.launchAt (s : State) (lid : Nat) : Launch := aGet Launch.reset s.dev.launches lid
def State.updLaunch (s : State) (lid : Nat) (f : Launch → Launch) : State :=
  match aFind s.dev.launches lid with
  | some l => { s with dev := { s.dev with launches := aSet s.dev.launches lid (f l) } }
  | none => s

/-- The launch id of the strand whose turn it is, and its launch. -/
def State.lid (s : State) : Nat := s.cask.kr.lid.toNat
def State.launch (s : State) : Launch := s.launchAt s.lid

/-- A launch queue. -/
def State.queueAt (s : State) (q : Nat) : LQueue := aGet LQueue.reset s.dev.lqs q
def State.setQueue (s : State) (q : Nat) (x : LQueue) : State := { s with dev := { s.dev with lqs := aSet s.dev.lqs q x } }

/-- PART, VF, EN, LOG2SZ of LQCTL (R311). -/
def LQueue.part (q : LQueue) : Nat := fld q.ctl.toNat 40 6
def LQueue.vf (q : LQueue) : Nat := fld q.ctl.toNat 32 7
def LQueue.en (q : LQueue) : Bool := flag q.ctl.toNat 31
def LQueue.entries (q : LQueue) : Nat := 2 ^ (fld q.ctl.toNat 21 4 + 4)

/-- A partition by number. -/
def State.partAt (s : State) (p : Nat) : Partition := aGet Partition.reset s.dev.parts p

/-! ### Weights and the press (R14, R17, R18) -/

/-- The weight of a core in a launch (R14). -/
def State.weight (s : State) (l : Launch) (core : Nat) : Nat :=
  let v := aGet Vint.reset s.dev.vint core
  if l.approx then v.apxf else v.exf

/-- The ageing interval in ring cycles, or none where stealing is disabled (R9). One µs is 2,400 ring cycles (R318). -/
def Launch.ageing (l : Launch) : Option Nat :=
  if l.ageCode = 0xFFFF then none
  else some (2400 * if l.ageCode = 0 then 50 else l.ageCode)

/-- The ordinal of a core's strand. -/
def Launch.ordOf (l : Launch) (core : Nat) : Option Nat := l.lease.findIdx? fun p => p.1 = core

/-- The tiles of a core's list that others can take: not the head, which stands in the core's station while its strand
runs (R17). -/
def Launch.avail (l : Launch) (core : Nat) : List Nat :=
  let xs := smGet [] l.lists core
  match l.ordOf core with
  | some o => if l.ended.contains o then xs else xs.drop 1
  | none => xs

/-- The core with the most tiles left, the lowest id on a tie (R18). -/
def longest (l : Launch) : List Nat → Option Nat
  | [] => none
  | c :: cs => match longest l cs with
    | some d =>
      let x := (l.avail c).length
      let y := (l.avail d).length
      if x < y ∨ (x = y ∧ d < c) then some d else some c
    | none => some c

/-- The victim of a steal by a core: on its own die if there is one (R18). -/
def Launch.victim (l : Launch) (core : Nat) : Option Nat :=
  let cands := (l.lists.map (·.1)).filter fun c => c ≠ core ∧ l.avail c ≠ []
  match longest l (cands.filter fun c => c / 96 = core / 96) with
  | some c => some c
  | none => longest l cands

/-- What TNEXT finds: a tile, none left, or a wait (R17, R18). -/
inductive Take where
  | tile (t : Nat) (l : Launch)
  | none
  | wait
  deriving Repr

/-- The next tile of a core's strand (R17, R18). -/
def Launch.take (l : Launch) (core : Nat) : Take :=
  match smGet [] l.lists core with
  | t :: ts => .tile t { l with lists := smSet [] l.lists core ts }
  | [] =>
    match l.ageing, l.victim core with
    | none, _ | _, none => .none
    | some _, some v =>
      if l.aged then .tile ((l.avail v).getLastD 0) { l with lists := smSet [] l.lists v (smGet [] l.lists v).dropLast }
      else .wait

/-- The tile that a strand holds is complete (R20). -/
def State.tileDone (s : State) : State :=
  match s.cask.st.held with
  | some _ => (s.updLaunch s.lid fun l => { l with tiles := l.tiles + 1 }).updCask fun c => { c with st := { c.st with held := none } }
  | none => s

/-! ### The lees record (R26, R27) -/

/-- An arrival's place in the record: lag, ordinal, drop, normalised lag. -/
structure Lag where
  lag : Nat
  ord : Nat
  drop : Bool
  nlag : Int
  deriving DecidableEq, Repr

/-- Sorted by lag, largest first, ties to the lower ordinal (R27). -/
def insertLag (x : Lag) : List Lag → List Lag
  | [] => [x]
  | y :: ys => if y.lag < x.lag ∨ (y.lag = x.lag ∧ x.ord < y.ord) then x :: y :: ys else y :: insertLag x ys
def sortLags : List Lag → List Lag
  | [] => []
  | x :: xs => insertLag x (sortLags xs)

/-- The first arrival, the lowest ordinal on a tie. -/
def firstArrival : List Arrival → Option Arrival
  | [] => none
  | a :: as => match firstArrival as with
    | some b => if b.at_ < a.at_ ∨ (b.at_ = a.at_ ∧ b.ord < a.ord) then some b else some a
    | none => some a

/-- The last arrival, the lowest ordinal on a tie. -/
def lastArrival : List Arrival → Option Arrival
  | [] => none
  | a :: as => match lastArrival as with
    | some b => if a.at_ < b.at_ ∨ (a.at_ = b.at_ ∧ b.ord < a.ord) then some b else some a
    | none => some a

/-- The ring cycle at which a strand's part of a phase began: its JOIN, or the crew's last completion (R27). -/
def Crew.startOf (k : Crew) (ord : Nat) : Nat := (aFind k.starts ord).getD k.start

/-- NLAG (R27); the division rounds towards minus infinity. -/
def nlagOf (ti wi tf wf : Nat) : Int :=
  max (-(2 ^ 31 : Nat)) (min ((2 ^ 31 : Nat) - 1) (((ti * wi : Nat) - (tf * wf : Nat) : Int) / (wi : Int)))

/-- The entry of an arrival. -/
def lagOf (k : Crew) (w : Nat → Nat) (f a : Arrival) : Lag :=
  { lag := sat32 (a.at_ - f.at_), ord := a.ord, drop := a.drop,
    nlag := nlagOf (a.at_ - k.startOf a.ord) (w a.ord) (f.at_ - k.startOf f.ord) (w f.ord) }

/-- The two words of each of four entries. -/
def lagWords : Nat → List Lag → List Nat
  | 0, _ => []
  | n + 1, [] => 0xFFFF :: 0 :: lagWords n []
  | n + 1, x :: xs => (x.lag * 2 ^ 32 + bit x.drop * 2 ^ 16 + x.ord) :: intBits 32 x.nlag :: lagWords n xs

/-- The record of a completed phase; `w` gives the weights by ordinal (R26). -/
def leesRecord (crewId kind : Nat) (k : Crew) (w : Nat → Nat) : SMap Word :=
  match firstArrival k.arrived, lastArrival k.arrived with
  | some f, some l =>
    let last := match lastArrival (k.arrived.filter fun a => !a.drop) with
      | some a => a.ord
      | none => 0xFFFF
    let w0 := crewId * 2 ^ 56 + kind * 2 ^ 48 + k.phase * 2 ^ 32 + k.arrived.length * 2 ^ 16 + last
    let ws := w0 :: sat32 (l.at_ - f.at_) :: lagWords 4 (sortLags (k.arrived.map (lagOf k w f)))
    smSetRange 0 [] 0 (ws.map (BitVec.ofNat 64))
  | _, _ => leesReset

/-! ### Crews and supersteps (R21–R25) -/

/-- A change of a strand of a launch, wherever its state is: saved by a checkpoint, or in its cask. -/
def State.updStrand (s : State) (lid ord : Nat) (f : Cask → Cask) : State :=
  let l := s.launchAt lid
  match aFind l.saved ord with
  | some c => s.updLaunch lid fun l => { l with saved := aSet l.saved ord (f c) }
  | none => match l.lease[ord]? with
    | some p =>
      let c := s.caskAt p.1 p.2
      if c.st.live ∧ c.kr.lid.toNat = lid then s.setCaskAt p.1 p.2 (f c) else s
    | none => s

/-- A crew of a launch, and the superstep (none). -/
def Launch.crewOf (l : Launch) : Option Nat → Crew
  | some c => aGet { Crew.reset with start := l.startAt } l.crews c
  | none => l.sstep
def Launch.setCrew (l : Launch) (id : Option Nat) (k : Crew) : Launch :=
  match id with
  | some c => { l with crews := aSet l.crews c k }
  | none => { l with sstep := k }

/-- The strands that a phase waits for: the members, or every strand that has not ended (R21, R24). -/
def Launch.expected (l : Launch) : Option Nat → List Nat
  | some c => (l.crewOf (some c)).members
  | none => (List.range l.lease.length).filter fun o => !l.ended.contains o

/-- Every expected strand has arrived (R21, R24). -/
def Launch.phaseFull (l : Launch) (id : Option Nat) : Bool :=
  let k := l.crewOf id
  !(l.expected id).isEmpty && (l.expected id).all fun o => k.arrived.any fun a => a.ord = o

/-- A phase completes if it can: the record goes to every strand that arrived, the members that dropped leave, the next
phase begins (R21, R23, R26). DESIGN CHOICE: PHASE of a superstep's record counts the launch's supersteps from 0 on, modulo
2^16, as a crew's phases count (log 50). -/
def State.phaseCheck (s : State) (lid : Nat) (id : Option Nat) : State :=
  let l := s.launchAt lid
  if l.phaseFull id then
    let k := l.crewOf id
    let rec_ := leesRecord (id.getD 0xFF) (if id.isSome then 0 else 1) k fun o =>
      s.weight l ((l.lease[o]?).getD (0, false)).1
    let drops := (k.arrived.filter (·.drop)).map (·.ord)
    let k' : Crew := { members := k.members.filter fun o => !drops.contains o, phase := (k.phase + 1) % 2 ^ 16,
                       arrived := [], start := s.dev.rtc, starts := [] }
    k.arrived.foldl (fun s a => s.updStrand lid a.ord fun c => { c with st := { c.st with lees := rec_ } })
      (s.updLaunch lid fun l => l.setCrew id k')
  else s

/-- A strand arrives, and the phase may complete (R21). An arrival already made in the phase counts once, from its first
time on, and a drop stays one. -/
def State.arrive (s : State) (lid ord : Nat) (id : Option Nat) (drop : Bool) : State :=
  let k := (s.launchAt lid).crewOf id
  let as := k.arrived.filter fun a => a.ord ≠ ord
  let a : Arrival := match k.arrived.find? fun a => a.ord = ord with
    | some a => { a with drop := a.drop || drop }
    | none => { ord := ord, at_ := s.dev.rtc, drop := drop }
  (s.updLaunch lid fun l => l.setCrew id { k with arrived := as ++ [a] }).phaseCheck lid id

/-- The phase of a crew's arrival that K has not returned from (R190). -/
def Strand.arrivedIn (t : Strand) (id : Option Nat) : Option Nat := (t.arr.find? fun a => a.crew = id).map (·.phase)
def Strand.setArr (t : Strand) (id : Option Nat) (phase : Nat) : Strand :=
  { t with arr := t.arr.filter (fun a => a.crew ≠ id) ++ [{ crew := id, phase := phase }] }
def Strand.clearArr (t : Strand) (id : Option Nat) : Strand := { t with arr := t.arr.filter fun a => a.crew ≠ id }

/-! ### The end of a strand and of a launch (R12, R310, R313) -/

/-- The completion record (R313). -/
def completionWords (l : Launch) (lid status field : Nat) : List Byte :=
  bytesOf 8 (2 ^ 63 + status * 2 ^ 40 + field * 2 ^ 32 + lid) ++ bytesOf 8 (l.glate * 2 ^ 32 + l.tiles)

/-- A launch leaves its queue: its completion record is written, LQHEAD advances, and its cores are free (R310, R313,
R316). -/
def State.launchOut (s : State) (lid : Nat) (l : Launch) (status field : Nat) : State :=
  let part := (s.queueAt l.queue).part
  let s1 := s.ioPost { part := part, asid := l.asid, va := l.dw 13, bytes := completionWords l lid status field }
  let q1 := s1.queueAt l.queue
  let s2 := s1.setQueue l.queue { q1 with head := (q1.head + 1) % 2 ^ 64, taken := none }
  { s2 with dev := { s2.dev with
      launches := aDel s2.dev.launches lid,
      gangLate := if l.gang then s2.dev.gangLate.filter fun x => x.2 ≠ l.gangId else s2.dev.gangLate,
      freed := s2.dev.freed ++ l.lease,
      grantDue := if l.lease = [] then s2.dev.grantDue else nsAdd s2.dev.grantDue part } }

/-- An engine without words, its registers as they are. -/
def EngSt.emptied (st : EngSt) : EngSt :=
  { st with need := none, rsnPend := [], flight := none, owed := [], redo := [], late := [], held := none, done := [], ewr := [],
            marks := [], aligned := none, wait := none }

/-- The cask holds no strand any more; its memories, registers, hardware frame and L1 lines stay until the next strand (R13,
R314, R335, R377). -/
def Cask.vacate (c : Cask) : Cask :=
  { c with
    eL := c.eL.emptied, eM := c.eM.emptied, eS := c.eS.emptied, yy := YSt.reset,
    cp := { c.cp with fqWait := [] },
    st := { Strand.reset with frame := c.st.frame, gDie := c.st.gDie, gDev := c.st.gDev, gSys := c.st.gSys } }

/-- A strand ends: its tile is complete, it leaves its crews as a drop, it counts as a drop for the superstep, its core
returns to the lease, and the launch completes with its last strand (R12). -/
def State.endStrand (s : State) : State :=
  let lid := s.lid
  let ord := s.cask.st.ord
  let s1 := s.tileDone
  let crews := (s1.launchAt lid).crews.filter fun p => p.2.members.contains ord
  let s2 := crews.foldl (fun s p => s.arrive lid ord (some p.1) true) s1
  let s3 := s2.updLaunch lid fun l => { l with ended := l.ended ++ [ord] }
  let s4 := s3.arrive lid ord none true
  let s5 := s4.updCask Cask.vacate
  let l := s5.launchAt lid
  if l.lease.length ≤ l.ended.length ∧ l.lease ≠ [] then s5.launchOut lid l 0 0 else s5

/-- The TAGs of the FREDs that a copy engine has in flight. -/
def YSt.fredTags (y : YSt) : List Nat :=
  (y.all.filter fun z => (z.bytes.headD 0).toNat = 8).map fun z => fld (dw (natOf z.bytes) 10) 34 16

/-- What this device holds for the FREDs of some TAGs, discarded: its own contributions and what has come of them (R284). -/
def Dev.dropFreds (d : Dev) (tags : List Nat) : Dev :=
  { d with
    contribs := d.contribs.filter fun x => ¬ (x.rank = d.rank ∧ x.tag ∈ tags)
    nodes := d.nodes.filter fun x => x.tag ∉ tags
    results := d.results.filter fun x => x.1 ∉ tags
    agreed := d.agreed.filter fun n => n ∉ tags
    disagree := d.disagree.filter fun n => n ∉ tags }

/-- A cask's strand is killed: its queued work is discarded, its performed writes stay (R284, R327, R343). -/
def State.killCask (s : State) (c : Nat) (b : Bool) : State :=
  let s1 := tryAct (asCask c b drainBuf) s
  let x := s1.caskAt c b
  let s2 := s1.setCaskAt c b x.vacate
  { s2 with dev := s2.dev.dropFreds x.yy.fredTags }

/-- Every strand of a launch is killed. -/
def State.killStrands (s : State) (lid : Nat) : State :=
  (s.launchAt lid).lease.foldl (fun s p =>
    if (s.caskAt p.1 p.2).st.live ∧ (s.caskAt p.1 p.2).kr.lid.toNat = lid then s.killCask p.1 p.2 else s) s

/-- A launch ends with STATUS 2 (R307, R310, R378, R395). -/
def State.launchFail (s : State) (lid : Nat) : State :=
  match aFind s.dev.launches lid with
  | some _ =>
    let s1 := s.killStrands lid
    s1.launchOut lid (s1.launchAt lid) 2 0
  | none => s

end Sys2Proof.Machine
end

