-- ==== Sys2Proof/Machine/KTile.lean ====
section
/-! DEFINITION. K's words for tiles, crews and barriers (R188–R192, R10–R27). -/

namespace Sys2Proof.Machine

open Sys2Proof

/-- −1. -/
def minusOne : Word := BitVec.allOnes 64

/-- TNEXT's results: the coordinates in s6 to s8, and then the index in s_d (R10, R17). -/
def State.tileRegs (s : State) (d : SReg) (t0 t1 t2 i : Word) : State :=
  s.updCask fun c => (((c.setS 6 t0).setS 7 t1).setS 8 t2).setS d i

/-- TNEXT (R17, R18, R188). -/
def execTnext (d : SReg) (s : State) : Host.Outcome State Fault Refusal :=
  kUser (
    match s.launch.take s.turn.core with
    | .wait => throw (.wait false)
    | .none => modify fun s => (s.tileDone.tileRegs d minusOne minusOne minusOne minusOne).kNext
    | .tile t l => modify fun s =>
      let s1 := s.tileDone.updLaunch s.lid fun k => { k with lists := l.lists }
      let s2 := s1.updCask fun c => { c with st := { c.st with held := some t } }
      (s2.tileRegs d (BitVec.ofNat 64 (t % l.e0)) (BitVec.ofNat 64 (t / l.e0 % l.e1))
        (BitVec.ofNat 64 (t / (l.e0 * l.e1))) (BitVec.ofNat 64 t)).kNext) s

/-- TDONE (R20, R189). -/
def execTdone (s : State) : Host.Outcome State Fault Refusal :=
  kUser (modify fun s => s.tileDone.kNext) s

/-- An engine has retired every word it has fetched (R12): it is halted, or it stands before a word that it has not
fetched (log 7). -/
def EngSt.quiet (st : EngSt) (ahead : Nat) : Bool :=
  st.owed.isEmpty && (st.halted || (st.flight.isNone && st.redo.isEmpty && (st.wait.isNone || !st.started) && decide (ahead = 0)))

/-- An engine fetches no more words, and has retired those that it has fetched (R12, R296): it is halted, or it stands before a
section whose requirements do not hold. The sequencer of any other engine goes on (log 40). -/
def EngSt.spent (st : EngSt) (ahead : Nat) : Bool := st.quiet ahead && (st.halted || (!st.started && st.wait.isSome))

/-- TDONE.end (R12, R13, R189): it never retires. -/
def execTdoneEnd (s : State) : Host.Outcome State Fault Refusal :=
  kUser (do
    let a := Config.fetchAhead s.tick
    await (s.cask.eL.spent (a .l) && s.cask.eM.spent (a .m) && s.cask.eS.spent (a .s))
    await (s.cask.yy.all.isEmpty && s.cask.yy.chains.isEmpty)
    drainBuf
    modify State.endStrand) s

/-! ### Crews -/

/-- The strand whose turn it is, by ordinal. -/
def State.ord (s : State) : Nat := s.cask.st.ord

/-- The crew exists (R22). -/
def crewExists (c : Nat) : Act Unit := do
  let s ← get
  check (decide (c < s.launch.crewCount)) cCrewMembership

/-- The strand is a member of a crew. -/
def State.isMember (s : State) (c : Nat) : Bool := (s.launch.crewOf (some c)).members.contains s.ord

/-- The crews of which the strand is a member. -/
def State.memberships (s : State) : Nat := (s.launch.crews.filter fun p => p.2.members.contains s.ord).length

/-- JOIN (R21–R23, R190). -/
def execJoin (c : BitVec 6) (s : State) : Host.Outcome State Fault Refusal :=
  kUser (do
    crewExists c.toNat
    check (!s.isMember c.toNat) cCrewMembership
    check (decide (s.memberships < 8)) cCrewMembership
    modify fun s => (s.updLaunch s.lid fun l =>
      let k := l.crewOf (some c.toNat)
      l.setCrew (some c.toNat) { k with members := nsAdd k.members s.ord, starts := aSet k.starts s.ord s.dev.rtc }).kNext) s

/-- LEAVE (R21–R23, R190): an arrival in the phase goes with the membership, and the phase may complete. -/
def execLeave (c : BitVec 6) (s : State) : Host.Outcome State Fault Refusal :=
  kUser (do
    crewExists c.toNat
    check (s.isMember c.toNat) cCrewMembership
    modify fun s =>
      let s1 := s.updLaunch s.lid fun l =>
        let k := l.crewOf (some c.toNat)
        l.setCrew (some c.toNat)
          { k with members := nsDel k.members s.ord, arrived := k.arrived.filter fun a => a.ord ≠ s.ord }
      let s2 := s1.phaseCheck s.lid (some c.toNat)
      (s2.updCask fun x => { x with st := x.st.clearArr (some c.toNat) }).kNext) s

/-- The phase in which the strand arrived has completed. -/
def State.phaseOver (s : State) (id : Option Nat) (phase : Nat) : Bool :=
  let k := s.launch.crewOf id
  decide (k.phase ≠ phase) || !(k.arrived.any fun a => a.ord = s.ord)

/-- The wait of a barrier, and the acquire after it (R21, R24, R190). -/
def barrierWait (id : Option Nat) (phase : Nat) : Act Unit := do
  let s ← get
  await (s.phaseOver id phase)
  acquire .device
  modify fun s => (s.updCask fun c => { c with st := { c.st.clearArr id with ybound := none } }).kNext

/-- The arrival of a strand (R21, R24). -/
def barrierArrive (id : Option Nat) (drop : Bool) : Act Unit := do
  let s ← get
  let phase := (s.launch.crewOf id).phase
  set ((s.updCask fun c => { c with st := c.st.setArr id phase }).arrive s.lid s.ord id drop)
  barrierWait id phase

/-- CBAR and CBARD; an arrival already made is not made again (R190). -/
def crewBarrier (c : BitVec 6) (drop : Bool) (s : State) : Host.Outcome State Fault Refusal :=
  kUser (
    match s.cask.st.arrivedIn (some c.toNat) with
    | some phase => barrierWait (some c.toNat) phase
    | none => do
      crewExists c.toNat
      check (s.isMember c.toNat) cCrewMembership
      release .device
      barrierArrive (some c.toNat) drop) s

/-- CBAR (R21–R23, R190). -/
def execCbar (c : BitVec 6) (s : State) : Host.Outcome State Fault Refusal := crewBarrier c false s

/-- CBARD (R21–R23, R190). -/
def execCbard (c : BitVec 6) (s : State) : Host.Outcome State Fault Refusal := crewBarrier c true s

/-- The commands up to number `n` have completed, and every chain has been fetched (R24). -/
def YSt.doneUpTo (y : YSt) (n : Nat) : Bool :=
  y.chains.isEmpty && y.all.all fun e => decide (2 ^ 31 ≤ (n + 2 ^ 32 - e.cnum) % 2 ^ 32)

/-- SSTEP (R24, R25, R191). While a chain is being fetched its entries count as issued before the SSTEP. -/
def execSstep (s : State) : Host.Outcome State Fault Refusal :=
  kUser (
    match s.cask.st.arrivedIn none with
    | some phase => barrierWait none phase
    | none => do
      if s.cask.st.ybound.isNone then release .device
      if s.cask.st.ybound.isNone || !s.cask.yy.chains.isEmpty then
        modify fun s => s.updCask fun c => { c with st := { c.st with ybound := some c.yy.cnum } }
      let s ← get
      await (s.cask.yy.doneUpTo (s.cask.st.ybound.getD 0))
      joins fun _ => true
      barrierArrive none false) s

/-- LEES (R26, R192). -/
def execLees (d : SReg) (imm : BitVec 4) (s : State) : Host.Outcome State Fault Refusal :=
  kUser (do
    check (decide (imm.toNat ≤ 9)) cIllegalOperand
    modify fun s => s.kSet d (smGet 0 s.cask.st.lees imm.toNat)) s

end Sys2Proof.Machine
end

