-- ==== Sys2Proof/Machine/Switch.lean ====
section
/-! DEFINITION. Stops that are no faults: the suspend and checkpoint switches of a dual-resident core, the stop for a
checkpoint, and the switch-in (R323–R325, R327, R332, R336, R340, R343). -/

namespace Sys2Proof.Machine

open Sys2Proof

/-- The time a wait began, turned into the time it has lasted, and back (R336). -/
def flipWait (rtc : Nat) (w : Option Wait) : Option Wait := w.map fun x => { x with since := rtc - x.since }

/-- The waits of K and of the engines, turned. -/
def Cask.flipWaits (c : Cask) (rtc : Nat) : Cask :=
  let c1 : Cask := { c with
    st := { c.st with wait := flipWait rtc c.st.wait },
    cp := { c.cp with fqWait := c.cp.fqWait.map fun p => (p.1, rtc - p.2) } }
  [Eng.l, Eng.m, Eng.s].foldl (fun c e => c.updEng e fun st => { st with
    wait := flipWait rtc st.wait, late := st.late.map fun l => { l with wait := flipWait rtc l.wait } }) c1

/-- The waits of Y, turned. -/
def Cask.flipYWaits (c : Cask) (rtc : Nat) : Cask :=
  let qs := c.yy.queues.map fun p => (p.1, p.2.map fun y => { y with wait := flipWait rtc y.wait })
  { c with yy := { c.yy with queues := qs, chains := c.yy.chains.map fun x => { x with wait := flipWait rtc x.wait } } }

/-- The waits of `old` carried over to `c`, word by word and command by command (R336). -/
def Cask.keepWaits (c old : Cask) : Cask :=
  let c1 : Cask := { c with st := { c.st with wait := old.st.wait } }
  let waitOf (ls : List Late) (n : Nat) : Option Wait := (ls.find? fun l => l.f.cn = n).bind (·.wait)
  let c2 := [Eng.l, Eng.m, Eng.s].foldl (fun c e => c.updEng e fun st => { st with
    wait := (old.eng e).wait, late := st.late.map fun l => { l with wait := waitOf (old.eng e).late l.f.cn } }) c1
  let find (n : Nat) : Option Wait := ((old.yy.all.find? fun y => y.jnum = n).map (·.wait)).getD none
  let qs := c2.yy.queues.map fun p => (p.1, p.2.map fun y => { y with wait := find y.jnum })
  { c2 with yy := { c2.yy with queues := qs, chains := old.yy.chains } }

/-- A strand is switched out with its words in place, but for the apply words, which are cancelled: a frame of KIND 2, no
replay, Y goes on (R263, R323, R324, R343); a handler that asks for the switch has its frame written too. The frame of a fault that
no handler has taken stays (R325; log 20). -/
def Cask.suspend (c : Cask) (dual : Bool) (rtc : Nat) : Cask :=
  let c0 := c.cancelApply
  let c1 := if c0.st.live ∧ ¬ c0.st.kstop ∧ (¬ c0.st.stopped ∨ c0.kr.priv) then c0.writeFrame dual { kind := 2 } c0.kr.kpc none else c0
  (({ c1 with st := { c1.st with spur := true } }).flipWaits rtc).flipYWaits rtc

/-- A strand stops for a checkpoint: unsettled words give their pops back, Y parks, a frame of KIND 1 (R324, R331, R343).
A strand that a fault has already stopped keeps its place; K waits are abandoned. -/
def Cask.checkpoint (c : Cask) (dual : Bool) : Cask :=
  if !c.st.live || c.st.kstop then c
  else if c.st.stopped then
    let c0 := if c.yy.failed.isSome then c.parkY dual none else c
    { c0 with st := { c0.st with spur := true } }
  else
    let c1 := (c.stopEngines.parkY dual none).writeFrame dual { kind := 1 } c.kr.kpc none
    ({ c1 with st := { c1.st with stopped := true, spur := true, ckpt := false } }).keepWaits c

/-- A strand that a checkpoint stopped: neither in a handler nor stopped by a fault. -/
def Strand.parkedHere (t : Strand) (priv : Bool) : Bool := t.stopped && !t.kstop && !priv

/-- A strand resumes after a checkpoint (R324, R340). `keep`: its waits go on with the time they had (R336). -/
def Cask.restore (c : Cask) (dual keep : Bool) : Cask :=
  if c.st.parkedHere c.kr.priv then
    let c1 := c.resumeCask dual (frameAt dual)
    if keep then c1.keepWaits c else c1
  else c

/-- A fault that was held for the switch-in is delivered (R325, R332). -/
def State.deliver (s : State) (n : Nat) (b : Bool) : State :=
  let c := s.caskAt n b
  match c.st.deferred with
  | some (u, f, q, y) =>
    let s1 := s.setCaskAt n b { c with st := { c.st with deferred := none } }
    s1.takeFaultAt n b (stopInfo u f q y) c.kr.kpc none
  | none => s

/-- A strand stopped for a checkpoint with its waits turned; one that is stopped already stays as it is. -/
def Cask.ckptStop (c : Cask) (dual : Bool) (rtc : Nat) : Cask :=
  if c.st.parkedHere c.kr.priv || !c.st.live then c else ((c.checkpoint dual).flipWaits rtc).flipYWaits rtc

/-- The records of commands that a checkpoint parks. -/
def State.stopRecordsIf (s : State) (n : Nat) (b parked : Bool) : State := if parked then s.stopRecords n b true else s

/-- Cask `to` of core `n` begins to issue: a strand that a checkpoint stopped resumes with its waits as they were; a fault
that was held is delivered (R324, R325, R336). -/
def State.switchIn (s : State) (n : Nat) (dst : Bool) : State :=
  let k := s.core n
  let b := k.cask dst
  let b1 := (b.flipWaits s.dev.rtc).flipYWaits s.dev.rtc
  (s.setCore n { (k.setCask dst (b1.restore k.dual true)) with cur := dst }).deliver n dst

/-- Cask `b` of core `n` stops issuing (R323, R324). -/
def State.switchOut (s : State) (n : Nat) (b checkpoint : Bool) : State :=
  let k := s.core n
  let a := k.cask b
  let a1 := if checkpoint then a.ckptStop k.dual s.dev.rtc else a.suspend k.dual s.dev.rtc
  (s.setCaskAt n b a1).stopRecordsIf n b checkpoint

/-- Issue moves from the current cask of core `n` to cask `to`, which the core's monitors count (R323, R324, R391). -/
def State.switchCask (s : State) (n : Nat) (dst checkpoint : Bool) : State :=
  let a := (s.core n).cur
  ((((s.tickCycles n).switchOut n a checkpoint).switchIn n dst)).countAt n a 0xD 1

/-- Issue moves to cask `dst` of core `n` where the strand of the cask that issues has ended (R323, R391). -/
def State.moveIssue (s : State) (n : Nat) (dst : Bool) : State :=
  ((s.tickCycles n).switchIn n dst).countAt n (s.core n).cur 0xD 1

/-- A switch of the core whose turn it is. -/
def State.doSwitch (s : State) (dst checkpoint : Bool) : State := s.switchCask s.turn.core dst checkpoint

end Sys2Proof.Machine
end

