-- ==== Sys2Proof/Machine/KSys.lean ====
section
/-! DEFINITION. K's words for line monitors, estimates, identity, traps, overlays and the privileged ones (R193–R200,
R29, R308, R309, R347, R348). -/

namespace Sys2Proof.Machine

open Sys2Proof

/-! ### Waiting on a line (R29, R193) -/

/-- WATCH. -/
def execWatch (a : SReg) (imm : BitVec 32) (s : State) : Host.Outcome State Fault Refusal :=
  kUser (do
    let ea := s.kEa a imm
    check (decide (klmLimit ≤ ea)) cIllegalOperand (BitVec.ofNat 64 ea)
    check (canonical ea) cProtection (BitVec.ofNat 64 ea)
    let l ← translate s.turn.core s.cask.kr.asid ea .read
    modify fun s => (s.updCask fun c => { c with st := { c.st with
      armed := some (l.asid.toNat, l.va / 128), evt := false, spur := false } }).kNext) s

/-- WAITL: it returns at once where the event bit is set or no monitor is armed, and spuriously after a switch, a stop
or the loss of the monitor entry. -/
def execWaitl (s : State) : Host.Outcome State Fault Refusal :=
  kUser (do
    await (s.cask.st.evt || s.cask.st.armed.isNone || s.cask.st.spur)
    modify fun s => ((s.updCask fun c => { c with st := { c.st with spur := false } }).count 0xE 1).kNext) s

/-! ### Estimates and identity (R194–R196) -/

/-- EST. -/
def execEst (a : SReg) (s : State) : Host.Outcome State Fault Refusal :=
  kUser (modify fun s =>
    let v := sat32 (s.sreg a).toNat
    ((s.updLaunch s.lid fun l => { l with ests := aSet l.ests s.ord v }).updCask fun c =>
      { c with kr := { c.kr with estv := BitVec.ofNat 32 v } }).kNext) s

/-- The word that VTAB returns for a core (R195). -/
def State.vtabWord (s : State) (core : Nat) : Word :=
  let v := aGet Vint.reset s.dev.vint core
  BitVec.ofNat 64 (bit (s.launch.lease.any fun p => p.1 = core) * 2 ^ 38 + bit v.spare * 2 ^ 37 + bit v.en * 2 ^ 36 +
    v.tcls % 16 * 2 ^ 32 + v.apxf % 2 ^ 16 * 2 ^ 16 + v.exf % 2 ^ 16)

/-- VTAB. -/
def execVtab (d a : SReg) (imm : BitVec 32) (s : State) : Host.Outcome State Fault Refusal :=
  kUser (do
    let n := s.kEa a imm
    check (decide (n < 384)) cIllegalOperand
    modify fun s => s.kSet d (s.vtabWord n)) s

/-- The clock of the core in 5 MHz units, rounded down (R196, R320). -/
def State.clock (s : State) : Nat := s.weight s.launch s.turn.core * s.dev.capf / 256

/-- A cask of a core holds a strand that is not issuing (R309). -/
def Core.heldBit (k : Core) (b : Bool) : Bool := (k.cask b).st.live && k.dual && decide (k.cur ≠ b)

/-- CASKCTL (R309). -/
def Core.caskctl (k : Core) : Word :=
  BitVec.ofNat 64 (bit (k.heldBit true) * 8 + bit (k.heldBit false) * 4 + bit k.cur * 2 + bit k.dual)

/-- The cycle counters brought up to the cycle of the read. -/
def State.readCycles (s : State) : State := s.tickCycles s.turn.core

/-- A monitor of the core whose turn it is. -/
def State.monitor (s : State) (k : Nat) : Mon := aGet Mon.reset (s.core s.turn.core).mon k

/-- A special register as RDS reads it (R196, R308), or none where there is no such register. -/
def State.special (s : State) (n : Nat) : Option Word :=
  let kr := s.cask.kr
  let k := s.core s.turn.core
  match n with
  | 0x000 => some (BitVec.ofNat 64 s.turn.core)
  | 0x001 => some kr.cyc
  | 0x002 => some (BitVec.ofNat 64 s.dev.rtc)
  | 0x003 => some (BitVec.ofNat 64 (bit s.launch.approx + 2 * bit k.dual))
  | 0x004 => some (BitVec.ofNat 64 s.clock)
  | 0x005 => some (if kr.priv then 1 else 0)
  | 0x006 => some kr.tag
  | 0x100 => some (BitVec.ofNat 64 kr.hvec)
  | 0x101 => some (kr.asid.setWidth 64)
  | 0x102 => some k.caskctl
  | 0x103 => some (kr.lq.setWidth 64 <<< 32 ||| kr.lid.setWidth 64)
  | 0x104 => some (kr.wdog.setWidth 64)
  | 0x105 => some (if kr.monen then 1 else 0)
  | 0x106 => some (kr.estv.setWidth 64)
  | n => if 0x010 ≤ n ∧ n ≤ 0x017 then some ((s.monitor (n - 0x010)).val.setWidth 64) else none

/-- The privileged special registers (R196, R308). -/
def privSpec (n : Nat) : Bool := decide (0x100 ≤ n) && decide (n ≤ 0x1FF)
/-- MON0–MON7. -/
def monSpec (n : Nat) : Bool := decide (0x010 ≤ n) && decide (n ≤ 0x017)

/-- RDS. -/
def execRds (d : SReg) (spec : BitVec 12) (s : State) : Host.Outcome State Fault Refusal :=
  kRun (do
    let n := spec.toNat
    check (!privSpec n || s.cask.kr.priv) cProtection
    check (!monSpec n || s.cask.kr.priv || s.cask.kr.monen) cProtection
    modify State.readCycles
    let s ← get
    match s.special n with
    | some v => modify fun s => s.kSet d v
    | none => raise cIllegalOperand) s

/-- The special registers that WRS writes, with the value of each (R196, R308). HVEC ignores bits [2:0] and those above
the cask's window. -/
def Cask.wrsWrite (c : Cask) (dual : Bool) (n : Nat) (v : Word) : Option Cask :=
  match n with
  | 0x006 => some { c with kr := { c.kr with tag := v } }
  | 0x100 => some { c with kr := { c.kr with hvec := v.toNat % imemSize dual / 8 * 8 } }
  | 0x101 => some { c with kr := { c.kr with asid := v.setWidth 10 } }
  | 0x104 => some { c with kr := { c.kr with wdog := v.setWidth 32 } }
  | 0x105 => some { c with kr := { c.kr with monen := v.getLsbD 0 } }
  | _ => none

/-- WRS. -/
def execWrs (spec : BitVec 12) (b : SReg) (s : State) : Host.Outcome State Fault Refusal :=
  kRun (do
    let n := spec.toNat
    check (!privSpec n || s.cask.kr.priv) cProtection
    match s.cask.wrsWrite s.dual n (s.sreg b) with
    | some c => modify fun s => (s.setCask c).kNext
    | none => raise cIllegalOperand) s

/-! ### Traps (R197) -/

/-- TRAP: K resumes at the next word; the frame holds the immediate and the TRAP's own address. -/
def execTrap (imm : BitVec 32) (s : State) : Host.Outcome State Fault Refusal :=
  if s.cask.kr.priv then .next (s.coreStop .k { code := cIllegalOperand })
  else .next (s.takeFaultAt s.turn.core s.turn.cask
    { code := cTrap, va := BitVec.ofNat 64 s.cask.kr.kpc, stat := imm.setWidth 64 } (s.cask.kr.kpc + 8) none)

/-! ### Overlays (R198, R199, R121) -/

/-- The four 16-bit fields of a dword in bytes, in units of 128 bytes. -/
def streamFields (w : Nat) : List Nat := (List.range 4).map fun i => 128 * fld w (16 * i) 16

/-- Two ranges of bytes overlap. -/
def overlaps (a b : Nat × Nat) : Bool := decide (0 < a.2) && decide (0 < b.2) && decide (a.1 < b.1 + b.2) && decide (b.1 < a.1 + a.2)

/-- OVL. -/
def execOvl (a : SReg) (s : State) : Host.Outcome State Fault Refusal :=
  kUser (do
    let va := (s.sreg a).toNat
    checkMem va 64
    let bs ← kLoad va 64
    let ws := (pieces 8 8 bs).map natOf
    let d (i : Nat) : Nat := ws.getD i 0
    let lens := streamFields (d 4)
    let offs := streamFields (d 5)
    check (decide (fld (d 6) 7 57 = 0 ∧ d 7 = 0)) cIllegalOperand
    check ((offs.zip lens).all fun p => decide (p.2 = 0) || decide (p.1 + p.2 ≤ imemSize s.dual)) cIllegalOperand
    check (((offs.zip lens).zip s.cask.st.extents).all fun p => !overlaps p.1 p.2) cIllegalOperand
    check s.cask.st.ovl.isNone cIllegalOperand
    let o : Overlay := {
      vas := (ws.take 4).map (BitVec.ofNat 64), lens := lens, offs := offs, trailer := BitVec.ofNat 7 (d 6),
      loaded := false, flt := none }
    modify fun s => (s.updCask fun c => { c with st := { c.st with ovl := some o } }).kNext) s

/-- The engines and the queues of a trailer mask have nothing in flight (R121, R199). -/
def Cask.trailerDone (c : Cask) (ahead : Eng → Nat) : Bool :=
  let m := c.st.trailer
  (!m.getLsbD 6 || c.eL.quiet (ahead .l)) && (!m.getLsbD 5 || c.eM.quiet (ahead .m)) && (!m.getLsbD 4 || c.eS.quiet (ahead .s)) &&
  (List.range 4).all fun q => !m.getLsbD q ||
    ((c.yy.queue q).isEmpty && c.yy.chains.all fun x => decide (x.queue ≠ some q))

/-- An engine's next fetch is from its new stream: it finishes the words it has begun and drops the others (R199). -/
def Cask.newStream (c : Cask) (e : Eng) (off : Nat) : Cask :=
  let st := c.eng e
  let c1 := match st.flight with
    | some f => if f.begun then c else ((c.giveBack e).fqBack st.open_).leaveFq e
    | none => c
  let c2 := c1.updEng e fun st =>
    let dst : EngSt := match st.flight with
      | some f =>
        if f.settled || f.again then { st with hoff := off, idx := 0, started := false, lpStart := [] }
        else { st with flight := some { f with jump := some (3, off) } }
      | none => { st with hoff := off, idx := 0, started := false, lpStart := [], wait := none }
    let n := dst.queued 0
    { dst with halted := false, need := none, marks := dst.marks.map fun m => { m with ahead := min m.ahead n } }
  c2.fireMarks e

/-- The extents of the streams in force, an overlay's streams in place of the old ones. -/
def newExtents (old : List (Nat × Nat)) (offs lens : List Nat) : List (Nat × Nat) :=
  (List.range 4).map fun i => if lens.getD i 0 = 0 then old.getD i (0, 0) else (offs.getD i 0, lens.getD i 0)

/-- The swap of an overlay (R199, steps 3 and 4). -/
def State.swapIn (s : State) (o : Overlay) : State :=
  let len (i : Nat) : Nat := o.lens.getD i 0
  let off (i : Nat) : Nat := o.offs.getD i 0
  let s1 := s.kRetire (if len 0 = 0 then s.cask.kr.kpc + 8 else off 0)
  s1.updCask fun c =>
    let c1 := if len 1 = 0 then c else c.newStream .l (off 1)
    let c2 := if len 2 = 0 then c1 else c1.newStream .m (off 2)
    let c3 := if len 3 = 0 then c2 else c2.newStream .s (off 3)
    { c3 with st := { c3.st with trailer := o.trailer, extents := newExtents c3.st.extents o.offs o.lens, ovl := none } }

/-- OVSWAP. A strand on which a checkpoint is pending stops directly after it (R327). DESIGN CHOICE: the overlay whose load met
a fault stays pending with it: a later OVSWAP raises it again, and OVL finds an overlay pending (R199; log 55). -/
def execOvswap (s : State) : Host.Outcome State Fault Refusal :=
  kUser (
    match s.cask.st.ovl with
    | none => raise cIllegalOperand
    | some o => do
      release .device
      let s ← get
      await (s.cask.trailerDone (Config.fetchAhead s.tick))
      await o.loaded
      match o.flt with
      | some f => throw (.trap f)
      | none => do
        modify fun s => s.swapIn o
        modify fun s => if s.cask.st.ckpt then s.switchOut s.turn.core s.turn.cask true else s) s

/-! ### Privileged words (R200) -/

/-- ERET (R340, R348). DESIGN CHOICE: a KPC inside the window that is no multiple of 8 raises ILLEGAL_OPERAND, as one outside
it does (log 57). -/
def execEret (a : SReg) (s : State) : Host.Outcome State Fault Refusal :=
  kPriv (do
    let v := (s.sreg a).toNat
    let fa := if v = 0 then frameAt s.dual else v
    check (decide (fa % 64 = 0 ∧ fa + 992 ≤ klmSize s.dual)) cAlignment (BitVec.ofNat 64 fa)
    let bs ← klmLoad (fa + 24) 8
    let _ ← klmLoad fa 992
    check (decide (natOf bs < imemSize s.dual ∧ natOf bs % 8 = 0)) cIllegalOperand
    modify fun s => (s.updCask fun c => c.resumeCask s.dual fa).count 2 1) s

/-- FFRD (R334). -/
def execFfrd (d : SReg) (imm : BitVec 6) (s : State) : Host.Outcome State Fault Refusal :=
  kPriv (modify fun s => s.kSet d (smGet 0 s.cask.st.frame imm.toNat)) s

/-- JCTL op 0 (R337). -/
def execJctlHead (d : SReg) (s : State) : Host.Outcome State Fault Refusal :=
  kPriv (modify fun s => s.kSet d (BitVec.ofNat 64 s.cask.yy.jhead)) s

/-- JCTL op 1 (R337). -/
def execJctlTail (d : SReg) (s : State) : Host.Outcome State Fault Refusal :=
  kPriv (modify fun s => s.kSet d (BitVec.ofNat 64 s.cask.yy.jtail)) s

/-- Every entry up to number `n` freed (R337). -/
def YSt.freeTo (y : YSt) (n : Nat) : YSt :=
  let k := (n + 2 ^ 32 - y.jtail) % 2 ^ 32 + 1
  jadvance 336 { y with jtail := jnext n, jfreed := y.jfreed.filter fun x => decide (k ≤ (x + 2 ^ 32 - y.jtail) % 2 ^ 32) }

/-- JCTL op 2: a number that no entry holds raises ILLEGAL_OPERAND. -/
def execJctlFree (a : SReg) (s : State) : Host.Outcome State Fault Refusal :=
  kPriv (do
    let n := (s.sreg a).toNat
    let y := s.cask.yy
    check (decide (n < 2 ^ 32 ∧ (n + 2 ^ 32 - y.jtail) % 2 ^ 32 < y.jheld)) cIllegalOperand
    modify fun s => (s.updCask fun c => { c with yy := c.yy.freeTo n }).kNext) s

/-- A nest table in the descriptor layout, read back (R141, R338). -/
def NestCopy.ofBytes (bs : List Byte) : NestCopy :=
  let d (i : Nat) : Nat := natOf ((bs.drop (8 * i)).take 8)
  { base := BitVec.ofNat 64 (d 0), elog := fld (d 1) 0 2, toSpm := flag (d 1) 2, target := fld (d 1) 8 21,
    levels := (List.range 6).map fun i => (fld (d (2 + i)) 40 24, sxN (fld (d (2 + i)) 0 40) 40) }

/-- The nest launch that an entry holds is made again for an engine that the mask names. -/
def Cask.reissueNest (c : Cask) (dual : Bool) (m : KMask) (n : Nat) : Cask :=
  let a := jaddr dual n
  let w := natOf (c.klmBytes (a + 136) 8)
  let e : Eng := if flag w 13 then .s else .l
  if fld w 0 8 = 4 ∧ ¬ c.yy.jfreed.contains n ∧ (KMask.engines m).contains e then
    let k := fld w 14 3
    c.setNest e k { c.nest e k with shd := NestCopy.ofBytes (c.klmBytes a 64), ready := true, jnum := n }
  else c

/-- The commands that entries `ns` hold enter their queues again, in place of the queues' own commands of those
numbers. -/
def Cask.reissueCmds (c : Cask) (dual : Bool) (ns : List Nat) : Cask :=
  let kept := c.yy.queues.map fun p => (p.1, p.2.filter fun y => !ns.contains y.jnum)
  let qs := (ns.filterMap fun n => c.reissued dual n).foldl (fun (m : SMap (List YEnt)) p =>
    aSet m p.1 (aGet [] m p.1 ++ [p.2])) kept
  { c with yy := { c.yy with queues := qs } }

/-- JCTL op 3. -/
def execJctlReissue (m : KMask) (a : SReg) (s : State) : Host.Outcome State Fault Refusal :=
  kPriv (do
    check (!m.m) cIllegalOperand
    let n := (s.sreg a).toNat
    modify fun s => (s.updCask fun c =>
      let ns := (jnums c.yy.jtail c.yy.jheld).filter fun j => decide ((j + 2 ^ 32 - n % 2 ^ 32) % 2 ^ 32 < 2 ^ 31)
      let c1 := ns.foldl (fun c j => c.reissueNest s.dual m j) c
      if m.y then c1.reissueCmds s.dual ns else c1).kNext) s

/-- CASKSW (R200, R323, R324): a suspend switch; to the current cask it does nothing. -/
def execCasksw (a : SReg) (s : State) : Host.Outcome State Fault Refusal :=
  kPriv (do
    let v := (s.sreg a).toNat
    check (s.dual && decide (v < 2)) cIllegalOperand
    kDone
    if decide (v = 1) ≠ s.turn.cask then modify fun s => s.doSwitch (decide (v = 1)) false) s

/-- Translations invalidated (R355): the home slices write the lines back that `h` selects and invalidate them, which wakes
their monitors (R29); then leaves and aliases are dropped. -/
def State.invalidate (s : State) (f : Leaf → Bool) (g : Syn → Bool) (h : BitVec 10 → Nat → Bool) : State :=
  let t := (s.l2Flush fun x => h x.asid x.line).wakeLines h
  { t with
    cores := t.cores.map fun p => (p.1, { p.2 with syn := p.2.syn.filter fun x => !g x }),
    dev := { t.dev with leaves := t.dev.leaves.filter fun x => !f x } }

/-- TINV.page (R355). DESIGN CHOICE: the lines that leave the L2s are those of the largest page that the VA can lie in; a line
can leave an L2 at any time (R358; logs 46, 72). -/
def execTinvPage (a b : SReg) (s : State) : Host.Outcome State Fault Refusal :=
  kPriv (do
    let va := (s.sreg a).toNat
    let asid : BitVec 10 := (s.sreg b).setWidth 10
    modify fun s => (s.invalidate (fun l => decide (l.asid = asid) && decide (l.va / 2 ^ l.lg = va / 2 ^ l.lg))
      (fun x => (decide (x.asid = asid) && decide (x.page = va / 2 ^ 16)) ||
        (decide (x.casid = asid) && decide (x.cpage = va / 2 ^ 16)))
      (fun a line => decide (a = asid) && decide (128 * line / 2 ^ 30 = va / 2 ^ 30))).kNext) s

/-- TINV.asid (R355). -/
def execTinvAsid (_a b : SReg) (s : State) : Host.Outcome State Fault Refusal :=
  kPriv (do
    let asid : BitVec 10 := (s.sreg b).setWidth 10
    modify fun s => (s.invalidate (fun l => decide (l.asid = asid))
      (fun x => decide (x.asid = asid) || decide (x.casid = asid)) (fun a _ => decide (a = asid))).kNext) s

/-- TINV.all (R355). -/
def execTinvAll (_a _b : SReg) (s : State) : Host.Outcome State Fault Refusal :=
  kPriv (modify fun s => (s.invalidate (fun _ => true) (fun _ => true) (fun _ _ => true)).kNext) s

end Sys2Proof.Machine
end

