-- ==== Sys2Proof/Machine/Common.lean ====
section
/-! DEFINITION. The common set of L, M and S (R203–R208, R105, R48). -/

namespace Sys2Proof.Machine

open Sys2Proof

/-- No checks of its own. -/
def noPre : CAct Unit := pure ()

/-- NOP (R204). -/
def execNop (e : Eng) (t : Tk) (s : State) : Host.Outcome State Fault Refusal := cRun e t noPre (pure ()) s

/-- TOK (R205). -/
def execTok (e : Eng) (t : Tk) (n : BitVec 6) (s : State) : Host.Outcome State Fault Refusal :=
  eRun e t { pops := n.toNat, pushes := n.toNat, pre := check (decide (1 ≤ n.toNat ∧ n.toNat ≤ 32)) cIllegalOperand,
             unit := do
               modify fun s => s.updCask fun c => c.begin e
               pure .last } s

/-- The partner of an ALIGN. -/
def alignPartner : Eng → Eng
  | .l => .s
  | _ => .l

/-- Every tree write that S has handed to Y has performed at its home: what S does next comes after it (R103, R118). -/
def treeWritesDone : Act Unit := do
  let s ← get
  holdTill s.cask.eS.owed.isEmpty

/-- The meeting of two ALIGNs (R105): the second arrival settles both, once the tree writes of S have performed (R118). -/
def meet (e : Eng) (n : Nat) : Act Prog := do
  modify fun s => s.updCask fun c => c.begin e
  let s ← get
  match (s.cask.eng (alignPartner e)).aligned with
  | some m => do
    check (decide (m = n)) cIllegalOperand
    await s.cask.eS.owed.isEmpty
    modify fun s => (s.updCask fun c =>
      (c.updEng (alignPartner e) fun st => { st with aligned := none }).settle (alignPartner e)).count
        (settledEvent (alignPartner e)) 1
    pure .last
  | none => do
    modify fun s => s.updCask fun c => c.updEng e fun st => { st with aligned := some n }
    throw (.wait false)

/-- ALIGN (R105). -/
def execAlign (e : Eng) (t : Tk) (n : BitVec 16) (s : State) : Host.Outcome State Fault Refusal :=
  eRun e t { pre := check (decide (e ≠ .m)) cIllegalOperand, unit := meet e n.toNat } s

/-- XSET (R204). -/
def execXset (e : Eng) (t : Tk) (d : XReg) (imm : Word) (s : State) : Host.Outcome State Fault Refusal :=
  cRun e t noPre (modify fun c => c.setX e d imm) s

/-- XADD (R204). -/
def execXadd (e : Eng) (t : Tk) (d a b : XReg) (s : State) : Host.Outcome State Fault Refusal :=
  cRun e t noPre (modify fun c => c.setX e d (c.xreg e a + c.xreg e b)) s

/-- XADDI (R204). -/
def execXaddi (e : Eng) (t : Tk) (d a : XReg) (imm : BitVec 40) (s : State) : Host.Outcome State Fault Refusal :=
  cRun e t noPre (modify fun c => c.setX e d (c.xreg e a + imm.signExtend 64)) s

/-- XMUL (R204). -/
def execXmul (e : Eng) (t : Tk) (d a b : XReg) (s : State) : Host.Outcome State Fault Refusal :=
  cRun e t noPre (modify fun c => c.setX e d (c.xreg e a * c.xreg e b)) s

/-! ### Loops (R206, R48, R179) -/

/-- The trip count of an LPS. -/
def Cask.lpsCount (c : Cask) (e : Eng) (lp : LpNo) (n : LpCount) : Nat :=
  if lp = 0 ∧ (c.eng e).rpt ≠ 0 then (c.eng e).rpt
  else match n with
    | .imm k => k.toNat
    | .reg a => (c.xreg e a).toNat

/-- LPS. The iteration it opens begins with the next word (R179). -/
def execLps (e : Eng) (t : Tk) (lp : LpNo) (n : LpCount) (s : State) : Host.Outcome State Fault Refusal :=
  cRun e t (do
      let c ← get
      check (decide (0 < c.lpsCount e lp n ∧ c.lpsCount e lp n < 2 ^ 24)) cIllegalOperand)
    (modify fun c =>
      let k := c.lpsCount e lp n
      let at_ := (c.flightOf e).idx + 1
      c.updEng e fun st => { st with
        lp := smSet 0 st.lp lp.toNat k, lpStart := aSet st.lpStart lp.toNat at_,
        need := if lp = 0 ∧ st.rpt ≠ 0 then some 0 else none }) s

/-- L's repeat counter has reached 0: nobody waits for L's iterations any more (R179). -/
def Cask.freeSkew (c : Cask) (e : Eng) : Cask :=
  if e = .l ∧ c.eL.rpt = 0 then
    [Eng.l, Eng.m, Eng.s].foldl (fun c e => c.updEng e fun st => { st with skewFree := true }) c
  else c

/-- The end of an iteration: the counters, of 24 bits (R34), and the jump back (R206). -/
def Cask.loopEnd (c : Cask) (e : Eng) (lp : LpNo) (start : Nat) : Cask :=
  let st := c.eng e
  let k := (smGet 0 st.lp lp.toNat + (2 ^ 24 - 1)) % 2 ^ 24
  let armed := decide (lp = 0 ∧ st.rpt ≠ 0)
  let r := if armed then st.rpt - 1 else st.rpt
  let c1 := c.updEng e fun st => { st with
    lp := smSet 0 st.lp lp.toNat k, rpt := r, need := if k ≠ 0 ∧ armed ∧ r ≠ 0 then some st.iters else none }
  let c2 := if armed then c1.freeSkew e else c1
  if k ≠ 0 then c2.updFlight e fun f => { f with jump := some (0, start) } else c2

/-- LPE. -/
def execLpe (e : Eng) (t : Tk) (lp : LpNo) (s : State) : Host.Outcome State Fault Refusal :=
  cRun e t (do
      let c ← get
      check (aFind (c.eng e).lpStart lp.toNat).isSome cIllegalOperand)
    (modify fun c => match aFind (c.eng e).lpStart lp.toNat with
      | some a => c.loopEnd e lp a
      | none => c) s

/-! ### Branches and halts -/

/-- The target of a BRX, as a byte offset (R207). -/
def Cask.brxTarget (c : Cask) (e : Eng) (off : BitVec 24) : Int := ((c.eng e).place.1 : Int) + 4 * off.toInt

/-- BRX. -/
def execBrx (e : Eng) (t : Tk) (cond : Cond) (a b : XReg) (off : BitVec 24) (s : State) :
    Host.Outcome State Fault Refusal :=
  let taken (c : Cask) : Bool := Cond.holds cond (c.xreg e a) (c.xreg e b)
  cRun e t (do
      let c ← get
      check (!taken c || decide (0 ≤ c.brxTarget e off ∧ c.brxTarget e off < imemSize s.dual)) cIllegalOperand)
    (modify fun c =>
      if taken c then c.updFlight e fun f => { f with jump := some (1, ((f.hoff : Int) + 4 * off.toInt).toNat) } else c) s

/-- HALTE (R208). -/
def execHalte (e : Eng) (t : Tk) (s : State) : Host.Outcome State Fault Refusal :=
  eRun e t { pre := pure (), unit := do
    modify fun s => s.updCask fun c => c.begin e
    let s ← get
    await (s.cask.eng e).owed.isEmpty
    modify fun s => s.updCask fun c => c.updFlight e fun f => { f with jump := some (2, 0) }
    pure .last } s

end Sys2Proof.Machine
end

