-- ==== Sys2Proof/Machine/Load.lean ====
section
/-! DEFINITION. The plain words of L (R210–R214, R217). -/

namespace Sys2Proof.Machine

open Sys2Proof

/-! ### Progress (R202) -/

/-- The progress of the word in progress. -/
def State.prog (s : State) (e : Eng) : Nat := (s.cask.flightOf e).prog

/-- The word in progress has come to `n` of `total`. -/
def reached (e : Eng) (n total : Nat) : Act Prog := do
  modify fun s => s.updCask fun c => c.updFlight e fun f => { f with prog := n, pt := Point.none }
  pure (if total ≤ n then .last else .more)

/-- The word in progress has issued. -/
def begun (e : Eng) : Act Unit := modify fun s => s.updCask fun c => c.begin e

/-! ### Single-copy pieces (R114, R211) -/

/-- The length of the single-copy unit of `u` bytes at an address, within what is left: 8 bytes, or an element where those are
smaller. -/
def unitLen (u va left : Nat) : Nat := min (u - va % u) left

/-- The single-copy unit of rows of a format. -/
def fmtUnit (f : Fmt) : Nat := min 8 f.bytes

/-- An address a number of bytes on, modulo 2^64. -/
def addrPlus (va n : Nat) : Nat := (va + n) % 2 ^ 64

/-! ### Points moved piece by piece (R114, R116) -/

/-- The pieces of `n` bytes at `va`, from place `off` on: one for each naturally aligned unit of `u` bytes. -/
def piecesAt (u : Nat) : Nat → Nat → Nat → Nat → List (Nat × Nat × Nat)
  | 0, _, _, _ => []
  | f + 1, off, va, n =>
    if n = 0 then []
    else
      let k := unitLen u va n
      (off, va, k) :: piecesAt u f (off + k) (addrPlus va k) (n - k)
def piecesOf (u off va n : Nat) : List (Nat × Nat × Nat) := piecesAt u (n / u + 2) off va n

/-- Bytes put at a place of others. -/
def putAt (data : List Byte) (off : Nat) (bs : List Byte) : List Byte :=
  data.take off ++ bs ++ data.drop (off + bs.length)

/-- The point in progress of an engine's word, and a new one. -/
def State.point (s : State) (e : Eng) : Point := (s.cask.flightOf e).pt
def setPoint (e : Eng) (p : Point) : Act Unit := modify fun s => s.updCask fun c => c.updFlight e fun f => { f with pt := p }

/-- The piece that moves next, of those that are left: the first, or any (log 59). -/
def State.nextPart (s : State) (e : Eng) (ordered : Bool) : Nat :=
  let n := (s.point e).parts.length
  if ordered then 0 else Config.nextPart s.tick n % n

/-- One piece of the point in progress is loaded. -/
def loadPiece (e : Eng) (ordered : Bool) (load : Nat → Nat → Act (List Byte)) : Act Unit := do
  let s ← get
  let k := s.nextPart e ordered
  match (s.point e).parts[k]? with
  | none => pure ()
  | some x => do
    let bs ← load x.2.1 x.2.2
    let s ← get
    let p := s.point e
    setPoint e { p with parts := p.parts.eraseIdx k, data := putAt p.data x.1 bs }

/-- One piece of the point in progress is stored. -/
def storePiece (e : Eng) (store : Nat → List Byte → Act Unit) : Act Unit := do
  let s ← get
  let k := s.nextPart e false
  match (s.point e).parts[k]? with
  | none => pure ()
  | some x => do
    store x.2.1 (((s.point e).data.drop x.1).take x.2.2)
    let s ← get
    setPoint e { s.point e with parts := (s.point e).parts.eraseIdx k }

/-- With no piece left the point in progress is complete, and `finish` follows. -/
def pointDone (e : Eng) (finish : Point → Act Prog) : Act Prog := do
  let s ← get
  if (s.point e).parts.isEmpty then finish (s.point e) else pure .more

/-! ### LDT (R210) -/

/-- How many elements of a format a point carries. -/
def perPoint (f : Fmt) : Nat := if f.bits = 4 then 2 else 1

/-- The points that elements `a` to `a + k − 1` of a nest's sequence come from: the first, and how many. -/
def pointsOf (f : Fmt) (a k : Nat) : Nat × Nat :=
  (a / perPoint f, (a + k + perPoint f - 1) / perPoint f - a / perPoint f)

/-- The pieces of `k` points from point `p` on, in point order. -/
def NestCopy.pieces (n : NestCopy) (p k : Nat) : List (Nat × Nat × Nat) :=
  (List.range k).map fun i => (i * n.elem, n.point (p + i), n.elem)

/-- Elements `a` to `a + k − 1` of a nest's sequence, as codes, from the bytes of their points. -/
def nestCodes (f : Fmt) (a k : Nat) (bs : List Byte) : List Nat :=
  ((unpackCodes f (perPoint f * (pointsOf f a k).2) bs).drop (a - perPoint f * (pointsOf f a k).1)).take k

/-- A tile's codes padded with zeros and packed as the slot holds them. -/
def tileOf (f : Fmt) (size : Nat) (codes : List Nat) : List Byte :=
  packCodes f (codes ++ List.replicate (size - codes.length) 0)

/-- A unit of an LDT with an SPM target: one point. Both alignments come before the window (R397). -/
def ldtSpm (n : NestCopy) : Act Prog := do
  let s ← get
  let p := s.prog .l
  let a := n.target + p * n.elem
  check (decide (n.point p % n.elem = 0)) cAlignment (BitVec.ofNat 64 (n.point p))
  checkSpm s.dual a n.elem n.elem
  checkMem (n.point p) n.elem
  let bs ← memLoad (n.point p) n.elem
  modify fun s => s.updCask fun c => c.setSpm a bs
  reached .l (p + 1) n.points

/-- The byte of a point whose high nibble begins the next tile: it is kept, and not read again (R210). -/
def carryByte (f : Fmt) (next : Nat) (bs : List Byte) : List Nat :=
  if next % perPoint f = 0 then [] else (bs.getLast?.map (·.toNat)).toList

/-- A unit of an LDT with a ring target: one point; a tile is pushed with its last one. -/
def ldtRing (n : NestCopy) : Act Prog := do
  let rn : RingNo := BitVec.ofNat 4 n.target
  let d ← ringDest rn
  modify fun s => s.updCask fun c => c.naming .l [rn]
  let s ← get
  let r := s.cask.ring rn.toNat
  check (decide (n.elem = r.srcf.bytes)) cFormatMismatch
  ringRoom d
  let k := s.prog .l
  let size := r.rows * r.cols
  let total := n.points * perPoint r.srcf
  let cnt := min size (total - k * size)
  let ps := pointsOf r.srcf (k * size) cnt
  let kept := (s.cask.flightOf .l).aux
  if !(s.point .l).opened then
    setPoint .l { opened := true, parts := (n.pieces ps.1 ps.2).drop kept.length,
                  data := putAt (List.replicate (ps.2 * n.elem) 0) 0 (kept.map (BitVec.ofNat 8)) }
  loadPiece .l true fun va m => do
    checkMem va n.elem
    memLoad va m
  pointDone .l fun p => do
    pushTile d (tileOf r.srcf size (nestCodes r.srcf (k * size) cnt p.data)) 0
    modify fun s => s.updCask fun c => c.updFlight .l fun f => { f with aux := carryByte r.srcf (k * size + cnt) p.data }
    reached .l (k + 1) ((total + size - 1) / size)

/-- LDT. -/
def execLdt (t : Tk) (ru : Bool) (nest : NestNo) (s : State) : Host.Outcome State Fault Refusal :=
  eRun .l t { pre := pure (), unit := do
    let n ← onCask (fire .l ru nest)
    if n.toSpm then ldtSpm n else ldtRing n } s

/-! ### LDN (R211) -/

/-- The SPM address of LDN and STN. -/
def Cask.spmEa (c : Cask) (e : Eng) (d : XReg) (doff : BitVec 21) : Nat := (c.xreg e d + doff.setWidth 64).toNat

/-- The checks of LDN and STN. -/
def copyPre (e : Eng) (d a : XReg) (doff : BitVec 21) (aoff : BitVec 32) (len : BitVec 13) : Act Unit := do
  let s ← get
  check (decide (1 ≤ len.toNat ∧ len.toNat ≤ 4096)) cIllegalOperand
  checkSpm s.dual (s.cask.spmEa e d doff) len.toNat 1
  checkMem (s.cask.xea e a aoff) 1

/-- LDN. -/
def execLdn (t : Tk) (d a : XReg) (doff : BitVec 21) (aoff : BitVec 32) (len : BitVec 13) (s : State) :
    Host.Outcome State Fault Refusal :=
  eRun .l t { pre := copyPre .l d a doff aoff len, unit := do
    begun .l
    let s ← get
    let p := s.prog .l
    let va := addrPlus (s.cask.xea .l a aoff) p
    let k := unitLen 8 va (len.toNat - p)
    checkMem va 1
    let bs ← memLoad va k
    modify fun s => s.updCask fun c => c.setSpm (c.spmEa .l d doff + p) bs
    reached .l (p + k) len.toNat } s

/-! ### LDG (R212) -/

/-- The index of row `k`: an i32 in the SPM. -/
def indices (a n : Nat) : CAct (List Nat) := do
  let bs ← spmLoad a (4 * n)
  pure ((pieces 4 n bs).map natOf)

/-- The address of an indexed row (R212, R219). -/
def Cask.rowAddr (c : Cask) (e : Eng) (a m : XReg) (idx : Nat) : Nat :=
  (c.xreg e a + BitVec.ofInt 64 (sxN idx 32) * c.xreg e m).toNat

/-- The checks of LDG. -/
def ldgPre (ring : RingNo) (b : XReg) (n : Nat) : Act Unit := do
  let _ ← ringDest ring
  let s ← get
  check (decide (n ≤ (s.cask.ring ring.toNat).rows)) cIllegalOperand
  checkSpm s.dual (s.cask.xreg .l b).toNat (4 * n) 4

/-- The row of the next index laid out behind the bytes of the rows before it. -/
def openRow (a m : XReg) (f : Fmt) (n i : Nat) : Act Unit := do
  let s ← get
  let va := s.cask.rowAddr .l a m i
  checkMem va f.bytes
  checkMem (addrPlus va (n - 1)) 1
  let p := s.point .l
  setPoint .l { p with
    opened := true, parts := piecesOf (fmtUnit f) p.data.length va n, data := p.data ++ List.replicate n 0 }

/-- The codes of rows of `n` bytes each, from their bytes. -/
def rowCodes (f : Fmt) (cols k n : Nat) (bs : List Byte) : List Nat := ((pieces n k bs).map (unpackCodes f cols)).flatten

/-- LDG. The indices are read when the word starts; the rows come in their order, the pieces of a row in any. -/
def execLdg (t : Tk) (ring : RingNo) (a b m : XReg) (cnt : BitVec 7) (s : State) : Host.Outcome State Fault Refusal :=
  let n := cnt.toNat + 1
  eRun .l t { pre := ldgPre ring b n, unit := do
    begun .l
    modify fun s => s.updCask fun c => c.naming .l [ring]
    let d ← ringDest ring
    let s ← get
    if (s.cask.flightOf .l).aux.isEmpty && !(s.point .l).opened then do
      let is ← onCask (indices (s.cask.xreg .l b).toNat n)
      modify fun s => s.updCask fun c => c.updFlight .l fun f => { f with aux := is }
    ringRoom d
    let s ← get
    let r := s.cask.ring ring.toNat
    let w := rowBytes r.srcf r.cols
    if (s.point .l).parts.isEmpty then do
      match (s.cask.flightOf .l).aux with
      | i :: is => do
        openRow a m r.srcf w i
        modify fun s => s.updCask fun c => c.updFlight .l fun f => { f with aux := is }
      | [] => pure ()
    loadPiece .l false memLoad
    pointDone .l fun p => do
      let s ← get
      if (s.cask.flightOf .l).aux.isEmpty then do
        pushTile d (tileOf r.srcf (r.rows * r.cols) (rowCodes r.srcf r.cols n w p.data)) 0
        reached .l 1 1
      else pure .more } s

/-! ### LDV (R213) -/

/-- The checks of a scalar access of L and S. -/
def scalarPre (e : Eng) (sp : Bool) (sz : BitVec 2) (a : XReg) (aoff : BitVec 32) : Act Unit := do
  let s ← get
  let n := 2 ^ sz.toNat
  if sp then checkSpm s.dual (s.cask.xea e a aoff) n n else checkMem (s.cask.xea e a aoff) n

/-- LDV. -/
def execLdv (t : Tk) (sp sg : Bool) (sz : BitVec 2) (d a : XReg) (aoff : BitVec 32) (s : State) :
    Host.Outcome State Fault Refusal :=
  eRun .l t {
    pre := do
      check (!(sg && sz == 3)) cIllegalOperand
      scalarPre .l sp sz a aoff
    unit := do
      begun .l
      let s ← get
      let ea := s.cask.xea .l a aoff
      let bs ← if sp then onCask (spmLoad ea (2 ^ sz.toNat)) else memLoad ea (2 ^ sz.toNat)
      modify fun s => s.updCask fun c => c.setX .l d (extendLoad sz.toNat sg (natOf bs))
      pure .last } s

/-! ### MCF (R123, R214) -/

/-- The destination mask. -/
def Cask.mcfMask (c : Cask) (b : XReg) : Nat := (c.xreg .l b).toNat + (c.xreg .l (b + 1)).toNat * 2 ^ 64

/-- The cores that a mask names, on the issuing core's die. -/
def mcfCores (core mask : Nat) : List Nat := ((List.range 96).filter fun p => flag mask p).map fun p => 96 * (core / 96) + p

/-- The checks of MCF, in the order of R214 and R397. -/
def mcfPre (d a b : XReg) (aoff : BitVec 32) (len : BitVec 6) : Act Unit := do
  let s ← get
  let c := s.cask
  check (decide (b.toNat % 2 = 0 ∧ b ≠ 0 ∧ (c.xreg .l (b + 1)).toNat < 2 ^ 32)) cIllegalOperand
  check (decide (c.mcfMask b ≠ 0 ∧ 1 ≤ len.toNat ∧ len.toNat ≤ 32)) cIllegalOperand
  let va := c.xea .l a aoff
  check (decide (va % 128 = 0)) cAlignment (BitVec.ofNat 64 va)
  checkSpm s.dual (c.xreg .l d).toNat (128 * len.toNat) 128
  check ((mcfCores s.turn.core (c.mcfMask b)).all fun k => (s.launch.ordOf k).isSome) cProtection
  check (canonical va) cProtection (BitVec.ofNat 64 va)

/-- MCF. One piece of 256 bytes, or the last one of 128, reaches every destination at a time; its bytes are read at their home
in units of 8. -/
def execMcf (t : Tk) (d a b : XReg) (aoff : BitVec 32) (len : BitVec 6) (s : State) :
    Host.Outcome State Fault Refusal :=
  eRun .l t { pre := mcfPre d a b aoff len, unit := do
    begun .l
    let s ← get
    let p := s.prog .l
    let k := min 256 (128 * len.toNat - 256 * p)
    let va := addrPlus (s.cask.xea .l a aoff) (256 * p)
    checkMem va 128
    if !(s.point .l).opened then setPoint .l { opened := true, parts := piecesOf 8 0 va k, data := List.replicate k 0 }
    loadPiece .l false homeLoad
    pointDone .l fun x => do
      let dst := (s.cask.xreg .l d).toNat + 256 * p
      modify fun s => (mcfCores s.turn.core (s.cask.mcfMask b)).foldl (fun s n =>
        match s.launch.ordOf n with
        | some o => s.updStrand s.lid o fun c => c.setSpm dst x.data
        | none => s) s
      reached .l (p + 1) ((len.toNat + 1) / 2) } s

/-! ### LDSB (R217) -/

/-- 2^e in fp32, exact. -/
def pow2Code (e : Int) : Nat := (cvt ((XR.ofInt 1).scale e) .fp32 .rne).1

/-- The checks of LDSB. -/
def ldsbPre (sp : Bool) (ring : RingNo) (a : XReg) (aoff : BitVec 32) (n : Nat) : Act Unit := do
  let _ ← ringDest ring
  let s ← get
  let r := s.cask.ring ring.toNat
  check (decide (r.rows = 1 ∧ n ≤ r.cols)) cIllegalOperand
  check (decide (r.srcf = .fp32)) cFormatMismatch
  if sp then checkSpm s.dual (s.cask.xea .l a aoff) n 1 else checkMem (s.cask.xea .l a aoff) 1

/-- LDSB. -/
def execLdsb (t : Tk) (sp : Bool) (ring : RingNo) (a : XReg) (aoff : BitVec 32) (cnt : BitVec 7) (s : State) :
    Host.Outcome State Fault Refusal :=
  let n := cnt.toNat + 1
  eRun .l t { pre := ldsbPre sp ring a aoff n, unit := do
    begun .l
    modify fun s => s.updCask fun c => c.naming .l [ring]
    let d ← ringDest ring
    ringRoom d
    let s ← get
    let ea := s.cask.xea .l a aoff
    if !sp then checkMem (addrPlus ea (n - 1)) 1
    if !(s.point .l).opened then setPoint .l { opened := true, parts := piecesOf 1 0 ea n, data := List.replicate n 0 }
    loadPiece .l false fun a k => if sp then onCask (spmLoad a k) else memLoad a k
    pointDone .l fun p => do
      let r := s.cask.ring ring.toNat
      pushTile d (tileOf .fp32 r.cols (p.data.map fun b => pow2Code b.toInt)) 0
      reached .l 1 1 } s

end Sys2Proof.Machine
end

