-- ==== Sys2Proof/Machine/Store.lean ====
section
/-! DEFINITION. The plain words of S (R211, R213, R218–R220). -/

namespace Sys2Proof.Machine

open Sys2Proof

/-! ### Stores and the token scope (R97, R106) -/

/-- The scope, as a class, at which a store word finishes: the wider of the token scopes of the FIFOs it pushes to. -/
def Cask.tokenScope (c : Cask) (t : Tk) : Nat :=
  let k := (c.flightOf .s).tks.toNat
  max (if t.hp then fld k (scopeBit .s true) 2 else 0) (if t.hn then fld k (scopeBit .s false) 2 else 0)

/-- A store of S: into the L1, and home where the token scope asks for it; a line that its slice would turn away waits before the
store (R360). -/
def sStore (t : Tk) (va : Nat) (bs : List Byte) : Act Unit := do
  let s ← get
  throughReady (s.cask.tokenScope t) va bs.length
  memStore va bs
  writeThrough (s.cask.tokenScope t) va bs.length

/-- One piece of the point in progress is stored, with the bytes that stand at its place of the SPM from `base` on. -/
def movePiece (e : Eng) (base : Nat) (store : Nat → List Byte → Act Unit) : Act Unit := do
  let s ← get
  let k := s.nextPart e false
  match (s.point e).parts[k]? with
  | none => pure ()
  | some x => do
    let bs ← onCask (spmLoad (base + x.1) x.2.2)
    store x.2.1 bs
    let s ← get
    setPoint e { s.point e with parts := (s.point e).parts.eraseIdx k }

/-! ### STT, STN, STV -/

/-- STT (R218): one point at a time. Both alignments come before the window (R397). -/
def execStt (t : Tk) (ru : Bool) (nest : NestNo) (s : State) : Host.Outcome State Fault Refusal :=
  eRun .s t { pre := pure (), unit := do
    let n ← onCask (fire .s ru nest)
    check n.toSpm cIllegalOperand
    treeWritesDone
    let s ← get
    let p := s.prog .s
    let a := n.target + p * n.elem
    check (decide (n.point p % n.elem = 0)) cAlignment (BitVec.ofNat 64 (n.point p))
    checkSpm s.dual a n.elem n.elem
    checkMem (n.point p) n.elem
    let bs ← onCask (spmLoad a n.elem)
    sStore t (n.point p) bs
    reached .s (p + 1) n.points } s

/-- STN (R211). -/
def execStn (t : Tk) (d a : XReg) (doff : BitVec 21) (aoff : BitVec 32) (len : BitVec 13) (s : State) :
    Host.Outcome State Fault Refusal :=
  eRun .s t { pre := copyPre .s d a doff aoff len, unit := do
    begun .s
    treeWritesDone
    let s ← get
    let p := s.prog .s
    let va := addrPlus (s.cask.xea .s a aoff) p
    let k := unitLen 8 va (len.toNat - p)
    checkMem va 1
    let bs ← onCask (spmLoad (s.cask.spmEa .s d doff + p) k)
    sStore t va bs
    reached .s (p + k) len.toNat } s

/-- STV (R213). -/
def execStv (t : Tk) (sp : Bool) (sz : BitVec 2) (b a : XReg) (aoff : BitVec 32) (s : State) :
    Host.Outcome State Fault Refusal :=
  eRun .s t { pre := scalarPre .s sp sz a aoff, unit := do
    begun .s
    treeWritesDone
    let s ← get
    let ea := s.cask.xea .s a aoff
    let bs := bytesOf (2 ^ sz.toNat) (s.cask.xreg .s b).toNat
    if sp then modify fun s => s.updCask fun c => c.setSpm ea bs else sStore t ea bs
    pure .last } s

/-! ### SCT (R219) -/

/-- The checks of SCT. -/
def sctPre (d b : XReg) (rb n : Nat) : Act Unit := do
  let s ← get
  check (decide (1 ≤ rb ∧ rb ≤ 2048)) cIllegalOperand
  checkSpm s.dual (s.cask.xreg .s b).toNat (4 * n) 4
  checkSpm s.dual (s.cask.xreg .s d).toNat (rb * n) 1

/-- SCT: the rows in their order, the pieces of a row in any (R114). -/
def execSct (t : Tk) (d a b m : XReg) (rb : BitVec 12) (cnt : BitVec 7) (s : State) :
    Host.Outcome State Fault Refusal :=
  let n := cnt.toNat + 1
  let w := rb.toNat
  eRun .s t { pre := sctPre d b w n, unit := do
    begun .s
    treeWritesDone
    let s ← get
    let k := s.prog .s
    if !(s.point .s).opened then do
      let is ← onCask (indices ((s.cask.xreg .s b).toNat + 4 * k) 1)
      let va := s.cask.rowAddr .s a m (is.headD 0)
      checkMem va 1
      checkMem (addrPlus va (w - 1)) 1
      setPoint .s { opened := true, parts := piecesOf 8 0 va w }
    movePiece .s ((s.cask.xreg .s d).toNat + k * w) (sStore t)
    pointDone .s fun _ => reached .s (k + 1) n } s

/-! ### DRN (R220, R82, R341) -/

/-- Poisoned words of the accumulator memory: the bytes of word (r, j) of a tile (R39, R346). -/
def Cask.acmPoison (c : Cask) (n : CTile) (ws : List Nat) : Bool :=
  !c.mem.acmP.isEmpty && ws.any fun w => nsHits c.mem.acmP (0x10000 * n.toNat + 4 * w) 4

/-- The word numbers of row `r` of a copy: of the tile, or of its transpose. -/
def copyRow (tr : Bool) (r : Nat) : List Nat := (List.range 128).map fun j => if tr then 128 * j + r else 128 * r + j

/-- Row `r` of a copy of a tile; a poisoned word raises UNCORRECTABLE. -/
def drainRow (n : CTile) (tr : Bool) (r : Nat) : CAct (List Lane) := do
  let c ← get
  check (!c.acmPoison n (copyRow tr r)) cUncorrectable
  pure ((copyRow tr r).map fun w => smGet 0 c.mx.c (16384 * n.toNat + w))

/-- The output formats that a drain admits. -/
def drnFmt (f : Fmt) : Bool :=
  match f with
  | .n4 | .n8 | .n16 | .n32 => false
  | _ => true

/-- The fields of a format word that a drain checks (R81, R220). -/
def drnWordOk (w : Nat) : Bool :=
  fwCommon w && (match Fmt.ofCode (fwAf w), Fmt.ofCode (fwOf w) with
    | some a, some o => (a = .fp32 || a = .i32) && drnFmt o
    | _, _ => false)

/-- The output format of a format word. -/
def outFmt (w : Nat) : Fmt := (Fmt.ofCode (fwOf w)).getD .fp32
def accFmt (w : Nat) : Fmt := (Fmt.ofCode (fwAf w)).getD .fp32

/-- A row's values in the format of AF, times 2^(−OSC), exact. -/
def drainVals (w : Nat) (row : List Lane) : List XR := row.map fun v => (exactVal (accFmt w) v.toNat).scale (-(fwOsc w))

/-- The scale of a row (R82): that of the largest magnitude over its non-NaN elements. -/
def rowScale (ns : Bool) (w : Nat) (us : List XR) : Int :=
  if ns then 0
  else
    let m := us.foldl (fun m u => if u.isNan then m else if m.lt u.abs then u.abs else m) (XR.fin false 0 1)
    pow2Scale m (outFmt w)

/-- A row quantised: codes and what they raise. -/
def drainCodes (ns : Bool) (w : Nat) (row : List Lane) : List (Nat × Rz) :=
  let us := drainVals w row
  let e := rowScale ns w us
  us.map fun u => cvt (u.scale (-e)) (outFmt w) (fwRm w)

/-- The scale block of a copy: the scale that each of its rows was stored with. -/
def scaleBlock (second : Bool) (scales : List Int) : List Byte :=
  ((scales.drop (if second then 128 else 0)).take 128).map (BitVec.ofInt 8)

/-- What point `p` of a drain is: (transposed copy, row or scale block). -/
def drnPoint (ns : Bool) (p : Nat) : Bool × Nat :=
  let per := if ns then 128 else 129
  (decide (per ≤ p), p % per)

/-- The checks of DRN that come before it reaches FQ. -/
def drnPre (tr : Bool) (n : CTile) (a b m : XReg) : Act Unit := do
  let s ← get
  let c := s.cask
  check (tileOwned s.dual s.turn.cask n) cIllegalOperand
  check (tr || b == 0) cIllegalOperand
  let al (v : Word) : Act Unit := check (decide (v.toNat % 128 = 0)) cAlignment v
  al (c.xreg .s a)
  if tr then al (c.xreg .s b)
  al (c.xreg .s m)

/-- The bytes of a point of a drain: a row of the output format, or a scale block (R220). -/
def drainLen (w : Nat) (k : Bool × Nat) : Nat := if k.2 = 128 then 128 else rowBytes (outFmt w) 128

/-- A point of a drain laid out: a row, quantised under its scale, or the scale block; all of it is canonical (R201). -/
def openDrain (ns : Bool) (n : CTile) (w : Nat) (k : Bool × Nat) (va : Nat) : Act Unit := do
  checkMem va 1
  checkMem (addrPlus va (drainLen w k - 1)) 1
  if k.2 = 128 then do
    let s ← get
    setPoint .s { opened := true, parts := piecesOf 1 0 va 128, data := scaleBlock k.1 (s.cask.flightOf .s).scales }
  else do
    let row ← onCask (drainRow n k.1 k.2)
    let es := drainCodes ns w row
    let bs := packCodes (outFmt w) (es.map (·.1))
    let y := tally (outFmt w) es
    modify fun s => s.updCask fun c => c.record y.fl 0 0 0 0
    setPoint .s { opened := true, parts := piecesOf (fmtUnit (outFmt w)) 0 va bs.length, data := bs, scale := rowScale ns w (drainVals w row),
                  counts := [y.nans, y.infs, y.sats, y.wraps] }

/-- A point of a drain is stored: its counts and its scale are kept, the counts until the finish (R341). -/
def Flight.drained (f : Flight) (row : Bool) (p : Point) : Flight :=
  { f with
    pnan := f.pnan + p.counts.getD 0 0, pinf := f.pinf + p.counts.getD 1 0, psat := f.psat + p.counts.getD 2 0,
    pwrp := f.pwrp + p.counts.getD 3 0, scales := if row then f.scales ++ [p.scale] else f.scales }

/-- A piece of a row or of a scale block of a drain is stored. -/
def drnUnit (t : Tk) (ns tr : Bool) (n : CTile) (a b m : XReg) : Act Prog := do
  let pitch (s : State) : Nat := (s.cask.xreg .s m).toNat
  let w ← takeFormat .s fun w => do
    let s ← get
    check (drnWordOk w) cIllegalOperand
    check (decide (128 * (outFmt w).bits ≤ 8 * pitch s)) cIllegalOperand
  begun .s
  treeWritesDone
  let s ← get
  let p := s.prog .s
  let k := drnPoint ns p
  let base := (s.cask.xreg .s (if k.1 then b else a)).toNat
  if !(s.point .s).opened then openDrain ns n w k (addrPlus base (k.2 * pitch s))
  storePiece .s (sStore t)
  pointDone .s fun x => do
    modify fun s => s.updCask fun c => c.updFlight .s fun f => f.drained (decide (k.2 ≠ 128)) x
    let r ← reached .s (p + 1) ((if ns then 128 else 129) * (if tr then 2 else 1))
    if r = .last then
      modify fun s => s.updCask fun c =>
        let f := c.flightOf .s
        c.record 0 f.pnan f.pinf f.psat f.pwrp
    pure r

/-- DRN. -/
def execDrn (t : Tk) (ns tr : Bool) (n : CTile) (a b m : XReg) (s : State) : Host.Outcome State Fault Refusal :=
  eRun .s t { pre := drnPre tr n a b m, unit := drnUnit t ns tr n a b m } s

end Sys2Proof.Machine
end

