-- ==== Sys2Proof/Machine/Tree.lean ====
section
/-! DEFINITION. The tree words of L and S (R59–R74, R215, R216, R221, R222) and the tree-block operations at the home
(R67–R72). -/

namespace Sys2Proof.Machine

open Sys2Proof

/-! ### Reading a prefix (R71) -/

/-- The parts of a range inside each line as the L1 holds them, with their poison; none where a line is absent. -/
def Core.cachedBytes (k : Core) (asid : BitVec 10) : List (Nat × Nat) → List (Byte × Bool)
  | [] => []
  | p :: ps =>
    match k.lineAt asid (p.1 / 128) with
    | some l =>
      let i := p.1 % 128
      ((l.data.drop i).take p.2).zip ((List.range p.2).map fun j => l.pois.getLsbD (i + j)) ++ k.cachedBytes asid ps
    | none => k.cachedBytes asid ps

/-- A prefix is in the L1 as one snapshot: every line present, fresh, and of one fill. -/
def State.snapshot (s : State) (asid : BitVec 10) (parts : List (Nat × Nat)) : Bool :=
  let c := s.turn.core
  let ls := parts.filterMap fun p => (s.core c).lineAt asid (p.1 / 128)
  decide (ls.length = parts.length) && ls.all (fun l => s.fresh c s.turn.cask l) &&
    (match ls with
      | l :: rest => rest.all fun x => x.fill = l.fill
      | [] => true)

/-- A tree-block operation performed at a slice, if at any, is counted (R391). -/
def treeOp (j : Option Nat) : Act Unit := modify fun s => match j with
  | some j => { s with dev := s.dev.sliceCount j 4 1 }
  | none => s

/-- `n` bytes of a block read through the L1 as one snapshot, each with its poison, and the slice that the read reached, if it
did (R71, R74). -/
def treeLoad (va n : Nat) : Act (List (Byte × Bool) × Option Nat) := do
  let s ← get
  let c := s.turn.core
  let q := (s.core c).substitute s.cask.kr.asid va
  let parts := lineParts (n / 128 + 2) q.2.1 n
  if s.snapshot q.1 parts then do
    modify fun s => s.count 0x9 1
    pure ((s.core c).cachedBytes q.1 parts, none)
  else do
    let loc ← translate c s.cask.kr.asid va .read
    peerReach loc
    let parts := lineParts (n / 128 + 2) loc.va n
    let s ← get
    holdTill (s.roomFor c (parts.filter fun p => ((s.core c).lineAt loc.asid (p.1 / 128)).isNone).length)
    modify fun s => ((parts.foldl (fun s p =>
      s.fillLine c s.turn.cask { loc with addr := loc.addr + (p.1 - loc.va), va := p.1 } .tree) s).nextFill c).count 0xA 1
    let s ← get
    pure ((s.core c).cachedBytes loc.asid parts, if loc.ty = 0 then some loc.slice else none)

/-- Numbers of `n` bytes from byte `i` on; a poisoned byte raises UNCORRECTABLE at the block (R55). -/
def treeNums (va : Nat) (bs : List (Byte × Bool)) (i n k : Nat) : Act (List Nat) := do
  let xs := (bs.drop i).take (n * k)
  check (!xs.any (·.2)) cUncorrectable (BitVec.ofNat 64 va)
  pure ((pieces n k (xs.map (·.1))).map natOf)

/-- The header of a block that has been read, checked under R55. DESIGN CHOICE: a header both poisoned and malformed raises
UNCORRECTABLE (log 63). -/
def treeHdr (va : Nat) (bs : List (Byte × Bool)) (f : Fmt) (l lev : Nat) : Act BlkHdr := do
  let ds ← treeNums va bs 0 8 2
  match hdrFault (ds.getD 0 0) f l lev with
  | some code => raise code (BitVec.ofNat 64 va)
  | none => pure (BlkHdr.ofDwords (ds.getD 0 0) (ds.getD 1 0))

/-- The children of the nodes of a level: exact where flagged, the node's own value twice elsewhere (R64). -/
def fineVals (w : Nat) : List Nat → List Nat → List Bool → List Nat
  | a :: as, d :: ds, m :: ms =>
    let p := unliftPair w a d
    (if m then [p.1, p.2] else [a, a]) ++ fineVals w as ds ms
  | a :: as, [], ms => a :: a :: fineVals w as [] (ms.drop 1)
  | _, _, _ => []

/-- TLD's read of one block: prefix of level l, and of level l + 1 where the descent needs it (R59, R62–R64). DESIGN CHOICE:
DTH is the one in force at this read (log 53). -/
def readBlock (f : Fmt) (l lev : Nat) (desc : Bool) (va : Nat) : Act BlkRead := do
  let w := f.bits
  let s ← get
  let dth := s.cask.cp.dth.toNat
  check (blockPlaced va f l) cAlignment (BitVec.ofNat 64 va)
  check (canonical va) cProtection (BitVec.ofNat 64 va)
  let (bs, j) ← treeLoad va (prefixBytes f lev)
  treeOp j
  let h ← treeHdr va bs f l lev
  let plain (h : BlkHdr) (body : List Nat) : BlkRead :=
    let as := recon w lev body
    { hdr := h, vals := as, mask := List.replicate (2 ^ lev) false, fine := fineVals w as [] [] }
  let skip (h : BlkHdr) : Bool := !h.wrap && decide (2 ^ h.maxdAt w (lev + 1) - 1 ≤ dth)
  if !desc || decide (lev = l) || skip h then do
    let body ← treeNums va bs 16 f.bytes (2 ^ lev)
    pure (plain h body)
  else do
    let (bs, k) ← treeLoad va (prefixBytes f (lev + 1))
    if j.isNone then treeOp k
    let h ← treeHdr va bs f l lev
    let body ← treeNums va bs 16 f.bytes (2 ^ lev)
    if skip h then pure (plain h body)
    else do
      let ds ← treeNums va bs (16 + 2 ^ lev * f.bytes) f.bytes (2 ^ lev)
      let as := recon w lev body
      let mask := ds.map fun d => h.wrap || decide (dth < magOf w d)
      pure { hdr := h, vals := as, mask := mask, fine := fineVals w as ds mask }

/-- The side-band of a row (R61). -/
def sideBand (kind lev : Nat) (hs : List BlkHdr) (mask : List Bool) : Nat :=
  let bits (bs : List Bool) : Nat := bs.foldr (fun b n => 2 * n + bit b) 0
  kind * 2 ^ 408 + (hs.length - 1) * 2 ^ 404 + lev * 2 ^ 400 + ((hs.map (·.scl)).headD 0) * 2 ^ 392 +
    bits (hs.map (·.wrap)) * 2 ^ 384 + (hs.foldr (fun h n => n * 2 ^ 32 + h.ver) 0) * 2 ^ 128 + bits mask % 2 ^ 128

/-- A row as it waits for its slot: the side-band, then the codes, padded to the row's columns. -/
def rowOf (cols sb : Nat) (codes : List Nat) : List Nat := sb :: (codes ++ List.replicate (cols - codes.length) 0)

/-- The addresses of group `g` of `k` blocks. -/
def NestCopy.group (n : NestCopy) (k g : Nat) : List Nat :=
  (List.range (min k (n.points - g * k))).map fun i => n.point (g * k + i)

/-- Every block of a row has the same SCL (R60). DESIGN CHOICE: the frame names the first block whose SCL is not that of slot 0
(log 52). -/
def sameScl : List (Nat × BlkHdr) → Act Unit
  | [] => pure ()
  | p :: ps => match ps.find? fun q => q.2.scl ≠ p.2.scl with
    | some q => raise cFormatMismatch (BitVec.ofNat 64 q.1)
    | none => pure ()

/-- The rows of one group of a TLD, once its blocks have been read (R59–R64). -/
def tldGroup (lev cols : Nat) (desc fine : Bool) (vas : List Nat) (rs : List BlkRead) : Act (List Nat) := do
  sameScl (vas.zip (rs.map (·.hdr)))
  let hs := rs.map (·.hdr)
  let mask := if desc then (rs.map (·.mask)).flatten else []
  let coarse := rowOf cols (sideBand 1 lev hs mask) (rs.map (·.vals)).flatten
  pure (if fine then coarse ++ rowOf cols (sideBand 2 (lev + 1) hs mask) (rs.map (·.fine)).flatten else coarse)

/-! ### Rows that wait for their slots -/

/-- How a word reads a group of blocks and makes rows of it: the addresses of group g, the mask that is read before its
blocks, the read of the block at a slot under the mask, and the rows. -/
structure RowPlan where
  group : Nat → List Nat
  mask : Nat → Act Nat
  read : Nat → Nat → Nat → Act BlkRead
  rows : List Nat → List BlkRead → Act (List Nat)

/-- The next block of a group is read, one operation at its home (R70); with the last one the group's rows are made. -/
def groupUnit (p : RowPlan) (g : Nat) : Act (Option (List Nat)) := do
  let s ← get
  if !(s.point .l).opened then do
    let m ← p.mask g
    setPoint .l { opened := true, mask := m }
  let s ← get
  let x := s.point .l
  match (p.group g)[x.blks.length]? with
  | none => pure ()
  | some va => do
    let b ← p.read x.mask x.blks.length va
    setPoint .l { x with blks := x.blks ++ [b] }
  let s ← get
  if (p.group g).length ≤ (s.point .l).blks.length then do
    let rows ← p.rows (p.group g) (s.point .l).blks
    setPoint .l Point.none
    pure (some rows)
  else pure none

/-- One step of a word that fills a ring with the rows of groups: the next row that has been read goes to its slot; with
none left the next block of the next group is read. The word's `aux` holds the next group's number and the rows that wait. -/
def rowUnit (d : Nat × Bool × Nat) (f : Fmt) (cols groups : Nat) (p : RowPlan) : Act Prog := do
  let s ← get
  let fl := s.cask.flightOf .l
  let g := fl.aux.headD 0
  let set_ (g : Nat) (rows : List Nat) : Act Unit :=
    modify fun s => s.updCask fun c => c.updFlight .l fun x => { x with aux := g :: rows }
  match fl.aux.drop 1 with
  | sb :: rest => do
    ringRoom d
    pushTile d (packCodes f (rest.take cols)) (BitVec.ofNat 512 sb)
    set_ g (rest.drop cols)
    let _ ← reached .l (fl.prog + 1) 0
    pure (if (rest.drop cols).isEmpty && decide (groups ≤ g) then .last else .more)
  | [] => do
    match ← groupUnit p g with
    | none => pure .more
    | some rows => do
      set_ (g + 1) rows
      pure (if rows.isEmpty && decide (groups ≤ g + 1) then .last else .more)

/-- The checks of a ring that takes tree rows (R215). -/
def treeRing (n : NestCopy) : Act (Fmt × Ring × (Nat × Bool × Nat)) := do
  check (!n.toSpm) cIllegalOperand
  let rn : RingNo := BitVec.ofNat 4 n.target
  let d ← ringDest rn
  modify fun s => s.updCask fun c => c.naming .l [rn]
  let s ← get
  let r := s.cask.ring rn.toNat
  check (decide (r.rows = 1)) cIllegalOperand
  match blockFmt n.elem with
  | none => raise cIllegalOperand
  | some f => pure (f, r, d)

/-- TLD (R59–R64, R215). -/
def execTld (t : Tk) (ru fine desc : Bool) (nest : NestNo) (lev bl : BitVec 4) (k : BitVec 3) (s : State) :
    Host.Outcome State Fault Refusal :=
  let kk := k.toNat + 1
  let l := lev.toNat
  eRun .l t {
    pre := do
      check (decide (1 ≤ bl.toNat ∧ bl.toNat ≤ 8 ∧ l ≤ bl.toNat)) cIllegalOperand
      check (!fine || desc) cIllegalOperand
    unit := do
      let n ← onCask (fire .l ru nest)
      let r ← treeRing n
      let wide := kk * 2 ^ (if fine then l + 1 else l)
      check (decide (wide ≤ 128 ∧ wide ≤ r.2.1.cols)) cIllegalOperand
      check (decide (r.2.1.srcf = r.1)) cFormatMismatch
      rowUnit r.2.2 r.1 r.2.1.cols ((n.points + kk - 1) / kk) {
        group := n.group kk
        mask := fun _ => pure 0
        read := fun _ _ va => readBlock r.1 bl.toNat l desc va
        rows := fun vas rs => tldGroup l r.2.1.cols desc fine vas rs } } s

/-! ### TRF (R65, R216) -/

/-- The values of level f beneath node j of level l: from the node's average and the details of its subtree. `bs` are
the block's bytes. -/
def subtree (va : Nat) (bs : List (Byte × Bool)) (f : Fmt) (l j : Nat) (avg : Nat) : Nat → Act (List Nat)
  | 0 => pure [avg]
  | i + 1 => do
    let as ← subtree va bs f l j avg i
    let ds ← treeNums va bs (16 + (2 ^ (l + i) + j * 2 ^ i) * f.bytes) f.bytes (2 ^ i)
    pure (unliftLevel f.bits as ds)

/-- The groups of one block: for each flagged node, in order, its position and its values. -/
def refineNodes (va : Nat) (bs : List (Byte × Bool)) (f : Fmt) (l up slot : Nat) (as : List Nat) :
    List Nat → Act (List (Nat × List Nat))
  | [] => pure []
  | j :: js => do
    let vs ← subtree va bs f l j (as.getD j 0) up
    let rest ← refineNodes va bs f l up slot as js
    pure ((slot * 2 ^ l + j, vs) :: rest)

/-- TRF's read of one block at a slot: the header and the groups. DESIGN CHOICE: with a flagged node the read takes the whole
prefix of level f into the L1, and checks of it only what it needs (log 51). DESIGN CHOICE: the mask has 128 bits, and a node at a
position beyond them is not flagged (log 65). -/
def refineBlock (f : Fmt) (bl l fl mask slot va : Nat) : Act BlkRead := do
  check (blockPlaced va f bl) cAlignment (BitVec.ofNat 64 va)
  check (canonical va) cProtection (BitVec.ofNat 64 va)
  let js := (List.range (2 ^ l)).filter fun j => decide (slot * 2 ^ l + j < 128) && flag mask (slot * 2 ^ l + j)
  let (bs, k) ← treeLoad va (prefixBytes f (if js.isEmpty then l else fl))
  treeOp k
  let h ← treeHdr va bs f bl fl
  let body ← treeNums va bs 16 f.bytes (2 ^ l)
  let gs ← refineNodes va bs f l (fl - l) slot (recon f.bits l body) js
  pure { hdr := h, groups := gs }

/-- Groups cut into rows of `n`. -/
def chunk {α : Type} (n : Nat) : Nat → List α → List (List α)
  | 0, _ => []
  | _, [] => []
  | k + 1, xs => xs.take n :: chunk n k (xs.drop n)

/-- The rows of one group of a TRF, once its blocks have been read. Without a set bit there is none. -/
def trfGroup (l fl cols : Nat) (vas : List Nat) (rs : List BlkRead) : Act (List Nat) := do
  let hs := rs.map (·.hdr)
  let gs := (rs.map (·.groups)).flatten
  if gs.isEmpty then pure []
  else do
    sameScl (vas.zip hs)
    pure ((chunk (cols / 2 ^ (fl - l)) gs.length gs).map fun row =>
      let at_ := row.map (·.1)
      rowOf cols (sideBand 3 fl hs ((List.range 128).map fun i => at_.contains i)) (row.map (·.2)).flatten).flatten

/-- TRF. DESIGN CHOICE: the mask's address is not taken modulo 2^64 (log 66). -/
def execTrf (t : Tk) (ru : Bool) (nest : NestNo) (lev bl : BitVec 4) (k : BitVec 3) (fl : BitVec 4) (xm : XReg)
    (moff : BitVec 21) (s : State) : Host.Outcome State Fault Refusal :=
  let kk := k.toNat + 1
  let up := fl.toNat - lev.toNat
  eRun .l t {
    pre := check (decide (1 ≤ bl.toNat ∧ bl.toNat ≤ 8 ∧ lev.toNat < fl.toNat ∧ fl.toNat ≤ bl.toNat)) cIllegalOperand
    unit := do
      let n ← onCask (fire .l ru nest)
      let r ← treeRing n
      check (decide (2 ^ up ≤ 128 ∧ 2 ^ up ≤ r.2.1.cols)) cIllegalOperand
      check (decide (r.2.1.srcf = r.1)) cFormatMismatch
      rowUnit r.2.2 r.1 r.2.1.cols ((n.points + kk - 1) / kk) {
        group := n.group kk
        mask := fun g => do
          let s ← get
          let a := (s.cask.xreg .l xm).toNat + moff.toNat + 16 * g
          checkSpm s.dual a 16 16
          let bs ← onCask (spmLoad a 16)
          pure (natOf bs)
        read := fun m slot va => refineBlock r.1 bl.toNat lev.toNat fl.toNat m slot va
        rows := fun vas rs => trfGroup lev.toNat fl.toNat r.2.1.cols vas rs } } s

/-! ### Writing blocks at the home (R67–R72) -/

/-- A range of device-visible bytes at their home, with whether one is poisoned. -/
def State.peek (s : State) (l : Loc) (n : Nat) : Nat × Bool := (natOf (s.homeBytes l n), s.homePoison l n)

/-- Bytes of a block written at the home, line by line. -/
def State.homePut (s : State) (l : Loc) (bs : List Byte) : State :=
  ((lineParts (bs.length / 128 + 2) l.va bs.length).foldl (fun (p : State × List Byte) q =>
    let here : Loc := { l with addr := l.addr + (q.1 - l.va), va := q.1 }
    (State.homeWrite { p.1 with dev := p.1.dev.wrote here } here (p.2.take q.2), p.2.drop q.2)) (s, bs)).1

/-- The header and the first positions of a block written. -/
def State.putBlock (s : State) (l : Loc) (f : Fmt) (r : BlkHdr × List Nat) : State :=
  s.homePut l (bytesOf 8 r.1.dword0 ++ bytesOf 8 r.1.maxd ++ (r.2.map (bytesOf f.bytes)).flatten)

/-- TSTB's block at its home (R67). An old header that cannot be read counts as VER 0 and SCL 0. -/
def State.putWhole (s : State) (l : Loc) (f : Fmt) (bl : Nat) (vals : List Nat) : State :=
  let h := if s.homePoison l 16 then BlkHdr.ofDwords 0 0 else BlkHdr.ofDwords (s.peek l 8).1 0
  s.putBlock l f (wholeBlock f.bits bl h.ver h.scl (fmtNo f) vals)

/-- The core's own lines of a range written home where dirty and then dropped (R72, R120 note d). -/
def dropRange (va n : Nat) : Act Unit := do
  flushRange va n
  modify fun s => (s.linesOf va n).foldl (fun s l => s.setCore s.turn.core ((s.core s.turn.core).dropLine l.asid l.line)) s

/-- Accesses of a class come to every line of a range at its home, combined bytes merged first (R277, R391). -/
def mergeRange (k : Traffic) (l : Loc) (n : Nat) : Act Unit := modify fun s =>
  (lineParts (n / 128 + 2) l.va n).foldl (fun s p => s.reach { l with addr := l.addr + (p.1 - l.va), va := p.1 } k) s

/-- The home of a block, its combined bytes merged: one tree-block operation performs there. -/
def blockHome (va : Nat) (f : Fmt) (l : Nat) : Act Loc := do
  check (canonical va) cProtection (BitVec.ofNat 64 va)
  let s ← get
  let loc ← translate s.turn.core s.cask.kr.asid va .both
  peerReach loc
  mergeRange .tree loc (prefixBytes f l)
  treeOp (if loc.ty = 0 then some loc.slice else none)
  pure loc

/-- The header of a block at its home, checked under R55; `va` is the block address. -/
def homeHdr (va : Nat) (loc : Loc) (f : Fmt) (l lev : Nat) : Act BlkHdr := do
  let s ← get
  check (!s.homePoison loc 16) cUncorrectable (BitVec.ofNat 64 va)
  let d0 := natOf (s.homeBytes loc 8)
  match hdrFault d0 f l lev with
  | some code => raise code (BitVec.ofNat 64 va)
  | none => pure (BlkHdr.ofDwords d0 (natOf ((s.homeBytes loc 16).drop 8)))

/-- The checks of TSTB and TSTL on their fields (R221). -/
def treeStorePre (sf : BitVec 4) (bl lev : Nat) : Act Unit := do
  check (decide (1 ≤ bl ∧ bl ≤ 8 ∧ lev ≤ bl)) cIllegalOperand
  match Fmt.ofCode sf.toNat with
  | some f => check (decide (f = .i8 ∨ f = .i16 ∨ f = .i32)) cFormatMismatch
  | none => raise cIllegalOperand

/-- The checks of TSTB and TSTL on their nest, once it is READY (R221). -/
def treeStoreNest (n : NestCopy) (sf : BitVec 4) : Act Fmt := do
  check n.toSpm cIllegalOperand
  match Fmt.ofCode sf.toNat with
  | some f => do
    check (decide (blockFmt n.elem = some f)) cFormatMismatch
    pure f
  | none => raise cIllegalOperand

/-- One block of a TSTB or TSTL: the values of point `p` are read, and the home writes the next version (R67, R68,
R72). DESIGN CHOICE: the word invalidates its own copies of a block at that block's step (log 54). DESIGN CHOICE: of the old block
TSTL checks the 16 bytes of the header for uncorrectable errors, not the values that it keeps (log 64). -/
def treeStore (ru : Bool) (nest : NestNo) (sf : BitVec 4) (bl lev : Nat) (whole_ : Bool) : Act Prog := do
  let n ← onCask (fire .s ru nest)
  let f ← treeStoreNest n sf
  treeWritesDone
  let s ← get
  let p := s.prog .s
  let va := n.point p
  let cnt := 2 ^ lev
  let a := n.target + p * (cnt * f.bytes)
  check (blockPlaced va f bl) cAlignment (BitVec.ofNat 64 va)
  checkSpm s.dual a (cnt * f.bytes) f.bytes
  let bs ← onCask (spmLoad a (cnt * f.bytes))
  let vals := (pieces f.bytes cnt bs).map natOf
  dropRange va (prefixBytes f bl)
  let loc ← blockHome va f bl
  if whole_ then modify fun s => s.putWhole loc f bl vals
  else do
    let h ← homeHdr va loc f bl lev
    modify fun s => s.putBlock loc f (levelWrite f.bits lev h vals)
  reached .s (p + 1) n.points

/-- TSTB (R67, R221). -/
def execTstb (t : Tk) (ru : Bool) (nest : NestNo) (bl sf : BitVec 4) (s : State) : Host.Outcome State Fault Refusal :=
  eRun .s t { pre := treeStorePre sf bl.toNat bl.toNat, unit := treeStore ru nest sf bl.toNat bl.toNat true } s

/-- TSTL (R68, R221). -/
def execTstl (t : Tk) (ru : Bool) (nest : NestNo) (bl sf lev : BitVec 4) (s : State) :
    Host.Outcome State Fault Refusal :=
  eRun .s t { pre := treeStorePre sf bl.toNat lev.toNat, unit := treeStore ru nest sf bl.toNat lev.toNat false } s

/-! ### TSTN (R222) -/

/-- The command that a TSTN forks (R222, R279). -/
def tstnCmd (q : YNo) (add : Bool) (f : Fmt) (bl lev k : Nat) (va v : Word) : Cmd :=
  { queue := q, crec := false, rsig := false, rtn := false, link := false,
    w0 := { en := false, ev := 0, thr := 0 }, w1 := { en := false, ev := 0, thr := 0 },
    rdev := 0, rloc := false, rev := 0, rcore := 0, sigm := 0, src := v, dst := va, x0 := 0, x1 := 0, x2 := 0, ss1 := 0,
    ss2 := 0, ds1 := 0, ds2 := 0, sfmt := f, dfmt := f, opr := if add then .add else .move, rm := .rne,
    arg := BitVec.ofNat 48 (bl + lev * 2 ^ 4 + k * 2 ^ 8), ret := 0, next := 0, bind := 0, crecAt := 0 }

/-- A copy command as 128 bytes (R157). -/
def cmdBytes (opc : Nat) (c : Cmd) : List Byte := ((cmdDws opc c).map (bytesOf 8)).flatten

/-- The checks of TSTN. -/
def tstnPre (a b : XReg) (bl lev sf : BitVec 4) : Act Unit := do
  let s ← get
  let va := (s.cask.xreg .s a).toNat
  check (decide (1 ≤ bl.toNat ∧ bl.toNat ≤ 8 ∧ lev.toNat ≤ bl.toNat ∧ (s.cask.xreg .s b).toNat < 2 ^ lev.toNat))
    cIllegalOperand
  match Fmt.ofCode sf.toNat with
  | some f => do
    check (decide (f = .i8 ∨ f = .i16 ∨ f = .i32)) cFormatMismatch
    check (blockPlaced va f bl.toNat) cAlignment (BitVec.ofNat 64 va)
    check (canonical va) cProtection (BitVec.ofNat 64 va)
  | none => raise cIllegalOperand

/-- TSTN: it is settled once its TNODE is journalled and placed, and finishes when that completes. -/
def execTstn (t : Tk) (add : Bool) (a b m : XReg) (bl lev sf : BitVec 4) (q : YNo) (s : State) :
    Host.Outcome State Fault Refusal :=
  eRun .s t { pre := tstnPre a b bl lev sf, unit := do
    begun .s
    let s ← get
    let c := s.cask
    let f := (Fmt.ofCode sf.toNat).getD .i8
    let va := c.xreg .s a
    let v : Word := BitVec.ofNat 64 ((c.xreg .s m).toNat % 2 ^ f.bits)
    flushRange va.toNat (prefixBytes f bl.toNat)
    let bs := cmdBytes 0x05 (tstnCmd q add f bl.toNat lev.toNat (c.xreg .s b).toNat va v)
    let cn := (c.flightOf .s).cn
    onCask (whole (fork s.dual s.tick q.toNat 3 cn bs (some { cn := cn, hp := t.hp, hn := t.hn, ready := false })))
    pure .owed } s

end Sys2Proof.Machine
end

