-- ==== Sys2Proof/Machine/Copy.lean ====
section
/-! DEFINITION. What a copy command does once it has begun (R265, R267, R270–R288). A step does the next units of one
command, in its linear order; a unit that stops has had no effect. -/

namespace Sys2Proof

/-! ### Fields of a command -/

/-- A range of bytes that a command may touch: SPM or not, from, up to, and whether it is reached as an access of the fabric, under
FGASID (R371). -/
structure Span where
  spm : Bool
  lo : Int
  hi : Int
  fab : Bool := false
  deriving DecidableEq, Repr

/-- The pieces of a range of VAs in 64 KiB pages: the page, and from where to where in it. -/
def Span.pieces (x : Span) : List (Nat × Int × Int) :=
  let first := x.lo / 2 ^ 16
  (List.range ((x.hi - 1) / 2 ^ 16 - first + 1).toNat).map fun (i : Nat) =>
    let p := first + (i : Int)
    ((p % 2 ^ 48).toNat, max x.lo (p * 2 ^ 16) - p * 2 ^ 16, min x.hi ((p + 1) * 2 ^ 16) - p * 2 ^ 16)

/-- The range of a walk over X0 × X1 × X2 elements of `n` bits. -/
def Cmd.walk (c : Cmd) (base : Word) (s1 s2 : BitVec 32) (bits : Nat) : Span :=
  let b := bounds base.toNat ((c.x0.toNat * bits + 7) / 8) s1 s2 c.x1.toNat c.x2.toNat
  { spm := isSpmForm base.toNat, lo := b.1, hi := b.2 }

/-- The number of points of a command. -/
def Cmd.points (c : Cmd) : Nat := c.x0.toNat * c.x1.toNat * c.x2.toNat

/-- The fields of a TNODE and of a KVCMT (R279, R280). -/
def Cmd.tL (c : Cmd) : Nat := c.argBits 16 4
def Cmd.tLev (c : Cmd) : Nat := c.argBits 20 4
def Cmd.tNode (c : Cmd) : Nat := c.argBits 24 8
def Cmd.kC (c : Cmd) : Nat := c.argBits 16 32
def Cmd.kN (c : Cmd) : Nat := c.argBits 48 8
def Cmd.kA (c : Cmd) : Nat := c.argBits 56 8
def Cmd.kE (c : Cmd) : Nat := rowBytes c.sfmt c.x0.toNat

/-- The address of point `u` of a walk, level 0 innermost and contiguous (R273). -/
def Cmd.pointAt (c : Cmd) (base : Word) (s1 s2 : BitVec 32) (bits u : Nat) : Nat :=
  let x0 := c.x0.toNat
  let x1 := c.x1.toNat
  (BitVec.ofInt 64 ((base.toNat : Int) + (u % x0 * bits / 8 : Nat) + (u / x0 % x1 : Nat) * stride s1 +
    (u / (x0 * x1) : Nat) * stride s2)).toNat
def Cmd.srcAt (c : Cmd) (bits u : Nat) : Nat := c.pointAt c.src c.ss1 c.ss2 bits u
def Cmd.dstAt (c : Cmd) (bits u : Nat) : Nat := c.pointAt c.dst c.ds1 c.ds2 bits u

/-- A slice may keep the results of this operator in a combining buffer (R112, R277). -/
def Cmd.combines (c : Cmd) : Bool :=
  !c.rtn && (match c.opr with
    | .add => c.dfmt.isInt
    | .max | .min | .and | .or | .xor => true
    | _ => false)

/-- The operators that a PCI Express AtomicOp performs. -/
def hostOpr : Opr → Bool
  | .add | .swap | .cas => true
  | _ => false

/-- The address of slot `k` of plane `p`. -/
def Cmd.slotVa (c : Cmd) (p k : Nat) : Nat :=
  (BitVec.ofInt 64 ((c.dst.toNat : Int) + (p : Int) * stride c.ds1 + (k * c.kE : Nat))).toNat

/-- The fields of a FRED. -/
def Cmd.tag (c : Cmd) : Nat := c.argBits 34 16
def Cmd.all (c : Cmd) : Bool := decide (c.argBits 33 1 = 1)
def Cmd.root (c : Cmd) : Nat := c.argBits 27 6

/-- This device writes the result. -/
def Cmd.writes (c : Cmd) (rank : Nat) : Bool := c.all || decide (c.root = rank)

/-- The ranks of a mask, rising. -/
def ranksOf (mask : Word) : List Nat := (List.range 64).filter fun r => flag mask.toNat r

/-- The ranks that write the result of a FRED, and the rank whose router combines the last node (R284, R371). -/
def Cmd.takers (c : Cmd) : List Nat := (ranksOf c.bind).filter c.writes
def Cmd.hub (c : Cmd) : Nat := (ranksOf c.bind).headD 0

/-- The fields of a binding. -/
def Cmd.pring (c : Cmd) : Nat := fld c.bind.toNat 0 4
def Cmd.ccore (c : Cmd) : Nat := fld c.bind.toNat 4 9
def Cmd.cring (c : Cmd) : Nat := fld c.bind.toNat 13 4

end Sys2Proof

namespace Sys2Proof.Machine

open Sys2Proof

/-! ### The command whose turn it is -/

/-- Its queue and its place in the queue. -/
def State.yAt (s : State) : Nat × Nat :=
  match s.turn.agent with
  | .y q p => (q.toNat, p)
  | _ => (0, 0)

/-- The command at a place of a queue of the cask whose turn it is. -/
def State.entAt (s : State) (q pos : Nat) : Option YEnt := (s.cask.yy.queue q)[pos]?

/-- The command at a place changed. -/
def Cask.updEnt (c : Cask) (q pos : Nat) (f : YEnt → YEnt) : Cask :=
  { c with yy := { c.yy with queues := aSet c.yy.queues q ((c.yy.queue q).modify pos f) } }
def State.updEnt (s : State) (q pos : Nat) (f : YEnt → YEnt) : State := s.updCask fun c => c.updEnt q pos f

/-- Y goes on with the commands of a queue that have begun (R165, R270). -/
def YSt.goes (y : YSt) (q : Nat) : Bool := !y.parked && y.failed != some q

/-- What a command's elements raised, added to its record (R269, R271). -/
def YEnt.tally (y : YEnt) (t : Tally) : YEnt :=
  { y with flags := y.flags ||| t.fl, nans := y.nans + t.nans, infs := y.infs + t.infs, sats := y.sats + t.sats,
           wraps := y.wraps + t.wraps }
def yTally (t : Tally) : Act Unit := modify fun s => s.updEnt s.yAt.1 s.yAt.2 fun y => y.tally t

/-! ### How a command ends early (R165, R272, R331, R332) -/

/-- An answer of the host or of a peer, carried like a fault: STATUS above 0xFF (R272). -/
def answer {σ α : Type} (status : Nat) : EStateM Stop σ α := raise (256 + status)

/-- A fault of Y: it stops the core; of a suspended cask it is held for the next switch-in; on a core that has stopped it
waits for the replay (R165, R332). `num` is 0 for a chain fetch. -/
def State.yStop (s : State) (q num : Nat) (f : Flt) : State :=
  let c := s.cask
  if s.turn.cask ≠ (s.core s.turn.core).cur then
    (if c.st.deferred.isSome then s
     else s.setCask { c with st := { c.st with deferred := some (.y, f, q, num) },
                             yy := { c.yy with failed := some (if num = 0 then 4 else q) } })
  else if c.st.stopped then s
  else s.takeFaultAt s.turn.core s.turn.cask (stopInfo .y f q num) c.kr.kpc none

/-- A command that an answer with an error ends: it completes with the STATUS where it keeps a record, and faults
otherwise (R272). -/
def State.yAnswer (s : State) (q pos status : Nat) (f : Flt) (y : YEnt) : State :=
  if (recordAt y.bytes).isSome then s.updEnt q pos fun y => { y with status := status, done := true, wait := none }
  else s.yStop q y.cnum { code := if status = 3 then cUncorrectable else cProtection, va := f.va,
                          stat := BitVec.ofNat 64 y.cursor }

/-- The time from which a wait of Y counts that begins now: none counts while the cask is switched out (R336). -/
def State.yNow (s : State) : Nat := if (s.core s.turn.core).cur = s.turn.cask then s.dev.rtc else 0

/-- A command waits (R28, R336). -/
def State.yWaits (s : State) (q pos : Nat) : State :=
  s.updEnt q pos fun y => { y with wait := Wait.again y.wait s.yNow s.tick false }

/-- An action of Y for the command at a place, run to its outcome. -/
def yRun (q pos : Nat) (m : Act Unit) (s : State) : Host.Outcome State Fault Refusal :=
  match m s with
  | .ok _ t => .next t
  | .error (.trap f) t =>
    match t.entAt q pos with
    | none => .next t
    | some y =>
      if 256 ≤ f.code then .next (t.yAnswer q pos (f.code - 256) f y)
      else .next (t.yStop q y.cnum { f with stat := BitVec.ofNat 64 y.cursor })
  | .error (.wait _) t => .next (t.yWaits q pos)
  | .error .hold t => .next t

/-! ### The fabric group (R369) -/

/-- SIZE and FGASID of FGRP; a device that does not take part is in no group. -/
def Dev.groupSize (d : Dev) : Nat := if flag d.fgrp.toNat 0 then fld d.fgrp.toNat 15 7 else 0
def Dev.fgAsid (d : Dev) : BitVec 10 := BitVec.ofNat 10 (fld d.fgrp.toNat 22 10)

/-! ### Footprints (R110, R265) -/

/-- A contiguous range. -/
def spanOf (base : Word) (n : Nat) : Span := { spm := isSpmForm base.toNat, lo := base.toNat, hi := base.toNat + n }

/-- The ranges that bound what a command of the device with a rank touches. The result of a FRED that another device's router
has combined arrives from the fabric (R371). -/
def spansOf (rank : Nat) : Instr → List Span
  | .copy c => [c.walk c.src c.ss1 c.ss2 c.sfmt.bits, c.walk c.dst c.ds1 c.ds2 c.dfmt.bits]
  | .fill c => [c.walk c.dst c.ds1 c.ds2 c.dfmt.bits]
  | .accw c => [c.walk c.src c.ss1 c.ss2 (8 * c.elemBytes), c.walk c.dst c.ds1 c.ds2 (8 * c.elemBytes)] ++
      (if c.rtn then [spanOf c.ret (c.points * c.elemBytes)] else [])
  | .ratom c => [spanOf c.src (c.points * 8), c.walk c.dst c.ds1 c.ds2 32, spanOf c.ret (c.points * 4)]
  | .tnode c => [spanOf c.dst (prefixBytes c.dfmt c.tL)]
  | .kvcmt c =>
    let rows := bounds c.dst.toNat ((c.kC + c.kN) * c.kE) c.ds1 0 c.x1.toNat 1
    [spanOf c.src (4 * c.kA), { spm := isSpmForm c.dst.toNat, lo := rows.1, hi := rows.2 }, spanOf c.bind 8]
  | .fmcast c => [c.walk c.src c.ss1 c.ss2 c.sfmt.bits, c.walk c.dst c.ds1 c.ds2 c.dfmt.bits]
  | .fred c => [c.walk c.src c.ss1 c.ss2 (8 * c.elemBytes),
      { c.walk c.dst c.ds1 c.ds2 (8 * c.elemBytes) with fab := decide (c.hub ≠ rank) && !isSpmForm c.dst.toNat }]
  | _ => []

/-- The canonical page of a page under the ASID of the cask whose turn it is, or under FGASID (R357, R371). -/
def State.canonPage (s : State) (fab : Bool) (page : Nat) : BitVec 10 × Nat :=
  let q := if fab then (match translateIo (s.dev.partOfAsid s.dev.fgAsid) s.dev.fgAsid (page * 2 ^ 16) .any s with
      | .ok l _ => (l.asid, l.va)
      | .error _ _ => (s.dev.fgAsid, page * 2 ^ 16))
    else s.canonPair (page * 2 ^ 16)
  (q.1, q.2 / 2 ^ 16)

/-- Two ranges may hold a common byte: under the same VA, or under VAs of one canonical page (R357). -/
def State.spansMeet (s : State) (a b : List Span) : Bool :=
  a.any fun x => b.any fun y => x.spm == y.spm && (x.fab == y.fab && decide (x.lo < y.hi) && decide (y.lo < x.hi) ||
    !x.spm && x.pieces.any fun p => y.pieces.any fun q =>
      decide (p.2.1 < q.2.2) && decide (q.2.1 < p.2.2) && decide (s.canonPage x.fab p.1 = s.canonPage y.fab q.1))

/-- The range of a command's completion record. -/
def YEnt.recordSpan (y : YEnt) : List Span :=
  match recordAt y.bytes with
  | some a => [spanOf (BitVec.ofNat 64 a) 64]
  | none => []

/-- The ranges of a queued command, its completion record among them. -/
def YEnt.spans (rank : Nat) (y : YEnt) : List Span :=
  (match decodeCmd (natOf y.bytes) with
  | .ok i => spansOf rank i
  | .error _ => []) ++ y.recordSpan

/-- An earlier command of the queue that is in flight still has to access bytes of the ranges `mine`: of its own ranges, or,
once it has done its work, of its record (R110, R265). The ranges of whole commands are compared (log 18). -/
def State.blocked (s : State) (q pos : Nat) (mine : List Span) : Bool :=
  ((s.cask.yy.queue q).take pos).any fun e => e.begun && s.spansMeet (if e.done then e.recordSpan else e.spans s.dev.rank) mine

/-! ### Units (R270) -/

/-- The next unit of a command of `total` units; after the last one it has done all of its work. -/
def yUnit (q pos total : Nat) (unit : Nat → Act Unit) : Act Unit := do
  let s ← get
  match s.entAt q pos with
  | none => pure ()
  | some y =>
    if !y.begun || y.done then pure ()
    else do
      holdTill (!s.blocked q pos (y.spans s.dev.rank))
      if y.cursor < total then do
        unit y.cursor
        modify fun s => s.updEnt q pos fun y => { y with cursor := y.cursor + 1, part := 0, left := [], data := [], wait := none }
      modify fun s => s.updEnt q pos fun y => { y with done := decide (total ≤ y.cursor) }

/-- At most `n` units. -/
def yUnits (q pos total : Nat) (unit : Nat → Act Unit) : Nat → Act Unit
  | 0 => pure ()
  | n + 1 => do
    yUnit q pos total unit
    yUnits q pos total unit n

/-- A command's work at the step whose turn it is. -/
def yWork (total : Nat) (unit : Nat → Act Unit) (s : State) : Host.Outcome State Fault Refusal :=
  if s.cask.yy.goes s.yAt.1 then yRun s.yAt.1 s.yAt.2 (yUnits s.yAt.1 s.yAt.2 total unit (s.turn.burst + 1)) s
  else .next s

/-! ### Accesses (R107, R161, R201, R272) -/

/-- The host or the peer of a location answers; a request that the host turns down or answers with poison, and one to a peer
that cannot be reached, has its status (R272; log 11). One to a late member of the strand's gang waits (R329). -/
def answered (l : Loc) (request : Bool) : Act Unit := do
  let s ← get
  if l.ty = 1 ∧ request then do
    let st := Config.hostStatus s.tick
    if st = 1 ∨ st = 2 ∨ st = 3 then answer st
  if l.ty = 2 then do
    holdTill (!s.lateRank (l.addr / 2 ^ 64))
    if !s.reachable (l.addr / 2 ^ 64) then answer 3

/-- The widest class that a command with return data has touched (R113). -/
def touch (l : Loc) : Act Unit := modify fun s =>
  let k := s.classOf s.turn.core l.ty l.asid l.va
  match s.turn.agent with
  | .y q pos => s.updEnt q.toNat pos fun y => { y with cls := max y.cls k }
  | _ => s

/-- The location of a part of an access. -/
def yLoc (need : Need) (va : Nat) (request : Bool) : Act Loc := do
  let s ← get
  let loc ← translate s.turn.core s.cask.kr.asid va need
  answered loc request
  touch loc
  pure loc

/-- None of `n` bytes from a location on is poisoned: device memory raises UNCORRECTABLE, a host or a peer has sent a poisoned
reply (R272, R346). -/
def yClean (l : Loc) (va n : Nat) : Act Unit := do
  let s ← get
  if s.homePoison l n then (if l.ty = 0 then raise cUncorrectable (BitVec.ofNat 64 va) else answer 3)

/-- Bytes read at the home, by parts inside lines. -/
def yHome (need : Need) : List (Nat × Nat) → Act (List Byte)
  | [] => pure []
  | p :: ps => do
    let loc ← yLoc need p.1 true
    mergeRange .copy loc p.2
    modify fun s => s.askPeer loc p.2
    yClean loc p.1 p.2
    let s ← get
    let rest ← yHome need ps
    pure (s.homeBytes loc p.2 ++ rest)

/-- Bytes written at the home; the core's own clean copies go (R109). `again`: the request has read them there (R391). -/
def yHomePut (again : Bool) : List (Nat × Nat) → List Byte → Act Unit
  | [], _ => pure ()
  | p :: ps, bs => do
    let loc ← yLoc .write p.1 false
    modify fun s =>
      let s1 : State := { s with dev := if again then s.dev.wrote loc else s.dev.access loc .copy true }
      (s1.homeWrite loc (bs.take p.2)).dropClean loc.asid (loc.va / 128)
    yHomePut again ps (bs.drop p.2)

/-- The parts of an access in lines. -/
def partsOf (a n : Nat) : List (Nat × Nat) := lineParts (n / 128 + 2) a n

/-- Bytes read at an address of either form, the form being that of the command's base address. -/
def yRead (base : Word) (need : Need) (a n : Nat) : Act (List Byte) := do
  if isSpmForm base.toNat then do
    let o ← spmForm a n
    onCask (spmLoad o n)
  else do
    check (canonical a) cProtection (BitVec.ofNat 64 a)
    yHome need (partsOf a n)

/-- Bytes written at an address of either form. -/
def yPut (again : Bool) (base : Word) (a : Nat) (bs : List Byte) : Act Unit := do
  if isSpmForm base.toNat then do
    let o ← spmForm a bs.length
    modify fun s => s.updCask fun c => c.setSpm o bs
  else do
    check (canonical a) cProtection (BitVec.ofNat 64 a)
    yHomePut again (partsOf a bs.length) bs
def yWrite (base : Word) (a : Nat) (bs : List Byte) : Act Unit := yPut false base a bs

/-- Bytes written where the same request has read them. -/
def yRewrite (base : Word) (a : Nat) (bs : List Byte) : Act Unit := yPut true base a bs

/-- One element read; of a 4-bit format the nibble of an even or odd point. -/
def getElem (base : Word) (f : Fmt) (a u : Nat) : Act Nat := do
  let bs ← yRead base .read a f.bytes
  let v := natOf bs
  pure (if f.bits = 4 then (if u % 2 = 1 then v / 16 else v % 16) else v)

/-- A nibble of a byte replaced. -/
def putNibble (old v u : Nat) : Nat := if u % 2 = 1 then old % 16 + v % 16 * 16 else old / 16 * 16 + v % 16

/-- One element written. -/
def putElem (base : Word) (f : Fmt) (a u v : Nat) : Act Unit := do
  if f.bits = 4 then do
    let old ← yRead base .write a 1
    yRewrite base a (bytesOf 1 (putNibble (natOf old) v u))
  else yWrite base a (bytesOf f.bytes v)

/-! ### COPY and FILL (R273, R274) -/

/-- COPY. -/
def execCopy (c : Cmd) (s : State) : Host.Outcome State Fault Refusal :=
  yWork c.points (fun u => do
    let v ← getElem c.src c.sfmt (c.srcAt c.sfmt.bits u) u
    if c.sfmt = c.dfmt then putElem c.dst c.dfmt (c.dstAt c.dfmt.bits u) u v
    else do
      let r := cvt (exactVal c.sfmt v) c.dfmt c.rm
      putElem c.dst c.dfmt (c.dstAt c.dfmt.bits u) u r.1
      yTally (tallyOf c.dfmt r.1 r.2)) s

/-- FILL. -/
def execFill (c : Cmd) (s : State) : Host.Outcome State Fault Refusal :=
  yWork c.points (fun u => putElem c.dst c.dfmt (c.dstAt c.dfmt.bits u) u c.src.toNat) s

/-! ### Operators (R275, R276, R278) -/

/-- The new value of an element, from the old value a and the operand b. -/
def applyOpr (o : Opr) (f : Fmt) (rm : Rm) (a b : Nat) : Nat × Tally :=
  match o with
  | .add =>
    if f.isInt then
      let t := intVal f a + intVal f b
      (intBits f.bits t, { wraps := bit (decide (t < f.least ∨ f.most < t)) })
    else
      let x := (exactVal f a).add rm (exactVal f b)
      let r := cvt x.1 f rm
      (r.1, tallyOf f r.1 (x.2.or r.2))
  | .max | .min =>
    let least := decide (o = .min)
    if f.isInt then
      (if decide (intVal f a < intVal f b) != least then b else a, {})
    else
      let v := maxMinCode f least a b
      (v, tallyOf f v {})
  | .and => (a &&& b, {})
  | .or => (a ||| b, {})
  | .xor => (a ^^^ b, {})
  | .swap => (b, {})
  | _ => (a, {})

/-- A record of a blend: m, s and v, with one set of weights (R276). -/
def blendRecord : List Lane → List Lane → List Lane × Tally
  | m1 :: as, m2 :: bs =>
    let k := blendKind m1 m2
    let ws := (as.zip bs).map fun p => blendWord k.1 p.1 p.2
    let m : Lane × Rz := (blendMax k.1 m1 m2, k.2)
    let rs := m :: ws
    (rs.map (·.1), (tally32 rs).once)
  | _, _ => ([], {})

/-- 32-bit lanes of bytes, and their bytes. -/
def lanesOf (bs : List Byte) : List Lane := (pieces 4 (bs.length / 4) bs).map fun p => BitVec.ofNat 32 (natOf p)
def bytesOfLanes (ls : List Lane) : List Byte := (ls.map fun l => bytesOf 4 l.toNat).flatten

/-- The new bytes of one element, with what it raises. -/
def applyElem (c : Cmd) (old new : List Byte) : List Byte × Tally :=
  if c.opr = .blend then
    let r := blendRecord (lanesOf old) (lanesOf new)
    (bytesOfLanes r.1, r.2)
  else
    let r := applyOpr c.opr c.dfmt c.rm (natOf old) (natOf new)
    (bytesOf c.dfmt.bytes r.1, r.2)

/-- Bytes combined at a device location: the value at the home becomes the new one, and a read from the PCI Express
controller still sees the old bytes until the line's buffer is merged; one whose 4,096 ring cycles have passed has merged before
(R277). -/
def State.combine (s0 : State) (l : Loc) (bs : List Byte) : State :=
  let line := l.addr / 128
  let s : State := match aFind s0.dev.combT line with
    | some t => if t.1 + 4096 ≤ s0.dev.rtc then { s0 with dev := s0.dev.merge line } else s0
    | none => s0
  let d := s.dev
  let old := s.homeBytes l bs.length
  let keep := (List.range bs.length).foldl (fun (m : SMap (Option Byte)) i =>
    if (smGet none m (l.addr + i)).isSome then m else smSet none m (l.addr + i) (some (old.getD i 0))) d.shadow
  let s1 := (s.homeWrite l bs).dropClean l.asid (l.va / 128)
  { s1 with dev := { s1.dev with shadow := keep, combT := aSet d.combT line (d.rtc, l.slice) } }

/-! ### ACCW (R275–R277) -/

/-- The destination of an ACCW is device memory (R111). -/
def accwLocs : List (Nat × Nat) → Act Unit
  | [] => pure ()
  | p :: ps => do
    let s ← get
    let loc ← translate s.turn.core s.cask.kr.asid p.1 .both
    check (decide (loc.ty = 0)) cCopyMalformed (BitVec.ofNat 64 p.1)
    accwLocs ps

/-- One element of an ACCW. -/
def accwElem (c : Cmd) (u : Nat) : Act Unit := do
  let n := c.elemBytes
  let da := c.dstAt (8 * n) u
  check (canonical da) cProtection (BitVec.ofNat 64 da)
  accwLocs (partsOf da n)
  let b ← yRead c.src .read (c.srcAt (8 * n) u) n
  let loc ← yLoc .both da true
  if c.combines && !loc.sa then do
    modify fun s => s.access loc .copy false
    yClean loc da n
    let s ← get
    let r := applyElem c (s.homeBytes loc n) b
    set ((s.combine loc r.1).atomics loc 1)
    yTally r.2
  else do
    let old ← yRead c.dst .both da n
    let r := applyElem c old b
    if c.rtn then yWrite c.ret ((c.ret.toNat + u * n) % 2 ^ 64) old
    yRewrite c.dst da r.1
    modify fun s => s.atomics loc 1
    yTally r.2

/-- ACCW. -/
def execAccw (c : Cmd) (s : State) : Host.Outcome State Fault Refusal := yWork c.points (accwElem c) s

/-! ### RATOM (R278) -/

/-- The old value at the destination of a RATOM, and what is done with the new one. A peer performs the atomic itself: the request
is one packet (R370, R371). -/
def ratomOld (c : Cmd) (peer : Bool) (da : Nat) : Act (List Byte) := do
  if peer then do
    let l ← yLoc .both da true
    yClean l da 4
    let s ← get
    pure (s.homeBytes l 4)
  else yRead c.dst .both da 4
def ratomPut (c : Cmd) (peer : Bool) (da : Nat) (b new : List Byte) : Act Unit := do
  if peer then do
    let l ← yLoc .both da false
    let v := natOf b
    let x := if c.opr = .cas then v / 2 ^ 32 else v
    let k := if c.opr = .cas then v % 2 ^ 32 else 0
    modify fun s => ((s.homeDo l new).send (.atomic (l.addr / 2 ^ 64) (BitVec.ofNat 64 l.addr) c.dfmt c.opr c.rm
      (BitVec.ofNat 64 x) (BitVec.ofNat 64 k))).dropClean l.asid (l.va / 128)
  else yRewrite c.dst da new

/-- One point of a RATOM. -/
def ratomElem (c : Cmd) (u : Nat) : Act Unit := do
  let da := c.dstAt 32 u
  let n := if c.opr = .cas then 8 else 4
  check (canonical da) cProtection (BitVec.ofNat 64 da)
  let s ← get
  let l0 ← translate s.turn.core s.cask.kr.asid da .both
  if l0.ty = 1 ∧ !hostOpr c.opr then answer 1
  let b ← yRead c.src .read ((c.src.toNat + u * n) % 2 ^ 64) n
  let old ← ratomOld c (decide (l0.ty = 2)) da
  let r := if c.opr = .cas then (if natOf old = natOf b % 2 ^ 32 then natOf b / 2 ^ 32 else natOf old, {})
    else applyOpr c.opr c.dfmt c.rm (natOf old) (natOf b)
  yWrite c.ret ((c.ret.toNat + u * 4) % 2 ^ 64) old
  ratomPut c (decide (l0.ty = 2)) da b (bytesOf 4 r.1)
  modify fun s => s.atomics l0 1
  yTally r.2

/-- RATOM. -/
def execRatom (c : Cmd) (s : State) : Host.Outcome State Fault Refusal := yWork c.points (ratomElem c) s

/-! ### TNODE (R69, R279) -/

/-- A TNODE that S forked comes after those that S forked before it (R118). -/
def YSt.treeOrder (y : YSt) (n : YEnt) : Bool :=
  n.owner.isNone || y.all.all fun m => m.owner.isNone || m.done || decide (ageOf y.cnum m.cnum ≤ ageOf y.cnum n.cnum)

/-- The update of one node at the home of its block. -/
def tnodeUnit (c : Cmd) : Act Unit := do
  let va := c.dst.toNat
  let f := c.dfmt
  let s ← get
  holdTill ((s.entAt s.yAt.1 s.yAt.2).all s.cask.yy.treeOrder)
  check (blockPlaced va f c.tL) cAlignment c.dst
  let loc ← yLoc .both va true
  mergeRange .tree loc (prefixBytes f c.tLev)
  treeOp (if loc.ty = 0 then some loc.slice else none)
  let h ← homeHdr va loc f c.tL c.tLev
  let s ← get
  check (!s.homePoison loc (prefixBytes f c.tLev)) cUncorrectable c.dst
  let body := (pieces f.bytes (2 ^ c.tLev) ((s.homeBytes loc (prefixBytes f c.tLev)).drop 16)).map natOf
  modify fun s =>
    let s1 := s.putBlock loc f (nodeUpdate f.bits c.tLev c.tNode c.src.toNat (decide (c.opr = .add)) h body)
    (partsOf loc.va (prefixBytes f c.tLev)).foldl (fun s p => s.dropClean loc.asid (p.1 / 128)) s1

/-- TNODE. -/
def execTnode (c : Cmd) (s : State) : Host.Outcome State Fault Refusal := yWork 1 (fun _ => tnodeUnit c) s

/-! ### KVCMT (R280–R282) -/

/-- The path list rises strictly below N. -/
def pathOk (n : Nat) : List Int → Bool
  | [] => true
  | [a] => decide (0 ≤ a ∧ a < n)
  | a :: b :: xs => decide (0 ≤ a ∧ a < b) && pathOk n (b :: xs)

/-- The path list: as it was read when the command began or resumed. -/
def kvPath (c : Cmd) : Act (List Nat) := do
  let s ← get
  match (s.entAt s.yAt.1 s.yAt.2).bind (·.path) with
  | some p => pure p
  | none => do
    let bs ← yRead c.src .read c.src.toNat (4 * c.kA)
    let p := (lanesOf bs).map fun l => l.toInt
    check (pathOk c.kN p) cCopyMalformed
    let q := p.map Int.toNat
    modify fun s => s.updEnt s.yAt.1 s.yAt.2 fun y => { y with path := some q }
    pure q

/-- The command whose turn it is changed. -/
def yUpd (f : YEnt → YEnt) : Act Unit := modify fun s => s.updEnt s.yAt.1 s.yAt.2 f

/-- The bytes of one single-copy piece of a slot: an element, or 8 bytes of whole elements' bytes where an element has fewer than 8
bits (R114; log 59). -/
def kUnit (c : Cmd) : Nat := if c.sfmt.bits < 8 then 1 else c.sfmt.bytes

/-- One piece of move `i` in the plane that the command has reached, the pieces of a plane in no order (R114; log 59).
After the last piece of the last plane the move is done. -/
def kvMove (c : Cmd) (i k : Nat) : Act Unit := do
  let s ← get
  match s.entAt s.yAt.1 s.yAt.2 with
  | none => pure ()
  | some y => do
    let u := kUnit c
    let left := if y.left = [] then List.range (c.kE / u) else y.left
    let m := left.getD (Config.nextPart s.tick left.length % left.length) 0
    let bs ← yRead c.dst .read (c.slotVa y.part (c.kC + k) + u * m) u
    yWrite c.dst (c.slotVa y.part (c.kC + i) + u * m) bs
    let rest := left.erase m
    yUpd fun y => { y with left := rest, part := if rest = [] then y.part + 1 else y.part }
    holdTill (rest.isEmpty && decide (c.x1.toNat ≤ y.part + 1))

/-- A unit of a KVCMT: move `i` in every plane, and after the last move the length. -/
def kvUnit (c : Cmd) (i : Nat) : Act Unit := do
  let p ← kvPath c
  if i < c.kA then do
    let k := p.getD i i
    if k ≠ i then kvMove c i k
  else yWrite c.bind c.bind.toNat (bytesOf 8 (c.kC + c.kA))

/-- KVCMT. -/
def execKvcmt (c : Cmd) (s : State) : Host.Outcome State Fault Refusal := yWork (c.kA + 1) (kvUnit c) s

/-! ### Remote increments (R268, R304) -/

/-- The launch that a remote increment is for. -/
def State.targetLid (s : State) : RTarget → Option Nat
  | .launch lid => if (aFind s.dev.launches lid.toNat).isSome then some lid.toNat else none
  | .gang gid => (s.dev.launches.find? fun p => p.2.gang && decide (p.2.gangId = gid.toNat)).map (·.1)

/-- A dropped increment, logged: function, partition and core of the entry, and the target that it names (R268, R368). -/
def State.dropInc (s : State) (fn part core rcore ev rdev : Nat) : State :=
  s.logAdd 0x02 fn part core (rcore + ev * 2 ^ 9 + rdev * 2 ^ 13)

/-- The target strand of an increment, if its launch holds the core and it has not ended: the launch and the ordinal. -/
def State.targetStrand (s : State) (tgt : Option RTarget) (core : Nat) : Option (Nat × Nat) :=
  match tgt.bind s.targetLid with
  | none => none
  | some lid => match (s.launchAt lid).ordOf core with
    | none => none
    | some o => if (s.launchAt lid).ended.contains o then none else some (lid, o)

/-- The target strand has its core and has not started (R304). -/
def State.awaitsStart (s : State) (tgt : Option RTarget) (core : Nat) : Bool :=
  match s.targetStrand tgt core with
  | some p => !(s.launchAt p.1).started.contains p.2
  | none => false

/-- A remote increment applied to the target strand, held for one that has not started, or dropped and logged; `fn` is the
function under which it came. -/
def State.remoteInc (s : State) (fn : Nat) (tgt : Option RTarget) (core ev : Nat) (inc : BitVec 32) (rdev : Nat) : State :=
  match s.targetStrand tgt core with
  | none => s.dropInc fn (s.dev.partNo core) core core ev rdev
  | some (lid, o) =>
    if (s.launchAt lid).started.contains o then s.updStrand lid o fun c => c.addEv ev inc
    else s.updLaunch lid fun l => { l with incs := l.incs ++ [(core, ev, inc)] }

/-- The target of an increment of the strand whose turn it is: its own launch where RLOC is 1, and else the launch that
carries its gang id (R268). -/
def State.incTarget (s : State) (rloc : Bool) : Option RTarget :=
  if rloc then some (.launch s.cask.kr.lid)
  else if s.launch.gang then some (.gang (BitVec.ofNat 16 s.launch.gangId)) else none

/-- The increment goes to another device, which has a target strand for it. -/
def State.goesOut (s : State) (rloc : Bool) (rank : Nat) : Bool :=
  !rloc && decide (rank ≠ s.dev.rank) && s.launch.gang

/-- The increment that a command sends at its completion, to `rank` of the group where RLOC is 0. One to another device from a
launch that is no gang launch has no target strand; to a device that cannot be reached nothing goes (R370). -/
def State.sendInc (s : State) (rloc : Bool) (rank core ev : Nat) (inc : BitVec 32) : State :=
  let fn := (s.dev.fnOfAsid s.cask.kr.asid).getD 0
  if rloc ∨ rank = s.dev.rank then s.remoteInc fn (s.incTarget rloc) core ev inc s.dev.rank
  else if s.launch.gang then (if s.reachable rank then s.send (.incr rank core ev inc s.launch.gangId) else s)
  else s.dropInc fn (s.dev.partNo s.turn.core) s.turn.core core ev rank

/-- An increment to another device can be sent: it waits for a late member, and one that cannot be reached answers with STATUS
0x03 (R272, R329, R370). -/
def incReach (rloc : Bool) (rank : Nat) : Act Unit := do
  let s ← get
  if s.goesOut rloc rank then do
    holdTill (!s.lateRank rank)
    if !s.reachable rank then answer 3

/-! ### FMCAST (R283) -/

/-- An element written at a peer, in its own mapping. -/
def mcastTo (c : Cmd) (da u v rank : Nat) : Act Unit := do
  let s ← get
  if !s.reachable rank then answer 3
  let key := rank * 2 ^ 64 + da
  let old := natOf (smGetRange Memory.unlisted s.dev.pmem key 1)
  let bs := if c.dfmt.bits = 4 then bytesOf 1 (putNibble old v u) else bytesOf c.dfmt.bytes v
  let d := { s.dev with
    pmem := smSetRange Memory.unlisted s.dev.pmem key bs, pmemP := nsDelRange s.dev.pmemP key bs.length }
  set (State.send { s with dev := d } (.mcast rank (BitVec.ofNat 64 da) bs))

/-- One element sent to every device of the mask; the destinations are signalled at the completion. An element for a late
member of the gang waits (R329). DESIGN CHOICE: the write on the issuing device itself translates under the strand's ASID (log 69). -/
def fmcastElem (c : Cmd) (u : Nat) : Act Unit := do
  let s ← get
  let ranks := ranksOf c.bind
  let others := ranks.filter fun r => r ≠ s.dev.rank
  holdTill (!others.any s.lateRank)
  let v ← getElem c.src c.sfmt (c.srcAt c.sfmt.bits u) u
  let da := c.dstAt c.dfmt.bits u
  check (canonical da) cProtection (BitVec.ofNat 64 da)
  if others.any fun r => !s.reachable r then answer 3
  if ranks.contains s.dev.rank then putElem c.dst c.dfmt da u v
  forList (mcastTo c da u v) others

/-- FMCAST. -/
def execFmcast (c : Cmd) (s : State) : Host.Outcome State Fault Refusal := yWork c.points (fmcastElem c) s

/-! ### FRED (R284, R285, R305) -/

/-- Dword `k` of the command whose turn it is. -/
def State.yDw (s : State) (k : Nat) : Word :=
  match s.entAt s.yAt.1 s.yAt.2 with
  | some y => BitVec.ofNat 64 (dw (natOf y.bytes) k)
  | none => 0

/-- Points of the unit in progress done one by one, each at a step of its own (R114): `f` does point `u`. -/
def byPoint (n : Nat) (f : Nat → Act Unit) : Act Unit := do
  let s ← get
  let u := ((s.entAt s.yAt.1 s.yAt.2).map (·.part)).getD 0
  f u
  yUpd fun y => { y with part := u + 1 }
  holdTill (decide (n ≤ u + 1))

/-- A contribution kept by the router in place of an older one of its rank under the TAG (R284). -/
def Dev.contribute (d : Dev) (x : Contrib) : Dev :=
  { d with contribs := d.contribs.filter (fun y => ¬ (y.tag = x.tag ∧ y.rank = x.rank)) ++ [x] }

/-- The single-copy pieces of an element of a FRED: a lane of a blend, or the element (R114). -/
def fredUnit (c : Cmd) : Nat := if c.opr = .blend then 4 else c.elemBytes
def fredParts (c : Cmd) : Nat := c.elemBytes / fredUnit c

/-- What this device holds of an ended FRED's TAG, discarded: whether the participants agree, and the result (R284). -/
def Dev.endTag (d : Dev) (n : Nat) : Dev :=
  { d with results := aDel d.results n, agreed := nsDel d.agreed n, disagree := nsDel d.disagree n }

/-- The contribution read point by point, and then handed to the routers, which tell every participant of it; what was left of its
TAG is gone (R284; log 17). -/
def fredHand (c : Cmd) : Act Unit := do
  byPoint (c.points * fredParts c) fun u => do
    let a ← yRead c.src .read (c.srcAt (8 * c.elemBytes) (u / fredParts c) + u % fredParts c * fredUnit c) (fredUnit c)
    yUpd fun y => { y with data := y.data ++ a }
  let s ← get
  let peers := (ranksOf c.bind).filter fun r => r ≠ s.dev.rank
  if peers.any fun r => !s.reachable r then answer 3
  let bs := ((s.entAt s.yAt.1 s.yAt.2).map (·.data)).getD []
  let x : Contrib := { tag := c.tag, rank := s.dev.rank, d6 := s.yDw 6, d7 := s.yDw 7, d10 := s.yDw 10, mask := c.bind, data := bs }
  let d := s.dev.endTag c.tag
  let d1 := { d with nodes := d.nodes.filter fun v => v.tag ≠ c.tag }
  set (peers.foldl (fun s r => s.send (.contrib r c.tag x.d6 x.d7 x.d10 x.mask)) { s with dev := d1.contribute x })

/-- The clean copies that the core whose turn it is holds of bytes written under FGASID, invalidated (R109). -/
def State.dropFab (s : State) (da n : Nat) : State :=
  (partsOf da n).foldl (fun s p =>
    match translateIo (s.dev.partOfAsid s.dev.fgAsid) s.dev.fgAsid p.1 .any s with
    | .ok l _ => s.dropClean l.asid (l.va / 128)
    | .error _ _ => s) s

/-- A piece of the result written: by Y, or as an access of the fabric under FGASID where another device's router combined
it (R371); the core's own clean copies go (R109). -/
def fredPoint (c : Cmd) (own : Bool) (bs : List Byte) (u : Nat) : Act Unit := do
  let k := fredUnit c
  let da := c.dstAt (8 * c.elemBytes) (u / fredParts c) + u % fredParts c * k
  let x := (bs.drop (u * k)).take k
  if own || isSpmForm c.dst.toNat then yWrite c.dst da x
  else do
    let s ← get
    let a := s.dev.fgAsid
    match ioStore (s.dev.partOfAsid a) a da x s with
    | .ok _ t => set (t.dropFab da k)
    | .error .hold _ => throw .hold
    | .error _ t => do
      set (t.accessLog 0x09 none a da)
      answer 3

/-- The result written where it has arrived and is not yet written. -/
def fredPut (c : Cmd) : Act Unit := do
  let s ← get
  match aFind s.dev.results c.tag with
  | none => await false
  | some r =>
    if r.written then pure ()
    else do
      byPoint (c.points * fredParts c) (fredPoint c (decide (c.hub = s.dev.rank)) r.data)
      modify fun s => { s with dev := { s.dev with results := aSet s.dev.results c.tag { r with written := true } } }

/-- What a FRED waits for once its contribution is with the routers: that the participants agree; the result, where this
device writes it; and that every other device that writes it has done so. Then it reports what the nodes raised (R284, R285,
R305). -/
def fredTake (c : Cmd) : Act Unit := do
  let s ← get
  check (!s.dev.disagree.contains c.tag) cCopyMalformed
  await (s.dev.agreed.contains c.tag)
  if c.writes s.dev.rank then fredPut c
  let s ← get
  await (c.takers.all fun r => decide (r = s.dev.rank) || Config.applied s.tick r)
  match aFind s.dev.results c.tag with
  | some r => if c.writes s.dev.rank then yTally { fl := r.fl, nans := r.nans, infs := r.infs, wraps := r.wraps }
  | none => pure ()

/-- FRED. -/
def execFred (c : Cmd) (s : State) : Host.Outcome State Fault Refusal :=
  yWork 2 (fun u => if u = 0 then fredHand c else fredTake c) s

/-! ### SIGR and PIPE (R286, R287) -/

/-- The increment of a SIGR, applied by its target once every earlier command of the queue has completed: it waits for a strand
that has not started, and to another device for the step at which that has applied it (R268, R286, R329; log 37). -/
def sigrUnit (c : Cmd) : Act Unit := do
  let s ← get
  holdTill (decide (s.yAt.2 = 0))
  incReach c.rloc c.rdev.toNat
  holdTill (if s.goesOut c.rloc c.rdev.toNat then Config.applied s.tick c.rdev.toNat
    else !s.awaitsStart (s.incTarget c.rloc) c.rcore.toNat)
  modify fun s => s.sendInc c.rloc c.rdev.toNat c.rcore.toNat c.rev.toNat (c.arg.setWidth 32)

/-- SIGR moves no data: it has done its work when its target has applied the increment. -/
def execSigr (c : Cmd) (s : State) : Host.Outcome State Fault Refusal := yWork 1 (fun _ => sigrUnit c) s

/-- The cask of the launch's strand on the consumer core, which stands on the producer's die and in the lease. -/
def pipeConsumer (c : Cmd) : Act (Nat × Bool) := do
  let s ← get
  check (decide (c.ccore / 96 = s.turn.core / 96)) cProtection
  match s.launch.lease.find? fun p => p.1 = c.ccore with
  | some p => pure p
  | none => raise cProtection

/-- The descriptors of both rings agree in ROWS, COLS, SIZE and SRCF. -/
def sameRing (a b : Ring) : Bool :=
  decide (a.rows = b.rows) && decide (a.cols = b.cols) && decide (a.slots = b.slots) &&
  decide (fld a.w0.toNat 52 4 = fld b.w0.toNat 52 4)

/-- PIPE, binding. -/
def execPipeBind (c : Cmd) (s : State) : Host.Outcome State Fault Refusal :=
  yWork 1 (fun _ => do
    let k ← pipeConsumer c
    let s ← get
    let m := s.cask.ring c.pring
    let n := (s.caskAt k.1 k.2).ring c.cring
    await (decide (m.depth = 0) && !s.cask.ringNamed c.pring && decide (n.depth = 0))
    check (sameRing m n && !n.pipe) cRingBounds
    let s1 := s.updCask fun x => x.setRing c.pring { m with toPipe := some (2 * k.1 + bit k.2, c.cring) }
    set (s1.setCaskAt k.1 k.2 ((s1.caskAt k.1 k.2).setRing c.cring
      { n with w0 := n.w0 ||| ((1 : Word) <<< 56), head := 0, tail := 0,
               fromPipe := some (2 * s.turn.core + bit s.turn.cask, c.pring) }))) s

/-- PIPE, unbinding: the binding that the command names, if ring M has it. -/
def execPipeUnbind (c : Cmd) (s : State) : Host.Outcome State Fault Refusal :=
  yWork 1 (fun _ => do
    let k ← pipeConsumer c
    let s ← get
    let m := s.cask.ring c.pring
    if m.toPipe = some (2 * k.1 + bit k.2, c.cring) then do
      let n := (s.caskAt k.1 k.2).ring c.cring
      await (!s.cask.ringNamed c.pring && decide (n.depth = 0))
      let s1 := s.updCask fun x => x.setRing c.pring { m with toPipe := none }
      set (s1.setCaskAt k.1 k.2 ((s1.caskAt k.1 k.2).setRing c.cring
        { n with w0 := n.w0 &&& ~~~ ((1 : Word) <<< 56), fromPipe := none }))) s

end Sys2Proof.Machine
end

