-- ==== Sys2Proof/Machine/YCtl.lean ====
section
/-! DEFINITION. Y's own steps and the fabric's: the fetch of a chain (R183), the begin and the completion of a command
(R165, R265, R268, R271), remote increments (R268, R304), the combining of a FRED (R284, R285, R305), accesses that arrive
from the fabric (R371), and the merging of a combining buffer (R277). -/

namespace Sys2Proof.Machine

open Sys2Proof

/-! ### CHAIN_FETCH (R183, R337, R342) -/

/-- An answer with an error to a chain fetch, as the fault it is (R183, R272). -/
def fetchFault (f : Flt) : Flt :=
  if f.code < 256 then f else { f with code := if f.code = 259 then cUncorrectable else cProtection }

/-- Chain `k` fetches its next entry. -/
def chainUnit (k : Nat) (x : Chain) : Act Unit := do
  let va := x.next.toNat
  check (decide (va % 128 = 0)) cAlignment x.next
  check (canonical va) cProtection x.next
  let bs ← yHome .read (partsOf va 128)
  let s ← get
  let d0 := natOf (bs.take 8)
  let q := x.queue.getD (fld d0 8 2)
  onCask (whole (fork s.dual s.tick q 2 x.start bs none))
  modify fun s => s.updCask fun c =>
    if flag d0 16 then
      let y : Chain := { start := x.start, next := BitVec.ofNat 64 (natOf ((bs.drop 96).take 8)), queue := none, wait := none }
      { c with yy := { c.yy with chains := c.yy.chains.set k y } }
    else ({ c with yy := { c.yy with chains := c.yy.chains.eraseIdx k } }).jfree x.start

/-- CHAIN_FETCH. -/
def execChainFetch (k : Nat) (s : State) : Host.Outcome State Fault Refusal :=
  match s.cask.yy.chains[k]? with
  | none => .next s
  | some x =>
    if s.cask.yy.parked || s.cask.yy.failed.isSome then .next s
    else match chainUnit k x s with
      | .ok _ t => .next t
      | .error (.trap f) t => .next (t.yStop (x.queue.getD 0) 0 (fetchFault f))
      | .error (.wait _) t => .next (t.updCask fun c => { c with yy := { c.yy with
          chains := c.yy.chains.modify k fun x => { x with wait := Wait.again x.wait t.yNow t.tick false } } })
      | .error .hold t => .next t

/-! ### COMMAND_BEGIN (R165, R159, R265, R269) -/

/-- Every command of the device that is outstanding. -/
def State.allCmds (s : State) : List YEnt :=
  (s.cores.map fun p => p.2.k0.yy.all ++ p.2.k1.yy.all).flatten ++
  (s.dev.launches.map fun p => (p.2.saved.map fun q => q.2.yy.all).flatten).flatten

/-- A FRED that was forked earlier carries the same TAG and is still in flight (R284). -/
def State.tagInFlight (s : State) (y : YEnt) : Bool :=
  let tagOf (z : YEnt) : Nat := fld (dw (natOf z.bytes) 10) 34 16
  s.allCmds.any fun z => decide ((z.bytes.headD 0).toNat = 8) && decide (z.forked < y.forked) && decide (tagOf z = tagOf y)

/-- What a command's fields need of the fabric group and of the core (R160, R283, R284, R287). -/
def State.groupOk (s : State) (y : YEnt) (opc : Nat) (c : Cmd) : Bool :=
  let size := s.dev.groupSize
  let inGroup := (ranksOf c.bind).all fun r => decide (r < size)
  (!c.rsig || c.rloc || decide (c.rdev.toNat < size) || decide (opc = 7)) &&
  (match opc with
   | 7 => inGroup
   | 8 => inGroup && (ranksOf c.bind).contains s.dev.rank && (ranksOf c.bind).contains c.root &&
       (c.writes s.dev.rank || c.dst == 0) && !s.tagInFlight y
   | 10 => decide (c.ccore ≠ s.turn.core)
   | _ => true)

/-- The checks of R165, the first fault that applies. -/
def cmdCheck (y : YEnt) : Act Unit := do
  let s ← get
  let n := natOf y.bytes
  let ok := s.groupOk y (fld n 0 8) (cmdAt n)
  match decodeCmd n with
  | .ok _ => check ok cCopyMalformed
  | .error .illegalOp => raise cIllegalOp
  | .error .copyMalformed => raise cCopyMalformed
  | .error .illegalOperand => raise (if ok then cIllegalOperand else cCopyMalformed)

/-- A wait clause holds (R159). -/
def Cask.clauseOk (c : Cask) (k : Clause) : Bool := !k.en || evReached (c.evreg k.ev.toNat) k.thr

/-- The place of the first command of a queue that has not begun. -/
def YSt.nextCmd (y : YSt) (q : Nat) : Option Nat := (y.queue q).findIdx? fun e => !e.begun

/-- The begin of the command at a place: its checks, its wait clauses, the first record. -/
def beginCmd (q pos : Nat) : Act Unit := do
  let s ← get
  match s.entAt q pos with
  | none => pure ()
  | some y => do
    cmdCheck y
    let c := cmdAt (natOf y.bytes)
    await (s.cask.clauseOk c.w0 && s.cask.clauseOk c.w1)
    holdTill (decide (((s.cask.yy.queue q).filter (·.begun)).length < 8))
    holdTill (!s.blocked q pos y.recordSpan)
    let b := { y with begun := true, tbeg := BitVec.ofNat 64 s.dev.rtc, wait := none }
    writeRecord b false
    modify fun s => s.updEnt q pos fun _ => b

/-- COMMAND_BEGIN. -/
def execCommandBegin (q : YNo) (s : State) : Host.Outcome State Fault Refusal :=
  match s.cask.yy.nextCmd q.toNat with
  | none => .next s
  | some pos =>
    if s.cask.yy.parked || s.cask.yy.failed.isSome then .next s
    else yRun q.toNat pos (beginCmd q.toNat pos) s

/-! ### COMMAND_COMPLETE (R160, R268, R269, R271, R337) -/

/-- YCN advanced over the commands that have completed. -/
def ycnAdvance : Nat → YSt → YSt
  | 0, y => y
  | f + 1, y =>
    let n := (y.ycn + 1) % 2 ^ 32
    if y.ydone.contains n then ycnAdvance f { y with ycn := n, ydone := nsDel y.ydone n } else y

/-- The head command of a queue leaves it: its journal entry is freed and the markers behind it move on (R46, R337). -/
def Cask.dropCmd (c : Cask) (q : Nat) (y : YEnt) : Cask :=
  let y1 : YSt := { c.yy with
    queues := aSet c.yy.queues q ((c.yy.queue q).drop 1),
    ydone := nsAdd c.yy.ydone y.cnum,
    marks := c.yy.marks.map fun m => { m with cnums := m.cnums.filter fun n => n ≠ y.cnum } }
  let c1 : Cask := { c with yy := ycnAdvance 4096 y1 }
  (c1.jfree y.jnum).fireYMarks

/-- SIGM: 1 added to each local counter named (R160). -/
def Cask.signal (c : Cask) (m : BitVec 16) : Cask :=
  (List.range 16).foldl (fun c k => if m.getLsbD k then c.addEv k 1 else c) c

/-- The TSTN of a TNODE that completed: S makes at once the pushes that have room, and finishes it with the last (R45, R222,
R340). -/
def Cask.tstnDone (c : Cask) (o : Owed) : Cask :=
  let c1 := c.updEng .s fun st => { st with owed := st.owed.map fun x => if x.cn = o.cn then { x with ready := true } else x }
  match c1.eS.owed.find? fun x => x.cn = o.cn with
  | some x => if c1.st.stopped then c1 else c1.finishOwed .s x
  | none => c1

/-- A command with return data, as K will join it (R108, R113): its remote increment is one of its own core's counters where it
names that core and its own launch, by RLOC or by its own rank and the gang (R268). -/
def State.unjoined (s : State) (y : YEnt) (c : Cmd) (q : Nat) : Unjoined :=
  let home := c.rloc || (decide (c.rdev.toNat = s.dev.rank) && s.launch.gang)
  { queue := q, cnum := y.cnum, cls := y.cls, rec_ := recordAt y.bytes,
    evs := (List.range 16).filter (fun k => c.sigm.getLsbD k) ++
      if c.rsig && home && decide (c.rcore.toNat = s.turn.core) then [c.rev.toNat] else [] }

/-- The ranks to which a command sends a remote increment at its completion: every destination of an FMCAST (R283); a SIGR has
sent its own (R286). -/
def signalRanks (opc : Nat) (c : Cmd) : List Nat :=
  if !c.rsig ∨ opc = 9 then [] else if opc = 7 then ranksOf c.bind else [c.rdev.toNat]

/-- Every destination of an FMCAST but this device has acknowledged its writes (R283; log 37). -/
def State.acked (s : State) (opc : Nat) (c : Cmd) : Bool :=
  decide (opc ≠ 7) || (ranksOf c.bind).all fun r => decide (r = s.dev.rank) || Config.applied s.tick r

/-- The completion of a command that has done all its work, in the order of R268. -/
def completeCmd (q : Nat) (y : YEnt) : Act Unit := do
  let c := cmdAt (natOf y.bytes)
  let opc := (y.bytes.headD 0).toNat
  let rs := signalRanks opc c
  let s ← get
  holdTill (y.status ≠ 0 || s.acked opc c)
  if y.status = 0 then forList (incReach c.rloc) rs
  writeRecord y true
  modify fun s => s.updCask fun x => x.signal c.sigm
  modify fun s => rs.foldl (fun s r => s.sendInc c.rloc r c.rcore.toNat c.rev.toNat 1) s
  if opc = 8 then modify fun s => { s with dev := s.dev.endTag c.tag }
  if c.rtn then modify fun s => s.updCask fun x =>
    { x with yy := { x.yy with unjoined := x.yy.unjoined ++ [s.unjoined y c q] } }
  modify fun s => (s.updCask fun x =>
    let x1 := (x.record y.flags y.nans y.infs y.sats y.wraps).dropCmd q y
    match y.owner with
    | some o => x1.tstnDone o
    | none => x1).count 0xB 1

/-- COMMAND_COMPLETE. -/
def execCommandComplete (q : YNo) (s : State) : Host.Outcome State Fault Refusal :=
  match s.entAt q.toNat 0 with
  | none => .next s
  | some y => if y.begun && y.done && s.cask.yy.goes q.toNat then yRun q.toNat 0 (completeCmd q.toNat y) s else .next s

/-! ### REMOTE_INCREMENT (R268, R304) -/

/-- REMOTE_INCREMENT. -/
def execRemoteIncrement (tgt : RTarget) (core : CoreNo) (ev : EvNo) (inc : BitVec 32) (s : State) :
    Host.Outcome State Fault Refusal :=
  .next (s.remoteInc ((s.dev.fnOfAsid s.dev.fgAsid).getD 0) (some tgt) core.toNat ev.toNat inc s.dev.rank)

/-! ### FRED_COMBINE (R284, R285, R305) -/

/-- One node: the elements of two operands combined. -/
def fredNode (c : Cmd) (a b : List (List Byte)) : List (List Byte) × Tally :=
  let rs := (a.zip b).map fun p => applyElem c p.1 p.2
  (rs.map (·.1), rs.foldl (fun t r => t.plus r.2) {})

/-- The participants whose nodes the router of participant number `i` combines with its own value, in the order of the levels of
the tree: `ps` are the participants in rising rank (R285, R371). -/
def nodeKids (ps : List Nat) (i : Nat) : List Nat :=
  ((List.range 6).filter fun k => decide (i % 2 ^ (k + 1) = 0) && decide (i + 2 ^ k < ps.length)).map fun k => ps.getD (i + 2 ^ k) 0

/-- The participant whose router combines the value of participant number `i`, 0 or above, with its own. -/
def nodeParent (ps : List Nat) (i : Nat) : Nat :=
  match (List.range 6).find? fun k => i % 2 ^ (k + 1) ≠ 0 with
  | some k => ps.getD (i - 2 ^ k) 0
  | none => ps.getD 0 0

/-- The value of a subtree: the own value, combined with the nodes of the other half of each level (R285). -/
def nodeValue (c : Cmd) (own : List Byte) (vs : List NodeVal) : List Byte × Tally :=
  let cut (bs : List Byte) : List (List Byte) := pieces c.elemBytes c.points bs
  let r := vs.foldl (fun (a : List (List Byte) × Tally) v =>
    let n := fredNode c a.1 (cut v.data)
    (n.1, (a.2.plus { fl := v.fl, nans := v.nans, infs := v.infs, wraps := v.wraps }).plus n.2)) (cut own, {})
  (r.1.flatten, r.2)

/-- Contributions in rising rank. -/
def insertRank (x : Contrib) : List Contrib → List Contrib
  | [] => [x]
  | y :: ys => if x.rank ≤ y.rank then x :: y :: ys else y :: insertRank x ys

/-- Every participant that a contribution names has contributed. -/
def allHere (cs : List Contrib) : Bool :=
  cs.all fun c => (ranksOf c.mask).all fun r => cs.any fun d => d.rank = r

/-- The participants agree in every dword that R284 names. -/
def agree : List Contrib → Bool
  | [] => true
  | c :: cs => cs.all fun d => d.d6 == c.d6 && d.d7 == c.d7 && d.d10 == c.d10 && d.mask == c.mask

/-- The command that a contribution's dwords describe. -/
def Contrib.cmd (c : Contrib) : Cmd :=
  cmdAt (c.d6.toNat * 2 ^ 384 + c.d7.toNat * 2 ^ 448 + c.d10.toNat * 2 ^ 640 + c.mask.toNat * 2 ^ 832)

/-- The value of this device's subtree, once its participants have contributed and agree: to the router that combines it next, or,
from the router of the lowest rank, as the result to the devices that write it (R284, R285, R371; log 17). -/
def State.fredUp (s : State) (n : Nat) (c : Cmd) (ps : List Nat) (i : Nat) (v : List Byte × Tally) : State :=
  if i = 0 then
    let res : FredResult := { data := v.1, fl := v.2.fl, nans := v.2.nans, infs := v.2.infs, wraps := v.2.wraps, written := false }
    let d := if c.writes s.dev.rank then { s.dev with results := aSet s.dev.results n res } else s.dev
    (c.takers.filter fun k => k ≠ s.dev.rank).foldl
      (fun s k => s.send (.result k n v.1 v.2.fl v.2.nans v.2.infs v.2.wraps)) { s with dev := d }
  else s.send (.node (nodeParent ps i) n v.1 v.2.fl v.2.nans v.2.infs v.2.wraps)

/-- The contributions of a TAG are all here: those of a device that takes part agree or not; where they agree, its router combines
the nodes of its subtree once their values have come, and passes the value up (R284, R285, R371; log 17). -/
def State.fredCombine (s : State) (n : Nat) (cs : List Contrib) (x : Contrib) : State :=
  let d := { s.dev with contribs := s.dev.contribs.filter fun c => c.tag ≠ n }
  match cs.find? fun c => c.rank = s.dev.rank with
  | none => { s with dev := d }
  | some own =>
    if !agree cs then { s with dev := { d with disagree := nsAdd d.disagree n } }
    else
      let c := x.cmd
      let ps := ranksOf c.bind
      let i := ps.idxOf s.dev.rank
      match (nodeKids ps i).mapM fun r => s.dev.nodes.find? fun v => v.tag = n ∧ v.rank = r with
      | none => s
      | some vs =>
        let d1 := { d with agreed := nsAdd d.agreed n, nodes := d.nodes.filter fun v => v.tag ≠ n }
        State.fredUp { s with dev := d1 } n c ps i (nodeValue c own.data vs)

/-- FRED_COMBINE. -/
def execFredCombine (tag : BitVec 16) (s : State) : Host.Outcome State Fault Refusal :=
  let cs := (s.dev.contribs.filter fun c => c.tag = tag.toNat).foldr insertRank []
  match cs with
  | [] => .next s
  | x :: _ => if allHere cs then .next (s.fredCombine tag.toNat cs x) else .next s

/-! ### Notices of a gang (R328, R329) -/

/-- The member adopts T for its launch of the gang. -/
def State.adopt (s : State) (gid t : Nat) : State :=
  match s.targetLid (.gang (BitVec.ofNat 16 gid)) with
  | some lid => if (s.launchAt lid).gangT.isNone then s.updLaunch lid fun l => { l with gangT := some t } else s
  | none => s

/-- What a member of a gang does with a notice of another (R328, R329). -/
def State.gangNotice (s : State) (rank gid : Nat) (m : GangMsg) : State :=
  match m with
  | .took t => { s with dev := { s.dev with
      gangTook := s.dev.gangTook.filter (fun x => ¬ (x.1 = gid ∧ x.2.1 = rank)) ++ [(gid, rank, t)] } }
  | .start t => s.adopt gid t
  | .late => { s with dev := { s.dev with gangLate := s.dev.gangLate.filter (fun x => x ≠ (rank, gid)) ++ [(rank, gid)] } }
  | .started => { s with dev := { s.dev with gangLate := s.dev.gangLate.filter fun x => x ≠ (rank, gid) } }

/-! ### FABRIC_ACCESS (R284, R370, R371) -/

/-- An atomic of a peer's RATOM at its home here: the old value. -/
def fabricAtomic (p : Partition) (a : BitVec 10) (va : Nat) (fmt : Fmt) (o : Opr) (rm : Rm) (x cmp : Word) :
    Act (List Byte) := do
  check (decide (va % 4 = 0)) cAlignment
  let bs ← ioParts p a .both (partsOf va 4)
  let old := natOf bs
  let v := if o = .cas then (if old = cmp.toNat % 2 ^ 32 then x.toNat else old)
    else (applyOpr o fmt rm old (x.toNat % 2 ^ 32)).1
  ioStore p a va (bytesOf 4 v)
  let loc ← translateIo p a va .both
  modify fun s => s.atomics loc 1
  pure bs

/-- What an access of the fabric does at its home, and the bytes of its reply. -/
def fabricDo (p : Partition) (a : BitVec 10) : FabAcc → Act (List Byte)
  | .read _ va n => ioLoad p a va.toNat n
  | .write _ va bs => do
    ioStore p a va.toNat bs
    pure []
  | .atomic _ va fmt o rm x cmp => fabricAtomic p a va.toNat fmt o rm x cmp
  | .mcast _ va bs sig gid => do
    ioStore p a va.toNat bs
    match sig with
    | some q => modify fun s =>
        s.remoteInc ((s.dev.fnOfAsid a).getD 0) (some (.gang gid)) q.1.toNat q.2.toNat 1 s.dev.rank
    | none => pure ()
    pure []
  | _ => pure []

/-- The address that an access translates. -/
def FabAcc.va : FabAcc → Nat
  | .read _ va _ | .write _ va _ | .atomic _ va _ _ _ _ _ | .mcast _ va _ _ _ => va.toNat
  | _ => 0

/-- An access performs under FGASID and is answered; a fault is logged here and answered with STATUS 0x03 (R371).
One that a slice holds while the slice map changes is not answered yet (R359; log 21). -/
def State.fabricAnswer (s : State) (org : Nat) (acc : FabAcc) : State :=
  let a := s.dev.fgAsid
  match fabricDo (s.dev.partOfAsid a) a acc s with
  | .ok bs t => t.send (.reply org 0 bs)
  | .error .hold _ => s
  | .error _ t => (t.accessLog 0x09 none a (FabAcc.va acc)).send (.reply org 3 [])

/-- FABRIC_ACCESS, at a device that takes part in a group. A packet for another device goes on by this one's routes; where they
do not reach it, its sender has STATUS 0x03 (R370). -/
def execFabricAccess (acc : FabAcc) (s : State) : Host.Outcome State Fault Refusal :=
  if s.dev.groupSize = 0 then .next s
  else .next (match acc with
    | .read org .. | .write org .. | .atomic org .. | .mcast org .. => s.fabricAnswer org.toNat acc
    | .contrib org tag d6 d7 d10 mask =>
      let x : Contrib := { tag := tag.toNat, rank := org.toNat, d6 := d6, d7 := d7, d10 := d10, mask := mask, data := [] }
      { s with dev := s.dev.contribute x }
    | .node org tag bs fl nans infs wraps =>
      let v : NodeVal := { tag := tag.toNat, rank := org.toNat, data := bs, fl := fl, nans := nans, infs := infs, wraps := wraps }
      { s with dev := { s.dev with nodes := s.dev.nodes.filter (fun y => ¬ (y.tag = v.tag ∧ y.rank = v.rank)) ++ [v] } }
    | .result tag bs fl nans infs wraps =>
      let res : FredResult := { data := bs, fl := fl, nans := nans, infs := infs, wraps := wraps, written := false }
      { s with dev := { s.dev with results := aSet s.dev.results tag.toNat res } }
    | .gang org gid m => s.gangNotice org.toNat gid.toNat m
    | .forward org src p =>
      if smGet 0 s.dev.froute p.rank = 0 then s.send (.reply org.toNat 3 []) else s.forward org.toNat src p)

/-! ### COMBINING_MERGE_TIMEOUT (R277) -/

/-- COMBINING_MERGE_TIMEOUT: 4,096 ring cycles after the last combine of a line. -/
def execCombiningMergeTimeout (line : BitVec 33) (s : State) : Host.Outcome State Fault Refusal :=
  match aFind s.dev.combT line.toNat with
  | some t => if t.1 + 4096 ≤ s.dev.rtc then .next { s with dev := s.dev.merge line.toNat } else .next s
  | none => .next s

end Sys2Proof.Machine
end

