-- ==== Sys2Proof/Machine/Events.lean ====
section
/-! DEFINITION. Steps of the core that no word asks for: the start of a section (R33, R155, R156), the bounds of waits
(R44, R336), faults reported from outside the words (R331), evictions (R300), the end of an overlay's load (R198), the
loss of a monitor entry (R29), poisoned data (R344, R346), cask switches (R323, R324), a firmware's decision on a stopped
strand (R307), and the answers REMAP and REMAP_NACK (R357, R360). -/

namespace Sys2Proof.Machine

open Sys2Proof

/-! ### Who can move -/

/-- The cask whose turn it is holds a strand and issues (R321, R323). -/
def State.issuing (s : State) : Bool := s.cask.st.live && decide ((s.core s.turn.core).cur = s.turn.cask)

/-- K goes on: in its strand, or in the trap handler after a stop (R331, R347). -/
def State.kGoes (s : State) : Bool := s.issuing && !s.cask.st.kstop && (!s.cask.st.stopped || s.cask.kr.priv)

/-- L, M and S go on (R331). -/
def State.engGoes (s : State) : Bool := s.issuing && !s.cask.st.stopped

/-! ### SECTION_START -/

/-- The two other engines in the order L, M, S (R154). -/
def Eng.others : Eng → Eng × Eng
  | .l => (.m, .s)
  | .m => (.l, .s)
  | .s => (.l, .m)

/-- A requirement on an engine is met (R33). -/
def Cask.met (c : Cask) (e : Eng) (rq : BitVec 16) : Bool :=
  rq == 0xFFFF || ((c.eng e).retired && serialGe (c.eng e).rsn rq)

/-- The requirements and SYNC of a section hold (R156). -/
def Cask.sectionReady (c : Cask) (e : Eng) (h : Hdr) : Bool :=
  c.met (Eng.others e).1 h.rq1 && c.met (Eng.others e).2 h.rq2 && (!h.sync || (c.eng e).owed.isEmpty)

/-- The header an engine stands at is checked, and its section starts (R33, R154–R156). -/
def sectionAct (e : Eng) : Act Unit := do
  let s ← get
  finishReady e (s.cask.eng e).owed
  let s ← get
  holdTill (!(s.cask.eng e).sealed)
  let at_ := (s.cask.eng e).hoff
  check (!nsHits (s.cask.imemP e.unit) at_ 8) cFetchEcc
  match decodeHdr (s.cask.hdrAt e at_) with
  | none => raise cIllegalOperand
  | some h => do
    check (decide (at_ + 8 + 12 * h.n ≤ imemSize s.dual)) cIllegalOperand
    await (s.cask.sectionReady e h) true
    modify fun s => s.updCask fun c => c.updEng e fun st => { st with
      started := true, idx := 0, snum := h.snum, count := h.n, nfa := h.nfa, lpStart := [], wait := none }

/-- SECTION_START. A header that fails its check is named in the frame with word index 4,095 (R155). -/
def execSectionStart (e : Eng) (s : State) : Host.Outcome State Fault Refusal :=
  match sectionAct e s with
  | .ok _ t => .next t
  | .error (.trap f) t =>
    .next (t.takeFaultAt t.turn.core t.turn.cask (stopInfo e.unit f 0 0) t.cask.kr.kpc (some e))
  | .error (.wait token) t => .next (t.eWaits e token)
  | .error .hold t => .next t

/-! ### Bounds of waits -/

/-- FORMAT_UNDERFLOW: a consumer has stood at an empty FQ for 256 cycles of its core (R44). The clock is in units of
5 MHz, and the ring runs at 480 of them. -/
def execFormatUnderflow (e : Eng) (s : State) : Host.Outcome State Fault Refusal :=
  match s.cask.cp.fqWait.find? fun p => p.1 == e with
  | some p =>
    if s.engGoes && s.cask.cp.fq.isEmpty && decide (256 * 480 ≤ (s.dev.rtc - p.2) * s.clock) then
      .next (s.coreStop e.unit { code := cFormatUnderflow, stat := eStat s.cask e })
    else .next s
  | none => .next s

/-- A wait that has been attempted at the step before and has lasted longer than LIMIT × 256 ring cycles (R336): had its
condition come true by then, the attempt would have ended it. -/
def State.overdue (s : State) (w : Option Wait) (token : Bool) : Bool :=
  match w with
  | some x => x.token == token && decide (x.tried + 1 = s.tick) && decide (s.cask.kr.wdog ≠ 0) &&
      decide (s.cask.kr.wdog.toNat * 256 < s.dev.rtc - x.since)
  | none => false

/-- TOKEN_TIMEOUT (R28, R336), of the word that an engine stands at or of a late word of M. -/
def execTokenTimeout (e : Eng) (s : State) : Host.Outcome State Fault Refusal :=
  if s.engGoes && ((s.cask.eng e).wait :: (s.cask.eng e).late.map (·.wait)).any fun w => s.overdue w true then
    .next (s.coreStop e.unit { code := cTokenTimeout, stat := eStat s.cask e })
  else .next s

/-- The command of a queue of Y whose wait is overdue: its queue, number and cursor; a chain's fetch has number 0. -/
def State.yOverdue (s : State) (q : Nat) : Option (Nat × Nat × Nat) :=
  match (s.cask.yy.queue q).find? fun y => s.overdue y.wait false with
  | some y => some (q, y.cnum, y.cursor)
  | none => (s.cask.yy.chains.find? fun x => s.overdue x.wait false).map fun x => (x.queue.getD 0, 0, 0)

/-- WATCHDOG (R28, R336). -/
def execWatchdog (u : CoreUnit) (q : YNo) (s : State) : Host.Outcome State Fault Refusal :=
  match u with
  | .k => if s.kGoes && s.overdue s.cask.st.wait false then .next (s.coreStop .k { code := cWatchdog }) else .next s
  | .y => match (if s.issuing then s.yOverdue q.toNat else none) with
    | some r => .next (s.yStop r.1 r.2.1 { code := cWatchdog, stat := BitVec.ofNat 64 r.2.2 })
    | none => .next s
  | _ => match u.engine with
    | some e => if s.engGoes && s.overdue (s.cask.eng e).wait false then
        .next (s.coreStop u { code := cWatchdog, stat := eStat s.cask e }) else .next s
    | none => .next s

/-- CORE_STOP: an engine raises a fault; the core stops and K's handler starts where there is one (R331, R347). -/
def execCoreStop (u : CoreUnit) (code : BitVec 8) (va stat : Word) (s : State) : Host.Outcome State Fault Refusal :=
  .next (s.coreStop u { code := code.toNat, va := va, stat := stat })

/-! ### Caches -/

/-- A dirty line of the L1 written home, which the L1 keeps (R300; log 47). A write-back that its slice would turn away is not made
yet (R360). -/
def State.cleanLine (s : State) (asid : BitVec 10) (line : Nat) : State :=
  match (s.core s.turn.core).lineAt asid line with
  | some l => if s.stuck s.turn.core l then s else s.writeBack s.turn.core l
  | none => s

/-- EVICTION: a line leaves the L1, its dirty bytes written home (R300, R360). -/
def execEviction (asid : BitVec 10) (line : BitVec 57) (s : State) : Host.Outcome State Fault Refusal :=
  let c := s.turn.core
  match (s.core c).lineAt asid line.toNat with
  | some l =>
    if s.stuck c l then .next s
    else
      let s1 := s.writeBack c l
      .next (s1.setCore c ((s1.core c).dropLine asid line.toNat))
  | none => .next s

/-- MONITOR_ENTRY_EVICTION: the strand's WAITL returns spuriously (R29). -/
def execMonitorEntryEviction (s : State) : Host.Outcome State Fault Refusal :=
  if s.cask.st.armed.isSome then .next (s.updCask fun c => { c with st := { c.st with spur := true } }) else .next s

/-- Bytes of an instruction memory marked poisoned. -/
def Cask.poisonImem (c : Cask) (u : CoreUnit) (a n : Nat) : Cask :=
  let p := nsAddRange (c.imemP u) a n
  match u with
  | .k => { c with mem := { c.mem with ikP := p } }
  | .l => { c with mem := { c.mem with ilP := p } }
  | .m => { c with mem := { c.mem with imP := p } }
  | .s => { c with mem := { c.mem with isP := p } }
  | .y => c

/-- The bytes of a range that stand below a limit. -/
def clip (a n size : Nat) : Nat := min n (size - a)

/-- DATA_POISONED: an uncorrectable error in data marks the bytes (R346); in an instruction memory it marks the line of
128 bytes and logs a deferred event (R344). -/
def execDataPoisoned (at_ : PoisonAt) (addr : Word) (n : Nat) (s : State) : Host.Outcome State Fault Refusal :=
  let a := addr.toNat
  match at_ with
  | .spm => .next (s.updCask fun c => { c with mem := { c.mem with spmP := nsAddRange c.mem.spmP a (clip a n (spmSize s.dual)) } })
  | .klm => .next (s.updCask fun c => { c with mem := { c.mem with klmP := nsAddRange c.mem.klmP a (clip a n (klmSize s.dual)) } })
  | .acm => .next (s.updCask fun c => { c with mem := { c.mem with acmP := nsAddRange c.mem.acmP a (clip a n 0xC0000) } })
  | .l1 asid =>
    match (s.core s.turn.core).lineAt asid (a / 128) with
    | some l => .next (s.setCore s.turn.core ((s.core s.turn.core).putLine
        { l with pois := l.pois ||| lineMask (a % 128) (clip (a % 128) n 128) }))
    | none => .next s
  | .home =>
    let d := s.dev.chanCount (channelOf a) 8 1
    .next { s with dev := { d with dmemP := nsAddRange d.dmemP a (clip a n memSize) } }
  | .imem u =>
    if u = .y ∨ imemSize s.dual ≤ a then .next s
    else .next ((s.updCask fun c => c.poisonImem u (a / 128 * 128) 128).accessLog 0x06 (some s.turn.core) s.cask.kr.asid
      (u.num * 2 ^ 17 + a))

/-- TILE_AGEING: the tiles of a launch have spent the ageing interval on their lists (R18). -/
def execTileAgeing (lid : BitVec 32) (s : State) : Host.Outcome State Fault Refusal :=
  let l := s.launchAt lid.toNat
  match l.ageing with
  | some n =>
    if l.begun && decide (l.startAt + n ≤ s.dev.rtc) then .next (s.updLaunch lid.toNat fun l => { l with aged := true })
    else .next s
  | none => .next s

/-! ### Overlays -/

/-- One stream of an overlay loaded: its VA is a multiple of 128 and canonical, its bytes come from their homes (R198). -/
def loadOverlay (u : CoreUnit) (va len off : Nat) : Act Unit := do
  if len = 0 then pure ()
  else do
    checkMem va 128
    let bs ← homeLoad va len
    modify fun s => s.updCask fun c => c.setImem u off bs

/-- The streams of an overlay from number `i` on; the first fault ends the load. DESIGN CHOICE: the streams load in the order K,
L, M, S, and a VA that is not aligned or not canonical is a fault of the load (ALIGNMENT, PROTECTION), held for OVSWAP (R198;
log 56). -/
def loadStreams (o : Overlay) : List (CoreUnit × Nat) → Act Unit
  | [] => pure ()
  | (u, i) :: xs => do
    loadOverlay u (o.vas.getD i 0).toNat (o.lens.getD i 0) (o.offs.getD i 0)
    loadStreams o xs

/-- OVERLAY_LOAD_DONE: the fault of a load is held for OVSWAP (R198). -/
def execOverlayLoadDone (s : State) : Host.Outcome State Fault Refusal :=
  match s.cask.st.ovl with
  | some o =>
    if o.loaded then .next s
    else
      let r := loadStreams o [(.k, 0), (.l, 1), (.m, 2), (.s, 3)] s
      let done (t : State) (f : Option Flt) : State :=
        t.updCask fun c => { c with st := { c.st with ovl := some { o with loaded := true, flt := f } } }
      match r with
      | .ok _ t => .next (done t none)
      | .error (.trap f) t => .next (done t (some f))
      | .error _ t => .next t
  | none => .next s

/-! ### Switches and the firmware -/

/-- CASK_SWITCH: issue moves to the other cask of a dual-resident core (R323). A checkpoint switch is the scheduler's, for a
launch whose policy is checkpoint (R324). -/
def execCaskSwitch (dst checkpoint : Bool) (s : State) : Host.Outcome State Fault Refusal :=
  let k := s.core s.turn.core
  let due := decide ((s.launchAt (k.cask k.cur).kr.lid.toNat).policy = some .checkpoint)
  if k.dual && decide (k.cur ≠ dst) && (!checkpoint || due) then .next (s.doSwitch dst checkpoint) else .next s

/-- FIRMWARE_RESUME: a strand that a fault stopped where no handler is resumes (R340), or its launch ends with STATUS 2
(R307, R313). -/
def execFirmwareResume (resume : Bool) (s : State) : Host.Outcome State Fault Refusal :=
  let c := s.cask
  if !c.st.live || !c.st.kstop then .next s
  else if resume then
    (if c.kr.priv then .next s else .next (s.setCask (c.resumeCask s.dual (frameAt s.dual))))
  else .next (s.launchFail s.lid)

/-! ### Answers to a station -/

/-- A unit of the core that issues can raise a fault now. -/
def State.unitGoes (s : State) (u : CoreUnit) : Bool :=
  match u with
  | .k => s.kGoes
  | .y => !s.cask.yy.parked
  | _ => s.engGoes

/-- REMAP_NACK_LIMIT raised by the request of a unit: by its command, or the fetch of its chain, for Y (R360). -/
def State.nackLimit (s : State) (u : CoreUnit) (x : Ask) : State :=
  match u with
  | .y =>
    if x.queue = 4 then (match s.cask.yy.chains[x.cnum]? with
      | some k => s.yStop (k.queue.getD 0) 0 { code := cRemapNackLimit }
      | none => s)
    else match (s.cask.yy.queue x.queue).find? fun e => e.cnum = x.cnum with
      | some e => s.yStop x.queue e.cnum { code := cRemapNackLimit, stat := BitVec.ofNat 64 e.cursor }
      | none => s
  | _ => s.coreStop u { code := cRemapNackLimit, stat := match u.engine with
      | some e => eStat s.cask e
      | none => 0 }

/-- The first request of a unit that a slice has and has not answered. -/
def Core.openAsk (k : Core) (a : Nat) : Option Ask := k.asks.find? fun x => x.unit = a ∧ x.slice.isSome

/-- REMAP_NACK: the slice answers a request of a unit that has come to it under a slice map that is no longer its own; the
station waits until it has adopted the new map, and then sends again. The eighth answer in a row for one request raises
REMAP_NACK_LIMIT (R360). -/
def execRemapNack (u : CoreUnit) (s : State) : Host.Outcome State Fault Refusal :=
  let k := s.core s.turn.core
  match k.openAsk (askNo s.turn.cask u) with
  | some x =>
    let n := x.nacks + 1
    let y : Ask := { x with slice := none, nacks := n % 8 }
    let s1 := s.setCore s.turn.core { k with asks := k.asks.map fun z => if z = x then y else z }
    let s2 : State := { s1 with dev := s1.dev.sliceCount (x.slice.getD 0) 7 1 }
    .next (if n = 8 ∧ s.unitGoes u then s2.nackLimit u y else s2)
  | none => .next s

/-- REMAP: the station caches the alias of a page (R357). -/
def execRemap (va : Word) (s : State) : Host.Outcome State Fault Refusal :=
  match translate s.turn.core s.cask.kr.asid va.toNat .read s with
  | .ok _ t => .next t
  | .error _ _ => .next s

end Sys2Proof.Machine
end

