-- ==== Sys2Proof/Machine/Sched.lean ====
section
/-! DEFINITION. The launch scheduler: taking launch records (R9, R312), the deal of the press (R14–R16), the start of a
launch on its lease (R314, R396), stride scheduling (R315–R317, R398), pre-emption (R326, R327) and gangs (R328, R329). -/

namespace Sys2Proof.Machine

open Sys2Proof

/-- Ring cycles in a µs (R318). -/
def usec : Nat := 2400

/-- KILLT, GABORT and DRAINB as the last boundary read them (R318). -/
def Dev.killt (d : Dev) : Nat := fld d.sched.toNat 48 16
def Dev.gabort (d : Dev) : Nat := fld d.sched.toNat 32 16
def Dev.drainb (d : Dev) : Nat := fld d.sched.toNat 16 16

/-! ### Taking a record (R9, R310, R312, R396) -/

/-- A record waits in the queue: it is backlogged (R315). -/
def LQueue.backlogged (q : LQueue) : Bool := decide (q.head ≠ q.tail)

/-- The VA of the record that LQHEAD names (R310). -/
def LQueue.recordVa (q : LQueue) : Nat := (q.base.toNat + 128 * (q.head % q.entries)) % 2 ^ 64

/-- An ASID of the function: the scheduler's choice where its slot is bound to it, else the first context of the lowest
slot that is (R396; log 10). -/
def State.chooseAsid (s : State) (q fn : Nat) : Option (BitVec 10) :=
  let a := Config.asidChoice s.tick q
  if s.dev.fnOfAsid a = some fn then some a
  else ((List.range 64).find? fun k => decide (s.dev.fnOfSlot k = some fn)).map fun k => BitVec.ofNat 10 (16 * k)

/-- A launch id that no launch holds (R396; log 10). -/
def State.chooseLid (s : State) (q : Nat) : Nat :=
  let a := (Config.lidChoice s.tick q).toNat
  if (aFind s.dev.launches a).isNone then a
  else ((List.range (s.dev.launches.length + 1)).find? fun k => (aFind s.dev.launches k).isNone).getD 0

/-- The checks of a record by dword, in order (R9, R312); `aff` says whether the press can read the affinity table. -/
def recordChecks (dual hvok aff : Bool) (d : Nat → Nat) : List (Nat × Bool) :=
  let len (i : Nat) : Nat := fld (d 5) (16 * i) 16
  let limit := if dual then 512 else 1024
  let tiles := (fld (d 6) 0 16 + 1) * (fld (d 6) 16 16 + 1) * (fld (d 6) 32 16 + 1)
  [ (0, zeros (d 0) [(25, 7), (4, 4)] && decide (1 ≤ fld (d 0) 16 9 ∧ fld (d 0) 16 9 ≤ 384 ∧ fld (d 0) 8 8 ≤ 64)),
    (1, decide (d 1 % 128 = 0)), (2, decide (d 2 % 128 = 0)), (3, decide (d 3 % 128 = 0)), (4, decide (d 4 % 128 = 0)),
    (5, (List.range 4).all fun i => decide (1 ≤ len i ∧ len i ≤ limit)),
    (6, decide (fld (d 6) 55 9 = 0 ∧ tiles ≤ 2 ^ 31)), (7, decide (d 7 % 8 = 0)), (8, decide (d 8 % 8 = 0) && aff),
    (9, decide (fld (d 9) 32 32 = 0)),
    (11, decide (fld (d 11) 0 32 ≤ klmUser dual ∧ fld (d 11) 32 32 ≤ spmSize dual)), (13, decide (d 13 % 16 = 0)),
    (14, decide (fld (d 14) 16 48 = 0) && (flag (d 0) 3 || decide (d 14 = 0))),
    (15, decide (fld (d 15) 17 47 = 0 ∧ d 15 % 8 = 0 ∧ (d 15 = 0 ∨ d 15 < 128 * len 0)) && (decide (d 15 = 0) || hvok)) ]

/-- The first dword that fails. -/
def firstFault (xs : List (Nat × Bool)) : Option Nat := (xs.find? fun x => !x.2).map (·.1)

/-- The number of tiles of a launch (R10). -/
def Launch.tileCount (l : Launch) : Nat := l.e0 * l.e1 * l.e2

/-- What becomes of a read of the scheduler: it is answered, a slice holds it while the slice map changes (R359), or it fails. -/
inductive Ans where
  | done | held | failed
  deriving DecidableEq, Repr

/-- What becomes of an action at a state. -/
def ansOf {α : Type} (m : Act α) (s : State) : Ans :=
  match m s with
  | .ok _ _ => .done
  | .error .hold _ => .held
  | .error _ _ => .failed

/-- A record of a gang launch has been taken: rank 0, the lowest of the group, is told when (R328). -/
def State.tellTook (s : State) (l : Launch) : State :=
  if !l.gang then s
  else if s.dev.groupSize = 0 ∨ s.dev.rank = 0 then s.gangNotice s.dev.rank l.gangId (.took s.dev.rtc)
  else s.send (.gang 0 l.gangId (.took s.dev.rtc))

/-- The press reads the affinity table of a launch, if it has one (R16). -/
def readAff (p : Partition) (l : Launch) : Act Unit := do
  if l.dw 8 ≠ 0 then do
    let _ ← ioLoad p l.asid (l.dw 8) (8 * l.tileCount)
    pure ()

/-- The scheduler takes the head record of queue `q`, or rejects it (R9, R310, R312). A ring that it cannot read holds
nothing for it (log 10), nor one whose read a slice holds (R359). -/
def State.takeHead (s : State) (q : Nat) : State :=
  let x := s.queueAt q
  match s.chooseAsid q x.vf with
  | none => s
  | some a =>
    match ioLoad (s.partAt x.part) a x.recordVa 128 s with
    | .error .hold _ => s
    | .error _ t => t
    | .ok bs t =>
      let l : Launch := { Launch.reset with queue := q, asid := a, dwords := (pieces 8 16 bs).map fun b => BitVec.ofNat 64 (natOf b) }
      let aff := ansOf (readAff (t.partAt x.part) l) t
      let lid := t.chooseLid q
      let t1 := t.setQueue q { x with taken := some lid }
      let t2 := { t1 with dev := { t1.dev with launches := aSet t1.dev.launches lid l } }
      if aff = .held then s
      else match firstFault (recordChecks (t.partAt x.part).dual (flag x.ctl.toNat 63) (decide (aff = .done)) l.dw) with
        | some field => t2.launchOut lid l 1 field
        | none => t2.tellTook l

/-- The queues of a partition, by number. -/
def State.queuesOf (s : State) (p : Nat) : List Nat := (s.dev.lqs.filter fun x => decide (x.2.part = p)).map (·.1)

/-- The head records of a partition's enabled queues are taken. -/
def State.takeHeads (s : State) (p : Nat) : State :=
  (s.queuesOf p).foldl (fun s q =>
    let x := s.queueAt q
    if x.open_ && x.backlogged && x.taken.isNone then s.takeHead q else s) s

/-! ### The deal (R15, R16) -/

/-- A core's part in a deal: its weight, its share, its list so far. -/
structure Share where
  core : Nat
  w : Nat
  share : Int
  tiles : List Nat
  deriving Repr

/-- The core with the largest share, the lowest id on a tie. -/
def topShare : List Share → Option Share
  | [] => none
  | x :: xs => match topShare xs with
    | some y => if x.share < y.share then some y else some x
    | none => some x

/-- Tile `t` dealt among the candidates. -/
def dealTile (cand : Nat → Bool) (t : Nat) (xs : List Share) : List Share :=
  let total : Nat := (xs.filter fun x => cand x.core).foldl (fun n x => n + x.w) 0
  let ys := xs.map fun x => if cand x.core then { x with share := x.share + (x.w : Int) } else x
  match topShare (ys.filter fun x => cand x.core) with
  | some win => ys.map fun x =>
      if x.core = win.core then { x with share := x.share - (total : Int), tiles := x.tiles ++ [t] } else x
  | none => ys

/-- The tiles from `t` on, `n` of them; `near` gives the cores that a hint names. -/
def deal (near : Nat → Option (List Nat)) : Nat → Nat → List Share → List Share
  | _, 0, xs => xs
  | t, n + 1, xs =>
    let cand : Nat → Bool := match near t with
      | some cs => if xs.any fun x => cs.contains x.core then fun c => cs.contains c else fun _ => true
      | none => fun _ => true
    deal near (t + 1) n (dealTile cand t xs)

/-- The near cores of a slice (R16). -/
def nearCores (h : Nat) : List Nat := (List.range 4).map fun i => 96 * (h / 24) + 4 * (h % 24) + i

/-- The near cores that a hint names; none for a hint of 0, or one that is no canonical address or is not mapped readable (R16). -/
def hintCores (p : Partition) (l : Launch) (va : Nat) : Act (Option (List Nat)) := fun s =>
  if va = 0 || !canonical va then .ok none s
  else match translateIo p l.asid va .read s with
    | .ok loc t => .ok (some (nearCores (homeSlice p loc.asid loc.va))) t
    | .error .hold t => .error .hold t
    | .error _ t => .ok none t

/-- The hints of the tiles from `t` on, `n` of them, as the press reads them for the deal (R16). -/
def readHints (p : Partition) (l : Launch) : Nat → Nat → Act (List (Option (List Nat)))
  | _, 0 => pure []
  | t, n + 1 => do
    let bs ← ioLoad p l.asid (l.dw 8 + 8 * t) 8
    let h ← hintCores p l (natOf bs)
    let hs ← readHints p l (t + 1) n
    pure (h :: hs)

/-- The hints of a launch; without a table there are none. -/
def launchHints (p : Partition) (l : Launch) : Act (List (Option (List Nat))) :=
  if l.dw 8 = 0 then pure [] else readHints p l 0 l.tileCount

/-- The press lists of a launch, by the hints of its tiles (R14, R15). -/
def State.pressLists (s : State) (l : Launch) (hints : List (Option (List Nat))) : SMap (List Nat) :=
  let cores := (l.lease.map (·.1)).filter fun c => (aGet Vint.reset s.dev.vint c).en
  let xs := cores.map fun c => { core := c, w := s.weight l c, share := 0, tiles := [] : Share }
  (deal (fun t => (hints[t]?).getD none) 0 l.tileCount xs).foldl (fun m x => smSet [] m x.core x.tiles) []

/-! ### The start of a launch and of a strand (R11, R304, R314) -/

/-- Parts of an access lie in device memory that the launch's ASID may read and write. -/
def ownPages (p : Partition) (asid : BitVec 10) : List (Nat × Nat) → Act Unit
  | [] => pure ()
  | q :: qs => do
    check (canonical q.1) cProtection
    let loc ← translateIo p asid q.1 .both
    check (decide (loc.ty = 0)) cProtection
    ownPages p asid qs

/-- The buffer of the arguments, where the scheduler's choice keeps the bounds of R396; none where it does not (log 10). -/
def State.placeArgs (s : State) (p : Partition) (lid : Nat) (l : Launch) (bs : List Byte) : Option (Word × State) :=
  let va := Config.argVa s.tick lid
  if decide (va.toNat % 8 = 0 ∧ klmLimit ≤ va.toNat) then
    match (do ownPages p l.asid (lineParts (bs.length / 128 + 2) va.toNat bs.length)
              ioStore p l.asid va.toNat bs : Act Unit) s with
    | .ok _ t => some (va, t)
    | .error _ _ => none
  else none

/-- A launch begins: its arguments are copied, its tiles dealt, its crews made (R15, R21, R314). An affinity table that the press
cannot read any more rejects it (R9, R16). An arguments block that cannot be read ends it with STATUS 2; without a buffer for the
arguments, or while a slice holds a read of it (R359), it does not begin at this step (log 10). -/
def State.beginLaunch (s : State) (lid : Nat) : State :=
  let l := s.launchAt lid
  let p := s.partAt (s.queueAt l.queue).part
  match ioLoad p l.asid (l.dw 7) 512 s with
  | .error .hold _ => s
  | .error _ t => t.launchFail lid
  | .ok bs t =>
    match t.placeArgs p lid l bs with
    | none => t
    | some r => match launchHints p l r.2 with
      | .error .hold _ => s
      | .error _ u => u.launchOut lid l 1 8
      | .ok hints u =>
        let base : Crew := { Crew.reset with start := s.dev.rtc }
        let full : Crew := { base with members := List.range l.strands }
        let lists := u.pressLists l hints
        u.updLaunch lid fun l => { l with
          begun := true, startAt := s.dev.rtc, argVa := r.1, lists := lists, sstep := base,
          crews := if l.full0 && decide (0 < l.crewCount) then [(0, full)] else [] }

/-- The images of a launch: the four streams, the klm and the spm image (R312, R314). -/
def launchImages (p : Partition) (l : Launch) : Act (List (List Byte)) := do
  let len (i : Nat) : Nat := 128 * fld (l.dw 5) (16 * i) 16
  let k ← ioLoad p l.asid (l.dw 1) (len 0)
  let a ← ioLoad p l.asid (l.dw 2) (len 1)
  let b ← ioLoad p l.asid (l.dw 3) (len 2)
  let c ← ioLoad p l.asid (l.dw 4) (len 3)
  let m ← ioLoad p l.asid (l.dw 10) (fld (l.dw 11) 0 32)
  let n ← ioLoad p l.asid (l.dw 12) (fld (l.dw 11) 32 32)
  pure [k, a, b, c, m, n]

/-- A stream at offset 0 of an instruction memory that reads zero beyond it (R144). -/
def streamMem (bs : List Byte) : SMap Byte := smSetRange 0 [] 0 bs

/-- The cask of a new strand (R11, R34, R314): registers and queues reset, instruction memories loaded, the klm and spm
images laid over what the windows hold; the increments held for it on core `n` apply (R304). -/
def Cask.forStrand (old : Cask) (dual b : Bool) (lid o n : Nat) (l : Launch) (ims : List (List Byte)) : Cask :=
  let im (i : Nat) : List Byte := ims.getD i []
  let len (i : Nat) : Nat := 128 * fld (l.dw 5) (16 * i) 16
  let c0 := Cask.reset dual
  let c1 : Cask := { c0 with
    mem := { LocalMem.reset with
      ik := streamMem (im 0), il := streamMem (im 1), im := streamMem (im 2), is := streamMem (im 3),
      spm := old.mem.spm, klm := old.mem.klm, spmP := old.mem.spmP, klmP := old.mem.klmP },
    kr := { c0.kr with
      hvec := l.dw 15, asid := l.asid, lq := BitVec.ofNat 8 l.queue, lid := BitVec.ofNat 32 lid },
    st := { c0.st with
      live := true, ord := o, extents := (List.range 4).map fun i => (0, len i),
      trailer := BitVec.ofNat 7 (fld (l.dw 6) 48 7) } }
  let c2 := (c1.setKlm 0 (im 4)).setSpm 0 (im 5)
  let c3 := ((((c2.setS 1 l.argVa).setS 2 (BitVec.ofNat 64 o)).setS 3 (BitVec.ofNat 64 l.strands)).setS 4
    (BitVec.ofNat 64 lid)).setS 5 (if b then 1 else 0)
  l.incs.foldl (fun c i => if i.1 = n then c.addEv i.2.1 i.2.2 else c) c3

/-- The L1 of a core before a strand of ASID `a` starts in a cask: the dirty lines go home, those of the cask's previous strand
under other ASIDs too (R357), and then the lines of `a` are invalid (R13, R314, R355). Any other line can be written home at
any time (R300). -/
def State.clearL1 (s : State) (n : Nat) (a : BitVec 10) : State :=
  let t := s.writeBackIf n fun _ => true
  t.setCore n { t.core n with l1 := (t.core n).l1.filter fun x => decide (x.asid ≠ a) }

/-- A notice of a gang to the other ranks of the group (R329). -/
def State.tellGang (s : State) (gid : Nat) (m : GangMsg) : State :=
  ((List.range s.dev.groupSize).filter fun r => r ≠ s.dev.rank).foldl (fun s r => s.send (.gang r gid m)) s

/-- The strands of a late member of a gang have all started: the others are told (R329). -/
def State.tellStarted (s : State) (lid : Nat) : State :=
  let l := s.launchAt lid
  if l.gang && decide (l.glate = 1 ∧ l.strands ≤ l.started.length) then s.tellGang l.gangId .started else s

/-- A new strand starts in a cask (R314), once no slice holds a read of its images or turns a line of its core away (R359, R360). An image that cannot be read ends the
launch with STATUS 2 (log 10). -/
def State.startStrand (s : State) (lid o n : Nat) (b : Bool) : State :=
  let l := s.launchAt lid
  if !s.homeFree n then s
  else match launchImages (s.partAt (s.queueAt l.queue).part) l s with
  | .error .hold _ => s
  | .error _ t => t.launchFail lid
  | .ok ims t =>
    let old := t.caskAt n b
    let t1 := t.clearL1 n l.asid
    ((t1.setCaskAt n b (old.forStrand (t1.core n).dual b lid o n l ims)).updLaunch lid fun l =>
      { l with started := l.started ++ [o], incs := l.incs.filter fun i => i.1 ≠ n }).tellStarted lid

/-! ### Casks that a grant gives (R317, R324, R327, R398) -/

/-- The strand of a launch stands in the cask. -/
def Cask.runs (c : Cask) (lid : Nat) : Bool := c.st.live && decide (c.kr.lid.toNat = lid)

/-- A strand that may go on does so: in single-resident mode after its checkpoint, every wait afresh; in dual-resident
mode where its cask issues, or where the one that issues holds no strand (R324, R325, R336; log 10). -/
def State.wake (s : State) (n : Nat) (b : Bool) : State :=
  let k := s.core n
  let c := k.cask b
  if !k.dual then (s.setCaskAt n b (c.restore false false)).deliver n b
  else if k.cur = b then (if c.st.parkedHere c.kr.priv then s.switchIn n b else s)
  else if (k.cask k.cur).st.live then s else s.moveIssue n b

/-- The stores of a cask's buffer performed, and the dirty lines of its core written home (R13), which waits until they can go home
(`linesReady`). -/
def State.drained (s : State) (n : Nat) (b : Bool) : State := tryAct (asCask n b drainBuf) s
def State.linesReady (s : State) (n : Nat) (b : Bool) : Bool := (s.drained n b).homeFree n
def State.linesHome (s : State) (n : Nat) (b : Bool) : State := (s.drained n b).writeBackIf n fun _ => true

/-- The strand of a cask is saved with its launch, its dirty lines written home first (R13, R327). -/
def State.saveStrand (s : State) (n : Nat) (b : Bool) : State :=
  let s1 := s.linesHome n b
  let c := s1.caskAt n b
  (s1.updLaunch c.kr.lid.toNat fun l => { l with saved := aSet l.saved c.st.ord c }).setCaskAt n b c.vacate

/-- A checkpoint of the strand of a cask of a dual-resident core: a switch where the cask issues; its queues park where it
does not (R324, R327). -/
def State.ckptCask (s : State) (n : Nat) (b : Bool) : State :=
  let k := s.core n
  let c := k.cask b
  if k.cur = b then s.switchCask n (!b) true
  else if c.st.parkedHere c.kr.priv || !c.st.live then s
  else (s.setCaskAt n b (c.checkpoint true)).stopRecords n b true

/-- A launch holds back its start for its gang (R328). -/
def Launch.gangWaits (l : Launch) (rtc : Nat) : Bool :=
  l.gang && (match l.gangT with
    | some t => decide (rtc < t)
    | none => true)

/-- Strand `o` of a granted launch takes its vacant cask: what a checkpoint saved, or a new strand. -/
def State.fill (s : State) (lid o n : Nat) (b : Bool) : State :=
  let l := s.launchAt lid
  match aFind l.saved o with
  | some c => ((s.setCaskAt n b c).updLaunch lid fun l => { l with saved := aDel l.saved o }).wake n b
  | none =>
    if l.started.contains o || l.gangWaits s.dev.rtc then s
    else
      let s1 := if l.begun then s else s.beginLaunch lid
      if (s1.launchAt lid).begun then (s1.startStrand lid o n b).wake n b else s1

/-- Strand `o` of a granted launch goes on if its cask is there for it; one that is switched out and holds its cask waits for a
switch (R325). A strand of a dual-resident core that a checkpoint
switched out makes room (R398). -/
def State.place (s : State) (lid o : Nat) : State :=
  match (s.launchAt lid).lease[o]? with
  | none => s
  | some (n, b) =>
    let c := s.caskAt n b
    let other := s.launchAt c.kr.lid.toNat
    if c.runs lid then (if c.st.parkedHere c.kr.priv then s.wake n b else s)
    else if c.st.live then
      (if (s.core n).dual && !other.granted && decide (other.policy = some .checkpoint) && s.linesReady n b then
        ((s.ckptCask n b).saveStrand n b).fill lid o n b else s)
    else s.fill lid o n b

/-- The launches of a partition. -/
def State.launchesOf (s : State) (p : Nat) : List Nat :=
  (s.dev.launches.filter fun x => decide ((s.queueAt x.2.queue).part = p)).map (·.1)

/-- Every strand of the granted launches of a partition goes on where it can. -/
def State.settleGrants (s : State) (p : Nat) : State :=
  if s.dev.trip then s
  else (s.launchesOf p).foldl (fun s lid =>
    if (s.launchAt lid).granted then (List.range (s.launchAt lid).lease.length).foldl (fun s o => s.place lid o) s else s) s

/-! ### Stride scheduling (R315–R317, R398) -/

/-- A round of grants: the casks granted in it so far, and the launches. -/
structure Round where
  s : State
  taken : List (Nat × Bool)
  won : List Nat
  deriving Repr

/-- The casks of the enabled cores of a partition. -/
def State.enabledCasks (s : State) (p : Nat) : List (Nat × Bool) :=
  let x := s.partAt p
  let cores := x.cores.filter fun c => (aGet Vint.reset s.dev.vint c).en
  (cores.map fun c => if x.dual then [(c, false), (c, true)] else [(c, false)]).flatten

/-- One cask a core, in the order of the list (R398). -/
def onePerCore : List (Nat × Bool) → List (Nat × Bool) → List (Nat × Bool)
  | acc, [] => acc
  | acc, x :: xs => if acc.any fun y => y.1 = x.1 then onePerCore acc xs else onePerCore (acc ++ [x]) xs

/-- Casks in increasing core id (R11). -/
def insertCore (x : Nat × Bool) : List (Nat × Bool) → List (Nat × Bool)
  | [] => [x]
  | y :: ys => if x.1 ≤ y.1 then x :: y :: ys else y :: insertCore x ys

/-- The lease of a new launch: the scheduler's choice among the free casks (R317; log 10). -/
def State.chooseLease (s : State) (free : List (Nat × Bool)) (n : Nat) : List (Nat × Bool) :=
  let liked := (Config.leaseOrder s.tick).filter fun x => free.contains x
  ((onePerCore [] (liked ++ free)).take n).foldr insertCore []

/-- The launch at the head of a queue. -/
def State.headLaunch (s : State) (q : Nat) : Option (Nat × Launch) :=
  (s.queueAt q).taken.map fun lid => (lid, s.launchAt lid)

/-- A gang launch is served from the last boundary before its start time on (R328; log 10). -/
def Launch.gangDue (l : Launch) (d : Dev) : Bool := l.gang && !l.gangWaits (d.rtc + d.quant)

/-- The head launch of a queue fits in the free casks: all its strands, or the casks it held before (R317). One that
drains runs on until it ends, and takes no part (R326, R327; log 19). -/
def Round.fits (r : Round) (free : List (Nat × Bool)) (again : Bool) (q : Nat) : Bool :=
  match r.s.headLaunch q with
  | none => false
  | some (_, l) =>
    if !l.begun && l.gang && !l.gangDue r.s.dev then false
    else if decide (l.policy = some .drain) then false
    else if l.lease = [] then decide (l.strands ≤ (onePerCore [] free).length)
    else again && l.lease.all fun x => !r.taken.contains x

/-- The queue with the lowest pass, the lowest id on a tie (R315). -/
def State.leastPass (s : State) : List Nat → Option Nat
  | [] => none
  | q :: qs => match s.leastPass qs with
    | some x =>
      if (s.queueAt x).pass < (s.queueAt q).pass ∨ ((s.queueAt x).pass = (s.queueAt q).pass ∧ x < q) then some x else some q
    | none => some q

/-- The queue that is served next: gangs whose time has come go first (R328; log 10). -/
def State.nextQueue (s : State) (qs : List Nat) : Option Nat :=
  let due := qs.filter fun q => match s.headLaunch q with
    | some (_, l) => !l.begun && l.gangDue s.dev
    | none => false
  match s.leastPass due with
  | some q => some q
  | none => s.leastPass qs

/-- The grant of a queue's head launch: its lease, and the charge of stride × strands (R315). -/
def Round.grant (r : Round) (free : List (Nat × Bool)) (q : Nat) : Round :=
  match r.s.headLaunch q with
  | none => r
  | some (lid, l) =>
    let lease := if l.lease = [] then r.s.chooseLease free l.strands else l.lease
    let x := r.s.queueAt q
    let s1 := r.s.setQueue q { x with pass := (x.pass + 2 ^ 20 / x.tickets * l.strands) % 2 ^ 64 }
    let s2 := s1.updLaunch lid fun l => { l with lease := lease, granted := true, policy := none }
    let s3 := lease.foldl (fun s p => if (s.caskAt p.1 p.2).runs lid then
      s.setCaskAt p.1 p.2 { s.caskAt p.1 p.2 with st := { (s.caskAt p.1 p.2).st with ckpt := false } } else s) s2
    { s := s3, taken := r.taken ++ lease, won := r.won ++ [lid] }

/-- The selection loop (R315) over a pool of casks; `again`: launches that hold a lease take part (R316, R317). -/
def Round.loop (pool : List (Nat × Bool)) (again : Bool) : Nat → List Nat → Round → Round
  | 0, _, r => r
  | f + 1, qs, r =>
    let free := pool.filter fun x => !r.taken.contains x
    match r.s.nextQueue (qs.filter fun q => r.fits free again q) with
    | none => r
    | some q => loop pool again f (qs.filter fun x => x ≠ q) (r.grant free q)

/-- A round in partition `p`; none while TRIP is set (R395). -/
def State.round (s : State) (p : Nat) (pool : List (Nat × Bool)) (again : Bool) : Round :=
  let qs := (s.queuesOf p).filter fun q => (s.queueAt q).open_
  Round.loop pool again (if s.dev.trip then 0 else qs.length) qs { s := s, taken := [], won := [] }

/-! ### Pre-emption (R326, R327) -/

/-- The remaining-time estimate of a launch: the largest among its strands that have not ended (R194). -/
def Launch.estimate (l : Launch) : Nat :=
  ((List.range l.lease.length).filter fun o => !l.ended.contains o).foldl (fun m o =>
    max m ((aFind l.ests o).getD (fld (l.dw 9) 0 32))) 0

/-- The policy (R326). -/
def policyOf (r drainb killt : Nat) (restartable : Bool) (prio : Nat) : Policy :=
  if r ≤ drainb then .drain
  else if restartable && decide (killt ≤ prio) then .kill
  else .checkpoint

/-- A launch that starts afresh at a later grant (R310, R327). DESIGN CHOICE: the increments held for its pending strands go with the
kill (log 71). -/
def Launch.fresh (l : Launch) : Launch :=
  { Launch.reset with queue := l.queue, asid := l.asid, dwords := l.dwords, gangT := l.gangT, glate := l.glate }

/-- Every strand of a launch is killed; the launch waits (R327). -/
def State.killLaunch (s : State) (lid : Nat) : State := (s.killStrands lid).updLaunch lid Launch.fresh

/-- The casks that hold strands of a launch. -/
def State.casksOf (s : State) (lid : Nat) : List (Nat × Bool) :=
  (s.launchAt lid).lease.filter fun p => (s.caskAt p.1 p.2).runs lid

/-- A launch is stopped by checkpoints: at once by a switch on a dual-resident core; on a single-resident one the firmware
does it, and until then the checkpoint is pending (R324, R327). -/
def State.ckptLaunch (s : State) (lid : Nat) : State :=
  (s.casksOf lid).foldl (fun s p =>
    if (s.core p.1).dual then s.ckptCask p.1 p.2
    else s.setCaskAt p.1 p.2 { s.caskAt p.1 p.2 with st := { (s.caskAt p.1 p.2).st with ckpt := true } })
    (s.updLaunch lid fun l => { l with granted := false, policy := some .checkpoint })

/-- A launch that held cores yields them (R315, R326, R327). One that has not begun only gives its grant back; it waits for
the same cores (R317). -/
def State.preempt (s : State) (won : List Nat) (lid : Nat) : State :=
  let l := s.launchAt lid
  if !l.begun then s.updLaunch lid fun l => { l with granted := false }
  else
    let prio := (won.filter fun w => (s.launchAt w).lease.any fun x => l.lease.contains x).foldl (fun m w =>
      max m (s.launchAt w).prio) 0
    match policyOf l.estimate s.dev.drainb s.dev.killt l.restart prio with
    | .drain => s.updLaunch lid fun l => { l with granted := false, policy := some .drain, drainAt := s.dev.rtc }
    | .kill => s.killLaunch lid
    | .checkpoint => s.ckptLaunch lid

/-! ### Gangs (R328, R329) -/

/-- A gang launch has a strand that has not started at its time T. -/
def Launch.late (l : Launch) (rtc : Nat) : Bool := l.gang && !l.gangWaits rtc && decide (l.started.length < l.strands)

/-- GANG_LATE, once for a launch (R329, R368). -/
def State.gangCheck (s : State) (p : Nat) : State :=
  (s.launchesOf p).foldl (fun s lid =>
    let l := s.launchAt lid
    if l.late s.dev.rtc && decide (l.glate = 0) then
      ((s.updLaunch lid fun l => { l with glate := 1 }).logAdd 0x07 (s.queueAt l.queue).vf p 0 l.gangId).tellGang l.gangId .late
    else s) s

/-! ### QUANTUM_BOUNDARY -/

/-- A boundary in one partition (R315). -/
def State.boundary (s : State) (p : Nat) : State :=
  let s1 := s.takeHeads p
  let held := (s1.launchesOf p).filter fun lid => (s1.launchAt lid).granted
  let r := s1.round p (s1.enabledCasks p) true
  let s2 := (held.filter fun lid => !r.won.contains lid).foldl (fun s lid => s.preempt r.won lid) r.s
  (s2.settleGrants p).gangCheck p

/-- The last multiple of QUANT (R315). -/
def Dev.lastBoundary (d : Dev) : Nat := d.rtc / d.quant * d.quant

/-- The values that a boundary puts in force: SCHEDCTL, CAPF, the tickets and EN (R311, R316, R318, R320). -/
def Dev.newQuantum (d : Dev) : Dev :=
  { d with
    lastQ := d.lastBoundary, freed := [], grantDue := [], quant := max 2400 (fld d.schedctl.toNat 0 16), sched := d.schedctl, capf := d.capfNew,
    lqs := d.lqs.map fun x => (x.1, { x.2 with tickets := fld x.2.ctl.toNat 0 21, open_ := x.2.en }) }

/-- QUANTUM_BOUNDARY. -/
def execQuantumBoundary (s : State) : Host.Outcome State Fault Refusal :=
  if s.dev.lastBoundary ≤ s.dev.lastQ ∨ s.dev.sec.stage ≠ 15 then .next s
  else .next ((s.dev.parts.map (·.1)).foldl (fun s p => s.boundary p) { s with dev := s.dev.newQuantum })

/-! ### COMPLETION_GRANT (R316) -/

/-- Casks that completions have freed since the last boundary: no granted launch has them, and no strand stands in them. -/
def State.freedCasks (s : State) (p : Nat) : List (Nat × Bool) :=
  (s.enabledCasks p).filter fun x => s.dev.freed.contains x && !(s.caskAt x.1 x.2).st.live &&
    !(s.dev.launches.any fun l => l.2.granted && l.2.lease.contains x)

/-- COMPLETION_GRANT: the freed cores go to the draining launches' successors, and then to waiting head launches. -/
def execCompletionGrant (p : BitVec 6) (s : State) : Host.Outcome State Fault Refusal :=
  let n := p.toNat
  if !s.dev.grantDue.contains n then .next (s.settleGrants n)
  else
    let s1 := (s.settleGrants n).takeHeads n
    let r := s1.round n (s1.freedCasks n) false
    let s2 := r.s.settleGrants n
    .next { s2 with dev := { s2.dev with grantDue := nsDel s2.dev.grantDue n } }

/-! ### Escalation and saving (R327, R329) -/

/-- The partition of a launch. -/
def State.partOfLaunch (s : State) (lid : Nat) : Nat := (s.queueAt (s.launchAt lid).queue).part

/-- DRAIN_ESCALATION. -/
def execDrainEscalation (lid : BitVec 32) (s : State) : Host.Outcome State Fault Refusal :=
  let l := s.launchAt lid.toNat
  if decide (l.policy = some .drain) && decide (l.drainAt + 4 * s.dev.drainb * usec ≤ s.dev.rtc) then
    .next ((s.ckptLaunch lid.toNat).settleGrants (s.partOfLaunch lid.toNat))
  else .next s

/-- CHECKPOINT_SAVE_DONE: firmware stops and saves the strand of a single-resident core, and the newcomer starts (R327). -/
def execCheckpointSaveDone (s : State) : Host.Outcome State Fault Refusal :=
  let l := s.launch
  let n := s.turn.core
  let b := s.turn.cask
  if s.cask.st.live && !s.dual && !l.granted && decide (l.policy = some .checkpoint) && s.linesReady n b then
    .next (((s.switchOut n b true).saveStrand n b).settleGrants (s.partOfLaunch s.lid))
  else .next s

/-- The start time that rank 0 proposes, once every member has taken the record: the first boundary that lies at least two
quanta after the last of them did (R328). -/
def Dev.gangTime (d : Dev) (gid : Nat) : Option Nat :=
  let took := d.gangTook.filter fun x => x.1 = gid
  if (List.range (max 1 d.groupSize)).all fun r => took.any fun x => x.2.1 = r ∨ d.groupSize = 0 then
    let last := took.foldl (fun m x => max m x.2.2) 0
    some ((last + 2 * d.quant + d.quant - 1) / d.quant * d.quant)
  else none

/-- GANG_START: the members adopt T (R328). Rank 0 proposes it and sends it to the others, which take what it sends. -/
def execGangStart (gid : BitVec 16) (t : Word) (s : State) : Host.Outcome State Fault Refusal :=
  if s.dev.groupSize = 0 ∨ s.dev.rank = 0 then
    match s.dev.gangTime gid.toNat with
    | none => .next s
    | some v =>
      let d := { s.dev with gangTook := s.dev.gangTook.filter fun x => x.1 ≠ gid.toNat }
      .next ((State.adopt { s with dev := d } gid.toNat v).tellGang gid.toNat (.start v))
  else .next (s.adopt gid.toNat t.toNat)

/-- An outgoing launch escalated for a late member (R329). -/
def State.escalate (s : State) (lid : Nat) : State :=
  let l := s.launchAt lid
  match l.policy with
  | some .drain => if l.restart then s.killLaunch lid else s.ckptLaunch lid
  | some .checkpoint => if l.restart then s.killLaunch lid else s
  | _ => s

/-- GANG_ABORT: the launches that hold the lease of a launch that has not started GABORT µs after T. -/
def execGangAbort (lid : BitVec 32) (s : State) : Host.Outcome State Fault Refusal :=
  let l := s.launchAt lid.toNat
  if l.late (s.dev.rtc - s.dev.gabort * usec) && decide (s.dev.gabort * usec ≤ s.dev.rtc) then
    let out := (s.dev.launches.map (·.1)).filter fun m => decide (m ≠ lid.toNat) && (s.casksOf m).any fun x => l.lease.contains x
    .next ((out.foldl (fun s m => s.escalate m) s).settleGrants (s.partOfLaunch lid.toNat))
  else .next s

end Sys2Proof.Machine
end

