-- ==== Sys2Proof/Machine/HostIf.lean ====
section
/-! DEFINITION. What the driver, the firmware and the host do to the machine: launch queue registers (R310, R311), the power
cap and the vintage table (R319, R320), residency (R322), slice maps (R358, R359), slots (R350), migration (R362), the
aperture and AtomicOps (R124, R366, R367), and the registers without a row of their own (R368). -/

namespace Sys2Proof.Machine

open Sys2Proof

/-- A register of BAR0 acts from hand-over on; before, writes are ignored (R379). -/
def bar0 (f : State → State) (s : State) : Host.Outcome State Fault Refusal :=
  .next (if s.dev.sec.stage = 15 then f s else s)

/-- A device changed. -/
def State.updDev (s : State) (f : Dev → Dev) : State := { s with dev := f s.dev }

/-- A partition changed. -/
def State.updPart (s : State) (p : Nat) (f : Partition → Partition) : State :=
  s.updDev fun d => { d with parts := aSet d.parts p (f (s.partAt p)) }

/-- A strand that `f` selects stands in some cask. -/
def State.anyStrand (s : State) (f : Nat → Cask → Bool) : Bool :=
  s.cores.any fun x => (x.2.k0.st.live && f x.1 x.2.k0) || (x.2.k1.st.live && f x.1 x.2.k1)

/-! ### Launch queues (R310, R311, R315) -/

/-- The BAR0 offset of a register of queue `q` (R310, R366). -/
def lqOff (q : Nat) (r : Nat) : Nat := 0x110000 + 64 * q + r

/-- The pass of a queue that becomes backlogged (R315). -/
def State.joinPass (s : State) (q : Nat) : Nat :=
  let x := s.queueAt q
  match s.leastPass ((s.queuesOf x.part).filter fun k => k ≠ q && (s.queueAt k).backlogged) with
  | some k => max x.pass (s.queueAt k).pass
  | none => x.pass

/-- LQTAIL of queue `n` written by a function: a tail beyond the ring is refused; a queue that becomes backlogged takes its pass (R310,
R315). -/
def State.writeTail (s : State) (n : Nat) (v : Word) (fn : Nat := 0) : State :=
  let x := s.queueAt n
  if x.entries < (v.toNat + 2 ^ 64 - x.head) % 2 ^ 64 then s.refuse (lqOff n 0x18) fn x.part
  else
    let y := { x with tail := v.toNat }
    s.setQueue n (if !x.backlogged && y.backlogged then { y with pass := s.joinPass n } else y)

/-- LQTAIL_WRITE (R310, R315). -/
def execLqtailWrite (q : BitVec 8) (v : Word) (s : State) : Host.Outcome State Fault Refusal :=
  bar0 (fun s => s.writeTail q.toNat v) s

/-- A write in BAR0 of a virtual function: the registers of the `k`-th queue bound to it, in increasing queue id, stand at
64 * k, and LQTAIL alone is writable (R366). -/
def State.writeVfBar (s : State) (fn off : Nat) (v : Word) : State :=
  let qs := (List.range 256).filter fun q => decide (fn ≠ 0) && decide ((s.queueAt q).vf = fn)
  match qs[off / 64]? with
  | some q => if off % 64 = 0x18 then s.writeTail q v fn else s
  | none => s

/-- The fields of LQCTL that a write reaches (R311). -/
def lqctlMask : Word := 0x80003F7F81FFFFFF

/-- A value of LQCTL may enable its queue: its tickets, the binding of its function to its partition, and a slot bound to
the function (R311, R350). The physical function is bound to no partition (R363). -/
def State.enableOk (s : State) (v : Nat) : Bool :=
  let vf := fld v 32 7
  decide (1 ≤ fld v 0 21 ∧ fld v 0 21 ≤ 2 ^ 20) && (decide (vf = 0) || (s.partAt (fld v 40 6)).fns.contains vf) &&
  (List.range 64).any fun k => decide (s.dev.fnOfSlot k = some vf)

/-- LQCTL_WRITE (R311, R350). -/
def execLqctlWrite (q : BitVec 8) (v : Word) (s : State) : Host.Outcome State Fault Refusal :=
  bar0 (fun s =>
    if v.getLsbD 31 && !s.enableOk v.toNat then s.refuse (lqOff q.toNat 0x08) 0 (s.queueAt q.toNat).part
    else s.setQueue q.toNat { s.queueAt q.toNat with ctl := v &&& lqctlMask }) s

/-! ### Power cap, vintage table, residency (R319, R320, R322) -/

/-- VCAP_WRITE: in force from the next boundary (R320). -/
def execVcapWrite (v : Word) (s : State) : Host.Outcome State Fault Refusal :=
  bar0 (fun s =>
    let n := fld v.toNat 0 9
    if n = 0 ∨ 256 < n then s.refuse 0x100008 else s.updDev fun d => { d with capfNew := n }) s

/-- VINTAGE_EN_WRITE (R319). -/
def execVintageEnWrite (c : CoreNo) (en spare : Bool) (s : State) : Host.Outcome State Fault Refusal :=
  bar0 (fun s =>
    let x := aGet Vint.reset s.dev.vint c.toNat
    if 384 ≤ c.toNat then s
    else if en && !x.en && (!x.spare || x.seen) then s.refuse (Config.bar0 c.toNat) 0 (s.dev.partNo c.toNat) c.toNat
    else s.updDev fun d => { d with vint := aSet d.vint c.toNat { x with en := en, spare := spare, seen := x.seen || en } }) s

/-- A core takes a residency mode: dirty lines home, everything that the casks hold reset, the L1 invalid (R322). The
monitors stay. -/
def State.setMode (s : State) (n : Nat) (dual : Bool) : State :=
  let t := s.writeBackIf n fun _ => true
  t.setCore n { t.core n with k0 := Cask.reset dual, k1 := Cask.reset dual, cur := false, dual := dual, l1 := [] }

/-- RESIDENCY_CHANGE: refused while a core of the partition holds a strand (R322). It takes place once the dirty lines of the cores
can go home (R359, R360). -/
def execResidencyChange (p : BitVec 6) (dual : Bool) (s : State) : Host.Outcome State Fault Refusal :=
  bar0 (fun s =>
    let x := s.partAt p.toNat
    if x.dual = dual then s
    else if s.anyStrand fun n _ => x.cores.contains n then s.refuse (Config.bar0 (1024 + p.toNat)) 0 p.toNat
    else if !x.cores.all fun n => s.homeFree n then s
    else (x.cores.foldl (fun s n => s.setMode n dual) s).updPart p.toNat fun x => { x with dual := dual }) s

/-! ### Slice maps (R358–R360; logs 21, 22) -/

/-- A monitor whose granule has moved wakes spuriously (R29, R359). -/
def Cask.wakeMoved (c : Cask) (old new : Partition) : Cask :=
  match c.st.armed with
  | some (a, line) =>
    if homeSlice old (BitVec.ofNat 10 a) (128 * line) ≠ homeSlice new (BitVec.ofNat 10 a) (128 * line) then
      { c with st := { c.st with spur := true } }
    else c
  | none => c

/-- SMGEN_WRITE: a write of GEN + 1 starts the change to the staged map; while one is in progress, or of any other value, it
is refused (R359). -/
def execSmgenWrite (p : BitVec 6) (v : Word) (s : State) : Host.Outcome State Fault Refusal :=
  bar0 (fun s =>
    let old := s.partAt p.toNat
    let g : BitVec 8 := v.setWidth 8
    if old.busy || g ≠ old.gen + 1 then s.refuse (Config.bar0 (2048 + p.toNat)) 0 p.toNat
    else s.updPart p.toNat fun x => { x with gen := g, busy := true, next := x.staged, adopted := [], stations := [] }) s

/-- The combining buffers of a slice merged (R277, R359). -/
def Dev.mergeSlice (d : Dev) (j : Nat) : Dev := (d.combT.filter fun p => p.2.2 = j).foldl (fun d p => d.merge p.1) d

/-- The slice adopts the new map: it merges its combining buffers, writes the dirty lines of the granules that it loses to
memory and invalidates those lines, and acknowledges (R359, step 1). -/
def State.sliceAdopts (s : State) (n j : Nat) : State :=
  let p := s.partAt n
  if p.busy && p.slices.contains j && !p.adopted.contains j then
    let s1 : State := { s with dev := s.dev.mergeSlice j }
    let s2 := s1.l2Flush fun x => decide (homeSlice p x.asid (128 * x.line) = j) && p.moves x.asid (128 * x.line) &&
      decide (((s1.dev.fnOfAsid x.asid).map s1.dev.partOfFn).getD 0 = n)
    (s2.updPart n fun x => { x with adopted := nsAdd x.adopted j }).postAgain
  else s

/-- The station of core `c` adopts the new map, once every slice has acknowledged and every request that it sent under the
old one has been answered; the monitors of granules that have moved wake spuriously (R29, R359, steps 2 and 3). -/
def State.stationAdopts (s : State) (n c : Nat) : State :=
  let p := s.partAt n
  let k := s.core c
  if p.busy && p.cores.contains c && !p.stations.contains c && p.slices.all p.adopted.contains && k.asks.all (·.slice.isNone) then
    let new := { p with smap := p.next }
    let s1 := s.setCore c { k with k0 := k.k0.wakeMoved p new, k1 := k.k1.wakeMoved p new }
    s1.updPart n fun x => { x with stations := nsAdd x.stations c }
  else s

/-- The change ends when every slice and every station has acknowledged (R359, step 4). -/
def State.endChange (s : State) (n : Nat) : State :=
  let p := s.partAt n
  if p.busy && p.slices.all p.adopted.contains && p.cores.all p.stations.contains then
    s.updPart n fun x => { x with smap := x.next, next := [], adopted := [], stations := [], busy := false }
  else s

/-- A slice or the station of a core takes its step in a change of the slice map (R359). -/
def State.adoptStep (s : State) (n : Nat) (slice : Bool) (i : Nat) : State :=
  (if slice then s.sliceAdopts n i else s.stationAdopts n i).endChange n

/-! ### Slots, migration (R350, R362) -/

/-- ASLOT_WRITE: refused while a strand runs under the slot (R350). -/
def execAslotWrite (slot : BitVec 6) (v : Word) (s : State) : Host.Outcome State Fault Refusal :=
  bar0 (fun s =>
    let n := slot.toNat
    if s.anyStrand fun _ c => decide (c.kr.asid.toNat / 16 = n) then s.refuse (0x200100 + 8 * n)
    else s.updDev fun d => { d with
      aslot := smSet 0 d.aslot n (v.setWidth 8) }) s

/-- The entry at which a walk ends: its PA, the log2 of its page, and the entry. -/
def leafEntry (d : Dev) (va : Nat) : Nat → List (Nat × Nat × Nat × Bool) → Option (Nat × Nat × Nat)
  | _, [] => none
  | table, (lo, n, _, _) :: rest =>
    match d.phys (table + 8 * fld va lo n) 8 with
    | none => none
    | some e => if flag e 3 then some (table + 8 * fld va lo n, lo, e) else leafEntry d va (pteAddr e) rest

/-- The device page of a VA that can be migrated: valid, writable, 64 KiB or 2 MiB. -/
def Dev.migratable (d : Dev) (asid : BitVec 10) (va : Nat) : Option (Nat × Nat × Nat) :=
  match d.phys (d.ctxbase.toNat + 8 * asid.toNat) 8 with
  | none => none
  | some c =>
    match walk d (d.partOfAsid asid) asid va, leafEntry d va (fld c 16 24 * 2 ^ 16) walkLevels with
    | .leaf lg _, some r => if (lg = 16 ∨ lg = 21) ∧ fld r.2.2 58 2 = 0 ∧ flag r.2.2 2 = true then some r else none
    | _, _ => none

/-- The cells of `n` addresses from `f` on, copied to the addresses from `g` on. -/
def moveCells (m : List Host.Cell) (f g n : Nat) : List Host.Cell :=
  m.filter (fun p => decide (p.1 < g)) ++
  (m.filter fun p => decide (f ≤ p.1) && decide (p.1 < f + n)).map (fun p => (g + (p.1 - f), p.2)) ++
  m.filter fun p => decide (g + n ≤ p.1)

/-- A page moved from frame `f` to frame `g`: bytes and poison, the leaf, the synonym filters, and the page's cached
leaves (R346, R362). The lines that the L2 holds of it stay, and with them the new leaf. -/
def Dev.migrate (d : Dev) (asid : BitVec 10) (va pa lg e g : Nat) : Dev :=
  let f := pteAddr e
  let n := 2 ^ lg
  let pois := d.dmemP.filter fun p => decide (f ≤ p) && decide (p < f + n)
  let mem := moveCells d.dmem f g n
  let e1 := fld e 0 8 + g + fld e 52 12 * 2 ^ 52
  { d with
    dmem := smSetRange Memory.unlisted mem pa (bytesOf 8 e1),
    l2 := d.l2.map fun x => if x.asid = asid ∧ 128 * x.line / n = va / n then { x with lg := lg, pte := BitVec.ofNat 64 e1 } else x,
    dmemP := pois.foldl (fun m p => nsAdd m (g + (p - f))) (nsDelRange (nsDelRange d.dmemP g n) pa 8),
    synf := d.synf.map fun x => if f / 2 ^ 16 ≤ x.frame ∧ x.frame < (f + n) / 2 ^ 16 then
      { x with frame := g / 2 ^ 16 + (x.frame - f / 2 ^ 16) } else x,
    leaves := d.leaves.filter fun l => !(decide (l.asid = asid) && decide (l.va / n = va / n)),
    shadow := d.shadow.filter fun p => !(decide (f ≤ p.1) && decide (p.1 < f + n)),
    combT := d.combT.filter fun p => !(decide (f ≤ 128 * p.1) && decide (128 * p.1 < f + n)), migDone := true }

/-- MIGCTL (R362). -/
def execMigctl (asid : BitVec 10) (va : Word) (frame : BitVec 24) (s : State) : Host.Outcome State Fault Refusal :=
  bar0 (fun s => s.updDev fun d =>
    let g := frame.toNat * 2 ^ 16
    match d.migratable asid va.toNat with
    | some (pa, lg, e) =>
      if g % 2 ^ lg = 0 ∧ g ≠ pteAddr e ∧ g + 2 ^ lg ≤ memSize then d.migrate asid va.toNat pa lg e g else { d with migDone := false }
    | none => { d with migDone := false }) s

/-! ### The aperture (R366, R367) -/

/-- Windows of a function: 64 GiB or 4 GiB in windows of 2 MiB. -/
def windows (fn : Nat) : Nat := if fn = 0 then 2 ^ 15 else 2 ^ 11

/-- APERTURE_WINDOW_WRITE: a write that names an ASID of another function is refused, and a valid window whose ASID belongs to
no function too (R366). -/
def execApertureWindowWrite (fn : BitVec 7) (i : BitVec 15) (v : Word) (s : State) : Host.Outcome State Fault Refusal :=
  bar0 (fun s =>
    let f := fn.toNat
    let a : BitVec 10 := (v >>> 6).setWidth 10
    let w : Window := { v := v.getLsbD 0, asid := a, page := fld v.toNat 21 43 }
    if 64 < f ∨ windows f ≤ i.toNat then s
    else if (match s.dev.fnOfAsid a with
        | some g => decide (g ≠ f)
        | none => w.v) then s.refuse (Config.bar0 (4096 + 2 ^ 15 * f + i.toNat)) f (s.dev.partOfFn f)
    else s.updDev fun d => { d with wins := aSet d.wins (2 ^ 15 * f + i.toNat) w }) s

/-- The ASID and VA of an aperture offset (R366). -/
def Dev.aperture (d : Dev) (fn off : Nat) : Option (BitVec 10 × Nat) :=
  let w := aGet Window.reset d.wins (2 ^ 15 * fn + off / 2 ^ 21)
  if w.v then some (w.asid, w.page * 2 ^ 21 + off % 2 ^ 21) else none

/-- How a request of the host completed. -/
def State.hostAnswer (s : State) (ok : Bool) (bs : List Byte) : State :=
  s.updDev fun d => { d with hostOk := ok, hostData := bs }

/-- The bytes that a read from the PCI Express controller sees at a location: the home value, without the part that a
combining buffer holds, which merges after 4,096 ring cycles (R124, R277). -/
def State.hostBytes (s : State) (l : Loc) (n : Nat) : List Byte :=
  let home := s.homeBytes l n
  if l.ty ≠ 0 then home
  else match aFind s.dev.combT (l.addr / 128) with
    | some t => if t.1 + 4096 ≤ s.dev.rtc then home
        else (home.zip (List.range n)).map fun p => (smGet none s.dev.shadow (l.addr + p.2)).getD p.1
    | none => home

/-- A read from the PCI Express controller, line by line. -/
def hostParts (p : Partition) (a : BitVec 10) : List (Nat × Nat) → Act (List Byte)
  | [] => pure []
  | q :: qs => do
    check (canonical q.1) cProtection (BitVec.ofNat 64 q.1)
    let loc ← translateIo p a q.1 .read
    peerCheck loc
    modify fun s => (s.access loc .demand false).askPeer loc q.2
    let s ← get
    check (!s.homePoison loc q.2) cUncorrectable (BitVec.ofNat 64 q.1)
    let rest ← hostParts p a qs
    pure (s.hostBytes loc q.2 ++ rest)

/-- An access through a valid window. -/
def hostDo (p : Partition) (a : BitVec 10) (va : Nat) : ApAcc → Act (List Byte)
  | .read n => hostParts p a (lineParts (n / 128 + 2) va n)
  | .write bs => do
    ioStore p a va bs
    pure []

/-- A request of a function inside its BAR2. -/
def inBar2 (fn off : Nat) : Bool := decide (fn ≤ 64) && decide (off / 2 ^ 21 < windows fn)

/-- A request of a function, logged with its offset and completed as UR. -/
def State.hostRefuse (s : State) (code fn off : Nat) : State :=
  (s.logAdd code fn (s.dev.partOfFn fn) 0 off).hostAnswer false []

/-- HOST_APERTURE_ACCESS: an invalid window completes as UR and is logged (R366). A translation fault completes as UR
(log 11). A request that a slice holds while the slice map changes is not answered yet (R359; log 21). -/
def execHostApertureAccess (fn : BitVec 7) (off : BitVec 36) (acc : ApAcc) (s : State) : Host.Outcome State Fault Refusal :=
  if !inBar2 fn.toNat off.toNat then .next s
  else match s.dev.aperture fn.toNat off.toNat with
    | none => .next (s.hostRefuse 0x08 fn.toNat off.toNat)
    | some (a, va) =>
      match hostDo (s.dev.partOfAsid a) a va acc s with
      | .ok bs t => .next (t.hostAnswer true bs)
      | .error .hold _ => .next s
      | .error _ t => .next (t.hostAnswer false [])

/-- The value that a host atomic stores. -/
def hostAtomicValue (op : HostAtomic) (n old operand compare : Nat) : Nat :=
  match op with
  | .fetchAdd => (old + operand) % 2 ^ (8 * n)
  | .swap => operand % 2 ^ (8 * n)
  | .cas => if old = compare % 2 ^ (8 * n) then operand % 2 ^ (8 * n) else old

/-- A host atomic at its home: only on a system-atomic page, and there aligned and with both permissions (R124, R352, R367). The
answer says whether the page was one. -/
def hostAtomicDo (p : Partition) (a : BitVec 10) (va n : Nat) (op : HostAtomic) (x cmp : Nat) : Act (Option (List Byte)) := do
  check (canonical va) cProtection
  let loc ← translateIo p a va .any
  if loc.sa then do
    check (decide (va % n = 0)) cAlignment
    check (loc.r && loc.w) cProtection
    peerCheck loc
    modify fun s => s.reach loc .demand
    let s ← get
    check (!s.homePoison loc n) cUncorrectable
    let bs := s.homeBytes loc n
    let s1 := s.atomics loc 1
    set (s1.homeWrite loc (bytesOf n (hostAtomicValue op n (natOf bs) x cmp)))
    pure (some bs)
  else pure none

/-- HOST_ATOMICOP (R124, R365, R367, R368). `sz`: 0 for 32 bits, 1 for 64, 2 for 128. -/
def execHostAtomicop (fn : BitVec 7) (off : BitVec 36) (op : HostAtomic) (sz : BitVec 2) (operand compare : Word) (s : State) :
    Host.Outcome State Fault Refusal :=
  if !inBar2 fn.toNat off.toNat then .next s
  else match s.dev.aperture fn.toNat off.toNat with
    | none => .next (s.hostRefuse 0x08 fn.toNat off.toNat)
    | some (a, va) =>
      if 2 ≤ sz.toNat then .next (s.hostRefuse 0x01 fn.toNat off.toNat)
      else match hostAtomicDo (s.dev.partOfAsid a) a va (4 * 2 ^ sz.toNat) op operand.toNat compare.toNat s with
        | .ok (some bs) t => .next (t.hostAnswer true bs)
        | .ok none t => .next (t.hostRefuse 0x01 fn.toNat off.toNat)
        | .error .hold _ => .next s
        | .error _ t => .next (t.hostAnswer false [])

end Sys2Proof.Machine
end

