-- ==== Sys2Proof/Machine/Boot.lean ====
section
/-! DEFINITION. Resets and bring-up (R378–R381), verified boot (R382–R385), measurements and the mailbox (R386–R389), power
and temperature (R393–R395). SHA-512 and RSASSA-PSS are those of their standards (log 12). -/

namespace Sys2Proof.Machine

open Sys2Proof

/-! ### SHA-512 (R382, R383; PRESUMED, log 12) -/

/-- The initial hash value of SHA-512 (PRESUMED, FIPS 180-4). -/
def shaInit : List Word :=
  [ 0x6A09E667F3BCC908, 0xBB67AE8584CAA73B, 0x3C6EF372FE94F82B, 0xA54FF53A5F1D36F1,
    0x510E527FADE682D1, 0x9B05688C2B3E6C1F, 0x1F83D9ABFB41BD6B, 0x5BE0CD19137E2179 ]

/-- Round constants 0 to 19 of SHA-512. -/
def shaK0 : List Word :=
  [ 0x428A2F98D728AE22, 0x7137449123EF65CD, 0xB5C0FBCFEC4D3B2F, 0xE9B5DBA58189DBBC,
    0x3956C25BF348B538, 0x59F111F1B605D019, 0x923F82A4AF194F9B, 0xAB1C5ED5DA6D8118,
    0xD807AA98A3030242, 0x12835B0145706FBE, 0x243185BE4EE4B28C, 0x550C7DC3D5FFB4E2,
    0x72BE5D74F27B896F, 0x80DEB1FE3B1696B1, 0x9BDC06A725C71235, 0xC19BF174CF692694,
    0xE49B69C19EF14AD2, 0xEFBE4786384F25E3, 0x0FC19DC68B8CD5B5, 0x240CA1CC77AC9C65 ]

/-- Round constants 20 to 39 of SHA-512. -/
def shaK1 : List Word :=
  [ 0x2DE92C6F592B0275, 0x4A7484AA6EA6E483, 0x5CB0A9DCBD41FBD4, 0x76F988DA831153B5,
    0x983E5152EE66DFAB, 0xA831C66D2DB43210, 0xB00327C898FB213F, 0xBF597FC7BEEF0EE4,
    0xC6E00BF33DA88FC2, 0xD5A79147930AA725, 0x06CA6351E003826F, 0x142929670A0E6E70,
    0x27B70A8546D22FFC, 0x2E1B21385C26C926, 0x4D2C6DFC5AC42AED, 0x53380D139D95B3DF,
    0x650A73548BAF63DE, 0x766A0ABB3C77B2A8, 0x81C2C92E47EDAEE6, 0x92722C851482353B ]

/-- Round constants 40 to 59 of SHA-512. -/
def shaK2 : List Word :=
  [ 0xA2BFE8A14CF10364, 0xA81A664BBC423001, 0xC24B8B70D0F89791, 0xC76C51A30654BE30,
    0xD192E819D6EF5218, 0xD69906245565A910, 0xF40E35855771202A, 0x106AA07032BBD1B8,
    0x19A4C116B8D2D0C8, 0x1E376C085141AB53, 0x2748774CDF8EEB99, 0x34B0BCB5E19B48A8,
    0x391C0CB3C5C95A63, 0x4ED8AA4AE3418ACB, 0x5B9CCA4F7763E373, 0x682E6FF3D6B2B8A3,
    0x748F82EE5DEFB2FC, 0x78A5636F43172F60, 0x84C87814A1F0AB72, 0x8CC702081A6439EC ]

/-- Round constants 60 to 79 of SHA-512. -/
def shaK3 : List Word :=
  [ 0x90BEFFFA23631E28, 0xA4506CEBDE82BDE9, 0xBEF9A3F7B2C67915, 0xC67178F2E372532B,
    0xCA273ECEEA26619C, 0xD186B8C721C0C207, 0xEADA7DD6CDE0EB1E, 0xF57D4F7FEE6ED178,
    0x06F067AA72176FBA, 0x0A637DC5A2C898A6, 0x113F9804BEF90DAE, 0x1B710B35131C471B,
    0x28DB77F523047D84, 0x32CAAB7B40C72493, 0x3C9EBE0A15C9BEBC, 0x431D67C49C100D4C,
    0x4CC5D4BECB3E42B6, 0x597F299CFC657E2A, 0x5FCB6FAB3AD6FAEC, 0x6C44198C4A475817 ]

/-- The round constants. -/
def shaK : List Word := shaK0 ++ shaK1 ++ shaK2 ++ shaK3

/-- The number that big-endian bytes make, and `n` bytes of a number, most significant first. -/
def natBE (bs : List Byte) : Nat := bs.foldl (fun n b => 256 * n + b.toNat) 0
def bytesBE (n v : Nat) : List Byte := (bytesOf n v).reverse

/-- The message padded to blocks of 128 bytes. -/
def shaPad (m : List Byte) : List Byte :=
  m ++ 0x80 :: List.replicate ((239 - m.length % 128) % 128) 0 ++ bytesBE 16 (8 * m.length)

/-- The message schedule, newest word first. -/
def shaExtend : Nat → List Word → List Word
  | 0, w => w
  | n + 1, w =>
    let a := w.getD 14 0
    let b := w.getD 1 0
    let s0 := a.rotateRight 1 ^^^ a.rotateRight 8 ^^^ (a >>> 7)
    let s1 := b.rotateRight 19 ^^^ b.rotateRight 61 ^^^ (b >>> 6)
    shaExtend n ((w.getD 15 0 + s0 + w.getD 6 0 + s1) :: w)

/-- One round on the eight working variables. -/
def shaRound (v : List Word) (kw : Word) : List Word :=
  match v with
  | [a, b, c, d, e, f, g, h] =>
    let s1 := e.rotateRight 14 ^^^ e.rotateRight 18 ^^^ e.rotateRight 41
    let ch := (e &&& f) ^^^ (~~~ e &&& g)
    let t1 := h + s1 + ch + kw
    let s0 := a.rotateRight 28 ^^^ a.rotateRight 34 ^^^ a.rotateRight 39
    let maj := (a &&& b) ^^^ (a &&& c) ^^^ (b &&& c)
    [t1 + s0 + maj, a, b, c, d + t1, e, f, g]
  | _ => v

/-- One block. -/
def shaBlock (h : List Word) (blk : List Byte) : List Word :=
  let w0 := ((pieces 8 16 blk).map fun b => BitVec.ofNat 64 (natBE b)).reverse
  let w := (shaExtend 64 w0).reverse
  List.zipWith (· + ·) h ((List.zipWith (· + ·) shaK w).foldl shaRound h)

/-- SHA-512. -/
def sha512 (m : List Byte) : List Byte :=
  let p := shaPad m
  (((pieces 128 (p.length / 128) p).foldl shaBlock shaInit).map fun w => bytesBE 8 w.toNat).flatten

/-! ### RSASSA-PSS (R383; PRESUMED, log 12) -/

/-- x^65537 mod n. -/
def rsaPublic (n x : Nat) : Nat := ((List.range 16).foldl (fun y _ => y * y % n) (x % n)) * x % n

/-- MGF1 with SHA-512, `k` blocks. -/
def mgf1 (seed : List Byte) (k : Nat) : List Byte := ((List.range k).map fun i => sha512 (seed ++ bytesBE 4 i)).flatten

/-- The encoded message of a signature is that of a message hash: trailer, padding, salt of 64 bytes, and hash. -/
def pssOk (bits : Nat) (mHash em : List Byte) : Bool :=
  let len := (bits + 7) / 8
  let db := len - 65
  let masked := em.take db
  let h := (em.drop db).take 64
  let top := 8 * len - bits
  let plain := List.zipWith (· ^^^ ·) masked (mgf1 h (db / 64 + 1))
  let plain := match plain with
    | b :: bs => (b <<< top >>> top) :: bs
    | [] => []
  let pad := plain.take (db - 65)
  let salt := plain.drop (db - 64)
  decide (130 ≤ len) && decide (em.getLastD 0 = 0xBC) && decide ((masked.headD 0).toNat < 2 ^ (8 - top)) &&
  pad.all (· == 0) && decide (plain.getD (db - 65) 0 = 1) && sha512 (List.replicate 8 0 ++ mHash ++ salt) == h

/-- A signature of a message under a big-endian modulus and the exponent 65,537. -/
def rsaVerify (modulus sig msg : List Byte) : Bool :=
  let n := natBE modulus
  let s := natBE sig
  let bits := Nat.log2 n
  let m := rsaPublic n s
  decide (1 < n) && decide (s < n) && decide (m < 256 ^ ((bits + 7) / 8)) &&
  pssOk bits (sha512 msg) (bytesBE ((bits + 7) / 8) m)

/-- The encoded message of RSASSA-PSS for a message hash and a salt, under a modulus of `bits` + 1 bits. -/
def pssEncode (bits : Nat) (mHash salt : List Byte) : List Byte :=
  let len := (bits + 7) / 8
  let h := sha512 (List.replicate 8 0 ++ mHash ++ salt)
  let db : List Byte := List.replicate (len - 130) 0 ++ 1 :: salt
  let top := 8 * len - bits
  let masked := match List.zipWith (· ^^^ ·) db (mgf1 h (db.length / 64 + 1)) with
    | b :: bs => (b <<< top >>> top) :: bs
    | [] => []
  masked ++ h ++ [0xBC]

/-- b^e mod n, for an exponent of at most `f` bits. -/
def powMod (n : Nat) : Nat → Nat → Nat → Nat
  | 0, _, _ => 1 % n
  | f + 1, b, e =>
    if e = 0 then 1 % n
    else
      let h := powMod n f (b * b % n) (e / 2)
      if e % 2 = 1 then h * b % n else h

/-- The modulus of the device identity key, of 4,096 bits (R389). -/
def idModulus : Nat := 2 ^ 4095 + Config.idModulus % 2 ^ 4095

/-- The identity key's signature of a message (R383, R389). -/
def idSign (msg salt : List Byte) : List Byte :=
  bytesBE 512 (powMod idModulus 4096 (natBE (pssEncode 4095 (sha512 msg) salt)) Config.idExponent)

/-! ### Firmware images (R382, R384) -/

/-- Bytes of an image, and a little-endian field of its header. -/
def cut (img : List Byte) (lo n : Nat) : List Byte := (img.drop lo).take n
def hfld (img : List Byte) (lo n : Nat) : Nat := natOf (cut img lo n)

/-- The body length that a header states, and whether it may. -/
def bodyLen (img : List Byte) : Nat := hfld img 16 8
def bodyOk (n : Nat) : Bool := decide (n % 128 = 0) && decide (n ≤ 2 ^ 22)

/-- NEXTKH. -/
def nextKh (img : List Byte) : List Byte := cut img 612 64

/-- The checks of an image, in order: 0 where it is accepted, else ERR (R384). -/
def verifyImage (img : List Byte) (stage : Nat) (kh : List Byte) (minSvn : Nat) : Nat :=
  if !(decide (1536 ≤ img.length) && decide (hfld img 0 4 = 0x4D494B5A) && decide (hfld img 4 4 = 1) &&
      decide (hfld img 12 4 = stage) && bodyOk (bodyLen img) && decide (hfld img 608 4 = 65537) &&
      (cut img 676 348).all (· == 0)) then 0x01
  else if sha512 (cut img 96 516) ≠ kh then 0x02
  else if !rsaVerify (cut img 96 512) (cut img 1024 512) (cut img 0 1024) then 0x03
  else if hfld img 8 4 < minSvn then 0x04
  else if sha512 (cut img 1536 (bodyLen img)) ≠ cut img 32 64 then 0x05
  else 0

/-! ### Measurements (R386) -/

/-- The security processor changed. -/
def State.updSec (s : State) (f : Secure → Secure) : State := s.updDev fun d => { d with sec := f d.sec }

/-- A measurement slot. -/
def Secure.slot (x : Secure) (k : Nat) : List Byte := smGet (List.replicate 64 0) x.ms k

/-- `n` bytes of a list, zeros where it ends. -/
def padTo (n : Nat) (bs : List Byte) : List Byte := bs.take n ++ List.replicate (n - bs.length) 0

/-- The extension of a slot, and its log entry. -/
def Secure.extend (x : Secure) (k : Nat) (m : List Byte) : Secure :=
  { x with
    ms := smSet (List.replicate 64 0) x.ms k (sha512 (x.slot k ++ m)),
    log := x.log ++ [BitVec.ofNat 8 k :: List.replicate 7 0 ++ m ++ padTo 56 (Config.logText x.log.length)] }

/-- A stage is measured before it runs, and its SVN is kept (R386, R389). -/
def Secure.measure (x : Secure) (stage : Nat) (img : List Byte) : Secure :=
  let y := x.extend (stage - 1) (sha512 (cut img 0 1024))
  { y with svn := smSet 0 y.svn stage (hfld img 8 4) }

/-! ### Bring-up (R379–R381) -/

/-- The vintage entry that the fuses give a core, EXF from 280 to 370 and APXF at most a tenth above it (R3, R4, R195). DESIGN
CHOICE: APXF is never below EXF (R4 bounds it from above alone; log 49). -/
def fusedVint (tick n : Nat) : Vint :=
  let exf := 280 + Config.fuseExf n % 91
  let en := Config.fuseEn n && Config.coreOk tick n
  { exf := exf, apxf := exf + Config.fuseApxf n % (exf / 10 + 1), tcls := Config.fuseTcls n % 16, en := en,
    spare := Config.fuseSpare n, seen := en }

/-- The vintage copy as it is measured: 384 words in the layout of VTAB (R195; log 12). -/
def vintBytes (vs : SMap Vint) : List Byte :=
  (vs.map fun p => bytesOf 8 (bit p.2.spare * 2 ^ 37 + bit p.2.en * 2 ^ 36 + p.2.tcls * 2 ^ 32 + p.2.apxf * 2 ^ 16 + p.2.exf)).flatten

/-- The four CDTABs as they are measured: 4 lanes of 256 entries each, every one OPEN (log 12). -/
def cordonBytes : List Byte := List.replicate 4096 0x80

/-- Partition 0 at hand-over (R381). -/
def handOver (vs : SMap Vint) (slices : List Nat) : Partition :=
  let map : SMap Nat := (List.range 1024).map fun i => (i, i % 96)
  { Partition.reset with
    cores := (vs.filter fun p => p.2.en).map (·.1), slices := slices, ranges := [(0, (0, memSize / 2 ^ 16 - 1))],
    smap := smSetRange 0 [] 0 (map.map (·.2)), staged := smSetRange 0 [] 0 (map.map (·.2)) }

/-- The fused minimum SVN of a stage: as the device left its test, or as it has been raised since (R384). -/
def Dev.minSvn (d : Dev) (k : Nat) : Nat := max (Config.minSvn k) (smGet 0 d.svnMin k)

/-- STAGE 8: the later stages are verified and measured in turn, each under the key that the one before names. -/
def lateStages (d : Dev) : List Nat → List Byte → Secure → Nat × Secure
  | [], _, x => (0, x)
  | k :: ks, prev, x =>
    let img := Config.flash d.sec.slotB k
    match verifyImage img k (nextKh prev) (d.minSvn k) with
    | 0 => lateStages d ks img (x.measure k img)
    | e => (e, x)

/-- The channels that fail to train. -/
def badChannels (tick : Nat) : List Nat := (List.range 48).filter fun h => !Config.trains tick h

/-- STAGE 5 to hand-over: training, memory, cordon, later stages. A PF_FLR trains only where a channel failed at the last cold
reset, and a cold reset alone says so (R378). -/
def Dev.bringUp (d : Dev) (tick : Nat) (img1 : List Byte) : Dev :=
  match if d.sec.flr && d.trained then [] else badChannels tick with
  | h :: _ => { d with sec := { d.sec with stage := 5, err := 0x06, failch := h } }
  | [] =>
    let r := lateStages d [2, 3, 4] img1 (d.sec.extend 5 (sha512 cordonBytes))
    let d1 := { d with trained := d.trained || !d.sec.flr, dmem := [], dmemP := [], cdtab := [], cdlen := [] }
    if r.1 ≠ 0 then { d1 with sec := { r.2 with stage := 8, err := r.1 } }
    else { d1 with
      sec := { r.2 with stage := 15 },
      parts := [(0, handOver d.vint ((List.range 96).filter fun j => Config.sliceOk tick j))] }

/-- STAGE 3 and 4, with stage 1 running: the tests and the vintage copy; then the rest. -/
def Dev.fromStage1 (d : Dev) (tick : Nat) (img1 : List Byte) : Dev :=
  let vs : SMap Vint := (List.range 384).map fun n => (n, fusedVint tick n)
  let x := (d.sec.measure 1 img1).extend 4 (sha512 (vintBytes vs))
  Dev.bringUp { d with vint := vs, sec := x } tick img1

/-- The device at the start of a reset: only what stands outside it stays, and the fuses. A PF_FLR keeps what the last cold
reset has found of the channels (R378). -/
def Dev.powerOn (d : Dev) (flr : Bool) : Dev :=
  { Dev.reset with
    hmem := d.hmem, pmem := d.pmem, hmemP := d.hmemP, pmemP := d.pmemP, svnMin := d.svnMin, trained := flr && d.trained,
    sec := { Secure.reset with flr := flr } }

/-- The sequence from the boot ROM on (R379, R385). -/
def Dev.boot (d : Dev) (tick : Nat) : Dev :=
  if !Config.fuseOk then { d with sec := { d.sec with err := 0x08 } }
  else
    let a := Config.flash false 1
    let b := Config.flash true 1
    let ea := verifyImage a 1 Config.khash (d.minSvn 1)
    let eb := verifyImage b 1 Config.khash (d.minSvn 1)
    if ea = 0 then Dev.fromStage1 d tick a
    else if eb = 0 then Dev.fromStage1 { d with sec := { d.sec with slotB := true } } tick b
    else { d with sec := { d.sec with stage := 2, recovery := true, err := eb } }

/-- COLD_RESET (R378, R379). -/
def execColdReset (s : State) : Host.Outcome State Fault Refusal :=
  .next { s with cores := [], dev := (s.dev.powerOn false).boot s.tick }

/-- Every dirty line of every L1 and of the L2s written home (R13). -/
def State.allHome (s : State) : State :=
  ((s.cores.map (·.1)).foldl (fun s n => s.writeBackIf n fun _ => true) s).l2Flush fun _ => true

/-- Every dirty line of an L1 that `f` selects can go home (R359, R360). -/
def State.allFree (s : State) (f : L1Line → Bool) : Bool := s.cores.all fun x => s.homeFree x.1 f

/-- The PCI Express controller answers configuration requests (R379). -/
def Dev.configOpen (d : Dev) : Bool := decide (3 ≤ d.sec.stage)

/-- PF_FLR: dirty lines go home, and then it is as a cold reset, without training where every channel passed it at the last
one (R13, R378). It takes place once the lines can go home. -/
def execPfFlr (s : State) : Host.Outcome State Fault Refusal :=
  if !s.dev.configOpen || !s.allFree fun _ => true then .next s
  else .next { s with cores := [], dev := (s.allHome.dev.powerOn true).boot s.tick }

/-- Stage-1 firmware raises the fused minimum SVN of a stage, after a boot that has completed (R384). -/
def State.raiseSvn (s : State) (k v : Nat) : State :=
  if s.dev.sec.stage = 15 then s.updDev fun d => { d with svnMin := smSet 0 d.svnMin k (max (smGet 0 d.svnMin k) v) } else s

/-- The launches of a function. -/
def State.launchesFn (s : State) (fn : Nat) : List Nat :=
  (s.dev.launches.filter fun x => decide ((s.queueAt x.2.queue).vf = fn)).map (·.1)

/-- VF_FLR: the function's launches end with STATUS 2, its dirty lines go home, its queues are disabled and its windows
invalid (R13, R378). It takes place once the lines can go home (R359, R360). -/
def execVfFlr (fn : BitVec 7) (s : State) : Host.Outcome State Fault Refusal :=
  let f := fn.toNat
  if f = 0 ∨ 64 < f ∨ !s.dev.configOpen then .next s
  else
    let s1 := (s.launchesFn f).foldl (fun s lid => s.launchFail lid) s
    let own (l : L1Line) : Bool := decide (s1.dev.fnOfAsid l.asid = some f)
    let s2 := (s1.cores.map (·.1)).foldl (fun s n => s.writeBackIf n own) s1
    if !s1.allFree own then .next s
    else .next (s2.updDev fun d => { d with
      lqs := d.lqs.map fun x => (x.1, if x.2.vf = f then { x.2 with ctl := x.2.ctl &&& ~~~ 0x80000000, open_ := false } else x.2),
      wins := d.wins.filter fun x => decide (x.1 / 2 ^ 15 ≠ f) })

/-! ### The mailbox (R387–R389) -/

/-- Bytes put into the buffer from byte 0 on, and the command's result. -/
def Secure.answer (x : Secure) (result : Nat) (bs : List Byte) : Secure :=
  { x with result := result, mbox := smSetRange 0 x.mbox 0 bs }

/-- BUSY. -/
def Secure.busy (x : Secure) : Bool := x.job.isSome

/-- A command without arguments in SMCMD: bits [63:8] are zero (R388). -/
def plain (w : Word) (f : Secure → Secure) (x : Secure) : Secure :=
  if w.toNat / 2 ^ 8 = 0 then f x else { x with result := 3 }

/-- The signed part of a report (R389). -/
def Secure.report (x : Secure) : List Byte :=
  bytesOf 4 1 ++ bytesOf 4 (bit x.recovery + 2 * bit x.slotB) ++ padTo 16 Config.serial ++
  ((List.range 4).map fun i => bytesOf 4 (smGet 0 x.svn (i + 1))).flatten ++ List.replicate 24 0 ++
  smGetRange 0 x.mbox 0 64 ++ ((List.range 8).map x.slot).flatten ++ bytesOf 8 x.log.length ++ sha512 x.log.flatten ++
  List.replicate 312 0

/-- ATTEST: the report and its signature. -/
def Secure.doAttest (tick : Nat) (x : Secure) : Secure :=
  x.answer 0 (x.report ++ idSign x.report (padTo 64 (Config.salt tick)))

/-- CERT: the certificate, which fits the buffer. -/
def Secure.doCert (x : Secure) : Secure :=
  let c := (Config.cert idModulus).take 4088
  x.answer 0 (bytesOf 8 c.length ++ c)

/-- LOG: up to 31 entries from an offset in entries (log 12). -/
def Secure.doLog (x : Secure) : Secure :=
  let es := (x.log.drop (natOf (smGetRange 0 x.mbox 0 8))).take 31
  x.answer 0 (bytesOf 8 es.length ++ es.flatten)

/-- The fields of SMCMD for LOADIMG. -/
def ldOff (w : Nat) : Nat := fld w 40 24
def ldLen (w : Nat) : Nat := fld w 27 13

/-- A chunk keeps the rules of R388 against the image held so far. -/
def chunkOk (held : Option (List Byte)) (w : Nat) (img : List Byte) : Bool :=
  let limit := if 1536 ≤ img.length then min (1536 + 2 ^ 22) (1536 + bodyLen img) else 1536 + 2 ^ 22
  zeros w [(10, 17)] && decide (ldLen w % 128 = 0) && decide (128 ≤ ldLen w) && decide (ldLen w ≤ 4096) &&
  decide (ldOff w % 128 = 0) &&
  (if flag w 8 then decide (ldOff w = 0) else match held with
    | some h => decide (ldOff w = h.length)
    | none => false) &&
  decide (img.length ≤ limit) && (!flag w 9 || (decide (1536 ≤ img.length) && decide (img.length = 1536 + bodyLen img)))

/-- LOADIMG in recovery. The last chunk verifies the image as stage 1, and the sequence that stands at STAGE 2 goes on from
STAGE 3 (R385, R388; log 60). -/
def State.loadImg (s : State) (v : Word) : State :=
  let w := v.toNat
  let x := s.dev.sec
  if !x.recovery then s.updSec fun x => { x with result := 2 }
  else
    let chunk := smGetRange 0 x.mbox 0 (ldLen w)
    let img := if flag w 8 then chunk else x.image.getD [] ++ chunk
    if !chunkOk x.image w img then s.updSec fun x => { x with result := 3, image := none }
    else if !flag w 9 then s.updSec fun x => { x with result := 0, image := some img }
    else match verifyImage img 1 Config.khash (s.dev.minSvn 1) with
      | 0 =>
        let s1 := s.updSec fun x => { x with result := 0, image := none }
        if x.stage = 2 then s1.updDev fun d => Dev.fromStage1 { d with sec := { d.sec with err := 0 } } s.tick img else s1
      | e => s.updSec fun x => { x with result := 0x10 + e, err := e, image := none }

/-- The security block answers: from STAGE 3 on, and in recovery (R379, R385). -/
def State.secOpen (s : State) : Bool := decide (3 ≤ s.dev.sec.stage) || s.dev.sec.recovery

/-- A write of SMCMD: the doorbell of a command, which begins; one that finds another running is lost (R387). -/
def State.doorbell (s : State) (w : Word) : State :=
  if !s.secOpen then s
  else s.updSec fun x =>
    if x.busy then { x with lost := true }
    else if 1 ≤ fld w.toNat 0 8 ∧ fld w.toNat 0 8 ≤ 4 then { x with job := some w }
    else { x with result := 1 }

/-- The command `w` of code `k`, which runs, does its work and ends: BUSY is 0 again (R387). -/
def State.secRun (s : State) (k : Nat) (w : Word) (f : State → State) : State :=
  if s.dev.sec.job = some w ∧ fld w.toNat 0 8 = k then f (s.updSec fun x => { x with job := none }) else s

/-- ATTEST, CERT, LOG, LOADIMG: the security processor runs the command; `w` is SMCMD as written (R387–R389). -/
def execAttest (w : Word) (s : State) : Host.Outcome State Fault Refusal :=
  .next (s.secRun 1 w fun s => s.updSec (plain w (Secure.doAttest s.tick)))
def execCert (w : Word) (s : State) : Host.Outcome State Fault Refusal :=
  .next (s.secRun 2 w fun s => s.updSec (plain w Secure.doCert))
def execLog (w : Word) (s : State) : Host.Outcome State Fault Refusal :=
  .next (s.secRun 3 w fun s => s.updSec (plain w Secure.doLog))
def execLoadimg (w : Word) (s : State) : Host.Outcome State Fault Refusal := .next (s.secRun 4 w fun s => s.loadImg w)

/-! ### Power and temperature (R393–R395) -/

/-- The sensors read (R393). -/
def Dev.sense (d : Dev) (tick : Nat) : Dev :=
  { d with
    tio := Config.temp tick 4 % 256, pmod := Config.power tick % 2 ^ 16,
    tds := smSetRange 0 [] 0 ((List.range 4).map fun i => Config.temp tick i % 256) }

/-- The five temperatures, TD0 first. -/
def Dev.temps (d : Dev) : List Nat := (List.range 4).map (smGet 0 d.tds) ++ [d.tio]
def Dev.hottest (d : Dev) : Nat := d.temps.foldl max 0

/-- The cap of the next evaluation (R394). -/
def Dev.stepCap (d : Dev) : Nat :=
  if d.plimw < d.pmod ∨ d.tthr ≤ d.hottest then max 1 (d.capfNew - 8)
  else if d.pmod * 16 < d.plimw * 15 ∧ d.hottest + 5 < d.tthr then min 256 (d.capfNew + 4)
  else d.capfNew

/-- The cap set by firmware, with the log entry of a cap that falls below 256 or returns to it (R394, R368). -/
def State.setCap (s : State) (n : Nat) : State :=
  let d := s.dev
  let s1 := s.updDev fun d => { d with capfNew := n }
  if decide (n < 256) ≠ decide (d.capfNew < 256) then s1.logAdd 0x0A 0 0 0 (d.hottest * 2 ^ 32 + d.pmod * 2 ^ 16 + n) else s1

/-- A launch holds cores: granted, or with a strand in a cask. -/
def State.running (s : State) (lid : Nat) : Bool := (s.launchAt lid).granted || !(s.casksOf lid).isEmpty

/-- The dirty lines of the launches that a trip kills can go home (R359, R360). -/
def State.tripReady (s : State) : Bool :=
  ((s.dev.launches.map (·.1)).filter fun lid => s.running lid).all fun lid =>
    (s.launchAt lid).lease.all fun p => s.linesReady p.1 p.2

/-- TRIP is set and logged, with the five temperatures (R395, R368). -/
def State.tripped (s : State) : State :=
  let d := s.dev
  let v := d.tio * 2 ^ 48 + ((List.range 4).map fun i => smGet 0 d.tds i * 2 ^ (16 + 8 * i)).foldl (· + ·) 0
  (s.updDev fun d => { d with trip := true }).logAdd 0x0B 0 0 0 v

/-- What a trip ends: every running launch is killed with STATUS 2, the dirty lines of every core of its lease written home
first (R13, R395). -/
def State.tripNow (s : State) : State :=
  let out := (s.dev.launches.map (·.1)).filter fun lid => s.running lid
  let t := out.foldl (fun s lid => (s.launchAt lid).lease.foldl (fun s p => s.linesHome p.1 p.2) s) s
  out.foldl (fun s lid => s.launchFail lid) t

/-- POWER_STEP: every 100 µs, from hand-over on (R381, R394, R395; log 60). Cores that were freed before TRIP clears are granted
at the next boundary, no sooner (R395). -/
def execPowerStep (s : State) : Host.Outcome State Fault Refusal :=
  let now := s.dev.rtc / (100 * usec) * (100 * usec)
  if now ≤ s.dev.lastP ∨ s.dev.sec.stage ≠ 15 then .next s
  else
    let s1 := s.updDev fun d => Dev.sense { d with lastP := now } s.tick
    let s2 := s1.setCap s1.dev.stepCap
    if s2.dev.temps.any fun t => decide (125 ≤ t) then
      let s3 := s2.tripped
      .next (if s3.tripReady then s3.tripNow else s)
    else if s2.dev.trip && s2.dev.temps.all fun t => decide (t + 10 < s2.dev.tthr) then
      .next ((s2.updDev fun d => { d with trip := false, freed := [], grantDue := [] }).setCap 128)
    else .next s2

end Sys2Proof.Machine
end

