-- ==== Sys2Proof/Machine/Mat.lean ====
section
/-! DEFINITION. The matrix and tile words of M (R226–R232, R247). -/

namespace Sys2Proof.Machine

open Sys2Proof

/-! ### Shared by the words of M -/

/-- How a word of M runs that completes in full or has no effect (R224): its checks, then its effect. -/
def mRun (t : Tk) (pre : Act Unit) (body : CAct Unit) : State → Host.Outcome State Fault Refusal :=
  eRun .m t { pre := pre, unit := do
    onCask (whole body)
    pure .last }

/-- The pieces of `n` bytes of the SPM from `a` on, `u` bytes each. -/
def spmPieces (u a n : Nat) : List (Nat × Nat × Nat) := (List.range (n / u)).map fun i => (u * i, a + u * i, u)

/-- How a word of M runs that reads or writes a range of the SPM: `n` single-copy pieces, in no order (R114). `body` is its effect
where one turn has room for all of them; otherwise `slow` moves the next piece and, after the last one, finishes. -/
def mPieces (t : Tk) (pre : Act Unit) (n : Cask → Nat) (body : CAct Unit) (slow : Act Prog) :
    State → Host.Outcome State Fault Refusal :=
  eRun .m t { pre := pre, unit := do
    let s ← get
    if !(s.point .m).opened && decide (n s.cask ≤ s.turn.burst + 1) then do
      onCask (whole body)
      pure .last
    else do
      begun .m
      slow }

/-- The next piece of a range of the SPM is read; `use` takes the bytes of all of them. -/
def slowLoad (u : Nat) (range : Cask → Nat × Nat) (use : List Byte → CAct Unit) : Act Prog := do
  let s ← get
  let r := range s.cask
  if !(s.point .m).opened then setPoint .m { opened := true, parts := spmPieces u r.1 r.2, data := List.replicate r.2 0 }
  loadPiece .m false fun a k => onCask (spmLoad a k)
  pointDone .m fun p => do
    onCask (whole (use p.data))
    pure .last

/-- The next of the pieces that the word writes to the SPM is written; `after` follows the last one. -/
def slowStore (what : CAct (List (Nat × Nat × Nat) × List Byte)) (after : CAct Unit) : Act Prog := do
  let s ← get
  if !(s.point .m).opened then do
    let x ← onCask what
    setPoint .m { opened := true, parts := x.1, data := x.2 }
  storePiece .m fun a bs => modify fun s => s.updCask fun c => c.setSpm a bs
  pointDone .m fun _ => do
    onCask (whole after)
    pure .last

/-- A tile belongs to the cask (R34). -/
def ownTile (n : CTile) : Act Unit := do
  let s ← get
  check (tileOwned s.dual s.turn.cask n) cIllegalOperand

/-- The words of a tile; a poisoned one raises UNCORRECTABLE (R346). -/
def readTile (n : CTile) : CAct (List Lane) := do
  let c ← get
  check (!nsHits c.mem.acmP (0x10000 * n.toNat) 0x10000) cUncorrectable
  pure (c.tile n)

/-- Row `i` of a tile or, with `col`, its column; a poisoned word of it raises UNCORRECTABLE (R346). -/
def readLine (n : CTile) (col : Bool) (i : Nat) : CAct (List Lane) := do
  let c ← get
  let ws := (List.range 128).map fun k => if col then 128 * k + i else 128 * i + k
  check (!c.acmPoison n ws) cUncorrectable
  pure (ws.map fun w => smGet 0 c.mx.c (16384 * n.toNat + w))

/-- A whole tile written, which clears its poison. -/
def Cask.putTile (c : Cask) (n : CTile) (ls : List Lane) : Cask :=
  let c1 := c.setTile n ls
  { c1 with mem := { c1.mem with acmP := nsDelRange c1.mem.acmP (0x10000 * n.toNat) 0x10000 } }

/-- A tile of results of one format-free kind, with what they raised. -/
def Cask.putTile32 (c : Cask) (n : CTile) (rs : List (Lane × Rz)) : Cask :=
  (c.putTile n (rs.map (·.1))).tally (tally32 rs)

/-- Columns of `k` from rows. -/
def columns {α : Type} (k : Nat) : List (List α) → List (List α)
  | [] => List.replicate k []
  | r :: rs => r.zipWith List.cons (columns k rs)

/-- The rows of a tile. -/
def tileRows (ls : List Lane) : List (List Lane) := rowsOf 128 128 ls

/-! ### MMA (R81, R85, R86, R94, R226–R229) -/

/-- The geometry of R227. -/
def mmaGeometry (a b : Ring) (bt : Bool) (k : Nat) : Bool :=
  decide (a.rows = 128 ∧ a.cols = k) && (if bt then decide (b.rows = 128 ∧ b.cols = k) else decide (b.rows = k ∧ b.cols = 128))

/-- The checks of MMA on its format word and its rings, in the order of R227. -/
def mmaCheck (bt : Bool) (ra rb : RingNo) (w : Nat) : Act Unit := do
  let s ← get
  let a := s.cask.ring ra.toNat
  let b := s.cask.ring rb.toNat
  check (fwCommon w) cIllegalOperand
  match fwMma w with
  | none => raise cIllegalOperand
  | some (x, y, _, k) => do
    check (decide (ra ≠ rb) && mmaGeometry a b bt k) cIllegalOperand
    check (decide (a.snkf = x ∧ b.snkf = y)) cFormatMismatch

/-- An approximate product (R94): within 2^(e − 14) of p; `frac` is the free value that says where. Zeros, infinities and
NaN are exact. -/
def apxProduct (frac : Int × Nat) (p : XR) : XR :=
  match p with
  | .fin s n d =>
    if n = 0 then p
    else
      let den : Nat := max 1 frac.2
      let k : Int := max (-(den : Int)) (min den frac.1)
      let e := lgRat n d - 14
      let bn : Nat := if 0 ≤ e then 2 ^ e.toNat else 1
      let bd : Nat := if 0 ≤ e then 1 else 2 ^ (-e).toNat
      let v : Int := (n * den * bd : Nat) + bn * k * d
      .fin s v.natAbs (d * den * bd)
  | q => q

/-- The products of an element, approximated from term `i` on where a tick is given. -/
def apxTerms (apx : Option Nat) (el : Nat) : Nat → List XR → List XR
  | _, [] => []
  | i, p :: ps => (match apx with
      | some tick => apxProduct (Config.apx tick el i) p
      | none => p) :: apxTerms apx el (i + 1) ps

/-- One element of a floating MMA. -/
def mmaFloat (rm : Rm) (apx : Option Nat) (k el : Nat) (acc : Lane) (a b : List XR) : Lane × Rz :=
  let p := products (a.zip b)
  let r := accTree rm (lg k) acc (apxTerms apx el 0 p.1)
  (r.1, p.2.or r.2)

/-- One element of an integer MMA (R86). -/
def mmaInt (acc : Lane) (a b : List Int) : Lane × Rz :=
  let t := (a.zipWith (· * ·) b).foldl (· + ·) acc.toInt
  (BitVec.ofInt 32 t, { wrap := decide (t < -(2 ^ 31 : Nat) ∨ ((2 ^ 31 : Nat) : Int) ≤ t) })

/-- Every element of a row against every column, from element `el` on. -/
def mmaRow {α : Type} (f : Nat → Lane → List α → List α → Lane × Rz) (el : Nat) (a : List α) :
    List Lane → List (List α) → List (Lane × Rz)
  | acc :: accs, b :: bs => f el acc a b :: mmaRow f (el + 1) a accs bs
  | _, _ => []

/-- Every row. -/
def mmaRows {α : Type} (f : Nat → Lane → List α → List α → Lane × Rz) (bs : List (List α)) :
    Nat → List (List Lane) → List (List α) → List (Lane × Rz)
  | el, accs :: rest, a :: as => mmaRow f el a accs bs ++ mmaRows f bs (el + 128) rest as
  | _, _, _ => []

/-- The elements of a tile times another, onto accumulators (R228). -/
def mmaTile (w : Nat) (x y : Fmt) (float : Bool) (k : Nat) (apx : Option Nat) (accs : List Lane)
    (a b : List (List Nat)) : List (Lane × Rz) :=
  if float then
    let f (s : Int) (g : Fmt) (rows : List (List Nat)) : List (List XR) :=
      rows.map fun r => r.map fun v => (operandVal g v).scale s
    mmaRows (mmaFloat (fwRm w) apx k) (f (fwBsc w) y b) 0 (tileRows accs) (f (fwAsc w) x a)
  else
    let f (g : Fmt) (rows : List (List Nat)) : List (List Int) := rows.map fun r => r.map fun v => intVal g v
    mmaRows (fun _ acc p q => mmaInt acc p q) (f y b) 0 (tileRows accs) (f x a)

/-- MMA's effect once it has its format word and both rings hold a tile. -/
def mmaBody (z bt : Bool) (n : CTile) (ra rb : RingNo) (w : Nat) (apx : Option Nat) : CAct Unit := do
  match fwMma w with
  | none => pure ()
  | some (x, y, float, k) => do
    let a ← headTile ra.toNat
    let b ← headTile rb.toNat
    let accs ← if z then pure (List.replicate 16384 (0 : Lane)) else readTile n
    let cols := if bt then b.1 else columns 128 b.1
    let rs := mmaTile w x y float k apx accs a.1 cols
    modify fun c =>
      let c1 := (c.putTile n (rs.map (·.1))).tally ((tallyPop a.2.1).plus (tallyPop b.2.1))
      let c2 := c1.tally (if float then tally32 rs else { wraps := (rs.filter fun r => r.2.wrap).length })
      c2.taking .m [ra, rb]

/-- Whether a format word's products are approximate in this launch (R93, R94). -/
def State.apxTick (s : State) (w : Nat) : Option Nat :=
  if s.launch.approx && fwApx w && (match Fmt.ofCode (fwXf w) with
    | some .bx8 | some .bf16 | some .fp16 => true
    | _ => false) then some s.tick else none

/-- A ring holds a tile that no late word of M takes (R41, R229). -/
def ringReady (n : RingNo) : Act Unit := do
  let s ← get
  await (decide (s.cask.pendingPops n.toNat < (s.cask.ring n.toNat).depth))

/-- The word that M stands at has finished from `c` to `d`. -/
def Cask.finishes (c d : Cask) : Bool :=
  !d.st.stopped && d.eM.flight.isNone && (c.eM.flight.any (·.begun) ||
    decide ((d.eM.cn, d.eM.redo.length) ≠ (c.eM.cn, c.eM.redo.length)))

/-- How an MMA runs. It names its rings from its format word on (R42, R44). -/
def mmaRun (t : Tk) (z bt : Bool) (n : CTile) (ra rb : RingNo) : State → Host.Outcome State Fault Refusal :=
  eRun .m t { pre := ownTile n, unit := do
    let w ← takeFormat .m (mmaCheck bt ra rb)
    modify fun s => s.updCask fun c => c.naming .m [ra, rb]
    ringReady ra
    ringReady rb
    mmaCheck bt ra rb w
    let s ← get
    onCask (whole (mmaBody z bt n ra rb w (s.apxTick w)))
    pure .last }

/-- MMA, which the core's monitors count when it finishes (R229, R391). -/
def execMma (t : Tk) (z bt : Bool) (n : CTile) (ra rb : RingNo) (s : State) : Host.Outcome State Fault Refusal :=
  match mmaRun t z bt n ra rb s with
  | .next u => .next (if s.cask.finishes u.cask then u.count 6 1 else u)
  | r => r

/-! ### Tile words (R230–R232) -/

/-- CZERO. -/
def execCzero (t : Tk) (n : CTile) (s : State) : Host.Outcome State Fault Refusal :=
  mRun t (ownTile n) (modify fun c => c.putTile n (List.replicate 16384 0)) s

/-- The checks of CLD, in the order of R231. -/
def cldPre (a b : XReg) (len : BitVec 16) : Act Unit := do
  let s ← get
  let n := 128 * len.toNat
  let off := (s.cask.xreg .m a).toNat
  let spm := (s.cask.xreg .m b).toNat
  check (decide (1 ≤ len.toNat ∧ len.toNat ≤ 512)) cIllegalOperand
  check (decide (off % 128 = 0)) cAlignment (BitVec.ofNat 64 off)
  check (decide (spm % 128 = 0)) cAlignment (BitVec.ofNat 64 spm)
  let lo := if s.dual && s.turn.cask then 0x40000 else 0
  let hi := if s.dual && !s.turn.cask then 0x40000 else 0x80000
  check (decide (lo ≤ off ∧ off + n ≤ hi)) cIllegalOperand
  checkSpm s.dual spm n 128

/-- The bytes that a CLD moves, where they stand in the tiles, and where in the SPM (R231). -/
def Cask.cldOff (c : Cask) (a : XReg) : Nat := (c.xreg .m a).toNat
def Cask.cldTo (c : Cask) (off : Nat) (bs : List Byte) : Cask :=
  { c with
    mx := { c.mx with c := smSetRange 0 c.mx.c (off / 4) ((pieces 4 (bs.length / 4) bs).map fun p => BitVec.ofNat 32 (natOf p)) },
    mem := { c.mem with acmP := nsDelRange c.mem.acmP off bs.length } }
def cldFrom (a : XReg) (n : Nat) : CAct (List Byte) := do
  let c ← get
  check (!nsHits c.mem.acmP (c.cldOff a) n) cUncorrectable
  pure (((smGetRange 0 c.mx.c (c.cldOff a / 4) (n / 4)).map fun l => bytesOf 4 l.toNat).flatten)

/-- CLD: from the SPM into tiles. -/
def execCld (t : Tk) (a b : XReg) (len : BitVec 16) (s : State) : Host.Outcome State Fault Refusal :=
  let n := 128 * len.toNat
  mPieces t (cldPre a b len) (fun _ => n / 4) (do
      let c ← get
      let bs ← spmLoad (c.xreg .m b).toNat n
      modify fun c => c.cldTo (c.cldOff a) bs)
    (slowLoad 4 (fun c => ((c.xreg .m b).toNat, n)) fun bs => modify fun c => c.cldTo (c.cldOff a) bs) s

/-- CLD.out: from tiles into the SPM. -/
def execCldOut (t : Tk) (a b : XReg) (len : BitVec 16) (s : State) : Host.Outcome State Fault Refusal :=
  let n := 128 * len.toNat
  mPieces t (cldPre a b len) (fun _ => n / 4) (do
      let bs ← cldFrom a n
      modify fun c => c.setSpm (c.xreg .m b).toNat bs)
    (slowStore (do
        let bs ← cldFrom a n
        let c ← get
        pure (spmPieces 4 (c.xreg .m b).toNat n, bs)) (pure ())) s

/-- CSCL. -/
def execCscl (t : Tk) (col : Bool) (n : CTile) (va : VReg) (s : State) : Host.Outcome State Fault Refusal :=
  mRun t (ownTile n) (do
    let ls ← readTile n
    modify fun c =>
      let v := c.vreg va
      let rows := if col then (tileRows ls).map fun r => r.zipWith (mul32 .rne) v
        else (tileRows ls).zipWith (fun r k => r.map fun x => mul32 .rne x k) v
      c.putTile32 n rows.flatten) s

/-- CTR. -/
def execCtr (t : Tk) (n m : CTile) (s : State) : Host.Outcome State Fault Refusal :=
  mRun t (do
      ownTile n
      ownTile m) (do
    let ls ← readTile m
    modify fun c => c.putTile n (columns 128 (tileRows ls)).flatten) s

/-- An index that names a row or column (R230). -/
def indexOk (a : XReg) : Act Unit := do
  let s ← get
  check (decide ((s.cask.xreg .m a).toNat < 128)) cIllegalOperand

/-- The magnitude of an fp32 lane. -/
def abs32 (x : Lane) : Lane := x &&& 0x7FFFFFFF

/-- One lane of a reducing CROWV (R232). -/
def crowLane (mode : CrowMode) (row : List Lane) : Lane × Rz :=
  match mode with
  | .sum => rnd32Of (treeSum .rne 7 (row.map f32)) .rne
  | .sq =>
    let ps := row.map fun x => mul32 .rne x x
    let r := rnd32Of (treeSum .rne 7 (ps.map fun p => f32 p.1)) .rne
    (r.1, ps.foldl (fun z p => z.or p.2) r.2)
  | _ => (row.foldl (fun m x => max32 m (abs32 x)) 0, {})

/-- CROWV. -/
def execCrowv (t : Tk) (mode : CrowMode) (vd : VReg) (n : CTile) (a : XReg) (s : State) :
    Host.Outcome State Fault Refusal :=
  mRun t (do
      ownTile n
      if mode = .row ∨ mode = .col then indexOk a) (do
    let c ← get
    match mode with
    | .row | .col => do
      let ls ← readLine n (decide (mode = .col)) (c.xreg .m a).toNat
      modify fun c => c.setV vd ls
    | _ => do
      let ls ← readTile n
      modify fun c => c.putLanes (BitVec.allOnes 128) vd ((tileRows ls).map (crowLane mode)) true) s

/-- Row or column `i` of a tile replaced. -/
def replaceLine (col : Bool) (i : Nat) (v : List Lane) (rows : List (List Lane)) : List (List Lane) :=
  if col then rows.zipWith (fun r x => r.set i x) v else rows.set i v

/-- CVROW. -/
def execCvrow (t : Tk) (col : Bool) (n : CTile) (va : VReg) (a : XReg) (s : State) :
    Host.Outcome State Fault Refusal :=
  mRun t (do
      ownTile n
      indexOk a) (modify fun c =>
    let i := (c.xreg .m a).toNat
    let hit (k : Nat) : Bool := if col then decide (k % 128 = i) else decide (k / 128 = i)
    let c1 := c.setTile n (replaceLine col i (c.vreg va) (tileRows (c.tile n))).flatten
    let p := c1.mem.acmP.filter fun x => !(decide (x / 0x10000 = n.toNat) && hit (x % 0x10000 / 4))
    { c1 with mem := { c1.mem with acmP := p } }) s

/-! ### TMASK (R247) -/

/-- The ancestors of draft `p`, itself included; `f` bounds the walk. -/
def ancestors (va : List Lane) : Nat → Int → List Int
  | 0, _ => []
  | f + 1, p => if p < 0 then [] else p :: ancestors va f ((va.getD p.toNat 0).toInt)

/-- The parent list is legal. -/
def parentsOk (va : List Lane) (n : Nat) : Bool :=
  decide (n ≤ 128) && (List.range n).all fun d => decide (-1 ≤ (va.getD d 0).toInt ∧ (va.getD d 0).toInt < (d : Int))

/-- Row `i` of the mask. -/
def tmaskRow (va : List Lane) (ctx col0 n i : Nat) : List Lane :=
  let anc := if i < n then ancestors va 128 i else []
  (List.range 128).map fun j =>
    let col := col0 + j
    if col < ctx ∨ anc.contains ((col : Int) - ctx) then 0 else ninf32

/-- TMASK. -/
def execTmask (t : Tk) (n : CTile) (va : VReg) (xa xb xc : XReg) (s : State) : Host.Outcome State Fault Refusal :=
  mRun t (do
      ownTile n
      let s ← get
      check (parentsOk (s.cask.vreg va) (s.cask.xreg .m xc).toNat) cIllegalOperand) (modify fun c =>
    c.putTile n ((List.range 128).map (tmaskRow (c.vreg va) (c.xreg .m xa).toNat (c.xreg .m xb).toNat
      (c.xreg .m xc).toNat)).flatten) s

end Sys2Proof.Machine
end

