-- ==== Sys2Proof/Machine/Vec.lean ====
section
/-! DEFINITION. The vector and mask words of M that stay in its registers (R233–R239, R244–R246). -/

namespace Sys2Proof.Machine

open Sys2Proof

/-- A vector word: no checks of its own, and an effect that cannot fail. -/
def vRun (t : Tk) (f : Cask → Cask) : State → Host.Outcome State Fault Refusal := mRun t (pure ()) (modify f)

/-- A vector word with one operand, lane by lane. -/
def lane1 (mk : Option MReg) (vd va : VReg) (counted : Bool) (f : Lane → Lane × Rz) (c : Cask) : Cask :=
  c.putLanes (c.active mk) vd ((c.vreg va).map f) counted

/-- A vector word with two operands. -/
def lane2 (mk : Option MReg) (vd va : VReg) (vb : VSrc) (counted : Bool) (f : Lane → Lane → Lane × Rz) (c : Cask) :
    Cask :=
  c.putLanes (c.active mk) vd ((c.vreg va).zipWith f (c.vsrc vb)) counted

/-- Three operands, lane by lane. -/
def zip3 (f : Lane → Lane → Lane → Lane × Rz) : List Lane → List Lane → List Lane → List (Lane × Rz)
  | a :: as, b :: bs, x :: xs => f a b x :: zip3 f as bs xs
  | _, _, _ => []

/-- A lane that raises nothing. -/
def quiet (x : Lane) : Lane × Rz := (x, {})

/-- The words count floating results only (R233). -/
def counts : VTy → Bool
  | .fp32 => true
  | _ => false

/-! ### Arithmetic (R234) -/

/-- VADD's lane. -/
def addLane : VTy → Lane → Lane → Lane × Rz
  | .fp32, a, b => add32 .rne a b
  | _, a, b => quiet (a + b)

/-- VSUB's lane. -/
def subLane : VTy → Lane → Lane → Lane × Rz
  | .fp32, a, b => sub32 .rne a b
  | _, a, b => quiet (a - b)

/-- VMUL's lane. -/
def mulLane : VTy → Lane → Lane → Lane × Rz
  | .fp32, a, b => mul32 .rne a b
  | _, a, b => quiet (a * b)

/-- VFMA's lane. -/
def fmaLane : VTy → Lane → Lane → Lane → Lane × Rz
  | .fp32, a, b, x => fma32 .rne a b x
  | _, a, b, x => quiet (a * b + x)

/-- VMAX's lane. -/
def maxLane : VTy → Lane → Lane → Lane
  | .fp32, a, b => max32 a b
  | .i32, a, b => if a.toInt < b.toInt then b else a
  | .n32, a, b => if a.toNat < b.toNat then b else a

/-- VMIN's lane. -/
def minLane : VTy → Lane → Lane → Lane
  | .fp32, a, b => min32 a b
  | .i32, a, b => if b.toInt < a.toInt then b else a
  | .n32, a, b => if b.toNat < a.toNat then b else a

/-- VABS's lane. -/
def absLane : VTy → Lane → Lane
  | .fp32, a => abs32 a
  | .i32, a => if a.toInt < 0 then -a else a
  | .n32, a => a

/-- VNEG's lane. -/
def negLane : VTy → Lane → Lane
  | .fp32, a => a ^^^ nzero32
  | _, a => -a

/-- VADD. -/
def execVadd (t : Tk) (ty : VTy) (mk : Option MReg) (vd va : VReg) (vb : VSrc) (s : State) :
    Host.Outcome State Fault Refusal := vRun t (lane2 mk vd va vb (counts ty) (addLane ty)) s

/-- VSUB. -/
def execVsub (t : Tk) (ty : VTy) (mk : Option MReg) (vd va : VReg) (vb : VSrc) (s : State) :
    Host.Outcome State Fault Refusal := vRun t (lane2 mk vd va vb (counts ty) (subLane ty)) s

/-- VMUL. -/
def execVmul (t : Tk) (ty : VTy) (mk : Option MReg) (vd va : VReg) (vb : VSrc) (s : State) :
    Host.Outcome State Fault Refusal := vRun t (lane2 mk vd va vb (counts ty) (mulLane ty)) s

/-- VFMA. -/
def execVfma (t : Tk) (ty : VTy) (mk : Option MReg) (vd va : VReg) (vb : VSrc) (vc : VReg) (s : State) :
    Host.Outcome State Fault Refusal :=
  vRun t (fun c => c.putLanes (c.active mk) vd (zip3 (fmaLane ty) (c.vreg va) (c.vsrc vb) (c.vreg vc)) (counts ty)) s

/-- VMAX. -/
def execVmax (t : Tk) (ty : VTy) (mk : Option MReg) (vd va : VReg) (vb : VSrc) (s : State) :
    Host.Outcome State Fault Refusal := vRun t (lane2 mk vd va vb (counts ty) fun a b => quiet (maxLane ty a b)) s

/-- VMIN. -/
def execVmin (t : Tk) (ty : VTy) (mk : Option MReg) (vd va : VReg) (vb : VSrc) (s : State) :
    Host.Outcome State Fault Refusal := vRun t (lane2 mk vd va vb (counts ty) fun a b => quiet (minLane ty a b)) s

/-- VABS: it counts nothing (R76, R92). -/
def execVabs (t : Tk) (ty : VTy) (mk : Option MReg) (vd va : VReg) (s : State) : Host.Outcome State Fault Refusal :=
  vRun t (lane1 mk vd va false fun a => quiet (absLane ty a)) s

/-- VNEG: it counts nothing (R76, R92). -/
def execVneg (t : Tk) (ty : VTy) (mk : Option MReg) (vd va : VReg) (s : State) : Host.Outcome State Fault Refusal :=
  vRun t (lane1 mk vd va false fun a => quiet (negLane ty a)) s

/-- VRCP (R90). -/
def execVrcp (t : Tk) (mk : Option MReg) (vd va : VReg) (s : State) : Host.Outcome State Fault Refusal :=
  vRun t (lane1 mk vd va true Sys2Proof.vrcp) s

/-- VRSQ (R90). -/
def execVrsq (t : Tk) (mk : Option MReg) (vd va : VReg) (s : State) : Host.Outcome State Fault Refusal :=
  vRun t (lane1 mk vd va true Sys2Proof.vrsq) s

/-- VSQRT (R90). -/
def execVsqrt (t : Tk) (mk : Option MReg) (vd va : VReg) (s : State) : Host.Outcome State Fault Refusal :=
  vRun t (lane1 mk vd va true Sys2Proof.vsqrt) s

/-- VEXP2 (R90). -/
def execVexp2 (t : Tk) (mk : Option MReg) (vd va : VReg) (s : State) : Host.Outcome State Fault Refusal :=
  vRun t (lane1 mk vd va true Sys2Proof.vexp2) s

/-- VLOG2 (R90). -/
def execVlog2 (t : Tk) (mk : Option MReg) (vd va : VReg) (s : State) : Host.Outcome State Fault Refusal :=
  vRun t (lane1 mk vd va true Sys2Proof.vlog2) s

/-- VAND. -/
def execVand (t : Tk) (mk : Option MReg) (vd va : VReg) (vb : VSrc) (s : State) : Host.Outcome State Fault Refusal :=
  vRun t (lane2 mk vd va vb false fun a b => quiet (a &&& b)) s

/-- VOR. -/
def execVor (t : Tk) (mk : Option MReg) (vd va : VReg) (vb : VSrc) (s : State) : Host.Outcome State Fault Refusal :=
  vRun t (lane2 mk vd va vb false fun a b => quiet (a ||| b)) s

/-- VXOR. -/
def execVxor (t : Tk) (mk : Option MReg) (vd va : VReg) (vb : VSrc) (s : State) : Host.Outcome State Fault Refusal :=
  vRun t (lane2 mk vd va vb false fun a b => quiet (a ^^^ b)) s

/-- The shifts with type fp32 raise ILLEGAL_OPERAND (R234). -/
def shiftPre (ty : VTy) : Act Unit := check (shiftOk ty) cIllegalOperand

/-- VSHL. -/
def execVshl (t : Tk) (ty : VTy) (mk : Option MReg) (vd va : VReg) (vb : VSrc) (s : State) :
    Host.Outcome State Fault Refusal :=
  mRun t (shiftPre ty) (modify (lane2 mk vd va vb false fun a b => quiet (a <<< (b.toNat % 32)))) s

/-- VSHR's lane: arithmetic for i32. -/
def shrLane : VTy → Lane → Lane → Lane
  | .i32, a, b => a.sshiftRight (b.toNat % 32)
  | _, a, b => a >>> (b.toNat % 32)

/-- VSHR. -/
def execVshr (t : Tk) (ty : VTy) (mk : Option MReg) (vd va : VReg) (vb : VSrc) (s : State) :
    Host.Outcome State Fault Refusal :=
  mRun t (shiftPre ty) (modify (lane2 mk vd va vb false fun a b => quiet (shrLane ty a b))) s

/-! ### Conversion, comparison, selection (R235, R236) -/

/-- VCVT's element: the code of the result and what it raised. -/
def cvtCode (src dst : Fmt) (rm : Rm) (a : Lane) : Nat × Rz := cvt (exactVal src (a.toNat % 2 ^ src.bits)) dst rm

/-- A code as a lane: sign-extended for the signed integers. -/
def laneOf (f : Fmt) (v : Nat) : Lane := if f.signed then BitVec.ofInt 32 (sxN v f.bits) else BitVec.ofNat 32 v

/-- VCVT. -/
def execVcvt (t : Tk) (mk : Option MReg) (src dst : Fmt) (rm : Rm) (vd va : VReg) (s : State) :
    Host.Outcome State Fault Refusal :=
  vRun t (fun c =>
    let es := (c.vreg va).map (cvtCode src dst rm)
    let m := c.active mk
    (c.putLanes m vd (es.map fun e => quiet (laneOf dst e.1)) false).tally (tally dst (activeOf m 0 es))) s

/-- A comparison of R236. -/
def cmpLane (cond : VCond) (ty : VTy) (a b : Lane) : Bool :=
  let lt : Bool := match ty with
    | .fp32 => (f32 a).lt (f32 b)
    | .i32 => decide (a.toInt < b.toInt)
    | .n32 => decide (a.toNat < b.toNat)
  let eq : Bool := match ty with
    | .fp32 => (f32 a).eq (f32 b)
    | _ => decide (a = b)
  let nan : Bool := match ty with
    | .fp32 => (f32 a).isNan || (f32 b).isNan
    | _ => false
  match cond with
  | .eq => eq
  | .ne => !eq
  | .lt => !nan && lt
  | .le => !nan && (lt || eq)
  | .gt => !nan && !lt && !eq
  | .ge => !nan && !lt
  | .un => nan

/-- VCMP. -/
def execVcmp (t : Tk) (cond : VCond) (ty : VTy) (mk : Option MReg) (md : MReg) (va : VReg) (vb : VSrc) (s : State) :
    Host.Outcome State Fault Refusal :=
  mRun t (check (vcmpOk cond ty) cIllegalOperand) (modify fun c =>
    let m := c.active mk
    let r := maskOf ((c.vreg va).zipWith (cmpLane cond ty) (c.vsrc vb))
    c.setM md ((r &&& m) ||| (c.mreg md &&& ~~~ m))) s

/-- VSEL. -/
def execVsel (t : Tk) (vd va : VReg) (vb : VSrc) (mk : MReg) (s : State) : Host.Outcome State Fault Refusal :=
  vRun t (fun c => c.setV vd (mergeLanes (c.mreg mk) 0 (c.vsrc vb) (c.vreg va))) s

/-! ### Reductions (R89, R237) -/

/-- Lanes outside the mask replaced. -/
def withExcluded (m : BitVec 128) (x : Lane) (ls : List Lane) : List Lane :=
  mergeLanes m 0 (List.replicate 128 x) ls

/-- VREDS's value. -/
def redSum (ty : VTy) (m : BitVec 128) (ls : List Lane) : Lane × Rz :=
  match ty with
  | .fp32 => rnd32Of (treeSum .rne 7 ((withExcluded m nzero32 ls).map f32)) .rne
  | _ => quiet ((withExcluded m 0 ls).foldl (· + ·) 0)

/-- VREDM's value. -/
def redMax (ty : VTy) (m : BitVec 128) (ls : List Lane) : Lane :=
  match ty with
  | .fp32 => (withExcluded m ninf32 ls).foldl max32 ninf32
  | .i32 => (withExcluded m 0x80000000 ls).foldl (maxLane .i32) 0x80000000
  | .n32 => (withExcluded m 0 ls).foldl (maxLane .n32) 0

/-- A reduction's value in every lane; it counts as one element. -/
def Cask.putReduced (c : Cask) (vd : VReg) (r : Lane × Rz) (counted : Bool) : Cask :=
  let c1 := c.setV vd (List.replicate 128 r.1)
  if counted then c1.tally (tally32 [r]) else c1

/-- VREDS. -/
def execVreds (t : Tk) (ty : VTy) (mk : Option MReg) (vd va : VReg) (s : State) : Host.Outcome State Fault Refusal :=
  vRun t (fun c => c.putReduced vd (redSum ty (c.active mk) (c.vreg va)) (counts ty)) s

/-- VREDM. -/
def execVredm (t : Tk) (ty : VTy) (mk : Option MReg) (vd va : VReg) (s : State) : Host.Outcome State Fault Refusal :=
  vRun t (fun c => c.putReduced vd (quiet (redMax ty (c.active mk) (c.vreg va))) (counts ty)) s

/-! ### Lanes moved (R238, R239) -/

/-- Lanes written under a mask; nothing counts. -/
def Cask.moveLanes (c : Cask) (mk : Option MReg) (vd : VReg) (ls : List Lane) : Cask :=
  c.setV vd (mergeLanes (c.active mk) 0 (c.vreg vd) ls)

/-- VBCST. -/
def execVbcst (t : Tk) (mk : Option MReg) (vd : VReg) (src : BcSrc) (s : State) : Host.Outcome State Fault Refusal :=
  vRun t (fun c => c.moveLanes mk vd (match src with
    | .lane va n => List.replicate 128 ((c.vreg va).getD n.toNat 0)
    | .x r => List.replicate 128 ((c.xreg .m r).setWidth 32))) s

/-- VPERM. -/
def execVperm (t : Tk) (mk : Option MReg) (vd va : VReg) (vb : VSrc) (s : State) : Host.Outcome State Fault Refusal :=
  vRun t (fun c => c.moveLanes mk vd ((c.vsrc vb).map fun i => (c.vreg va).getD (i.toNat % 128) 0)) s

/-- VCMPR. -/
def execVcmpr (t : Tk) (vd va : VReg) (mk : MReg) (s : State) : Host.Outcome State Fault Refusal :=
  vRun t (fun c =>
    let ls := activeOf (c.mreg mk) 0 (c.vreg va)
    c.setV vd (ls ++ List.replicate (128 - ls.length) 0)) s

/-- Lanes spread over the set bits of a mask, zeros elsewhere; `n` lanes from lane `i` on. -/
def expandLanes (m : BitVec 128) : Nat → Nat → List Lane → List Lane
  | _, 0, _ => []
  | i, n + 1, ls =>
    if m.getLsbD i then ls.headD 0 :: expandLanes m (i + 1) n (ls.drop 1) else 0 :: expandLanes m (i + 1) n ls

/-- VEXPD. -/
def execVexpd (t : Tk) (vd va : VReg) (mk : MReg) (s : State) : Host.Outcome State Fault Refusal :=
  vRun t (fun c => c.setV vd (expandLanes (c.mreg mk) 0 128 (c.vreg va))) s

/-- VIOTA. -/
def execViota (t : Tk) (mk : Option MReg) (vd : VReg) (xb : Option XReg) (s : State) :
    Host.Outcome State Fault Refusal :=
  vRun t (fun c =>
    let b : Lane := match xb with
      | some r => (c.xreg .m r).setWidth 32
      | none => 0
    c.moveLanes mk vd ((List.range 128).map fun i => BitVec.ofNat 32 i + b)) s

/-! ### Masks (R245) -/

/-- MAND. -/
def execMand (t : Tk) (md ma mb : MReg) (s : State) : Host.Outcome State Fault Refusal :=
  vRun t (fun c => c.setM md (c.mreg ma &&& c.mreg mb)) s

/-- MOR. -/
def execMor (t : Tk) (md ma mb : MReg) (s : State) : Host.Outcome State Fault Refusal :=
  vRun t (fun c => c.setM md (c.mreg ma ||| c.mreg mb)) s

/-- MNOT. -/
def execMnot (t : Tk) (md ma : MReg) (s : State) : Host.Outcome State Fault Refusal :=
  vRun t (fun c => c.setM md (~~~ c.mreg ma)) s

/-- VCNT. -/
def execVcnt (t : Tk) (xd : XReg) (mk : MReg) (s : State) : Host.Outcome State Fault Refusal :=
  vRun t (fun c => c.setX .m xd (BitVec.ofNat 64 (maskCount (c.mreg mk)))) s

/-! ### The side-band latch (R244) -/

/-- The lanes that a selector of VSBAND other than mask writes. -/
def sbandLanes (sel : SbSel) (b : Nat) : List Lane :=
  let eight (f : Nat → Nat) : List Lane := (List.range 128).map fun i => BitVec.ofNat 32 (if i < 8 then f i else 0)
  match sel with
  | .mask => []
  | .ver => eight fun i => fld b (128 + 32 * i) 32
  | .wf => eight fun i => fld b (384 + i) 1
  | .hdr => [BitVec.ofNat 32 (fld b 408 4), BitVec.ofNat 32 (fld b 404 3), BitVec.ofNat 32 (fld b 400 4),
      BitVec.ofInt 32 (sxN (fld b 392 8) 8)] ++ List.replicate 124 0
  | .bits => (List.range 128).map fun i => BitVec.ofNat 32 (fld b i 1)

/-- VSBAND. -/
def execVsband (t : Tk) (sel : SbSel) (vd : VReg) (s : State) : Host.Outcome State Fault Refusal :=
  vRun t (fun c =>
    if sel = .mask then c.setM (vd.setWidth 3) (c.mx.latch.setWidth 128)
    else c.setV vd (sbandLanes sel c.mx.latch.toNat)) s

/-! ### VBLEND (R246) -/

/-- Register v(k + i). -/
def vPlus (k : VReg) (i : Nat) : VReg := BitVec.ofNat 5 (k.toNat + i)

/-- The lanes of a blend: for each, the results for m, s and v. "Operand" in R246's last sentence is taken by element (DEDUCED,
log 67). -/
def blendLane (m1 s1 v1 m2 s2 v2 : Lane) : (Lane × Rz) × (Lane × Rz) × (Lane × Rz) :=
  let k := blendKind m1 m2
  ((blendMax k.1 m1 m2, k.2), blendWord k.1 s1 s2, blendWord k.1 v1 v2)

/-- Every lane of a blend. -/
def blendLanes : List (Lane × Lane × Lane) → List (Lane × Lane × Lane) → List ((Lane × Rz) × (Lane × Rz) × (Lane × Rz))
  | a :: as, b :: bs => blendLane a.1 a.2.1 a.2.2 b.1 b.2.1 b.2.2 :: blendLanes as bs
  | _, _ => []

/-- The triple of vectors at v(k). -/
def Cask.triple (c : Cask) (k : VReg) : List (Lane × Lane × Lane) :=
  (c.vreg k).zip ((c.vreg (vPlus k 1)).zip (c.vreg (vPlus k 2)))

/-- VBLEND. -/
def execVblend (t : Tk) (mk : Option MReg) (vd va vb : VReg) (s : State) : Host.Outcome State Fault Refusal :=
  mRun t (check (decide (vd.toNat ≤ 29 ∧ va.toNat ≤ 29 ∧ vb.toNat ≤ 29)) cIllegalOperand) (modify fun c =>
    let rs := blendLanes (c.triple va) (c.triple vb)
    let m := c.active mk
    ((c.putLanes m vd (rs.map (·.1)) true).putLanes m (vPlus vd 1) (rs.map (·.2.1)) true).putLanes m (vPlus vd 2)
      (rs.map (·.2.2)) true) s

end Sys2Proof.Machine
end

