-- ==== Sys2Proof/Machine/VMem.lean ====
section
/-! DEFINITION. The vector words of M that reach the SPM and the rings (R240–R243). -/

namespace Sys2Proof.Machine

open Sys2Proof

/-- Lanes as bytes, and bytes as lanes. -/
def laneBytes (ls : List Lane) : List Byte := (ls.map fun l => bytesOf 4 l.toNat).flatten
def bytesLanes (n : Nat) (bs : List Byte) : List Lane := (pieces 4 n bs).map fun p => BitVec.ofNat 32 (natOf p)

/-! ### Conditional streams (R240, R241) -/

/-- Words per record. -/
def recWords (w2 : Bool) : Nat := if w2 then 2 else 1

/-- The checks of CQAPP and CQTAKE for `n` records. -/
def cqPre (w2 : Bool) (xa xb : XReg) (n : Cask → Nat) : Act Unit := do
  let s ← get
  check (decide (xa ≠ xb)) cIllegalOperand
  checkSpm s.dual (s.cask.xreg .m xa).toNat (4 * recWords w2 * n s.cask) 4

/-- The records of the selected lanes. -/
def records (w2 : Bool) : List Lane → List Lane → List Lane
  | a :: as, b :: bs => (if w2 then [a, b] else [a]) ++ records w2 as bs
  | _, _ => []

/-- CQAPP. -/
def execCqapp (t : Tk) (w2 : Bool) (xa xb : XReg) (va vb : VReg) (mk : MReg) (s : State) :
    Host.Outcome State Fault Refusal :=
  let words (c : Cask) : Nat := recWords w2 * maskCount (c.mreg mk)
  let after (c : Cask) : Cask :=
    (c.setX .m xa (c.xreg .m xa + BitVec.ofNat 64 (4 * words c))).setX .m xb (c.xreg .m xb + BitVec.ofNat 64 (maskCount (c.mreg mk)))
  let recs (c : Cask) : List Byte :=
    laneBytes (records w2 (activeOf (c.mreg mk) 0 (c.vreg va)) (activeOf (c.mreg mk) 0 (c.vreg vb)))
  mPieces t (cqPre w2 xa xb fun c => maskCount (c.mreg mk)) words
    (modify fun c => after (if maskCount (c.mreg mk) = 0 then c else c.setSpm (c.xreg .m xa).toNat (recs c)))
    (slowStore (do
      let c ← get
      pure (spmPieces 4 (c.xreg .m xa).toNat (4 * words c), recs c)) (modify after)) s

/-- The records that a CQTAKE takes. -/
def Cask.takeCount (c : Cask) (xb : XReg) : Nat := min 128 (c.xreg .m xb).toNat

/-- Every `k`-th lane from `i` on of `n` records, zeros up to lane 127. -/
def fieldLanes (k i n : Nat) (ls : List Lane) : List Lane :=
  (List.range 128).map fun j => if j < n then ls.getD (k * j + i) 0 else 0

/-- What CQTAKE leaves, from the bytes of the records (R241). -/
def Cask.took (c : Cask) (w2 : Bool) (vd : VReg) (xa xb : XReg) (md : MReg) (bs : List Byte) : Cask :=
  let n := c.takeCount xb
  let k := recWords w2
  let ls := bytesLanes (k * n) bs
  let c1 := c.setV vd (fieldLanes k 0 n ls)
  let c2 := if w2 then c1.setV (vPlus vd 1) (fieldLanes k 1 n ls) else c1
  let c3 := c2.setM md (BitVec.ofNat 128 (2 ^ n - 1))
  (c3.setX .m xa (c.xreg .m xa + BitVec.ofNat 64 (4 * k * n))).setX .m xb (c.xreg .m xb - BitVec.ofNat 64 n)

/-- CQTAKE. -/
def execCqtake (t : Tk) (w2 : Bool) (vd : VReg) (xa xb : XReg) (md : MReg) (s : State) :
    Host.Outcome State Fault Refusal :=
  mPieces t (do
      check (!w2 || decide (vd.toNat % 2 = 0)) cIllegalOperand
      cqPre w2 xa xb fun c => c.takeCount xb) (fun c => recWords w2 * c.takeCount xb) (do
    let c ← get
    let bs ← spmLoad (c.xreg .m xa).toNat (4 * recWords w2 * c.takeCount xb)
    modify fun c => c.took w2 vd xa xb md bs)
    (slowLoad 4 (fun c => ((c.xreg .m xa).toNat, 4 * recWords w2 * c.takeCount xb)) fun bs =>
      modify fun c => c.took w2 vd xa xb md bs) s

/-! ### Loads and stores (R242) -/

/-- The SPM address of VLD and VST. -/
def Cask.vea (c : Cask) (a : XReg) (imm : BitVec 16) : Nat := (c.xreg .m a + imm.signExtend 64).toNat

/-- The checks of VLD and VST. -/
def vmemPre (a : XReg) (imm : BitVec 16) (n align : Nat) : Act Unit := do
  let s ← get
  checkSpm s.dual (s.cask.vea a imm) n align

/-- VLD. -/
def execVld (t : Tk) (mk : Option MReg) (vd : VReg) (a : XReg) (imm : BitVec 16) (s : State) :
    Host.Outcome State Fault Refusal :=
  mPieces t (vmemPre a imm 512 4) (fun _ => 128) (do
      let c ← get
      let bs ← spmLoad (c.vea a imm) 512
      modify fun c => c.moveLanes mk vd (bytesLanes 128 bs))
    (slowLoad 4 (fun c => (c.vea a imm, 512)) fun bs => modify fun c => c.moveLanes mk vd (bytesLanes 128 bs)) s

/-- VLD.m. -/
def execVldM (t : Tk) (md : MReg) (a : XReg) (imm : BitVec 16) (s : State) : Host.Outcome State Fault Refusal :=
  mPieces t (vmemPre a imm 16 16) (fun _ => 2) (do
      let c ← get
      let bs ← spmLoad (c.vea a imm) 16
      modify fun c => c.setM md (BitVec.ofNat 128 (natOf bs)))
    (slowLoad 8 (fun c => (c.vea a imm, 16)) fun bs => modify fun c => c.setM md (BitVec.ofNat 128 (natOf bs))) s

/-- The active lanes of a vector stored; `i` counts lanes. -/
def putActive (m : BitVec 128) (ea : Nat) : Nat → List Lane → Cask → Cask
  | _, [], c => c
  | i, l :: ls, c => putActive m ea (i + 1) ls (if m.getLsbD i then c.setSpm (ea + 4 * i) (bytesOf 4 l.toNat) else c)

/-- VST: the bytes of inactive lanes are not written. -/
def execVst (t : Tk) (mk : Option MReg) (va : VReg) (a : XReg) (imm : BitVec 16) (s : State) :
    Host.Outcome State Fault Refusal :=
  mPieces t (vmemPre a imm 512 4) (fun c => maskCount (c.active mk)) (modify fun c =>
      match mk with
      | none => c.setSpm (c.vea a imm) (laneBytes (c.vreg va))
      | some m => putActive (c.mreg m) (c.vea a imm) 0 (c.vreg va) c)
    (slowStore (do
      let c ← get
      pure ((setBits (c.active mk) 128).map fun i => (4 * i, c.vea a imm + 4 * i, 4), laneBytes (c.vreg va))) (pure ())) s

/-- VST.m. -/
def execVstM (t : Tk) (ma : MReg) (a : XReg) (imm : BitVec 16) (s : State) : Host.Outcome State Fault Refusal :=
  mPieces t (vmemPre a imm 16 16) (fun _ => 2)
    (modify fun c => c.setSpm (c.vea a imm) (bytesOf 16 (c.mreg ma).toNat))
    (slowStore (do
      let c ← get
      pure (spmPieces 8 (c.vea a imm) 16, bytesOf 16 (c.mreg ma).toNat)) (pure ())) s

/-! ### VPOP (R84, R243) -/

/-- The checks of VPOP. -/
def vpopPre (vd : VReg) (n : RingNo) : Act Unit := do
  let s ← get
  let r := s.cask.ring n.toNat
  check (decide (r.snkf = .fp32 ∨ r.snkf = .i32 ∨ r.snkf = .n32)) cIllegalOperand
  check (decide (vd.toNat + (r.rows - 1) ≤ 31)) cIllegalOperand

/-- Rows written to consecutive vectors. -/
def putRows (vd : VReg) : Nat → List (List Nat) → Cask → Cask
  | _, [], c => c
  | k, r :: rs, c =>
    putRows vd (k + 1) rs (c.setV (vPlus vd k) ((r.map (BitVec.ofNat 32)) ++ List.replicate (128 - r.length) 0))

/-- VPOP. -/
def execVpop (t : Tk) (vd : VReg) (ring : RingNo) (s : State) : Host.Outcome State Fault Refusal :=
  eRun .m t { pre := vpopPre vd ring, unit := do
    ringReady ring
    vpopPre vd ring
    onCask (whole (do
      let h ← headTile ring.toNat
      modify fun c =>
        let c1 := (putRows vd 0 h.1 c).tally (tallyPop h.2.1)
        ({ c1 with mx := { c1.mx with latch := h.2.2 } } : Cask).taking .m [ring]))
    modify fun s => s.updCask fun c => c.naming .m [ring]
    pure .last } s

end Sys2Proof.Machine
end

