-- ==== Sys2Proof/Machine/Qacc.lean ====
section
/-! DEFINITION. The orthogonal accumulators (R250–R264). -/

namespace Sys2Proof.Machine

open Sys2Proof

/-- An accumulator belongs to the cask (R250). -/
def ownQ (n : QReg) : Act Unit := do
  let s ← get
  check (qOwned s.dual s.turn.cask n) cIllegalOperand

/-! ### The accumulators in the ACM (R39, R346; log 4) -/

/-- Where an accumulator stands in the map of R39. DESIGN CHOICE: V by columns of 512 bytes, then T by rows of 256. -/
def qBase (q : QReg) : Nat := 0x80000 + 0xC000 * q.toNat
def tBase (q : QReg) : Nat := qBase q + 0x8000

/-- One of the first `n` columns of V, or of the leading n × n part of T, holds a poisoned byte. -/
def Cask.qPoison (c : Cask) (q : QReg) : Bool :=
  let n := (c.qacc q).n
  nsHits c.mem.acmP (qBase q) (512 * n) || (List.range n).any fun i => nsHits c.mem.acmP (tBase q + 256 * i) (4 * n)

/-- The current block of an accumulator is read; a poisoned byte of it raises UNCORRECTABLE (R264). -/
def readQ (q : QReg) : CAct QAcc := do
  let c ← get
  check (!c.qPoison q) cUncorrectable
  pure (c.qacc q)

/-- Bytes of the ACM written: their poison goes. -/
def Cask.clearAcm (c : Cask) (a n : Nat) : Cask := { c with mem := { c.mem with acmP := nsDelRange c.mem.acmP a n } }

/-- The whole of V and T written. -/
def Cask.clearQ (c : Cask) (q : QReg) : Cask := c.clearAcm (qBase q) 0xC000

/-- A record goes through the cask's half of the spare region, byte by byte (R261). DESIGN CHOICE: from the half's first byte
on, and again from there where it is full. -/
def Cask.stage (c : Cask) (dual cask : Bool) (bs : List Byte) : Cask :=
  let size := if dual then 0x8000 else 0x10000
  let lo := if dual && cask then 0x8000 else 0
  let put (c : Cask) (xs : List Byte) : Cask :=
    ({ c with mem := { c.mem with spare := smSetRange 0 c.mem.spare lo xs } } : Cask).clearAcm (0xB0000 + lo) xs.length
  put (put c (bs.take size)) (bs.drop size)

/-! ### Records (R251) -/

/-- size(Kc). -/
def recSize (kc : Nat) : Nat := (128 + 512 * kc + 4 * kc * kc + 127) / 128 * 128

/-- The first `n` of `k` lanes, +0 behind them. -/
def padLanes (n k : Nat) (ls : List Lane) : List Lane := ls.take n ++ List.replicate (k - n) 0

/-- Column `k` of V and row `i` of T. -/
def QAcc.vCol (q : QAcc) (k : Nat) : List Lane := smGetRange 0 q.v (128 * k) 128
def QAcc.tRow (q : QAcc) (i : Nat) : List Lane := smGetRange 0 q.t (64 * i) 64

/-- The header of a record: that of a sealed block, or the whole one of QSV. -/
def QAcc.header (q : QAcc) (sealed : Bool) : List Byte :=
  if sealed then bytesOf 8 (q.kc * 2 ^ 8 + q.n) ++ bytesOf 8 0
  else bytesOf 8 (q.bmax * 2 ^ 32 + q.b * 2 ^ 24 + bit q.tr * 2 ^ 16 + bit q.rack * 2 ^ 15 + q.kc * 2 ^ 8 + q.n) ++
    bytesOf 8 q.base

/-- The record of an accumulator: columns of V and rows and columns of T from n upward are +0. -/
def QAcc.record (q : QAcc) (sealed : Bool) : List Byte :=
  let cols := (List.range q.kc).map fun k => if k < q.n then q.vCol k else List.replicate 128 0
  let rows := (List.range q.kc).map fun i => if i < q.n then padLanes q.n q.kc (q.tRow i) else List.replicate q.kc 0
  let bs := q.header sealed ++ List.replicate 112 0 ++ laneBytes cols.flatten ++ laneBytes rows.flatten
  bs ++ List.replicate (recSize q.kc - bs.length) 0

/-- V and T of a record with capacity `kc`, as the maps of an accumulator. -/
def recV (kc : Nat) (bs : List Byte) : SMap Lane := smSetRange 0 [] 0 (bytesLanes (128 * kc) (bs.drop 128))
def recT (kc : Nat) (bs : List Byte) : SMap Lane :=
  let ls := bytesLanes (kc * kc) (bs.drop (128 + 512 * kc))
  ((rowsOf kc kc ls).foldl (fun p r => (p.1 + 1, smSetRange 0 p.2 (64 * p.1) r)) (0, [])).2

/-- The reserved bits of a header are zero. -/
def recReserved (d0 d1 : Nat) : Bool :=
  decide (fld d0 40 24 = 0) && decide (fld d0 17 7 = 0) && !flag d0 7 && decide (fld d1 21 43 = 0)

/-- The stack of an accumulator lies in the window (R253). -/
def stackOk (dual : Bool) (base bmax kc : Nat) : Bool :=
  decide (bmax = 0) || decide (base + bmax * recSize kc ≤ spmSize dual)

/-! ### Configuring, clearing, transposing, counting (R253, R254, R259, R260) -/

/-- The checks of QCFG. -/
def qcfgPre (q : QReg) (a : XReg) : Act Unit := do
  ownQ q
  let s ← get
  let w := (s.cask.xreg .m a).toNat
  check (decide (fld w 37 27 = 0) && decide (1 ≤ fld w 0 7 ∧ fld w 0 7 ≤ 64)) cIllegalOperand
  check (decide (fld w 16 21 % 128 = 0)) cAlignment (BitVec.ofNat 64 (fld w 16 21))
  check (stackOk s.dual (fld w 16 21) (fld w 8 8) (fld w 0 7)) cProtection (BitVec.ofNat 64 (fld w 16 21))

/-- QCFG. -/
def execQcfg (t : Tk) (q : QReg) (a : XReg) (s : State) : Host.Outcome State Fault Refusal :=
  mRun t (qcfgPre q a) (modify fun c =>
    let w := (c.xreg .m a).toNat
    (c.clearQ q).setQ q { QAcc.reset with kc := fld w 0 7, rack := flag w 7, bmax := fld w 8 8, base := fld w 16 21 }) s

/-- QCLR: Kc, POL, BASE and BMAX are kept. -/
def execQclr (t : Tk) (q : QReg) (s : State) : Host.Outcome State Fault Refusal :=
  mRun t (ownQ q) (modify fun c => (c.clearQ q).setQ q { c.qacc q with v := [], t := [], n := 0, b := 0, tr := false }) s

/-- QTRN. -/
def execQtrn (t : Tk) (q : QReg) (s : State) : Host.Outcome State Fault Refusal :=
  mRun t (ownQ q) (modify fun c => c.setQ q { c.qacc q with tr := !(c.qacc q).tr }) s

/-- What QCNT reads. -/
def QAcc.count (q : QAcc) : Word :=
  BitVec.ofNat 64 (bit q.tr * 2 ^ 25 + bit q.rack * 2 ^ 24 + q.b * 2 ^ 16 + q.kc * 2 ^ 8 + q.n)

/-- QCNT. -/
def execQcnt (t : Tk) (d : XReg) (q : QReg) (s : State) : Host.Outcome State Fault Refusal :=
  mRun t (ownQ q) (modify fun c => c.setX .m d (c.qacc q).count) s

/-! ### Sums over exact products (R85, R255, R257) -/

/-- An fp32 value with what its computation in this word has raised. -/
abbrev RV := XR × Rz

/-- A stored lane as an operand. -/
def rv (x : Lane) : RV := (f32 x, {})

/-- The tree over 2^d leaves, the leaves behind the given products −0; what the operands' computations raised stays with
the sum, because MXC1 counts an element whose computation overflowed anywhere (R92). -/
def dotQ (rm : Rm) (d : Nat) (a b : List RV) : RV :=
  let p := products ((a.map (·.1)).zip (b.map (·.1)))
  let t := treeSum rm d (p.1 ++ List.replicate (2 ^ d - p.1.length) (.fin true 0 1))
  (t.1, (a ++ b).foldl (fun z x => z.or x.2) (p.2.or t.2))

/-- One rounded sum. -/
def addQ (rm : Rm) (a b : RV) : RV :=
  let r := rnd32Of (a.1.add rm b.1) rm
  (f32 r.1, (a.2.or b.2).or r.2)

/-! ### Appending and sealing (R255, R256) -/

/-- The current block sealed onto the stack; V and T are written whole, and their poison goes (R346). -/
def sealBlock (q : QReg) (c : Cask) : Cask :=
  let a := c.qacc q
  ((c.setSpm (a.base + a.b * recSize a.kc) (a.record true)).clearQ q).setQ q { a with b := a.b + 1, n := 0, v := [], t := [] }

/-- The checks of QACC. -/
def qaccPre (q : QReg) (a b : XReg) : Act Unit := do
  ownQ q
  let s ← get
  let x := s.cask.qacc q
  check (decide ((s.cask.xreg .m a).toNat < 128)) cIllegalOperand
  check (decide (fld (s.cask.xreg .m b).toNat 32 32 = 0)) cIllegalOperand
  check (!x.tr) cQTransposed
  check (decide (x.n ≠ x.kc) || (x.rack && decide (x.b ≠ x.bmax))) cQCapacity

/-- The reflector: +0 below the pivot, 1.0 at it, the lanes of va above it. -/
def reflector (p : Nat) (va : List Lane) : List Lane :=
  List.replicate p 0 ++ one32 :: va.drop (p + 1)

/-- The new column of T above its diagonal, with what each element raised. -/
def newColumn (q : QAcc) (v : List Lane) (tau : Lane) : List (Lane × Rz) :=
  let w := (List.range q.n).map fun k => dotQ .rne 7 ((q.vCol k).map rv) (v.map rv)
  (List.range q.n).map fun i =>
    let z := dotQ .rne 6 (((q.tRow i).take q.n).map rv) w
    let p := (f32 tau).mul z.1
    let r := rnd32Of (p.1.neg, p.2) .rne
    (r.1, z.2.or r.2)

/-- The reflector of QACC appended to a block that has room. -/
def appendQ (q : QReg) (v : List Lane) (tau : Lane) (c : Cask) : Cask :=
  let a := c.qacc q
  let col : List (Lane × Rz) := newColumn a v tau ++ [quiet tau]
  let t := (col.foldl (fun p r => (p.1 + 1, smSet 0 p.2 (64 * p.1 + a.n) r.1)) (0, a.t)).2
  let c1 := (List.range (a.n + 1)).foldl (fun c i => c.clearAcm (tBase q + 256 * i + 4 * a.n) 4)
    (c.clearAcm (qBase q + 512 * a.n) 512)
  (c1.setQ q { a with t := t, v := smSetRange 0 a.v (128 * a.n) v, n := a.n + 1 }).tally (tally32 col)

/-- QACC. -/
def execQacc (t : Tk) (q : QReg) (va : VReg) (a b : XReg) (s : State) : Host.Outcome State Fault Refusal :=
  mRun t (qaccPre q a b) (do
    let x ← readQ q
    modify fun c =>
      let c1 := if x.n = x.kc then sealBlock q c else c
      appendQ q (reflector (c.xreg .m a).toNat (c.vreg va)) ((c.xreg .m b).setWidth 32) c1) s

/-- QSEAL. -/
def execQseal (t : Tk) (q : QReg) (s : State) : Host.Outcome State Fault Refusal :=
  mRun t (do
      ownQ q
      let s ← get
      let x := s.cask.qacc q
      check (decide (x.n = 0) || decide (x.b ≠ x.bmax)) cQCapacity) (do
    let x ← readQ q
    modify fun c => if x.n = 0 then c else sealBlock q c) s

/-! ### Applying (R257, R258, R263) -/

/-- A block to be applied: the columns of V and the rows of T. -/
structure QBlock where
  v : List (List RV)
  t : List (List RV)
  deriving Repr

/-- The first `n` columns of V and the leading part of T. -/
def QAcc.block (q : QAcc) : QBlock :=
  { v := (List.range q.n).map fun k => (q.vCol k).map rv,
    t := (List.range q.n).map fun i => ((q.tRow i).take q.n).map rv }

/-- Sealed block `j` of an accumulator, read from the SPM. -/
def sealedBlock (a : QAcc) (j : Nat) : CAct QBlock := do
  let bs ← spmLoad (a.base + j * recSize a.kc) (recSize a.kc)
  let d0 := natOf (bs.take 8)
  let d1 := natOf ((bs.drop 8).take 8)
  let n := fld d0 0 7
  check (decide (n ≠ 0) && decide (n ≤ fld d0 8 7) && decide (fld d0 8 7 = a.kc) && recReserved d0 d1) cIllegalOperand
  pure ({ a with v := recV a.kc bs, t := recT a.kc bs, n := n } : QAcc).block

/-- Sealed blocks from `j` on. -/
def sealedBlocks (a : QAcc) : Nat → Nat → CAct (List QBlock)
  | _, 0 => pure []
  | j, n + 1 => do
    let x ← sealedBlock a j
    let xs ← sealedBlocks a (j + 1) n
    pure (x :: xs)

/-- B_1 to B_b, and the current block unless it is empty. -/
def blocksOf (q : QReg) : CAct (List QBlock) := do
  let a ← readQ q
  let bs ← sealedBlocks a 0 a.b
  pure (if a.n = 0 then bs else bs ++ [a.block])

/-- The rows of V, negated. -/
def QBlock.negRows (b : QBlock) : List (List RV) := (columns 128 b.v).map fun r => r.map fun x => (x.1.neg, x.2)

/-- apply_left. -/
def applyLeft (rm : Rm) (x : Bool) (b : QBlock) (rows : List (List RV)) : List (List RV) :=
  let cols := columns 128 rows
  let w := b.v.map fun vc => cols.map fun cc => dotQ rm 7 vc cc
  let tt := if x then columns b.v.length b.t else b.t
  let wc := columns 128 w
  let w2 := tt.map fun tr => wc.map fun k => dotQ rm 6 tr k
  let w2c := columns 128 w2
  rows.zipWith (fun row nv => row.zipWith (fun e k => addQ rm e (dotQ rm 6 nv k)) w2c) b.negRows

/-- apply_right. -/
def applyRight (rm : Rm) (x : Bool) (b : QBlock) (rows : List (List RV)) : List (List RV) :=
  let w := rows.map fun row => b.v.map fun vc => dotQ rm 7 row vc
  let ttc := if x then b.t else columns b.v.length b.t
  let w2 := w.map fun wr => ttc.map fun k => dotQ rm 6 wr k
  let nv := b.negRows
  rows.zipWith (fun row wr => row.zipWith (fun e k => addQ rm e (dotQ rm 6 wr k)) nv) w2

/-- Which words apply from the left. -/
inductive QWord where
  | apl | apr | form
  deriving DecidableEq, Repr

/-- The product applied to a tile, under the effective transposition `x`. -/
def applyBlocks (left x : Bool) (rm : Rm) (bs : List QBlock) (rows : List (List RV)) : List (List RV) :=
  (if left != x then bs.reverse else bs).foldl (fun r b => if left then applyLeft rm x b r else applyRight rm x b r) rows

/-- The identity tile of QFORM. -/
def identityTile : List Lane := (List.range 16384).map fun k => if k / 128 = k % 128 then one32 else 0

/-- The effect of an apply word under the format word `w`. -/
def applyBody (k : QWord) (tr : Bool) (n : CTile) (q : QReg) (w : Nat) : CAct Unit := do
  let c ← get
  let a := c.qacc q
  let bs ← blocksOf q
  if bs.isEmpty then
    if k = .form then modify fun c => c.putTile n identityTile
  else do
    let ls ← if k = .form then pure identityTile else readTile n
    let rows := applyBlocks (decide (k ≠ .apr)) (tr != a.tr) (fwRm w) bs ((tileRows ls).map fun r => r.map rv)
    modify fun c => c.putTile32 n (rows.flatten.map fun e => ((rnd32 e.1 .rne).1, e.2))

/-- The checks of an apply word on its format word. -/
def applyCheck (w : Nat) : Act Unit :=
  check (fwCommon w && decide (Fmt.ofCode (fwAf w) = some .fp32)) cIllegalOperand

/-- An apply word: it issues with its format word, and then builds its result; a stop between the two cancels it (R263). -/
def applyRun (k : QWord) (t : Tk) (tr : Bool) (n : CTile) (q : QReg) : State → Host.Outcome State Fault Refusal :=
  eRun .m t { pre := do
                ownTile n
                ownQ q,
              unit := do
    let s ← get
    let w ← takeFormat .m applyCheck
    if (s.cask.flightOf .m).begun then do
      onCask (whole (applyBody k tr n q w))
      pure .last
    else do
      modify fun s => s.updCask fun c => c.begin .m
      pure .more }

/-- QAPL. -/
def execQapl (t : Tk) (tr : Bool) (n : CTile) (q : QReg) (s : State) : Host.Outcome State Fault Refusal :=
  applyRun .apl t tr n q s

/-- QAPR. -/
def execQapr (t : Tk) (tr : Bool) (n : CTile) (q : QReg) (s : State) : Host.Outcome State Fault Refusal :=
  applyRun .apr t tr n q s

/-- QFORM. -/
def execQform (t : Tk) (tr : Bool) (n : CTile) (q : QReg) (s : State) : Host.Outcome State Fault Refusal :=
  applyRun .form t tr n q s

/-! ### Save and restore (R261) -/

/-- QSV. -/
def execQsv (t : Tk) (q : QReg) (a : XReg) (s : State) : Host.Outcome State Fault Refusal :=
  mPieces t (do
      ownQ q
      let s ← get
      checkSpm s.dual (s.cask.xreg .m a).toNat (recSize (s.cask.qacc q).kc) 128) (fun c => recSize (c.qacc q).kc / 8) (do
      let x ← readQ q
      modify fun c => (c.stage s.dual s.turn.cask (x.record false)).setSpm (c.xreg .m a).toNat (x.record false))
    (slowStore (do
      let x ← readQ q
      let c ← get
      set (c.stage s.dual s.turn.cask (x.record false))
      pure (spmPieces 8 (c.xreg .m a).toNat (recSize (c.qacc q).kc), x.record false)) (pure ())) s

/-- The checks of QRS, from the first 128 bytes of the record: the record address, then the header as QCFG's operand. DESIGN CHOICE:
where KC is outside 1 to 64 no size is known, so only those bytes are held against the window before the fault of the header
(log 68). -/
def qrsHeader (dual : Bool) (ea : Nat) (h : List Byte) : CAct Unit := do
  let d0 := natOf (h.take 8)
  let d1 := natOf ((h.drop 8).take 8)
  let kc := fld d0 8 7
  let kcOk := decide (1 ≤ kc ∧ kc ≤ 64)
  check (!kcOk || decide (ea + recSize kc ≤ spmSize dual)) cProtection (BitVec.ofNat 64 ea)
  check (recReserved d0 d1 && kcOk && decide (fld d0 0 7 ≤ kc) && decide (fld d0 24 8 ≤ fld d0 32 8)) cIllegalOperand
  let base := fld d1 0 21
  check (decide (base % 128 = 0)) cAlignment (BitVec.ofNat 64 base)
  check (stackOk dual base (fld d0 32 8) kc) cProtection (BitVec.ofNat 64 base)

/-- KC of a record (R251). -/
def recKc (h : List Byte) : Nat := fld (natOf (h.take 8)) 8 7

/-- An accumulator replaced by a record. -/
def Cask.restoreQ (c : Cask) (dual cask : Bool) (q : QReg) (bs : List Byte) : Cask :=
  let d0 := natOf (bs.take 8)
  let d1 := natOf ((bs.drop 8).take 8)
  let kc := recKc bs
  ((c.stage dual cask bs).clearQ q).setQ q
    { v := recV kc bs, t := recT kc bs, n := fld d0 0 7, kc := kc, rack := flag d0 15, tr := flag d0 16, base := fld d1 0 21,
      bmax := fld d0 32 8, b := fld d0 24 8 }

/-- QRS: nothing changes on a fault. -/
def qrsBody (dual cask : Bool) (q : QReg) (a : XReg) : CAct Unit := do
  let c ← get
  let ea := (c.xreg .m a).toNat
  checkSpm dual ea 128 128
  let h ← spmLoad ea 128
  qrsHeader dual ea h
  let bs ← spmLoad ea (recSize (recKc h))
  modify fun c => c.restoreQ dual cask q bs

/-- QRS. Its address is checked before its pops, its record after them. -/
def execQrs (t : Tk) (q : QReg) (a : XReg) (s : State) : Host.Outcome State Fault Refusal :=
  let kc (c : Cask) : Nat := recKc (c.spmBytes (c.xreg .m a).toNat 8)
  mPieces t (do
      ownQ q
      checkSpm s.dual (s.cask.xreg .m a).toNat 128 128) (fun c => recSize (kc c) / 8) (qrsBody s.dual s.turn.cask q a)
    (do
      let s ← get
      let ea := (s.cask.xreg .m a).toNat
      if !(s.point .m).opened then do
        let h ← onCask (do
          let h ← spmLoad ea 128
          qrsHeader s.dual ea h
          pure h)
        let n := recSize (recKc h) - 128
        setPoint .m { opened := true, parts := (spmPieces 8 (ea + 128) n).map fun p => (p.1 + 128, p.2), data := h ++ List.replicate n 0 }
      slowLoad 8 (fun _ => (ea, 0)) fun bs => modify fun c => c.restoreQ s.dual s.turn.cask q bs) s

end Sys2Proof.Machine
end

