-- ==== Sys2Proof/Machine/RegWrite.lean ====
section
/-! DEFINITION. REGISTER_WRITE: writes of the registers that have no row of their own (R310, R318, R351–R369, R387, R390,
R393), each refused where the manual says so, with log code 0x03 (R368). -/

namespace Sys2Proof.Machine

open Sys2Proof

/-! ### Partitions (R358, R361, R363) -/

/-- Some other partition holds what `f` asks for. -/
def State.inOther (s : State) (p : Nat) (f : Partition → Bool) : Bool := s.dev.parts.any fun x => decide (x.1 ≠ p) && f x.2

/-- A core put into a partition, or taken out of it (R363). It takes the partition's residency mode, once its dirty lines can go
home (R359, R360). -/
def State.writePartCore (s : State) (p c : Nat) (on : Bool) : State :=
  if 384 ≤ c then s
  else if on && s.inOther p fun x => x.cores.contains c then s.refuse (Config.bar0 (3000 + p)) 0 p
  else if !s.homeFree c then s
  else
    let s1 := s.updPart p fun x => { x with cores := if on then nsAdd x.cores c else nsDel x.cores c }
    if on && decide ((s1.core c).dual ≠ (s1.partAt p).dual) then s1.setMode c (s1.partAt p).dual else s1

/-- A slice put into a partition, or taken out of it (R363). -/
def State.writePartSlice (s : State) (p j : Nat) (on : Bool) : State :=
  if 96 ≤ j then s
  else if on && s.inOther p fun x => x.slices.contains j then s.refuse (Config.bar0 (3100 + p)) 0 p
  else s.updPart p fun x => { x with slices := if on then nsAdd x.slices j else nsDel x.slices j }

/-- A virtual function bound to a partition, and so to no other, or bound no longer (R363). -/
def State.writePartVf (s : State) (p fn : Nat) (on : Bool) : State :=
  if fn = 0 ∨ 64 < fn then s
  else
    let s1 := if on then s.updDev fun d => { d with parts := d.parts.map fun x => (x.1, { x.2 with fns := nsDel x.2.fns fn }) }
      else s
    s1.updPart p fun x => { x with fns := if on then nsAdd x.fns fn else nsDel x.fns fn }

/-- An entry of the staged slice map; a slice outside the partition's share is refused (R358). -/
def State.writeSmap (s : State) (p i v : Nat) : State :=
  if (s.partAt p).slices.contains v then s.updPart p fun x => { x with staged := smSet 0 x.staged i v }
  else s.refuse (Config.bar0 (2 ^ 22 + 1024 * p + i)) 0 p

/-- L2POL; code 3 is refused (R361). -/
def State.writeL2pol (s : State) (p v : Nat) : State :=
  if (List.range 4).any fun k => decide (fld v (2 * k) 2 = 3) then s.refuse (Config.bar0 (3300 + p)) 0 p
  else s.updPart p fun x => { x with l2pol := BitVec.ofNat 8 v }

/-! ### The cordon (R364) -/

/-- An entry of CDTAB at reset: OPEN 1, PART 0. -/
def cdOpen : BitVec 8 := 0x80

/-- The key of entry `i` of a lane of a die. -/
def cdKey (d lane i : Nat) : Nat := (d * 4 + lane) * 256 + i

/-- LEN of a die. -/
def Dev.cordonLen (d : Dev) (die : Nat) : Nat := smGet 1 d.cdlen die

/-- Every lane of a die holds an open entry. -/
def Dev.cordonOk (d : Dev) (die : Nat) : Bool :=
  (List.range 4).all fun lane => (List.range (d.cordonLen die)).any fun i => (smGet cdOpen d.cdtab (cdKey die lane i)).getLsbD 7

/-- A table put in force while no strand runs on the die, if every lane keeps an open entry; `reg` is the register written. -/
def State.writeCordon (s : State) (die reg : Nat) (f : Dev → Dev) : State :=
  if s.anyStrand (fun n _ => decide (n / 96 = die)) || !(f s.dev).cordonOk die then s.refuse (Config.bar0 reg)
  else s.updDev f

/-! ### Synonym filters (R357) -/

/-- An entry loaded into a controller's filter of 16,384 entries; the oldest leaves a full one (log 14). -/
def Dev.loadSyn (d : Dev) (x : SynEnt) : Dev :=
  let rest := d.synf.filter fun y => !(decide (y.ctl = x.ctl) && decide (y.frame = x.frame))
  let mine := rest.filter fun y => y.ctl = x.ctl
  let kept := if mine.length < 16384 then rest else match mine with
    | y :: _ => rest.erase y
    | [] => rest
  { d with synf := kept ++ [x] }

/-! ### Monitors (R390, R391) -/

/-- A selector value that a kind of counter accepts: the highest event code, and whether it has casks. -/
def selOk (top : Nat) (casks : Bool) (v : Nat) : Bool :=
  decide (fld v 0 16 ≤ top) && (if casks then decide (fld v 38 2 ≠ 3) else decide (fld v 38 2 = 0))

/-- A selector written: EVT, EN, CASKF; OVF cleared by a 0. -/
def Mon.select (m : Mon) (v : Word) : Mon := { m with sel := (v &&& 0xE00000FFFF) ||| (v &&& m.sel &&& 0x1000000000000) }

/-- A monitor of a map written, or the write refused. -/
def writeSel (m : SMap Mon) (k : Nat) (v : Word) : SMap Mon := aSet m k ((aGet Mon.reset m k).select v)
def writeVal (m : SMap Mon) (k : Nat) (v : Word) : SMap Mon := aSet m k { aGet Mon.reset m k with val := v.setWidth 48 }

/-- Monitors of core `c` changed, the cycle counters brought up to now first (R390, R391). -/
def State.updMon (s : State) (c : Nat) (f : SMap Mon → SMap Mon) : State :=
  let t := s.tickCycles c
  if c < 384 then t.setCore c { t.core c with mon := f (t.core c).mon } else s

/-- A selector of core `c`. -/
def State.writeCoreSel (s : State) (c k : Nat) (v : Word) : State :=
  if selOk 15 true v.toNat then s.updMon c fun m => writeSel m k v else s.refuse (0x600000 + 0x400 * c + 8 * k) 0 (s.dev.partNo c) c

/-- A selector of slice `j`, and of channel `h`. -/
def State.writeSliceSel (s : State) (j k : Nat) (v : Word) : State :=
  if 96 ≤ j then s
  else if selOk 9 false v.toNat then s.updDev fun d => { d with smon := writeSel d.smon (4 * j + k) v }
  else s.refuse (0x660000 + 0x100 * j + 8 * k)
def State.writeChanSel (s : State) (h k : Nat) (v : Word) : State :=
  if 48 ≤ h then s
  else if selOk 8 false v.toNat then s.updDev fun d => { d with cmon := writeSel d.cmon (4 * h + k) v }
  else s.refuse (0x680000 + 0x100 * h + 8 * k)

/-! ### Log and power (R368, R393) -/

/-- LOGCTL: LOGSZ outside 4 to 20 is ignored in full (R368). -/
def State.writeLogctl (s : State) (v : Word) : State :=
  if 4 ≤ fld v.toNat 0 5 ∧ fld v.toNat 0 5 ≤ 20 then s.updDev fun d => { d with logctl := v &&& 0x8000001F } else s

/-- PLIM: both fields in range, or refused (R393). -/
def State.writePlim (s : State) (v : Nat) : State :=
  if 70 ≤ fld v 16 8 ∧ fld v 16 8 ≤ 110 ∧ 300 ≤ fld v 0 11 ∧ fld v 0 11 ≤ 1650 then
    s.updDev fun d => { d with tthr := fld v 16 8, plimw := fld v 0 11 }
  else s.refuse 0x780008

/-! ### REGISTER_WRITE -/

/-- A write of a register outside the security block. -/
def State.writeReg (s : State) (r : DevReg) (v : Word) : State :=
  match r with
  | .vfBar fn off => s.writeVfBar fn.toNat off.toNat v
  | .lqbase q => s.setQueue q.toNat { s.queueAt q.toNat with base := v }
  | .schedctl => s.updDev fun d => { d with schedctl := v }
  | .ctxbase => s.updDev fun d => { d with ctxbase := v }
  | .synEntry ctl frame asid => if 48 ≤ ctl.toNat then s else s.updDev fun d =>
      d.loadSyn { ctl := ctl.toNat, frame := frame.toNat, casid := asid, cpage := v.toNat / 2 ^ 16 }
  | .synDrop ctl frame => s.updDev fun d => { d with
      synf := d.synf.filter fun y => !(decide (y.ctl = ctl.toNat) && decide (y.frame = frame.toNat)) }
  | .physDword pa => s.updDev fun d =>
      let a := pa.toNat / 8 * 8
      if memSize ≤ a then d else { d with dmem := smSetRange Memory.unlisted d.dmem a (bytesOf 8 v.toNat), dmemP := nsDelRange d.dmemP a 8 }
  | .smapStage p i => s.writeSmap p.toNat i.toNat (fld v.toNat 0 8)
  | .partCore p c => s.writePartCore p.toNat c.toNat (v.getLsbD 0)
  | .partSlice p j => s.writePartSlice p.toNat j.toNat (v.getLsbD 0)
  | .partRange p i lo => s.updPart p.toNat fun x => { x with ranges := aSet x.ranges i.toNat (lo.toNat, fld v.toNat 0 24) }
  | .partVf p fn => s.writePartVf p.toNat fn.toNat (v.getLsbD 0)
  | .l2pol p => s.writeL2pol p.toNat (fld v.toNat 0 8)
  | .cdtab d lane i => s.writeCordon d.toNat (2 ^ 23 + cdKey d.toNat lane.toNat i.toNat) fun x => { x with
      cdtab := smSet cdOpen x.cdtab (cdKey d.toNat lane.toNat i.toNat) ((v &&& 0xBF).setWidth 8) }
  | .cdlen d => if fld v.toNat 0 9 = 0 ∨ 256 < fld v.toNat 0 9 then s
      else s.writeCordon d.toNat (3400 + d.toNat) fun x => { x with cdlen := smSet 1 x.cdlen d.toNat (fld v.toNat 0 9) }
  | .fgrp => s.updDev fun d => { d with fgrp := v &&& 0xFFFF0000FFFFFE01 }
  | .froute r => s.updDev fun d => { d with froute := smSet 0 d.froute r.toNat (v.setWidth 16) }
  | .logbase => s.updDev fun d => { d with logbase := v &&& 0xFFFFFFFFFFFFF000 }
  | .logctl => s.writeLogctl v
  | .logrd => s.updDev fun d => { d with logrd := v.toNat }
  | .logovf => if v = 0 then s.updDev fun d => { d with logovf := 0 } else s
  | .monCoreSel c k => s.writeCoreSel c.toNat k.toNat v
  | .monCoreVal c k => s.updMon c.toNat fun m => writeVal m k.toNat v
  | .monSliceSel j k => s.writeSliceSel j.toNat k.toNat v
  | .monSliceVal j k => if 96 ≤ j.toNat then s else s.updDev fun d => { d with smon := writeVal d.smon (4 * j.toNat + k.toNat) v }
  | .monChanSel h k => s.writeChanSel h.toNat k.toNat v
  | .monChanVal h k => if 48 ≤ h.toNat then s else s.updDev fun d => { d with cmon := writeVal d.cmon (4 * h.toNat + k.toNat) v }
  | .plim => s.writePlim v.toNat
  | .mailbox _ | .smcmd | .smsts | .pwrsts => s

/-- A write of a register of the security block (R379, R387): the buffer, the doorbell and LOST. -/
def State.writeSec (s : State) (r : DevReg) (v : Word) : State :=
  match r with
  | .mailbox i => if s.dev.sec.busy then s else s.updSec fun x => { x with mbox := smSetRange 0 x.mbox (8 * i.toNat) (bytesOf 8 v.toNat) }
  | .smcmd => s.doorbell v
  | .smsts => if v.getLsbD 1 then s else s.updSec fun x => { x with lost := false }
  | _ => s

/-- The registers of the security block. -/
def DevReg.secure : DevReg → Bool
  | .mailbox _ | .smcmd | .smsts => true
  | _ => false

/-- REGISTER_WRITE. The security block answers before hand-over, the other blocks from hand-over on (R379). -/
def execRegisterWrite (r : DevReg) (v : Word) (s : State) : Host.Outcome State Fault Refusal :=
  if DevReg.secure r then .next (s.writeSec r v) else bar0 (fun s => s.writeReg r v) s

end Sys2Proof.Machine
end

