-- ==== Sys2Proof/Machine/Dispatch.lean ====
section
/-! DEFINITION. `exec`: one arm for each row of the opcode table, in the table's order. -/

namespace Sys2Proof.Machine

open Sys2Proof

def exec (i : Instr) (s : State) : Host.Outcome State Fault Refusal :=
  match i with
  | .add d a b => Sys2Proof.Machine.execAdd d a b s
  | .addi d a imm => Sys2Proof.Machine.execAddi d a imm s
  | .sub d a b => Sys2Proof.Machine.execSub d a b s
  | .mul d a b => Sys2Proof.Machine.execMul d a b s
  | .mulh u d a b => Sys2Proof.Machine.execMulh u d a b s
  | .div u d a b => Sys2Proof.Machine.execDiv u d a b s
  | .rem u d a b => Sys2Proof.Machine.execRem u d a b s
  | .and d a b => Sys2Proof.Machine.execAnd d a b s
  | .andi d a imm => Sys2Proof.Machine.execAndi d a imm s
  | .or d a b => Sys2Proof.Machine.execOr d a b s
  | .ori d a imm => Sys2Proof.Machine.execOri d a imm s
  | .xor d a b => Sys2Proof.Machine.execXor d a b s
  | .xori d a imm => Sys2Proof.Machine.execXori d a imm s
  | .shl d a b => Sys2Proof.Machine.execShl d a b s
  | .shr d a b => Sys2Proof.Machine.execShr d a b s
  | .sar d a b => Sys2Proof.Machine.execSar d a b s
  | .min u d a b => Sys2Proof.Machine.execMin u d a b s
  | .max u d a b => Sys2Proof.Machine.execMax u d a b s
  | .clz d a => Sys2Proof.Machine.execClz d a s
  | .popc d a => Sys2Proof.Machine.execPopc d a s
  | .slt u d a b => Sys2Proof.Machine.execSlt u d a b s
  | .sel d a b c => Sys2Proof.Machine.execSel d a b c s
  | .ldih d imm => Sys2Proof.Machine.execLdih d imm s
  | .b off => Sys2Proof.Machine.execB off s
  | .bc cond a b off => Sys2Proof.Machine.execBc cond a b off s
  | .call d off => Sys2Proof.Machine.execCall d off s
  | .ret a => Sys2Proof.Machine.execRet a s
  | .jr d a => Sys2Proof.Machine.execJr d a s
  | .loop a off => Sys2Proof.Machine.execLoop a off s
  | .ldk sz sg ord d a imm => Sys2Proof.Machine.execLdk sz sg ord d a imm s
  | .stk sz ord b a imm => Sys2Proof.Machine.execStk sz ord b a imm s
  | .acq sc => Sys2Proof.Machine.execAcq sc s
  | .rel sc => Sys2Proof.Machine.execRel sc s
  | .fence sc => Sys2Proof.Machine.execFence sc s
  | .nestl mask n lev a => Sys2Proof.Machine.execNestl mask n lev a s
  | .nestb mask n a b => Sys2Proof.Machine.execNestb mask n a b s
  | .ringc r a => Sys2Proof.Machine.execRingc r a s
  | .rdring d r => Sys2Proof.Machine.execRdring d r s
  | .fmt a => Sys2Proof.Machine.execFmt a s
  | .cpw k a imm => Sys2Proof.Machine.execCpw k a imm s
  | .cpgo q reuse => Sys2Proof.Machine.execCpgo q reuse s
  | .cpch q a => Sys2Proof.Machine.execCpch q a s
  | .waitq q n => Sys2Proof.Machine.execWaitq q n s
  | .waite ev a imm => Sys2Proof.Machine.execWaite ev a imm s
  | .sige ev imm => Sys2Proof.Machine.execSige ev imm s
  | .mark n mask => Sys2Proof.Machine.execMark n mask s
  | .rdvw n => Sys2Proof.Machine.execRdvw n s
  | .loopb mask a m sk => Sys2Proof.Machine.execLoopb mask a m sk s
  | .ewr mask sel a => Sys2Proof.Machine.execEwr mask sel a s
  | .erd d mask sel => Sys2Proof.Machine.execErd d mask sel s
  | .tnext d => Sys2Proof.Machine.execTnext d s
  | .tdone => Sys2Proof.Machine.execTdone s
  | .tdoneEnd => Sys2Proof.Machine.execTdoneEnd s
  | .join c => Sys2Proof.Machine.execJoin c s
  | .leave c => Sys2Proof.Machine.execLeave c s
  | .cbar c => Sys2Proof.Machine.execCbar c s
  | .cbard c => Sys2Proof.Machine.execCbard c s
  | .sstep => Sys2Proof.Machine.execSstep s
  | .lees d imm => Sys2Proof.Machine.execLees d imm s
  | .watch a imm => Sys2Proof.Machine.execWatch a imm s
  | .waitl => Sys2Proof.Machine.execWaitl s
  | .est a => Sys2Proof.Machine.execEst a s
  | .vtab d a imm => Sys2Proof.Machine.execVtab d a imm s
  | .rds d spec => Sys2Proof.Machine.execRds d spec s
  | .wrs spec b => Sys2Proof.Machine.execWrs spec b s
  | .trap imm => Sys2Proof.Machine.execTrap imm s
  | .ovl a => Sys2Proof.Machine.execOvl a s
  | .ovswap => Sys2Proof.Machine.execOvswap s
  | .eret a => Sys2Proof.Machine.execEret a s
  | .ffrd d imm => Sys2Proof.Machine.execFfrd d imm s
  | .jctlHead d => Sys2Proof.Machine.execJctlHead d s
  | .jctlTail d => Sys2Proof.Machine.execJctlTail d s
  | .jctlFree a => Sys2Proof.Machine.execJctlFree a s
  | .jctlReissue mask a => Sys2Proof.Machine.execJctlReissue mask a s
  | .casksw a => Sys2Proof.Machine.execCasksw a s
  | .tinvPage a b => Sys2Proof.Machine.execTinvPage a b s
  | .tinvAsid a b => Sys2Proof.Machine.execTinvAsid a b s
  | .tinvAll a b => Sys2Proof.Machine.execTinvAll a b s
  | .nop e t => Sys2Proof.Machine.execNop e t s
  | .tok e t n => Sys2Proof.Machine.execTok e t n s
  | .align e t n => Sys2Proof.Machine.execAlign e t n s
  | .xset e t d imm => Sys2Proof.Machine.execXset e t d imm s
  | .xadd e t d a b => Sys2Proof.Machine.execXadd e t d a b s
  | .xaddi e t d a imm => Sys2Proof.Machine.execXaddi e t d a imm s
  | .xmul e t d a b => Sys2Proof.Machine.execXmul e t d a b s
  | .lps e t lp count => Sys2Proof.Machine.execLps e t lp count s
  | .lpe e t lp => Sys2Proof.Machine.execLpe e t lp s
  | .brx e t cond a b off => Sys2Proof.Machine.execBrx e t cond a b off s
  | .halte e t => Sys2Proof.Machine.execHalte e t s
  | .ldt t ru nest => Sys2Proof.Machine.execLdt t ru nest s
  | .ldn t d a doff aoff len => Sys2Proof.Machine.execLdn t d a doff aoff len s
  | .ldg t ring a b c cnt => Sys2Proof.Machine.execLdg t ring a b c cnt s
  | .ldv t sp sg sz d a aoff => Sys2Proof.Machine.execLdv t sp sg sz d a aoff s
  | .mcf t d a b aoff len => Sys2Proof.Machine.execMcf t d a b aoff len s
  | .tld t ru fine desc nest lev bl k => Sys2Proof.Machine.execTld t ru fine desc nest lev bl k s
  | .trf t ru nest lev bl k fl xm moff => Sys2Proof.Machine.execTrf t ru nest lev bl k fl xm moff s
  | .ldsb t sp ring a aoff cnt => Sys2Proof.Machine.execLdsb t sp ring a aoff cnt s
  | .stt t ru nest => Sys2Proof.Machine.execStt t ru nest s
  | .stn t d a doff aoff len => Sys2Proof.Machine.execStn t d a doff aoff len s
  | .drn t ns tr c a b p => Sys2Proof.Machine.execDrn t ns tr c a b p s
  | .sct t d a b c rb cnt => Sys2Proof.Machine.execSct t d a b c rb cnt s
  | .stv t sp sz b a aoff => Sys2Proof.Machine.execStv t sp sz b a aoff s
  | .tstb t ru nest bl sf => Sys2Proof.Machine.execTstb t ru nest bl sf s
  | .tstl t ru nest bl sf lev => Sys2Proof.Machine.execTstl t ru nest bl sf lev s
  | .tstn t add a b c bl lev sf q => Sys2Proof.Machine.execTstn t add a b c bl lev sf q s
  | .mma t z bt c ra rb => Sys2Proof.Machine.execMma t z bt c ra rb s
  | .czero t c => Sys2Proof.Machine.execCzero t c s
  | .cld t a b len => Sys2Proof.Machine.execCld t a b len s
  | .cldOut t a b len => Sys2Proof.Machine.execCldOut t a b len s
  | .cscl t col c va => Sys2Proof.Machine.execCscl t col c va s
  | .ctr t c cs => Sys2Proof.Machine.execCtr t c cs s
  | .crowv t mode vd c a => Sys2Proof.Machine.execCrowv t mode vd c a s
  | .cvrow t col c va a => Sys2Proof.Machine.execCvrow t col c va a s
  | .vadd t ty mk vd va vb => Sys2Proof.Machine.execVadd t ty mk vd va vb s
  | .vsub t ty mk vd va vb => Sys2Proof.Machine.execVsub t ty mk vd va vb s
  | .vmul t ty mk vd va vb => Sys2Proof.Machine.execVmul t ty mk vd va vb s
  | .vfma t ty mk vd va vb vc => Sys2Proof.Machine.execVfma t ty mk vd va vb vc s
  | .vmax t ty mk vd va vb => Sys2Proof.Machine.execVmax t ty mk vd va vb s
  | .vmin t ty mk vd va vb => Sys2Proof.Machine.execVmin t ty mk vd va vb s
  | .vabs t ty mk vd va => Sys2Proof.Machine.execVabs t ty mk vd va s
  | .vneg t ty mk vd va => Sys2Proof.Machine.execVneg t ty mk vd va s
  | .vrcp t mk vd va => Sys2Proof.Machine.execVrcp t mk vd va s
  | .vrsq t mk vd va => Sys2Proof.Machine.execVrsq t mk vd va s
  | .vsqrt t mk vd va => Sys2Proof.Machine.execVsqrt t mk vd va s
  | .vexp2 t mk vd va => Sys2Proof.Machine.execVexp2 t mk vd va s
  | .vlog2 t mk vd va => Sys2Proof.Machine.execVlog2 t mk vd va s
  | .vcvt t mk src dst rm vd va => Sys2Proof.Machine.execVcvt t mk src dst rm vd va s
  | .vcmp t cond ty mk md va vb => Sys2Proof.Machine.execVcmp t cond ty mk md va vb s
  | .vsel t vd va vb mk => Sys2Proof.Machine.execVsel t vd va vb mk s
  | .vand t mk vd va vb => Sys2Proof.Machine.execVand t mk vd va vb s
  | .vor t mk vd va vb => Sys2Proof.Machine.execVor t mk vd va vb s
  | .vxor t mk vd va vb => Sys2Proof.Machine.execVxor t mk vd va vb s
  | .vshl t ty mk vd va vb => Sys2Proof.Machine.execVshl t ty mk vd va vb s
  | .vshr t ty mk vd va vb => Sys2Proof.Machine.execVshr t ty mk vd va vb s
  | .vreds t ty mk vd va => Sys2Proof.Machine.execVreds t ty mk vd va s
  | .vredm t ty mk vd va => Sys2Proof.Machine.execVredm t ty mk vd va s
  | .vbcst t mk vd src => Sys2Proof.Machine.execVbcst t mk vd src s
  | .vperm t mk vd va vb => Sys2Proof.Machine.execVperm t mk vd va vb s
  | .vcmpr t vd va mk => Sys2Proof.Machine.execVcmpr t vd va mk s
  | .vexpd t vd va mk => Sys2Proof.Machine.execVexpd t vd va mk s
  | .cqapp t w2 xa xb va vb mk => Sys2Proof.Machine.execCqapp t w2 xa xb va vb mk s
  | .cqtake t w2 vd xa xb md => Sys2Proof.Machine.execCqtake t w2 vd xa xb md s
  | .vld t mk vd a imm => Sys2Proof.Machine.execVld t mk vd a imm s
  | .vldM t md a imm => Sys2Proof.Machine.execVldM t md a imm s
  | .vst t mk va a imm => Sys2Proof.Machine.execVst t mk va a imm s
  | .vstM t ma a imm => Sys2Proof.Machine.execVstM t ma a imm s
  | .vpop t vd ring => Sys2Proof.Machine.execVpop t vd ring s
  | .mand t md ma mb => Sys2Proof.Machine.execMand t md ma mb s
  | .mor t md ma mb => Sys2Proof.Machine.execMor t md ma mb s
  | .mnot t md ma => Sys2Proof.Machine.execMnot t md ma s
  | .viota t mk vd xb => Sys2Proof.Machine.execViota t mk vd xb s
  | .vcnt t xd mk => Sys2Proof.Machine.execVcnt t xd mk s
  | .vsband t sel vd => Sys2Proof.Machine.execVsband t sel vd s
  | .vblend t mk vd va vb => Sys2Proof.Machine.execVblend t mk vd va vb s
  | .tmask t c va xa xb xc => Sys2Proof.Machine.execTmask t c va xa xb xc s
  | .qcfg t q a => Sys2Proof.Machine.execQcfg t q a s
  | .qclr t q => Sys2Proof.Machine.execQclr t q s
  | .qacc t q va a b => Sys2Proof.Machine.execQacc t q va a b s
  | .qapl t tr c q => Sys2Proof.Machine.execQapl t tr c q s
  | .qapr t tr c q => Sys2Proof.Machine.execQapr t tr c q s
  | .qtrn t q => Sys2Proof.Machine.execQtrn t q s
  | .qform t tr c q => Sys2Proof.Machine.execQform t tr c q s
  | .qcnt t d q => Sys2Proof.Machine.execQcnt t d q s
  | .qseal t q => Sys2Proof.Machine.execQseal t q s
  | .qsv t q a => Sys2Proof.Machine.execQsv t q a s
  | .qrs t q a => Sys2Proof.Machine.execQrs t q a s
  | .sectionStart e => Sys2Proof.Machine.execSectionStart e s
  | .formatUnderflow e => Sys2Proof.Machine.execFormatUnderflow e s
  | .copy c => Sys2Proof.Machine.execCopy c s
  | .fill c => Sys2Proof.Machine.execFill c s
  | .accw c => Sys2Proof.Machine.execAccw c s
  | .ratom c => Sys2Proof.Machine.execRatom c s
  | .tnode c => Sys2Proof.Machine.execTnode c s
  | .kvcmt c => Sys2Proof.Machine.execKvcmt c s
  | .fmcast c => Sys2Proof.Machine.execFmcast c s
  | .fred c => Sys2Proof.Machine.execFred c s
  | .sigr c => Sys2Proof.Machine.execSigr c s
  | .pipeBind c => Sys2Proof.Machine.execPipeBind c s
  | .pipeUnbind c => Sys2Proof.Machine.execPipeUnbind c s
  | .chainFetch k => Sys2Proof.Machine.execChainFetch k s
  | .commandBegin q => Sys2Proof.Machine.execCommandBegin q s
  | .commandComplete q => Sys2Proof.Machine.execCommandComplete q s
  | .remoteIncrement tgt core ev inc => Sys2Proof.Machine.execRemoteIncrement tgt core ev inc s
  | .fredCombine tag => Sys2Proof.Machine.execFredCombine tag s
  | .fabricAccess acc => Sys2Proof.Machine.execFabricAccess acc s
  | .combiningMergeTimeout line => Sys2Proof.Machine.execCombiningMergeTimeout line s
  | .eviction asid line => Sys2Proof.Machine.execEviction asid line s
  | .tileAgeing lid => Sys2Proof.Machine.execTileAgeing lid s
  | .overlayLoadDone => Sys2Proof.Machine.execOverlayLoadDone s
  | .coreStop u code va stat => Sys2Proof.Machine.execCoreStop u code va stat s
  | .tokenTimeout e => Sys2Proof.Machine.execTokenTimeout e s
  | .watchdog u q => Sys2Proof.Machine.execWatchdog u q s
  | .firmwareResume resume => Sys2Proof.Machine.execFirmwareResume resume s
  | .caskSwitch dst checkpoint => Sys2Proof.Machine.execCaskSwitch dst checkpoint s
  | .quantumBoundary => Sys2Proof.Machine.execQuantumBoundary s
  | .completionGrant p => Sys2Proof.Machine.execCompletionGrant p s
  | .drainEscalation lid => Sys2Proof.Machine.execDrainEscalation lid s
  | .checkpointSaveDone => Sys2Proof.Machine.execCheckpointSaveDone s
  | .gangStart gid t => Sys2Proof.Machine.execGangStart gid t s
  | .gangAbort lid => Sys2Proof.Machine.execGangAbort lid s
  | .lqtailWrite q v => Sys2Proof.Machine.execLqtailWrite q v s
  | .lqctlWrite q v => Sys2Proof.Machine.execLqctlWrite q v s
  | .vcapWrite v => Sys2Proof.Machine.execVcapWrite v s
  | .vintageEnWrite c en spare => Sys2Proof.Machine.execVintageEnWrite c en spare s
  | .residencyChange p dual => Sys2Proof.Machine.execResidencyChange p dual s
  | .smgenWrite p v => Sys2Proof.Machine.execSmgenWrite p v s
  | .remapNack u => Sys2Proof.Machine.execRemapNack u s
  | .remap va => Sys2Proof.Machine.execRemap va s
  | .aslotWrite slot v => Sys2Proof.Machine.execAslotWrite slot v s
  | .migctl asid va frame => Sys2Proof.Machine.execMigctl asid va frame s
  | .apertureWindowWrite fn ix v => Sys2Proof.Machine.execApertureWindowWrite fn ix v s
  | .hostApertureAccess fn off acc => Sys2Proof.Machine.execHostApertureAccess fn off acc s
  | .hostAtomicop fn off op sz operand compare => Sys2Proof.Machine.execHostAtomicop fn off op sz operand compare s
  | .registerWrite r v => Sys2Proof.Machine.execRegisterWrite r v s
  | .coldReset => Sys2Proof.Machine.execColdReset s
  | .vfFlr fn => Sys2Proof.Machine.execVfFlr fn s
  | .pfFlr => Sys2Proof.Machine.execPfFlr s
  | .attest w => Sys2Proof.Machine.execAttest w s
  | .cert w => Sys2Proof.Machine.execCert w s
  | .log w => Sys2Proof.Machine.execLog w s
  | .loadimg w => Sys2Proof.Machine.execLoadimg w s
  | .powerStep => Sys2Proof.Machine.execPowerStep s
  | .monitorEntryEviction => Sys2Proof.Machine.execMonitorEntryEviction s
  | .dataPoisoned at_ addr n => Sys2Proof.Machine.execDataPoisoned at_ addr n s

end Sys2Proof.Machine
end

