-- ==== Sys2Proof/Machine/BarRead.lean ====
section
/-! DEFINITION. What a read in BAR0 answers (R310, R311, R318–R320, R350, R351, R357–R369, R379, R381, R387, R390, R393). Where a
rule gives a register but not how it reads, the layout is the model's (DESIGN CHOICE, log 73). -/

namespace Sys2Proof.Machine

open Sys2Proof

/-- A number as a register reads. -/
abbrev asWord (n : Nat) : Word := BitVec.ofNat 64 n

/-! ### The blocks -/

/-- A register of a queue's block, by its offset (R310, R311). A virtual function's LQTAIL reads too (R366). -/
def LQueue.readAt (x : LQueue) (tick off : Nat) : Word :=
  match off with
  | 0x00 => x.base
  | 0x08 => x.ctl
  | 0x10 => asWord x.head
  | 0x18 => asWord x.tail
  | 0x20 => asWord x.pass
  | _ => Config.unread tick

/-- BAR0 of a virtual function: the blocks of its queues in increasing queue id (R366). -/
def State.readVfBar (s : State) (fn off : Nat) : Word :=
  let qs := (List.range 256).filter fun q => decide (fn ≠ 0) && decide ((s.queueAt q).vf = fn)
  match qs[off / 64]? with
  | some q => (s.queueAt q).readAt s.tick (off % 64)
  | none => Config.unread s.tick

/-- An entry of the vintage table, in the layout of VTAB (R195, R319; DESIGN CHOICE, log 73). -/
def Vint.word (v : Vint) : Word :=
  asWord (bit v.spare * 2 ^ 37 + bit v.en * 2 ^ 36 + v.tcls % 16 * 2 ^ 32 + v.apxf % 2 ^ 16 * 2 ^ 16 + v.exf % 2 ^ 16)

/-- An aperture window as an entry is laid out (R366). -/
def Window.word (w : Window) : Word := asWord (w.page * 2 ^ 21 + w.asid.toNat * 2 ^ 6 + bit w.v)

/-- SMGEN: BUSY and GEN (R359). -/
def Partition.smgen (p : Partition) : Word := asWord (bit p.busy * 2 ^ 8 + p.gen.toNat)

/-- LOGOVF, LOGWR and LOGRD read as they stand (R368); BOOTSTS (R381), SMSTS (R387), PWRSTS and PLIM (R393). -/
def Secure.bootsts (x : Secure) : Word :=
  asWord (x.failch * 2 ^ 32 + bit x.slotB * 2 ^ 17 + bit x.recovery * 2 ^ 16 + x.err % 2 ^ 8 * 2 ^ 8 + x.stage % 16)
def Secure.smsts (x : Secure) : Word := asWord (x.result % 2 ^ 8 * 2 ^ 8 + bit x.lost * 2 + bit x.busy)
def Dev.pwrsts (d : Dev) : Word :=
  asWord (bit d.trip * 2 ^ 56 + d.tio % 2 ^ 8 * 2 ^ 48 +
    ((List.range 4).map fun i => smGet 0 d.tds i % 2 ^ 8 * 2 ^ (16 + 8 * i)).foldl (· + ·) 0 + d.pmod % 2 ^ 16)
def Dev.plimWord (d : Dev) : Word := asWord (d.tthr * 2 ^ 16 + d.plimw)

/-- Eight bytes of the mailbox's buffer. While BUSY is 1 they read 0 (R387). -/
def Secure.buffer (x : Secure) (i : Nat) : Word := if x.busy then 0 else asWord (natOf (smGetRange 0 x.mbox (8 * i) 8))

/-- A counter reads zero-extended from 48 bits (R390). -/
def monAt (m : SMap Mon) (k : Nat) : Mon := aGet Mon.reset m k
def Mon.wide (m : Mon) : Word := m.val.setWidth 64

/-- A synonym filter's entry, as it was written (R357; DESIGN CHOICE, log 73). -/
def Dev.readSyn (d : Dev) (ctl frame : Nat) (asid : BitVec 10) : Word :=
  match d.synf.find? fun y => decide (y.ctl = ctl) && decide (y.frame = frame) && decide (y.casid = asid) with
  | some y => asWord (y.cpage * 2 ^ 16)
  | none => 0

/-- The physical path of the management processors to eight bytes of device memory (R351). -/
def Dev.readPhys (d : Dev) (pa : Nat) : Word :=
  asWord (natOf (smGetRange Memory.unlisted d.dmem (pa / 8 * 8) 8))

/-- What a register that REGISTER_WRITE writes reads as. Masks and shares of a partition read bit by bit (R363; log 73). -/
def State.readReg (s : State) (r : DevReg) : Word :=
  let d := s.dev
  match r with
  | .vfBar fn off => s.readVfBar fn.toNat off.toNat
  | .lqbase q => (s.queueAt q.toNat).base
  | .schedctl => d.schedctl
  | .ctxbase => d.ctxbase
  | .synEntry ctl frame asid => d.readSyn ctl.toNat frame.toNat asid
  | .synDrop .. | .smcmd => Config.unread s.tick
  | .physDword pa => d.readPhys pa.toNat
  | .smapStage p i => asWord (smGet 0 (s.partAt p.toNat).staged i.toNat)
  | .partCore p c => asWord (bit ((s.partAt p.toNat).cores.contains c.toNat))
  | .partSlice p j => asWord (bit ((s.partAt p.toNat).slices.contains j.toNat))
  | .partRange p i _ => let x := aGet (0, 0) (s.partAt p.toNat).ranges i.toNat
      asWord (x.1 * 2 ^ 32 + x.2)
  | .partVf p fn => asWord (bit ((s.partAt p.toNat).fns.contains fn.toNat))
  | .l2pol p => (s.partAt p.toNat).l2pol.setWidth 64
  | .cdtab die lane i => (smGet cdOpen d.cdtab (cdKey die.toNat lane.toNat i.toNat)).setWidth 64
  | .cdlen die => asWord (d.cordonLen die.toNat)
  | .fgrp => d.fgrp
  | .froute r => (smGet 0 d.froute r.toNat).setWidth 64
  | .logbase => d.logbase
  | .logctl => d.logctl
  | .logrd => asWord d.logrd
  | .logovf => asWord d.logovf
  | .monCoreSel c k => (monAt (s.core c.toNat).mon k.toNat).sel
  | .monCoreVal c k => (monAt (s.core c.toNat).mon k.toNat).wide
  | .monSliceSel j k => (monAt d.smon (4 * j.toNat + k.toNat)).sel
  | .monSliceVal j k => (monAt d.smon (4 * j.toNat + k.toNat)).wide
  | .monChanSel h k => (monAt d.cmon (4 * h.toNat + k.toNat)).sel
  | .monChanVal h k => (monAt d.cmon (4 * h.toNat + k.toNat)).wide
  | .plim => d.plimWord
  | .pwrsts => d.pwrsts
  | .mailbox i => d.sec.buffer i.toNat
  | .smsts => d.sec.smsts

/-- What a register of BAR0 reads as, hand-over apart. -/
def State.readBar (s : State) (r : BarReg) : Word :=
  match r with
  | .dev r => s.readReg r
  | .lq q r => (s.queueAt q.toNat).readAt s.tick (8 * (r.toNat + 1))
  | .vcap => asWord s.dev.capfNew
  | .vintage c => (aGet Vint.reset s.dev.vint c.toNat).word
  | .window fn i => (aGet Window.reset s.dev.wins (2 ^ 15 * fn.toNat + i.toNat)).word
  | .smgen p => (s.partAt p.toNat).smgen
  | .aslot k => (smGet 0 s.dev.aslot k.toNat).setWidth 64
  | .migctl => asWord (bit s.dev.migDone)
  | .logwr => asWord s.dev.logwr
  | .bootsts => s.dev.sec.bootsts

/-- The registers of the security block (R381, R387). -/
def barSecure : BarReg → Bool
  | .dev r => DevReg.secure r
  | .bootsts => true
  | _ => false

/-- The core whose cycle counters are brought up to the cycle of a read of its monitors (R390–R392). -/
def barMonCore : BarReg → Option Nat
  | .dev (.monCoreVal c _) => some c.toNat
  | .dev (.monCoreSel c _) => some c.toNat
  | _ => none

/-- A read in BAR0, answered to the host: the blocks other than the security block read 0 until STAGE 0xF (R379). -/
def State.barRead (s : State) (r : BarReg) : State :=
  if !barSecure r && decide (s.dev.sec.stage ≠ 15) then s.hostAnswer true (bytesOf 8 0)
  else
    let t := match barMonCore r with
      | some c => if c < 384 then s.tickCycles c else s
      | none => s
    t.hostAnswer true (bytesOf 8 (t.readBar r).toNat)

end Sys2Proof.Machine
end

