-- ==== Sys2Proof/Machine/Uses.lean ====
section
/-! DEFINITION. The interlock of M (R223, R229, R262): what each of its words reads and writes, on which unit, and when a word
waits for earlier ones that have issued and not finished. -/

namespace Sys2Proof.Machine

open Sys2Proof

/-- What a word of M reads and writes, and the unit it runs on. -/
structure Uses where
  unit : MUnit
  reads : List Res
  writes : List Res
  deriving DecidableEq, Repr

/-! ### Operands as resources -/

/-- x registers; x0 is no register that a word waits for (R34). -/
def xRes (rs : List XReg) : List Res := (rs.filter fun r => r ≠ 0).map .x
def vRes (rs : List VReg) : List Res := rs.map .v
def mRes (rs : List MReg) : List Res := rs.map .m

/-- A mask, an operand b, a source of VBCST. -/
def maskRes (mk : Option MReg) : List Res := mRes mk.toList
def srcRes : VSrc → List Res
  | .v r => [.v r]
  | .x r => xRes [r]
def bcRes : BcSrc → List Res
  | .lane r _ => [.v r]
  | .x r => xRes [r]

/-- `n` vectors from v(k) on. -/
def vSpan (k : VReg) (n : Nat) : List Res := (List.range n).map fun i => .v (vPlus k i)

/-- The bytes in the SPM of the tile that a new word takes from a ring. -/
def headBytes (c : Cask) (n : RingNo) : Res :=
  let r := c.ring n.toNat
  .spm (r.slotAt (r.head + c.pendingPops n.toNat)) r.tileBytes

/-- The tiles that `n` bytes of the ACM from `off` on reach. -/
def tilesOf (off n : Nat) : List Res :=
  ((List.range 8).filter fun k => decide (0x10000 * k < off + n ∧ off < 0x10000 * (k + 1))).map fun k => .c (BitVec.ofNat 3 k)

/-- The sealed blocks of an accumulator, and the place of the next one. -/
def stackBytes (a : QAcc) : Res := .spm a.base (a.b * recSize a.kc)
def sealBytes (a : QAcc) : Res := .spm (a.base + a.b * recSize a.kc) (recSize a.kc)

/-- A vector word: vectors read and written under a mask. -/
def vecUses (mk : Option MReg) (vd : VReg) (reads : List Res) : Uses :=
  { unit := .vector, reads := maskRes mk ++ reads, writes := [.v vd] }

/-- A word that makes a mask or a vector of the masks and vectors it reads. -/
def vUses (reads writes : List Res) : Uses := { unit := .vector, reads := reads, writes := writes }

/-- A vector word that reaches the SPM: they do so in program order (R103). -/
def spmUses (reads writes : List Res) : Uses := { unit := .vector, reads := reads, writes := .vmem :: writes }

/-- An apply word (R257, R258). -/
def applyUses (c : Cask) (form : Bool) (n : CTile) (q : QReg) : Uses :=
  { unit := .array, reads := (if form then [] else [.c n]) ++ [.q q, stackBytes (c.qacc q)], writes := [.c n] }

/-- What a word of M uses that takes one of the three units; none for the words of the common set and for those of the other
streams. -/
def mUses (c : Cask) : Instr → Option Uses
  | .mma _ z _ n ra rb => some
      { unit := .array, reads := (if z then [] else [.c n]) ++ [headBytes c ra, headBytes c rb],
        writes := [.c n, .ring ra, .ring rb] }
  | .czero _ n => some { unit := .port, reads := [], writes := [.c n] }
  | .cld _ a b len => some
      { unit := .port, reads := xRes [a, b] ++ [.spm (c.xreg .m b).toNat (128 * len.toNat)],
        writes := tilesOf (c.xreg .m a).toNat (128 * len.toNat) }
  | .cldOut _ a b len => some
      { unit := .port, reads := xRes [a, b] ++ tilesOf (c.xreg .m a).toNat (128 * len.toNat),
        writes := [.spm (c.xreg .m b).toNat (128 * len.toNat)] }
  | .cscl _ _ n va => some (vUses [.c n, .v va] [.c n])
  | .ctr _ n m => some (vUses [.c m] [.c n])
  | .crowv _ _ vd n a => some (vUses ([.c n] ++ xRes [a]) [.v vd])
  | .cvrow _ _ n va a => some (vUses ([.c n, .v va] ++ xRes [a]) [.c n])
  | .vadd _ _ mk vd va vb | .vsub _ _ mk vd va vb | .vmul _ _ mk vd va vb | .vmax _ _ mk vd va vb
  | .vmin _ _ mk vd va vb | .vshl _ _ mk vd va vb | .vshr _ _ mk vd va vb => some (vecUses mk vd ([.v va] ++ srcRes vb))
  | .vand _ mk vd va vb | .vor _ mk vd va vb | .vxor _ mk vd va vb | .vperm _ mk vd va vb =>
      some (vecUses mk vd ([.v va] ++ srcRes vb))
  | .vfma _ _ mk vd va vb vc => some (vecUses mk vd (vRes [va, vc] ++ srcRes vb))
  | .vabs _ _ mk vd va | .vneg _ _ mk vd va | .vreds _ _ mk vd va | .vredm _ _ mk vd va => some (vecUses mk vd [.v va])
  | .vrcp _ mk vd va | .vrsq _ mk vd va | .vsqrt _ mk vd va | .vexp2 _ mk vd va | .vlog2 _ mk vd va =>
      some (vecUses mk vd [.v va])
  | .vcvt _ mk _ _ _ vd va => some (vecUses mk vd [.v va])
  | .vcmp _ _ _ mk md va vb => some (vUses (maskRes mk ++ [.v va] ++ srcRes vb) [.m md])
  | .vsel _ vd va vb mk => some (vUses ([.v va, .m mk] ++ srcRes vb) [.v vd])
  | .vbcst _ mk vd src => some (vecUses mk vd (bcRes src))
  | .vcmpr _ vd va mk | .vexpd _ vd va mk => some (vUses [.v va, .m mk] [.v vd])
  | .cqapp _ w2 xa xb va vb mk => some (spmUses ([.v va, .v vb, .m mk] ++ xRes [xa, xb])
      (xRes [xa, xb] ++ [.spm (c.xreg .m xa).toNat (4 * recWords w2 * maskCount (c.mreg mk))]))
  | .cqtake _ w2 vd xa xb md => some (spmUses
      (xRes [xa, xb] ++ [.spm (c.xreg .m xa).toNat (4 * recWords w2 * c.takeCount xb)])
      (xRes [xa, xb] ++ vSpan vd (recWords w2) ++ [.m md]))
  | .vld _ mk vd a imm => some (spmUses (maskRes mk ++ xRes [a] ++ [.spm (c.vea a imm) 512]) [.v vd])
  | .vldM _ md a imm => some (spmUses (xRes [a] ++ [.spm (c.vea a imm) 16]) [.m md])
  | .vst _ mk va a imm => some (spmUses (maskRes mk ++ [.v va] ++ xRes [a]) [.spm (c.vea a imm) 512])
  | .vstM _ ma a imm => some (spmUses ([.m ma] ++ xRes [a]) [.spm (c.vea a imm) 16])
  | .vpop _ vd n => some (vUses [headBytes c n] ([.ring n, .latch] ++ vSpan vd (c.ring n.toNat).rows))
  | .mand _ md ma mb | .mor _ md ma mb => some (vUses (mRes [ma, mb]) [.m md])
  | .mnot _ md ma => some (vUses [.m ma] [.m md])
  | .viota _ mk vd xb => some (vecUses mk vd (xRes xb.toList))
  | .vcnt _ xd mk => some (vUses [.m mk] (xRes [xd]))
  | .vsband _ sel vd => some (vUses [.latch] [if sel = .mask then .m (vd.setWidth 3) else .v vd])
  | .vblend _ mk vd va vb => some (vUses (maskRes mk ++ vSpan va 3 ++ vSpan vb 3) (vSpan vd 3))
  | .tmask _ n va xa xb xc => some (vUses ([.v va] ++ xRes [xa, xb, xc]) [.c n])
  | .qcfg _ q a => some (vUses (xRes [a]) [.q q])
  | .qclr _ q | .qtrn _ q => some (vUses [] [.q q])
  | .qcnt _ d q => some (vUses [.q q] (xRes [d]))
  | .qacc _ q va a b => some
      { unit := .array, reads := [.v va] ++ xRes [a, b],
        writes := .q q :: (if (c.qacc q).n = (c.qacc q).kc then [sealBytes (c.qacc q)] else []) }
  | .qseal _ q => some
      { unit := .array, reads := [],
        writes := .q q :: (if (c.qacc q).n = 0 then [] else [sealBytes (c.qacc q)]) }
  | .qapl _ _ n q | .qapr _ _ n q => some (applyUses c false n q)
  | .qform _ _ n q => some (applyUses c true n q)
  | .qsv _ q a => some
      { unit := .port, reads := .q q :: xRes [a], writes := [.spm (c.xreg .m a).toNat (recSize (c.qacc q).kc)] }
  | .qrs _ q a => some
      { unit := .port, reads := xRes [a] ++ [.spm (c.xreg .m a).toNat (recSize 64)], writes := [.q q] }
  | _ => none

/-- The x registers that a word of the common set names (R204, R206, R207). -/
def xUses : Instr → List XReg
  | .xset _ _ d _ => [d]
  | .xadd _ _ d a b | .xmul _ _ d a b => [d, a, b]
  | .xaddi _ _ d a _ => [d, a]
  | .lps _ _ _ (.reg a) => [a]
  | .brx _ _ _ a b _ => [a, b]
  | _ => []

/-- MMA: one may issue behind another that has not finished (R229). -/
def isMma : Instr → Bool
  | .mma .. => true
  | _ => false

/-- A word whose unit is free again before it has finished: MMA and the apply words (R229, R262). -/
def freesUnit (i : Instr) : Bool := isApply i || isMma i

/-- The words that hold the vector unit for 128 cycles (R230, R232, R247). -/
def holdsVector : Instr → Bool
  | .cscl .. | .ctr .. | .tmask .. => true
  | .crowv _ mode _ _ _ => decide (mode ≠ .row ∧ mode ≠ .col)
  | _ => false

/-! ### The interlock -/

/-- Two resources are the same, or ranges of the SPM that meet. -/
def Res.meets : Res → Res → Bool
  | .spm a j, .spm b k => decide (a < b + k ∧ b < a + j)
  | r, t => decide (r = t)

/-- Some resource of one list is one of the other. -/
def anyMeets (xs ys : List Res) : Bool := xs.any fun x => ys.any fun y => x.meets y

/-- The tiles among resources. -/
def tileNames (xs : List Res) : List Res := xs.filter fun x => match x with
  | .c _ => true
  | _ => false

/-- A word that reads and writes so waits for a late word: where one writes what the other reads or writes, and where both name
one tile (R229). -/
def Late.blocks (l : Late) (reads writes : List Res) : Bool :=
  anyMeets l.writes (reads ++ writes) || anyMeets l.reads writes || anyMeets (tileNames l.reads) (tileNames reads)

/-- The unit of a new word is taken by a late one: the array by a word that does not free it early, the vector unit by a
word of 128 cycles, the port of the accumulator memory by any (R223). -/
def Late.holds (l : Late) (u : MUnit) : Bool :=
  !l.f.settled && l.unit = u && (match u with
    | .array => !freesUnit l.i
    | .vector => holdsVector l.i
    | .port => true)

/-- As many words as an issue log holds stand between the first that is not settled and the next to issue (R333, R335). -/
def EngSt.windowFull (st : EngSt) : Bool :=
  st.redo.isEmpty && decide (st.openCns ≠ []) && decide (32 ≤ st.openCns.length + st.done.length)

/-- A word of M waits for the late words: to run and finish now or, with `ahead`, only to issue, for which an MMA does not
wait for the MMAs ahead of it (R223, R229, R262). -/
def Cask.interlocked (c : Cask) (i : Instr) (ahead : Bool) : Bool :=
  let ls := c.eM.late.filter fun l => !l.f.settled && !(ahead && isMma i && isMma l.i)
  c.eM.windowFull || (match mUses c i with
    | some u => ls.any fun l => l.blocks u.reads u.writes || l.holds u.unit
    | none => ls.any fun l => l.blocks (xRes (xUses i)) (xRes (xUses i)))

/-- Late word `k` can finish next: the words of the array finish in order (R229, R262). -/
def Cask.canFinish (c : Cask) (k : Nat) : Bool :=
  match c.eM.late[k]? with
  | none => false
  | some l => l.f.settled || !(l.unit = .array && (c.eM.late.take k).any fun l => l.unit = .array && !l.f.settled)

end Sys2Proof.Machine
end

