-- ==== Sys2Proof/Machine/Fetch.lean ====
section
/-! DEFINITION. What moves at a step: the word that K or an engine stands at, fetched, checked and decoded (R149, R152–R156,
R344); the command whose turn it is; the oldest store of K's buffer; an event. -/

namespace Sys2Proof.Machine

open Sys2Proof

/-- What a turn comes to: an instruction of the table, or a state reached without one (an agent that cannot move, a fetch
that faults, a store of the buffer performed). -/
inductive Pick where
  | run (i : Instr)
  | done (s : State)
  deriving Repr

/-- The fault of a word that does not decode. -/
def DecErr.code : DecErr → Nat
  | .illegalOp => cIllegalOp
  | .illegalOperand => cIllegalOperand
  | .copyMalformed => cCopyMalformed

/-! ### K (R32, R149) -/

/-- An opcode of the privileged range (R149). -/
def privOp (w : Nat) : Bool := decide (0x78 ≤ w / 2 ^ 57)

/-- The fault of a K word that does not decode: PROTECTION comes first where the opcode is privileged and K is not. -/
def kBad (priv : Bool) (w : Nat) (e : DecErr) : Nat := if privOp w && !priv then cProtection else DecErr.code e

/-- The word that K stands at. Behind the window nothing is fetched (R32). -/
def State.kPick (s : State) : Pick :=
  if !s.kGoes then .done s
  else
    let pc := s.cask.kr.kpc
    if imemSize s.dual ≤ pc then .done (s.coreStop .k { code := cIllegalOperand })
    else if nsHits s.cask.mem.ikP pc 8 then .done (s.coreStop .k { code := cFetchEcc })
    else
      let w := s.cask.fetch .k pc 8
      match decodeK w with
      | .ok i => .run i
      | .error e => .done (s.coreStop .k { code := kBad s.cask.kr.priv w e })

/-! ### Engines (R152–R156) -/

/-- The place of the word that an engine works on: the one in progress, or the next to issue. -/
def EngSt.at_ (st : EngSt) : Nat × Nat :=
  match st.flight with
  | some f => (f.hoff, f.idx)
  | none => st.place

/-- The engine stands before a section that has not started. -/
def EngSt.before (st : EngSt) : Bool := st.flight.isNone && st.redo.isEmpty && !st.started

/-- A halted engine with no word in progress has nothing to do (R208). -/
def EngSt.idle (st : EngSt) : Bool := st.halted && st.flight.isNone && st.redo.isEmpty

/-- What an engine does in its turn; with `ahead`, M's word only issues (R223). -/
def State.ePick (s : State) (e : Eng) (ahead : Bool) : Pick :=
  let st := s.cask.eng e
  if !s.engGoes || st.idle then .done s
  else if st.before then .run (.sectionStart e)
  else
    let p := st.at_
    let stop (code : Nat) : Pick := .done (s.coreStop e.unit { code := code, stat := eStat s.cask e })
    if st.flight.isNone && nsHits (s.cask.imemP e.unit) (p.1 + 8 + 12 * p.2) 12 then stop cFetchEcc
    else match decodeEng e (s.cask.wordAt e p.1 p.2) with
      | .ok i => if e = .m && (st.flight.all fun f => !f.begun) && s.cask.interlocked i ahead then .done s else .run i
      | .error x => stop (DecErr.code x)

/-- The late word of M that finishes in its turn (R223). -/
def State.latePick (s : State) (k : Nat) : Pick :=
  match s.cask.eM.late[k]? with
  | some l => if s.engGoes && s.cask.canFinish k then .run l.i else .done s
  | none => .done s

/-! ### Y (R265) -/

/-- What becomes of a command in its turn: it begins, does its work, or completes at the head of its queue. -/
def State.yPick (s : State) (q : YNo) (pos : Nat) : Pick :=
  match s.entAt q.toNat pos with
  | none => .done s
  | some y =>
    if !y.begun then (if s.cask.yy.nextCmd q.toNat = some pos then .run (.commandBegin q) else .done s)
    else if y.done then (if pos = 0 then .run (.commandComplete q) else .done s)
    else match decodeCmd (natOf y.bytes) with
      | .ok i => .run i
      | .error _ => .done s

/-! ### The store buffer and the events -/

/-- The oldest store of the buffer performed in the L1 (R102). -/
def State.drainOne (s : State) : State := tryAct (drainStore s.cask.st.sbuf) s

/-- The events of the table: rows that no stream encodes, other than those that belong to the turn of an engine. -/
def isEvent (i : Instr) : Bool :=
  decide (i.form = .event) && (match i with
    | .sectionStart _ | .coreStop .. => false
    | _ => true)

/-- What moves at a step. -/
def State.pick (s : State) : Pick :=
  match s.turn.agent with
  | .k => s.kPick
  | .eng e => s.ePick e false
  | .issue => s.ePick .m true
  | .finish k => s.latePick k
  | .y q pos => s.yPick q pos
  | .buf => .done s.drainOne
  | .clean asid line => .done (s.cleanLine asid line)
  | .l2 fill asid line => .done (if fill then s.l2Fill asid line else s.l2Flush fun x => decide (x.asid = asid) && decide (x.line = line))
  | .adopt p slice i => .done (s.adoptStep p slice i)
  | .fuse k v => .done (s.raiseSvn k v)
  | .bar r => .done (s.barRead r)
  | .ev i => if isEvent i then .run i else .done s

/-! ### The end of a step -/

/-- The events of a slice and of a channel that pass with time: its ring cycles, and in a channel the cycles with every
walker busy and the corrected errors, of which the spec says no more (R391; log 8). -/
def Dev.later (d : Dev) (tick : Nat) : Dev :=
  let n := Config.ringDelta tick
  { d with
    rtc := d.rtc + n
    smon := d.smon.map fun p => (p.1, p.2.bump 1 n false)
    cmon := d.cmon.map fun p =>
      (p.1, ((p.2.bump 1 n false).bump 6 (Config.unitDelta tick p.1) false).bump 7 (Config.unitDelta tick (192 + p.1)) false) }

/-- The step ends: the ring clock advances, the counter of free choices too, and who moves next is chosen (logs 1, 8). -/
def State.passTurn (s : State) : State :=
  { s with dev := s.dev.later s.tick, turn := Config.nextTurn s.tick, tick := s.tick + 1 }

/-! ### An instruction placed where the next step fetches it -/

/-- The cask that `withFetchWord` places an instruction in: it holds a strand, and nothing holds its engines or Y. -/
def Cask.ready (c : Cask) : Cask :=
  { c with
    st := { c.st with live := true, stopped := false, kstop := false },
    yy := { c.yy with parked := false, failed := none } }

/-- A header of a section of one word with no requirements. -/
def oneWordHdr : Nat := 0xFFFF * 2 ^ 44 + 0xFFFF * 2 ^ 28 + 1

/-- A K word at K's place. -/
def Cask.placeK (c : Cask) (w : Nat) : Cask := c.setImem .k c.kr.kpc (bytesOf 8 w)

/-- An engine word in a section of its own that has started, at the engine's place. -/
def Cask.placeEng (c : Cask) (e : Eng) (w : Nat) : Cask :=
  (c.setImem e.unit (c.eng e).hoff (bytesOf 8 oneWordHdr ++ bytesOf 12 w)).updEng e fun st =>
    { st with started := true, halted := false, idx := 0, count := 1, snum := 0, nfa := false, flight := none, redo := [],
              late := [], held := none, done := [], owed := [], need := none }

/-- A copy command that has begun, alone in queue 0. -/
def Cask.placeY (c : Cask) (w : Nat) : Cask :=
  { c with yy := { c.yy with queues := aSet c.yy.queues 0 [{ YEnt.fork (bytesOf 128 w) 1 1 0 none with begun := true }] } }

/-- The instruction of `nbits` bits `w`, placed in core 0's cask 0, whose turn it is. -/
def State.placeWord (s : State) (nbits w : Nat) : State :=
  let v := w % 2 ^ nbits
  let a : Agent := if nbits ≤ 64 then .k else if nbits ≤ 96 then .eng (tableStream v) else .y 0 0
  let k := s.core 0
  let c := (k.cask false).ready
  let c1 := if nbits ≤ 64 then c.placeK v else if nbits ≤ 96 then c.placeEng (tableStream v) v else c.placeY v
  { s with
    cores := aSet s.cores 0 { k.setCask false c1 with cur := false },
    turn := { core := 0, cask := false, agent := a, burst := 0 } }

end Sys2Proof.Machine
end

