-- ==== Sys2Proof/Machine/Overlap.lean ====
section
/-! DEFINITION. Words of M that issue at one step and finish at a later one, in or out of program order (R223, R229, R248,
R262, R263). A word that issues so leaves its engine free for the next one; its results and its pushes come when it
finishes. The interlock keeps what it reads and writes as it is. -/

namespace Sys2Proof.Machine

open Sys2Proof

/-! ### Issue -/

/-- A word without token bits. -/
def noTk : Tk := { pp := false, pn := false, hp := false, hn := false }

/-- From `c` to `d` the word that M stands at has issued, and nothing but its finish stands before it. -/
def Cask.issuesTo (c d : Cask) : Bool :=
  !d.st.stopped && decide ((d.eM.cn, d.eM.redo.length) ≠ (c.eM.cn, c.eM.redo.length)) && (match d.eM.flight with
    | some f => f.settled
    | none => true)

/-- The word that M stands at has taken from the FIFOs and from FQ what it has taken in `d`. -/
def Cask.takeAs (c d : Cask) : Cask :=
  let c1 := match c.eM.flight with
    | some _ => c
    | none =>
      let np := c.cp.tok.popCount .m true - d.cp.tok.popCount .m true
      let nn := c.cp.tok.popCount .m false - d.cp.tok.popCount .m false
      let t1 := c.cp.tok.setPop .m true (c.cp.tok.popCount .m true - np)
      ((c.issue .m noTk 0).setTok (t1.setPop .m false (t1.popCount .m false - nn))).updFlight .m fun f =>
        { f with popP := np, popN := nn }
  let c2 : Cask := { c1 with cp := { c1.cp with fq := d.cp.fq, fqWait := d.cp.fqWait, fqPops := d.cp.fqPops } }
  if d.cp.fqPops = c.cp.fqPops then c2 else c2.updFlight .m fun f => { f with fmtw := c.cp.fq.head?, fmtn := c.cp.fqPops }

/-- The word `i` that M stands at issues and stands aside until its finish: M's place moves on, and markers and sections
behind it wait for its finish (R46, R156). -/
def Cask.park (c d : Cask) (i : Instr) (u : Uses) : Cask :=
  let c1 := (c.takeAs d).begin .m
  let f := c1.flightOf .m
  let c2 := (c1.settle .m).retire .m 0 (some { cn := f.cn, hp := false, hn := false, ready := false })
  c2.updEng .m fun st => { st with
    late := st.late ++ [{ i := i, f := f, x := c.eM.x, reads := u.reads, writes := u.writes, unit := u.unit,
                          apply := isApply i, wait := none }],
    done := if isApply i then c.eM.done else st.done }

/-- The word that M stands at waits as it does in `d`, with what it has taken. -/
def Cask.waitAs (c d : Cask) : Cask :=
  if d.st.stopped || d.eM.flight.isNone then c
  else (c.takeAs d).updEng .m fun st => { st with
      flight := st.flight.map fun f => { f with rings := (d.flightOf .m).rings }
      wait := d.eM.wait }

/-- Units of work that end every word of M, whatever it moves. -/
def fullBurst : Nat := 0xFFFF

/-- M's word `i` issues, and finishes later where it can issue now and nothing stops it. Otherwise its turn is as any; an MMA
behind another that has not finished waits (R229). -/
def State.issueLate (s : State) (i : Instr) : Host.Outcome State Fault Refusal :=
  match mUses s.cask i with
  | none => exec i s
  | some u =>
    match exec i { s with turn := { s.turn with burst := fullBurst } } with
    | .next t =>
      if s.cask.issuesTo t.cask then .next (s.updCask fun c => c.park t.cask i u)
      else if s.cask.interlocked i false then .next (s.updCask fun c => c.waitAs t.cask)
      else exec i s
    | _ => if s.cask.interlocked i false then .next s else exec i s

/-! ### Finish -/

/-- Late word `k` of M, `i`, does its work and finishes; one whose pushes find no room stays (R45). -/
def State.finishLate (s : State) (k : Nat) (i : Instr) : Host.Outcome State Fault Refusal :=
  match exec i (s.updCask fun c => c.lateIn k) with
  | .next t => .next (t.updCask Cask.lateOut)
  | r => r

/-- The instruction of a turn runs. -/
def State.run (s : State) (i : Instr) : Host.Outcome State Fault Refusal :=
  match s.turn.agent with
  | .issue => s.issueLate i
  | .finish k => s.finishLate k i
  | _ => exec i s

/-! ### Stops (R263, R323, R331) -/

/-- M has a word of its own in progress that has begun and that no stop cancels. -/
def Cask.ownBegun (c : Cask) : Bool := c.eM.flight.any fun f => f.begun && !f.settled && !c.appliesAt f.hoff f.idx

/-- The casks in which M has words to finish. -/
def State.lateCasks (s : State) : List (Nat × Bool) :=
  (s.cores.map fun p => ([false, true].filter fun b => decide ((p.2.cask b).eM.late ≠ []) || (p.2.cask b).ownBegun).map
    fun b => (p.1, b)).flatten

/-- From `s` to `t` a cask has stopped, or has been switched out. -/
def State.stopsIn (s t : State) (p : Nat × Bool) : Bool :=
  let c := s.caskAt p.1 p.2
  let d := t.caskAt p.1 p.2
  c.st.live && d.st.live && !c.st.stopped && (d.st.stopped || decide ((s.core p.1).cur = p.2 ∧ (t.core p.1).cur ≠ p.2))

/-- `s` with the turn of an agent of a cask that does all its work. -/
def State.forAgent (s : State) (p : Nat × Bool) (a : Agent) : State :=
  { s with turn := { core := p.1, cask := p.2, agent := a, burst := fullBurst } }

/-- Late word `k` of a cask has a step before the cask stops: it finishes, or takes its results. An apply word has none; one
that would fault has none either. -/
def State.finishBefore (s : State) (p : Nat × Bool) (k : Nat) : Option State :=
  let ls := (s.caskAt p.1 p.2).eM.late
  match ls[k]? with
  | none => none
  | some l =>
    if (l.apply && !l.f.settled) || !(s.caskAt p.1 p.2).canFinish k then none
    else match (s.forAgent p (.finish k)).finishLate k l.i with
      | .next u =>
        let d := u.caskAt p.1 p.2
        if !d.st.stopped && (decide (d.eM.late.length < ls.length) ||
            (!l.f.settled && (d.eM.late[k]?.map fun m => m.f.settled) = some true)) then some { u with turn := s.turn }
        else none
      | _ => none

/-- M's own word that has begun has a step before the cask stops, in which it takes its results. -/
def State.finishOwn (s : State) (p : Nat × Bool) : Option State :=
  if !(s.caskAt p.1 p.2).ownBegun then none
  else match (s.forAgent p (.eng .m)).ePick .m false with
    | .run i => match exec i (s.forAgent p (.eng .m)) with
      | .next u => if !(u.caskAt p.1 p.2).st.stopped && !(u.caskAt p.1 p.2).ownBegun then some { u with turn := s.turn } else none
      | _ => none
    | .done _ => none

/-- The words that M has issued finish before it stops, other than the apply words: a step that would stop a cask, or switch
it out, is that of such a word instead while there is one (R323, R331). -/
def State.lettingFinish (s t : State) : State :=
  let ks (p : Nat × Bool) : List Nat := List.range (s.caskAt p.1 p.2).eM.late.length
  match (s.lateCasks.filter fun p => s.stopsIn t p).findSome? fun p =>
      ((ks p).findSome? fun k => s.finishBefore p k).or (s.finishOwn p) with
  | some u => u
  | none => t

/-! ### One agent moves (R332) -/

/-- What the agent whose turn it is does. -/
def State.act (s : State) : Host.Outcome State Fault Refusal :=
  match s.pick with
  | .done t => .next (s.lettingFinish t)
  | .run i => match s.run i with
    | .next t => .next (s.lettingFinish t)
    | r => r

/-- The unit whose fault has stopped the cask from `s` to `t`: ENG of the frame (R334). -/
def State.faulted (s t : State) : Option Nat :=
  let w := (smGet 0 t.cask.st.frame 0).toNat
  if !s.cask.st.stopped && t.cask.st.stopped && decide (fld w 50 2 = 0) then some (fld w 53 3) else none

/-- What the cask would come to if agent `a` moved: the unit that faults, and the state. -/
def State.faultOf (s : State) (a : Agent) : Option (Nat × State) :=
  match ({ s with turn := { s.turn with agent := a } } : State).act with
  | .next u => (s.faulted { u with turn := s.turn }).map fun n => (n, { u with turn := s.turn })
  | _ => none

/-- MULTI in the frame, and in the frame area. -/
def State.setMulti (s : State) : State :=
  let w := smGet 0 s.cask.st.frame 0 ||| (1 <<< 52)
  s.updCask fun c =>
    let d := c.setKlm (frameAt s.dual) (bytesOf 8 w.toNat)
    { d with st := { d.st with frame := smSet 0 d.st.frame 0 w } }

/-- The fault of the unit that comes first in the order K, L, M, S, Y. -/
def firstUnit : Nat × State → List (Nat × State) → Nat × State
  | x, [] => x
  | x, y :: ys => firstUnit (if y.1 < x.1 then y else x) ys

/-- A fault has stopped the core. Where other units fault in the same cycle, the frame reports the first of them in the order
K, L, M, S, Y and sets MULTI; the words of the others are executed again (R332). -/
def State.withOthers (s t : State) : State :=
  match s.faulted t with
  | none => t
  | some n =>
    match ((Config.together s.tick).filterMap s.faultOf).filter fun p => p.1 ≠ n with
    | [] => t
    | xs => (firstUnit (n, t) xs).2.setMulti

end Sys2Proof.Machine
end

