-- ==== Sys2Proof/Machine/Step.lean ====
section
/-! DEFINITION. One step of the machine: the agent whose turn it is moves, and the turn passes on. -/

namespace Sys2Proof.Machine

open Sys2Proof

/-- A step. There is no core above 383 (R1). -/
def step (s : State) : Host.Outcome State Fault Refusal :=
  if 384 ≤ s.turn.core then .fault .noSuchCore
  else match s.act with
    | .next t => .next ((s.withOthers t).passTurn)
    | .fault r => .fault r
    | .refused r => .refused r

/-- `s` with an instruction where the next step fetches it, and the turn of the agent that fetches it. -/
def State.withFetchWord (s : State) (nbits w : Nat) : State := s.placeWord nbits w

end Sys2Proof.Machine
end

