-- ==== Sys2Proof/Safety.lean ====
section
/-! DEFINITION. The terms that claims about the machine use: the canonical form of the memories, what a step leaves alone,
when a word of an engine can run to its end, and what it leaves when it has. -/

namespace Sys2Proof.Machine

open Sys2Proof

/-! ### Memories -/

/-- The memories behind the homes (the device's, the host's, the peers') are in canonical form: addresses strictly rising,
no byte listed that reads as an unlisted one. -/
def State.memoriesWf (s : State) : Bool :=
  Memory.wf s.dev.dmem && Memory.wf s.dev.hmem && Memory.wf s.dev.pmem

/-! ### What a step leaves alone -/

/-- Nothing has changed outside the cask whose turn it is, but the monitors of its core, which count events (R391): every
byte behind the homes, every device register, every other core, the core's other cask, its L1 and its residency are as they
were. -/
def State.onlyCask (s t : State) : Prop :=
  t.dev = s.dev ∧ t.turn = s.turn ∧ t.tick = s.tick ∧ (∀ n, n ≠ s.turn.core → t.core n = s.core n) ∧
  t.core s.turn.core =
    { (s.core s.turn.core).setCask s.turn.cask t.cask with mon := (t.core s.turn.core).mon }

/-- A K word that is `d` in the cask has changed nothing but s registers, K's place and the wait that ends with it. -/
def Cask.onlyK (c d : Cask) : Prop :=
  d = { c with kr := { c.kr with s := d.kr.s, kpc := d.kr.kpc }, st := { c.st with wait := none } }

/-- `t` follows `s` by a K word that writes `v` to s_d, discarded where d is 0, and goes on at `pc`; nothing else
changes. -/
def State.setsK (s t : State) (d : SReg) (v : Word) (pc : Nat) : Prop :=
  s.onlyCask t ∧ Cask.onlyK s.cask t.cask ∧ t.cask.kr.kpc = pc ∧ t.cask.sreg d = (if d = 0 then 0 else v) ∧
  ∀ r, r ≠ d → t.cask.sreg r = s.cask.sreg r

/-! ### Words of the engines -/

/-- No earlier word of an engine stands between its issue and its finish, and none is behind one that does (R223, R333). -/
def EngSt.clear (st : EngSt) : Prop := st.late = [] ∧ st.held = none ∧ st.done = []

/-- Engine `e` stands before a new word whose `n` pops are there and whose `n` pushes have room (R45, R205). -/
def Cask.fresh (c : Cask) (e : Eng) (t : Tk) (n : Nat) : Prop :=
  (c.eng e).flight = none ∧ (c.eng e).redo = [] ∧ (c.eng e).owed = [] ∧ (c.eng e).need = none ∧ (c.eng e).ewr = [] ∧
  c.popsReady e t n = true ∧ c.pushReady e t.hp t.hn n = true ∧ (c.eng e).clear

/-- Token FIFOs after a word of engine `e` has popped and pushed `n` (R45, R205). -/
def Tokens.after (k : Tokens) (e : Eng) (t : Tk) (n : Nat) : Tokens :=
  let k1 := k.setPop e true (k.popCount e true - if t.pp then n else 0)
  let k2 := k1.setPop e false (k1.popCount e false - if t.pn then n else 0)
  let k3 := if t.hp then k2.setPush e true (k2.pushCount e true + n) else k2
  if t.hn then k3.setPush e false (k3.pushCount e false + n) else k3

/-- A new word of engine `e` has finished: its tokens have moved, it has the next completion number, the engine holds no
word, and K, the strand and the other engines are as they were. -/
def Cask.finished (c d : Cask) (e : Eng) (t : Tk) (n : Nat) : Prop :=
  (d.eng e).flight = none ∧ (d.eng e).cn = ((c.eng e).cn + 1) % 2 ^ 32 ∧ d.cp.tok = Tokens.after c.cp.tok e t n ∧
  d.kr = c.kr ∧ d.st = c.st ∧ ∀ e', e' ≠ e → d.eng e' = c.eng e'

/-- Events, rings, the format queue, thresholds and token scopes are as they were. -/
def Cask.sameCoupling (c d : Cask) : Prop :=
  d.cp.rings = c.cp.rings ∧ d.cp.fq = c.cp.fq ∧ d.cp.fqWait = c.cp.fqWait ∧ d.cp.ev = c.cp.ev ∧
  d.cp.lastMark = c.cp.lastMark ∧ d.cp.dth = c.cp.dth ∧ d.cp.tks = c.cp.tks

/-- Every x register of engine `e` is as it was. -/
def Cask.sameX (c d : Cask) (e : Eng) : Prop := ∀ n, d.xreg e n = c.xreg e n

/-- Engine `e` goes on at the word after the one it stood at (R156). -/
def Cask.onNext (c d : Cask) (e : Eng) : Prop :=
  ((d.eng e).hoff, (d.eng e).idx) = afterWord (c.eng e).hoff (c.eng e).idx (c.eng e).count

/-- What a new word of engine `e` leaves that has run to its end with `n` pops and pushes and goes on at the next word: of the
engine's own state only its x registers, its place and what R46 and R156 keep of the words behind it differ; Y, K and the
other engines are as they were. -/
def Cask.ranOn (c d : Cask) (e : Eng) (k : Tk) (n : Nat) : Prop :=
  c.finished d e k n ∧ c.onNext d e ∧ d.yy = c.yy ∧
  d.eng e = { c.eng e with
    x := (d.eng e).x, cn := (d.eng e).cn, hoff := (d.eng e).hoff, idx := (d.eng e).idx, flight := none, wait := none,
    started := (d.eng e).started, lpStart := (d.eng e).lpStart, marks := (d.eng e).marks, rsn := (d.eng e).rsn,
    retired := (d.eng e).retired, rsnPend := (d.eng e).rsnPend }

/-- Such a word that leaves rings, events, the format queue and the thresholds alone too. -/
def Cask.ran (c d : Cask) (e : Eng) (k : Tk) (n : Nat) : Prop := c.ranOn d e k n ∧ c.sameCoupling d

/-- `t` follows `s` by a new word of engine `e` that has run to its end with one pop and one push of each token it names and
has acted on its cask alone. -/
def State.ranAlone (s t : State) (e : Eng) (k : Tk) : Prop := s.onlyCask t ∧ s.cask.ran t.cask e k 1

/-- Lane `k` of v_n, word `k` of c_n, and bit `k` of m_n (R34, R233). -/
def Cask.lane (c : Cask) (n : VReg) (k : Nat) : Lane := smGet 0 c.mx.v (128 * n.toNat + k)
def Cask.word (c : Cask) (n : CTile) (k : Nat) : Lane := smGet 0 c.mx.c (16384 * n.toNat + k)

/-- Lane `k` of operand b of a vector word: a lane of a vector, or the low 32 bits of an x register (R233). -/
def Cask.srcLane (c : Cask) (b : VSrc) (k : Nat) : Lane :=
  match b with
  | .v r => c.lane r k
  | .x r => (c.xreg .m r).setWidth 32

/-! ### Flags and counters of M (R36, R92) -/

/-- MFLAGS has taken the flags that the elements of `n` numbers raise, of which `on` counts. -/
def Cask.raised (c d : Cask) (n : Nat) (on : Nat → Bool) (z : Nat → Rz) : Prop :=
  ∀ b, d.mx.flags.getLsbD b = true ↔ c.mx.flags.getLsbD b = true ∨ ∃ k, k < n ∧ on k = true ∧ (z k).fl.getLsbD b = true

/-- Counter `j` of MXC0–MXC3 has been advanced by the number of elements that `p` selects, with saturation. -/
def Cask.counted (c d : Cask) (j n : Nat) (p : Nat → Bool) : Prop :=
  smGet 0 d.mx.mxc j = min (smGet 0 c.mx.mxc j + ((List.range n).filter p).length) 0xFFFFFFFF

/-- The counters after `n` fp32 elements, of which `on` counts: NaN results, overflows to infinity, saturations, wraps. -/
def Cask.counted32 (c d : Cask) (n : Nat) (on : Nat → Bool) (f : Nat → Lane × Rz) : Prop :=
  c.counted d 0 n (fun k => on k && isNanCode .fp32 (f k).1.toNat) ∧
  c.counted d 1 n (fun k => on k && (isInfCode .fp32 (f k).1.toNat && (f k).2.ovf)) ∧
  c.counted d 2 n (fun k => on k && (f k).2.sat) ∧ c.counted d 3 n (fun k => on k && (f k).2.wrap)

/-- Neither flags nor counters have changed. -/
def Cask.sameCounts (c d : Cask) : Prop := d.mx.flags = c.mx.flags ∧ d.mx.mxc = c.mx.mxc

/-- `t` follows `s` by a vector word that writes `f k` to the active lanes of v_d and changes nothing else but, where it
counts, MFLAGS and MXC0–MXC3 (R233). -/
def State.wroteLanes (s t : State) (k : Tk) (mk : Option MReg) (vd : VReg) (counts : Bool) (f : Nat → Lane × Rz) : Prop :=
  s.onlyCask t ∧ s.cask.ran t.cask .m k 1 ∧ t.cask.mem = s.cask.mem ∧ s.cask.sameX t.cask .m ∧
  t.cask.mx = { s.cask.mx with v := t.cask.mx.v, flags := t.cask.mx.flags, mxc := t.cask.mx.mxc } ∧
  (∀ r i, i < 128 → t.cask.lane r i =
    if r = vd ∧ (s.cask.active mk).getLsbD i = true then (f i).1 else s.cask.lane r i) ∧
  (if counts then
    s.cask.raised t.cask 128 (fun i => (s.cask.active mk).getLsbD i) (fun i => (f i).2) ∧
    s.cask.counted32 t.cask 128 (fun i => (s.cask.active mk).getLsbD i) f
  else s.cask.sameCounts t.cask)

/-! ### The SPM, rings and the format queue -/

/-- No byte of a range of the SPM is poisoned (R346). -/
def Cask.cleanSpm (c : Cask) (a n : Nat) : Prop := ∀ p, p ∈ c.mem.spmP → ¬ (a ≤ p ∧ p < a + n)

/-- Of the local memories only the bytes of the SPM that `hit` selects have changed: byte `p` is `f p`, and its poison is
gone. -/
def Cask.wroteSpm (c d : Cask) (hit : Nat → Prop) (f : Nat → Byte) : Prop :=
  d.mem = { c.mem with spm := d.mem.spm, spmP := d.mem.spmP } ∧
  (∀ p, (hit p → smGet 0 d.mem.spm p = f p) ∧ (¬ hit p → smGet 0 d.mem.spm p = smGet 0 c.mem.spm p)) ∧
  ∀ p, p ∈ d.mem.spmP ↔ p ∈ c.mem.spmP ∧ ¬ hit p

/-- The 32-bit word of the SPM at `a`, and byte `k` of a 32-bit word (R7). -/
def Cask.spmWord (c : Cask) (a : Nat) : Lane := BitVec.ofNat 32 (natOf (c.spmBytes a 4))
def byteOf (v k : Nat) : Byte := BitVec.ofNat 8 (v / 256 ^ k)

/-- The HEADs of the rings of `ns` have advanced by one, modulo twice the slots; nothing else of any ring has changed
(R41). -/
def Cask.popped (c d : Cask) (ns : List Nat) : Prop :=
  ∀ n, d.ring n = if n ∈ ns then { c.ring n with head := ((c.ring n).head + 1) % (2 * (c.ring n).slots) } else c.ring n

/-- Events, thresholds, token scopes and the order at FQ are as they were. -/
def Cask.sameSignals (c d : Cask) : Prop :=
  d.cp.fqWait = c.cp.fqWait ∧ d.cp.ev = c.cp.ev ∧ d.cp.lastMark = c.cp.lastMark ∧ d.cp.dth = c.cp.dth ∧
  d.cp.tks = c.cp.tks

/-- Element `k` of the tile at a ring's head as it stands in the SPM (R7, R40), and as the pop delivers it, with what its
conversion raises (R41, R60, R84). -/
def Cask.headElem (c : Cask) (n k : Nat) : Nat :=
  let r := c.ring n
  let a := r.slotAt r.head
  if r.srcf.bits = 4 then (smGet 0 c.mem.spm (a + k / 2)).toNat / 16 ^ (k % 2) % 16
  else natOf (c.spmBytes (a + r.srcf.bytes * k) r.srcf.bytes)
def Cask.headCode (c : Cask) (n k : Nat) : Nat × Rz :=
  let r := c.ring n
  popCode r.srcf r.snkf (sbScl (smGet 0 r.sb (128 * (r.head % r.slots))) r.snkf) (c.headElem n k)

/-- A ring holds a tile, and none of its bytes is poisoned. -/
def Cask.headClean (c : Cask) (n : Nat) : Prop :=
  0 < (c.ring n).depth ∧ c.cleanSpm ((c.ring n).slotAt (c.ring n).head) (c.ring n).tileBytes

/-! ### Words that take several steps (R202, R333) -/

/-- The state with the cask of the turn listed, as the actions of a word leave it that change nothing. -/
def State.here (s : State) : State := s.setCask s.cask

/-- A new word of engine `e` has taken its pops and begun. -/
def State.begunWord (s : State) (e : Eng) (t : Tk) : State := s.setCask ((s.cask.issue e t 1).begin e)

/-- A new firing word of engine `e` has taken its pops and its nest, and begun: without the reuse option its nest table's
shadow copy is the active one now (R43). -/
def State.firedWord (s : State) (e : Eng) (t : Tk) (ru : Bool) (n : NestNo) : State :=
  let c := s.cask.issue e t 1
  let x := c.nest e n.toNat
  let c1 := if ru then c
    else (c.setNest e n.toNat { x with act := x.shd, ready := false }).updFlight e fun f =>
      { f with swp := true, jfree := some x.jnum }
  s.setCask (c1.begin e)

/-- A new word of engine `e` has taken its pops and the format word `w` from the head of FQ, and begun (R44); its place among
all that FQ has given is kept (R333). -/
def State.formatWord (s : State) (e : Eng) (t : Tk) (w : Word) (ws : List Word) : State :=
  let c := s.cask.issue e t 1
  s.setCask ((({ c with cp := { c.cp with fq := ws, fqPops := c.cp.fqPops + 1 } } : Cask).updFlight e fun f =>
    { f with fmtw := some w, fmtn := c.cp.fqPops }).begin e)

/-- One piece of the point `p` of L's word has been loaded from `s`, and `q` is the point behind it, in `s1` (R114): the first
piece where they are ordered, and else any. -/
def pieceLoaded (s : State) (p : Point) (ordered : Bool) (load : Nat → Nat → Act (List Byte)) (q : Point) (s1 : State) : Prop :=
  let k := if ordered then 0 else Config.nextPart s.tick p.parts.length % p.parts.length
  match p.parts[k]? with
  | none => q = p ∧ s1 = s
  | some x => ∃ bs, load x.2.1 x.2.2 s = .ok bs s1 ∧
      q = { p with parts := p.parts.eraseIdx k, data := p.data.take x.1 ++ bs ++ p.data.drop (x.1 + bs.length) }

/-- One piece of the point `p` of S's word has been stored from `s`, in `s1`, and `rest` are the pieces left (R114). -/
def pieceStored (s : State) (p : Point) (store : Nat → List Byte → Act Unit) (rest : List (Nat × Nat × Nat)) (s1 : State) :
    Prop :=
  let k := Config.nextPart s.tick p.parts.length % p.parts.length
  rest = p.parts.eraseIdx k ∧ match p.parts[k]? with
    | none => s1 = s
    | some x => store x.2.1 ((p.data.drop x.1).take x.2.2) s = .ok () s1

/-- One piece of the point `p` of S's word has been stored so, with the bytes that stand at its place of the SPM from `base` on. -/
def pieceMoved (s : State) (p : Point) (base : Nat) (store : Nat → List Byte → Act Unit) (rest : List (Nat × Nat × Nat))
    (s1 : State) : Prop :=
  let k := Config.nextPart s.tick p.parts.length % p.parts.length
  rest = p.parts.eraseIdx k ∧ match p.parts[k]? with
    | none => s1 = s
    | some x => s.cask.cleanSpm (base + x.1) x.2.2 ∧ store x.2.1 (s.cask.spmBytes (base + x.1) x.2.2) s = .ok () s1

/-- The state in which the word in progress of engine `e` stands as `g`. -/
def State.withWord (s : State) (e : Eng) (g : Flight) : State := s.setCask (s.cask.updFlight e fun _ => g)

/-- Token FIFOs after a word of engine `e` has pushed (R45). -/
def Tokens.pushed (k : Tokens) (e : Eng) (t : Tk) : Tokens :=
  let k1 := if t.hp then k.setPush e true (k.pushCount e true + 1) else k
  if t.hn then k1.setPush e false (k1.pushCount e false + 1) else k1

/-- Engine `e` works on the new word `f`, which has begun, and nothing else stands before its finish. -/
def Cask.inWord (c : Cask) (e : Eng) (t : Tk) (f : Flight) : Prop :=
  (c.eng e).flight = some f ∧ f.begun = true ∧ f.settled = false ∧ f.again = false ∧ f.jump = none ∧ f.pops = [] ∧
  f.hoff = (c.eng e).hoff ∧ f.idx = (c.eng e).idx ∧ f.cn = (c.eng e).cn ∧ f.donP = false ∧ f.donN = false ∧
  (c.eng e).redo = [] ∧ (c.eng e).owed = [] ∧ (c.eng e).ewr = [] ∧ c.pushReady e t.hp t.hn 1 = true ∧ (c.eng e).clear

/-- A unit of the word `f` in progress has been done in a cask: after the last one the word has pushed its tokens and left
its engine, and a nest launch that it swapped in is freed from the journal (R337); before, `f'` is in progress. -/
def Cask.ranUnit (c d : Cask) (e : Eng) (t : Tk) (f f' : Flight) (last : Bool) : Prop :=
  d.kr = c.kr ∧ d.st = c.st ∧ (∀ e', e' ≠ e → d.eng e' = c.eng e') ∧ c.sameSignals d ∧ d.cp.fq = c.cp.fq ∧
  d.cp.tok = (if last then c.cp.tok.pushed e t else c.cp.tok) ∧
  d.yy = (match (if last then f.jfree else none) with
    | some n => (c.jfree n).yy
    | none => c.yy) ∧
  if last then
    c.onNext d e ∧ d.eng e = { c.eng e with
      x := (d.eng e).x, hoff := (d.eng e).hoff, idx := (d.eng e).idx, flight := none, wait := none,
      started := (d.eng e).started, lpStart := (d.eng e).lpStart, marks := (d.eng e).marks, rsn := (d.eng e).rsn,
      retired := (d.eng e).retired, rsnPend := (d.eng e).rsnPend }
  else d.eng e = { c.eng e with flight := some f', wait := none } ∧ d.cp.rv = c.cp.rv ∧ d.cp.mtab = c.cp.mtab

/-- A tile has been pushed into ring `n` of a cask: its bytes stand in the next slot, TAIL has advanced, the side-band of its
row 0 is `sb` and that of its other rows 0 (R41, R61). -/
def Cask.pushedTile (c d : Cask) (n : Nat) (bs : List Byte) (sb : BitVec 512) : Prop :=
  let r := c.ring n
  let a := r.slotAt r.tail
  c.wroteSpm d (fun p => a ≤ p ∧ p < a + bs.length) (fun p => bs.getD (p - a) 0) ∧
  (∀ m, m ≠ n → d.ring m = c.ring m) ∧
  d.ring n = { r with tail := (r.tail + 1) % (2 * r.slots), sb := (d.ring n).sb } ∧
  ∀ k, smGet 0 (d.ring n).sb k =
    if 128 * (r.tail % r.slots) ≤ k ∧ k < 128 * (r.tail % r.slots) + r.rows then
      (if k = 128 * (r.tail % r.slots) then sb else 0)
    else smGet 0 r.sb k

/-! ### Operands of words of L and S (R37, R201) -/

/-- An address of memory that is aligned and canonical, and a range of the SPM that is aligned and lies in the window. -/
def memAt (va align : Nat) : Prop := va % align = 0 ∧ canonical va = true
def State.spmAt (s : State) (a n align : Nat) : Prop := a % align = 0 ∧ (n = 0 ∨ a + n ≤ spmSize s.dual)

/-- An engine with its loops, its place and its mode as `a`, once a word has left it. -/
def EngSt.went (a b : EngSt) : Prop :=
  b = { a with
    cn := (a.cn + 1) % 2 ^ 32, flight := none, wait := none, started := b.started, marks := b.marks, rsn := b.rsn,
    retired := b.retired, rsnPend := b.rsnPend }

/-- A new word of engine `e` has run that acts on the engines alone: its tokens have moved; of the couplings only those and
what markers that fire write may differ. -/
def Cask.onlyEngines (c d : Cask) (e : Eng) (t : Tk) : Prop :=
  d = { c with
    eL := d.eL, eM := d.eM, eS := d.eS,
    cp := { c.cp with tok := Tokens.after c.cp.tok e t 1, rv := d.cp.rv, mtab := d.cp.mtab } }

/-! ### Words of K -/

/-- `u` follows `t` by a K word that leaves `c` in its cask, goes on at `pc` and ends K's wait; of the rest of the machine only
the monitors of the core may differ (R169, R391). -/
def State.retired (t u : State) (c : Cask) (pc : Nat) : Prop :=
  t.onlyCask u ∧ u.cask = { c with kr := { c.kr with kpc := pc }, st := { c.st with wait := none } }

/-- An unsigned or signed value of 2^sz bytes in 64 bits (R173). -/
def loadValue (sz : Nat) (sg : Bool) (v : Nat) : Word :=
  if sg then (BitVec.ofNat (8 * 2 ^ sz) v).signExtend 64 else BitVec.ofNat 64 v

/-- No byte of a range of the KLM is poisoned (R346). -/
def Cask.cleanKlm (c : Cask) (a n : Nat) : Prop := ∀ p, p ∈ c.mem.klmP → ¬ (a ≤ p ∧ p < a + n)

/-- Nothing has changed outside the launch of the strand whose turn it is and its cask: the device's other state, the other
launches and cores, the other cask, the L1 and the residency are as they were. -/
def State.onlyLaunch (s t : State) : Prop :=
  t.dev = { s.dev with launches := t.dev.launches } ∧ t.turn = s.turn ∧ t.tick = s.tick ∧
  (∀ k, k ≠ s.lid → aFind t.dev.launches k = aFind s.dev.launches k) ∧ (∀ n, n ≠ s.turn.core → t.core n = s.core n) ∧
  t.core s.turn.core =
    { (s.core s.turn.core).setCask s.turn.cask t.cask with mon := (t.core s.turn.core).mon }

end Sys2Proof.Machine
end

