-- ==== Sys2Proof/Certificates/Slice0/Obligations.lean ====
section
/-! DEFINITION. The statements for the provers: what the rules of the spec say that instructions and the machine do, with
what each leaves alone. The tables name the instructions that a statement covers. -/

namespace Sys2Proof.Machine

open Sys2Proof

/-! ### K: registers (R169–R171, R180, R195, R334, R337) -/

/-- The integer instructions of K: the register written and its value (R170). -/
def intValue (s : State) : Instr → Option (SReg × Word)
  | .add d a b => some (d, s.cask.sreg a + s.cask.sreg b)
  | .addi d a imm => some (d, s.cask.sreg a + imm.signExtend 64)
  | .sub d a b => some (d, s.cask.sreg a - s.cask.sreg b)
  | .mul d a b => some (d, s.cask.sreg a * s.cask.sreg b)
  | .mulh u d a b => some (d,
      if u then ((s.cask.sreg a).setWidth 128 * (s.cask.sreg b).setWidth 128).extractLsb' 64 64
      else ((s.cask.sreg a).signExtend 128 * (s.cask.sreg b).signExtend 128).extractLsb' 64 64)
  | .div u d a b => some (d, if s.cask.sreg b = 0 then 0xFFFFFFFFFFFFFFFF
      else if u then s.cask.sreg a / s.cask.sreg b else (s.cask.sreg a).sdiv (s.cask.sreg b))
  | .rem u d a b => some (d, if s.cask.sreg b = 0 then s.cask.sreg a
      else if u then s.cask.sreg a % s.cask.sreg b else (s.cask.sreg a).srem (s.cask.sreg b))
  | .and d a b => some (d, s.cask.sreg a &&& s.cask.sreg b)
  | .andi d a imm => some (d, s.cask.sreg a &&& imm.setWidth 64)
  | .or d a b => some (d, s.cask.sreg a ||| s.cask.sreg b)
  | .ori d a imm => some (d, s.cask.sreg a ||| imm.setWidth 64)
  | .xor d a b => some (d, s.cask.sreg a ^^^ s.cask.sreg b)
  | .xori d a imm => some (d, s.cask.sreg a ^^^ imm.setWidth 64)
  | .shl d a b => some (d, s.cask.sreg a <<< ((s.cask.sreg b).toNat % 64))
  | .shr d a b => some (d, s.cask.sreg a >>> ((s.cask.sreg b).toNat % 64))
  | .sar d a b => some (d, (s.cask.sreg a).sshiftRight ((s.cask.sreg b).toNat % 64))
  | .min u d a b => some (d, if (if u then (s.cask.sreg a).ult (s.cask.sreg b) else (s.cask.sreg a).slt (s.cask.sreg b))
      then s.cask.sreg a else s.cask.sreg b)
  | .max u d a b => some (d, if (if u then (s.cask.sreg a).ult (s.cask.sreg b) else (s.cask.sreg a).slt (s.cask.sreg b))
      then s.cask.sreg b else s.cask.sreg a)
  | .clz d a => some (d, if s.cask.sreg a = 0 then 64 else BitVec.ofNat 64 (63 - (s.cask.sreg a).toNat.log2))
  | .popc d a => some (d, BitVec.ofNat 64 ((List.range 64).filter fun k => (s.cask.sreg a).getLsbD k).length)
  | .slt u d a b => some (d,
      if (if u then (s.cask.sreg a).ult (s.cask.sreg b) else (s.cask.sreg a).slt (s.cask.sreg b)) then 1 else 0)
  | .sel d a b c => some (d, if s.cask.sreg c = 0 then s.cask.sreg b else s.cask.sreg a)
  | .ldih d imm => some (d, BitVec.ofNat 64 (imm.toNat * 2 ^ 32))
  | _ => none

/-- Whether a condition of BC holds (R146). -/
def condHolds (a b : Word) : Cond → Bool
  | .eq => a == b
  | .ne => a != b
  | .lt => a.slt b
  | .ge => !a.slt b
  | .ltu => a.ult b
  | .geu => !a.ult b

/-- The flow instructions of K: the register written (0 where there is none), its value, and the target where the word
transfers control, with whether that is a register's value, which R171 asks to be a multiple of 8. A BC whose condition does
not hold and a LOOP whose counter has run out transfer nothing. -/
def flowValue (s : State) : Instr → Option (SReg × Word × Option (Int × Bool))
  | .b off => some (0, 0, some (s.cask.kr.kpc + 8 * off.toInt, false))
  | .bc cond a b off => some (0, 0, if condHolds (s.cask.sreg a) (s.cask.sreg b) cond
      then some (s.cask.kr.kpc + 8 * off.toInt, false) else none)
  | .call d off => some (d, BitVec.ofNat 64 (s.cask.kr.kpc + 8), some (s.cask.kr.kpc + 8 * off.toInt, false))
  | .ret a => some (0, 0, some ((s.cask.sreg a).toNat, true))
  | .jr d a => some (d, BitVec.ofNat 64 (s.cask.kr.kpc + 8), some ((s.cask.sreg a).toNat, true))
  | .loop a off => some (if 1 < (s.cask.sreg a).toNat
      then (a, s.cask.sreg a - 1, some (s.cask.kr.kpc + 8 * off.toInt, false)) else (a, 0, none))
  | _ => none

/-- R180: what ERD reads by its mask and its selector: an x register of the one engine that the mask names, or with no mask an event
counter, MFLAGS, MXC0–MXC3, DTH, TKS or RV. -/
def erdValue (c : Cask) (m : KMask) (n : Nat) : Option Word :=
  let x := fun (e : Eng) => some (c.xreg e (BitVec.ofNat 4 n))
  if n < 0x10 then match m.l, m.m, m.s, m.y with
    | true, false, false, false => x .l
    | false, true, false, false => x .m
    | false, false, true, false => x .s
    | _, _, _, _ => none
  else if m = { l := false, m := false, s := false, y := false } then
    if n < 0x20 then some ((c.evreg (n - 0x10)).setWidth 64)
    else match n with
      | 0x20 => some (c.mx.flags.setWidth 64)
      | 0x21 | 0x22 | 0x23 | 0x24 => some (BitVec.ofNat 64 (smGet 0 c.mx.mxc (n - 0x21)))
      | 0x25 => some (c.cp.dth.setWidth 64)
      | 0x26 => some (c.cp.tks.setWidth 64)
      | 0x27 => some c.cp.rv
      | _ => none
  else none

/-- R40, R42: word 1 of a ring: TAIL, HEAD, and DEPTH, how far TAIL is ahead modulo twice the slots; a producer ring that PIPE has bound
reads that of its consumer's. -/
def ringValue (s : State) (n : Nat) : Word :=
  let r := match (s.cask.ring n).toPipe with
    | some (k, m) => (s.caskAt (k / 2) (decide (k % 2 = 1))).ring m
    | none => s.cask.ring n
  let slots := r.w0.toNat / 2 ^ 40 % 2 ^ 8 + 1
  BitVec.ofNat 64 ((r.tail + 2 * slots - r.head) % (2 * slots) * 2 ^ 18 + r.head * 2 ^ 9 + r.tail)

/-- R195: LEASE, SPARE, EN, TCLS, APXF and EXF of a core's vintage entry. -/
def vtabValue (s : State) (core : Nat) : Word :=
  let v := aGet Vint.reset s.dev.vint core
  BitVec.ofNat 64 ((if s.launch.lease.any fun p => p.1 = core then 2 ^ 38 else 0) + (if v.spare then 2 ^ 37 else 0) +
    (if v.en then 2 ^ 36 else 0) + v.tcls % 2 ^ 4 * 2 ^ 32 + v.apxf % 2 ^ 16 * 2 ^ 16 + v.exf % 2 ^ 16)

/-- The words that read state into a register: whether the word may run (its mode, R2 and R347, and its operands), the
register and the value. -/
def readValue (s : State) : Instr → Option (Prop × SReg × Word)
  | .rdring d n => some (s.cask.kr.priv = false, d, ringValue s n.toNat)
  | .erd d m sel => (erdValue s.cask m sel.toNat).map fun v => (s.cask.kr.priv = false, d, v)
  | .lees d i => some (s.cask.kr.priv = false ∧ i.toNat ≤ 9, d, smGet 0 s.cask.st.lees i.toNat)
  | .vtab d a imm => some (s.cask.kr.priv = false ∧ (s.cask.sreg a + imm.signExtend 64).toNat < 384, d,
      vtabValue s (s.cask.sreg a + imm.signExtend 64).toNat)
  | .ffrd d i => some (s.cask.kr.priv = true, d, smGet 0 s.cask.st.frame i.toNat)
  | .jctlHead d => some (s.cask.kr.priv = true, d, BitVec.ofNat 64 s.cask.yy.jhead)
  | .jctlTail d => some (s.cask.kr.priv = true, d, BitVec.ofNat 64 s.cask.yy.jtail)
  | _ => none

/-! ### M: vector words (R233–R239, R244) -/

/-- The lanes of v_a that mask `m` selects, in order. -/
def Cask.selected (c : Cask) (a : VReg) (m : MReg) : List Lane :=
  ((List.range 128).filter fun k => (c.mreg m).getLsbD k).map fun k => c.lane a k

/-- The vector words that give each lane a value of its own: tokens, mask, destination, whether the lanes count in MFLAGS
and MXC0–MXC3, and lane k with what it raises. -/
def laneValue (c : Cask) : Instr → Option (Tk × Option MReg × VReg × Bool × (Nat → Lane × Rz))
  | .vadd t ty mk d a b => some (t, mk, d, ty == .fp32, fun k =>
      if ty = .fp32 then add32 .rne (c.lane a k) (c.srcLane b k) else (c.lane a k + c.srcLane b k, {}))
  | .vsub t ty mk d a b => some (t, mk, d, ty == .fp32, fun k =>
      if ty = .fp32 then sub32 .rne (c.lane a k) (c.srcLane b k) else (c.lane a k - c.srcLane b k, {}))
  | .vmul t ty mk d a b => some (t, mk, d, ty == .fp32, fun k =>
      if ty = .fp32 then mul32 .rne (c.lane a k) (c.srcLane b k) else (c.lane a k * c.srcLane b k, {}))
  | .vfma t ty mk d a b x => some (t, mk, d, ty == .fp32, fun k =>
      if ty = .fp32 then fma32 .rne (c.lane a k) (c.srcLane b k) (c.lane x k)
      else (c.lane a k * c.srcLane b k + c.lane x k, {}))
  | .vmax t ty mk d a b => some (t, mk, d, ty == .fp32, fun k => (match ty with
      | .fp32 => max32 (c.lane a k) (c.srcLane b k)
      | .i32 => if (c.lane a k).slt (c.srcLane b k) then c.srcLane b k else c.lane a k
      | .n32 => if (c.lane a k).ult (c.srcLane b k) then c.srcLane b k else c.lane a k, {}))
  | .vmin t ty mk d a b => some (t, mk, d, ty == .fp32, fun k => (match ty with
      | .fp32 => min32 (c.lane a k) (c.srcLane b k)
      | .i32 => if (c.srcLane b k).slt (c.lane a k) then c.srcLane b k else c.lane a k
      | .n32 => if (c.srcLane b k).ult (c.lane a k) then c.srcLane b k else c.lane a k, {}))
  | .vabs t ty mk d a => some (t, mk, d, false, fun k => (match ty with
      | .fp32 => c.lane a k &&& 0x7FFFFFFF
      | .i32 => if (c.lane a k).slt 0 then -c.lane a k else c.lane a k
      | .n32 => c.lane a k, {}))
  | .vneg t ty mk d a => some (t, mk, d, false, fun k =>
      (if ty = .fp32 then c.lane a k ^^^ 0x80000000 else -c.lane a k, {}))
  | .vrcp t mk d a => some (t, mk, d, true, fun k => vrcp (c.lane a k))
  | .vrsq t mk d a => some (t, mk, d, true, fun k => vrsq (c.lane a k))
  | .vsqrt t mk d a => some (t, mk, d, true, fun k => vsqrt (c.lane a k))
  | .vexp2 t mk d a => some (t, mk, d, true, fun k => vexp2 (c.lane a k))
  | .vlog2 t mk d a => some (t, mk, d, true, fun k => vlog2 (c.lane a k))
  | .vand t mk d a b => some (t, mk, d, false, fun k => (c.lane a k &&& c.srcLane b k, {}))
  | .vor t mk d a b => some (t, mk, d, false, fun k => (c.lane a k ||| c.srcLane b k, {}))
  | .vxor t mk d a b => some (t, mk, d, false, fun k => (c.lane a k ^^^ c.srcLane b k, {}))
  | .vshl t ty mk d a b => if ty = .fp32 then none else some (t, mk, d, false, fun k =>
      (c.lane a k <<< ((c.srcLane b k).toNat % 32), {}))
  | .vshr t ty mk d a b => if ty = .fp32 then none else some (t, mk, d, false, fun k =>
      (if ty = .i32 then (c.lane a k).sshiftRight ((c.srcLane b k).toNat % 32)
        else c.lane a k >>> ((c.srcLane b k).toNat % 32), {}))
  | .vsel t d a b m => some (t, none, d, false, fun k => (if (c.mreg m).getLsbD k then c.lane a k else c.srcLane b k, {}))
  | .vbcst t mk d (.lane a n) => some (t, mk, d, false, fun _ => (c.lane a n.toNat, {}))
  | .vbcst t mk d (.x r) => some (t, mk, d, false, fun _ => ((c.xreg .m r).setWidth 32, {}))
  | .vperm t mk d a b => some (t, mk, d, false, fun k => (c.lane a ((c.srcLane b k).toNat % 128), {}))
  | .viota t mk d xb => some (t, mk, d, false, fun k => (BitVec.ofNat 32 k + (match xb with
      | some r => (c.xreg .m r).setWidth 32
      | none => 0), {}))
  | .vcmpr t d a m => some (t, none, d, false, fun k => ((c.selected a m).getD k 0, {}))
  | .vexpd t d a m => some (t, none, d, false, fun k =>
      (if (c.mreg m).getLsbD k then c.lane a ((List.range k).filter fun j => (c.mreg m).getLsbD j).length else 0, {}))
  | .vsband t sel d => if sel = .mask then none else some (t, none, d, false, fun k => (match sel with
      | .ver => if k < 8 then c.mx.latch.extractLsb' (128 + 32 * k) 32 else 0
      | .wf => if k < 8 then (c.mx.latch.extractLsb' (384 + k) 1).setWidth 32 else 0
      | .hdr => if k = 0 then (c.mx.latch.extractLsb' 408 4).setWidth 32
          else if k = 1 then (c.mx.latch.extractLsb' 404 3).setWidth 32
          else if k = 2 then (c.mx.latch.extractLsb' 400 4).setWidth 32
          else if k = 3 then (c.mx.latch.extractLsb' 392 8).signExtend 32 else 0
      | _ => (c.mx.latch.extractLsb' k 1).setWidth 32, {}))
  | _ => none

/-- The words that write a mask register: tokens, destination and bit k (R236, R244, R245). -/
def maskValue (c : Cask) : Instr → Option (Tk × MReg × (Nat → Bool))
  | .vcmp t cond ty mk d a b => if cond = .un ∧ ty ≠ .fp32 then none else some (t, d, fun k =>
      if (c.active mk).getLsbD k then
        (let x := c.lane a k
         let y := c.srcLane b k
         match ty with
          | .fp32 => (match cond with
            | .eq => (f32 x).eq (f32 y)
            | .ne => !(f32 x).eq (f32 y)
            | .lt => (f32 x).lt (f32 y)
            | .le => (f32 x).lt (f32 y) || (f32 x).eq (f32 y)
            | .gt => (f32 y).lt (f32 x)
            | .ge => (f32 y).lt (f32 x) || (f32 x).eq (f32 y)
            | .un => (f32 x).isNan || (f32 y).isNan)
          | .i32 => (match cond with
            | .eq => x == y
            | .ne => x != y
            | .lt => x.slt y
            | .le => x.sle y
            | .gt => y.slt x
            | .ge => y.sle x
            | .un => false)
          | .n32 => (match cond with
            | .eq => x == y
            | .ne => x != y
            | .lt => x.ult y
            | .le => x.ule y
            | .gt => y.ult x
            | .ge => y.ule x
            | .un => false))
      else (c.mreg d).getLsbD k)
  | .mand t d a b => some (t, d, fun k => (c.mreg a).getLsbD k && (c.mreg b).getLsbD k)
  | .mor t d a b => some (t, d, fun k => (c.mreg a).getLsbD k || (c.mreg b).getLsbD k)
  | .mnot t d a => some (t, d, fun k => !(c.mreg a).getLsbD k)
  | .vsband t .mask d => some (t, d.setWidth 3, fun k => c.mx.latch.getLsbD k)
  | _ => none

/-- The reductions: tokens, destination, whether the one value counts, and the value (R89, R237). A lane outside the mask
stands for the element that changes no result. -/
def reduceValue (c : Cask) : Instr → Option (Tk × VReg × Bool × (Lane × Rz))
  | .vreds t .fp32 mk d a => some (t, d, true, rnd32Of (treeSum .rne 7 ((List.range 128).map fun k =>
      f32 (if (c.active mk).getLsbD k then c.lane a k else 0x80000000))) .rne)
  | .vreds t _ mk d a => some (t, d, false,
      (((List.range 128).filter fun k => (c.active mk).getLsbD k).foldl (fun x k => x + c.lane a k) 0, {}))
  | .vredm t .fp32 mk d a => some (t, d, true,
      ((List.range 128).foldl (fun x k => max32 x (if (c.active mk).getLsbD k then c.lane a k else 0xFF800000)) 0xFF800000, {}))
  | .vredm t .i32 mk d a => some (t, d, false,
      (((List.range 128).filter fun k => (c.active mk).getLsbD k).foldl
        (fun x k => if x.slt (c.lane a k) then c.lane a k else x) 0x80000000, {}))
  | .vredm t .n32 mk d a => some (t, d, false,
      (((List.range 128).filter fun k => (c.active mk).getLsbD k).foldl
        (fun x k => if x.ult (c.lane a k) then c.lane a k else x) 0, {}))
  | _ => none

/-- Component `j` of a blend of the triples at v_a and v_b in lane `k` (R246). -/
def blendPart (c : Cask) (a b : VReg) (j k : Nat) : Lane × Rz :=
  let m1 := c.lane a k
  let m2 := c.lane b k
  let w := blendKind m1 m2
  if j = 0 then (blendMax w.1 m1 m2, w.2)
  else blendWord w.1 (c.lane (BitVec.ofNat 5 (a.toNat + j)) k) (c.lane (BitVec.ofNat 5 (b.toNat + j)) k)

/-! ### M: tile words (R230–R232, R247) -/

/-- A tile that the cask owns (R34), and one with no poisoned byte (R346). -/
def State.owns (s : State) (n : CTile) : Prop := s.dual = true → n.toNat / 4 = if s.turn.cask then 1 else 0
def Cask.cleanTile (c : Cask) (n : CTile) : Prop := ∀ p, p ∈ c.mem.acmP → p / 0x10000 ≠ n.toNat

/-- What CROWV reads has no poisoned byte: a row, a column, or the whole tile (R346). -/
def Cask.cleanFor (c : Cask) (n : CTile) (mode : CrowMode) (i : Nat) : Prop :=
  ∀ p, p ∈ c.mem.acmP → p / 0x10000 = n.toNat → match mode with
    | .row => p % 0x10000 / 512 ≠ i
    | .col => p % 512 / 4 ≠ i
    | _ => False

/-- Lane d of v_a as the parent of draft d, and the parent list of `n` drafts that R247 admits. -/
def Cask.parent (c : Cask) (a : VReg) (p : Int) : Int := if p < 0 then -1 else (c.lane a p.toNat).toInt
def Cask.parentsLegal (c : Cask) (a : VReg) (n : Nat) : Prop :=
  n ≤ 128 ∧ ∀ d : Nat, d < n → -1 ≤ (c.lane a d).toInt ∧ (c.lane a d).toInt < d

/-- Draft `q` is draft `i` or one of its ancestors. -/
def Cask.descends (c : Cask) (a : VReg) (i : Nat) (q : Int) : Prop :=
  0 ≤ q ∧ ∃ k, k ≤ 128 ∧ (List.range k).foldl (fun p _ => c.parent a p) (i : Int) = q

/-- The words that write a tile: tokens, what they need, the tile, whether its elements count, the condition under which
word w is written, and word w with what it raises. -/
def tileValue (s : State) : Instr → Option (Tk × Prop × CTile × Bool × (Nat → Prop) × (Nat → Lane × Rz))
  | .czero t n => some (t, s.owns n, n, false, fun _ => True, fun _ => (0, {}))
  | .cscl t col n a => some (t, s.owns n ∧ s.cask.cleanTile n, n, true, fun _ => True, fun w =>
      mul32 .rne (s.cask.word n w) (s.cask.lane a (if col then w % 128 else w / 128)))
  | .ctr t n m => some (t, s.owns n ∧ s.owns m ∧ s.cask.cleanTile m, n, false, fun _ => True, fun w =>
      (s.cask.word m (128 * (w % 128) + w / 128), {}))
  | .cvrow t col n a x => some (t, s.owns n ∧ (s.cask.xreg .m x).toNat < 128, n, false,
      fun w => (if col then w % 128 else w / 128) = (s.cask.xreg .m x).toNat,
      fun w => (s.cask.lane a (if col then w / 128 else w % 128), {}))
  | _ => none

/-- Lane `r` of CROWV: rows and columns copied, sums, sums of squares and largest magnitudes of rows (R232, R89). -/
def crowvLane (c : Cask) (mode : CrowMode) (n : CTile) (i r : Nat) : Lane × Rz :=
  match mode with
  | .row => (c.word n (128 * i + r), {})
  | .col => (c.word n (128 * r + i), {})
  | .sum => rnd32Of (treeSum .rne 7 ((List.range 128).map fun j => f32 (c.word n (128 * r + j)))) .rne
  | .sq =>
    let p := fun j => mul32 .rne (c.word n (128 * r + j)) (c.word n (128 * r + j))
    let z := rnd32Of (treeSum .rne 7 ((List.range 128).map fun j => f32 (p j).1)) .rne
    (z.1, (List.range 128).foldl (fun x j => x.or (p j).2) z.2)
  | .amax => ((List.range 128).foldl (fun m j => max32 m (c.word n (128 * r + j) &&& 0x7FFFFFFF)) 0, {})

/-- What a CLD can do with its operands (R231): 1 to 512 lines, aligned, inside the cask's tiles and its SPM window. -/
def State.cldOk (s : State) (a b : XReg) (len : BitVec 16) : Prop :=
  let off := (s.cask.xreg .m a).toNat
  let spm := (s.cask.xreg .m b).toNat
  1 ≤ len.toNat ∧ len.toNat ≤ 512 ∧ off % 128 = 0 ∧ spm % 128 = 0 ∧
  (if s.dual && s.turn.cask then 0x40000 else 0) ≤ off ∧
  off + 128 * len.toNat ≤ (if s.dual && !s.turn.cask then 0x40000 else 0x80000) ∧
  spm + 128 * len.toNat ≤ spmSize s.dual

/-! ### M: streams, records and accumulators (R240–R243, R250–R261) -/

/-- An accumulator that the cask owns (R250). -/
def State.ownsQ (s : State) (q : QReg) : Prop := s.dual = true → q.toNat / 2 = if s.turn.cask then 1 else 0

/-- Word `w` of the record of an accumulator: that of a sealed block, or the whole one of QSV (R251). -/
def QAcc.word (a : QAcc) (whole : Bool) (w : Nat) : Nat :=
  let d0 := if whole then
      a.bmax * 2 ^ 32 + a.b * 2 ^ 24 + bit a.tr * 2 ^ 16 + bit a.rack * 2 ^ 15 + a.kc * 2 ^ 8 + a.n
    else a.kc * 2 ^ 8 + a.n
  let d1 := if whole then a.base else 0
  if w < 2 then d0 / 2 ^ (32 * w) % 2 ^ 32
  else if w < 4 then d1 / 2 ^ (32 * (w - 2)) % 2 ^ 32
  else if w < 32 then 0
  else if w < 32 + 128 * a.kc then
    (if (w - 32) / 128 < a.n then (smGet 0 a.v (w - 32)).toNat else 0)
  else if w < 32 + 128 * a.kc + a.kc * a.kc then
    let j := w - 32 - 128 * a.kc
    (if j / a.kc < a.n ∧ j % a.kc < a.n then (smGet 0 a.t (64 * (j / a.kc) + j % a.kc)).toNat else 0)
  else 0

/-- The bytes of a record, in multiples of 128 (R251). -/
def recBytes (kc : Nat) : Nat := (128 + 512 * kc + 4 * kc * kc + 127) / 128 * 128

/-- The bytes of an accumulator in the ACM, as the model lays them out (log 4): all of it, the `n` columns of V and the part
of T that its block takes, and what the reflector number `n` takes. -/
def accByte (q : QReg) (p : Nat) : Prop := 0x80000 + 0xC000 * q.toNat ≤ p ∧ p < 0x80000 + 0xC000 * (q.toNat + 1)
def blockByte (q : QReg) (n p : Nat) : Prop :=
  let o := p - (0x80000 + 0xC000 * q.toNat)
  accByte q p ∧ (o < 512 * n ∨ 0x8000 ≤ o ∧ (o - 0x8000) / 256 < n ∧ o % 256 < 4 * n)
def reflectorByte (q : QReg) (n p : Nat) : Prop :=
  let o := p - (0x80000 + 0xC000 * q.toNat)
  accByte q p ∧ (o < 0x8000 ∧ o / 512 = n ∨ 0x8000 ≤ o ∧ (o - 0x8000) / 256 ≤ n ∧ o % 256 / 4 = n)

/-- No byte of an accumulator's block is poisoned (R264, R346). -/
def Cask.cleanQ (c : Cask) (q : QReg) : Prop := ∀ p, p ∈ c.mem.acmP → ¬ blockByte q (c.qacc q).n p

/-- The `n` bytes `f` of a record have gone through the cask's half of the spare region, from its first byte on and again from
there where it is full (R261; log 4). -/
def State.staged (s u : State) (n : Nat) (f : Nat → Byte) : Prop :=
  let size := if s.dual then 0x8000 else 0x10000
  let lo := if s.dual && s.turn.cask then 0x8000 else 0
  ∀ j, smGet 0 u.cask.mem.spare j =
    if lo ≤ j ∧ j < lo + Nat.min size n then (if size + (j - lo) < n then f (size + (j - lo)) else f (j - lo))
    else smGet 0 s.cask.mem.spare j
def State.stageByte (s : State) (n p : Nat) : Prop :=
  let lo := if s.dual && s.turn.cask then 0xB8000 else 0xB0000
  lo ≤ p ∧ p < lo + Nat.min (if s.dual then 0x8000 else 0x10000) n

/-- Of the poisoned bytes of the ACM those that `hit` selects are clean now (R346). -/
def Cask.acmCleared (c d : Cask) (hit : Nat → Prop) : Prop := ∀ p, p ∈ d.mem.acmP ↔ p ∈ c.mem.acmP ∧ ¬ hit p

/-- The words that replace an accumulator: tokens, what they need, the accumulator, its new value, and whether V and T are
written. -/
def accValue (s : State) : Instr → Option (Tk × Prop × QReg × QAcc × Bool)
  | .qcfg t q a =>
    let w := (s.cask.xreg .m a).toNat
    some (t, s.ownsQ q ∧ w < 2 ^ 37 ∧ 1 ≤ w % 128 ∧ w % 128 ≤ 64 ∧ w / 2 ^ 16 % 128 = 0 ∧
        (w / 2 ^ 8 % 256 = 0 ∨ w / 2 ^ 16 + w / 2 ^ 8 % 256 * recBytes (w % 128) ≤ spmSize s.dual), q,
      { v := [], t := [], n := 0, kc := w % 128, rack := decide (w / 2 ^ 7 % 2 = 1), tr := false, base := w / 2 ^ 16,
        bmax := w / 2 ^ 8 % 256, b := 0 }, true)
  | .qclr t q => some (t, s.ownsQ q, q, { s.cask.qacc q with v := [], t := [], n := 0, tr := false, b := 0 }, true)
  | .qtrn t q => some (t, s.ownsQ q, q, { s.cask.qacc q with tr := !(s.cask.qacc q).tr }, false)
  | _ => none

/-- What QRS needs of a record at `ea`, whose header is the dwords d0 and d1 (R261). -/
def State.recordOk (s : State) (ea d0 d1 : Nat) : Prop :=
  let kc := d0 / 2 ^ 8 % 128
  ea % 128 = 0 ∧ 1 ≤ kc ∧ kc ≤ 64 ∧ ea + recBytes kc ≤ spmSize s.dual ∧ s.cask.cleanSpm ea (recBytes kc) ∧
  d0 / 2 ^ 40 = 0 ∧ d0 / 2 ^ 17 % 128 = 0 ∧ d0 / 2 ^ 7 % 2 = 0 ∧ d1 / 2 ^ 21 = 0 ∧ d0 % 128 ≤ kc ∧
  d0 / 2 ^ 24 % 256 ≤ d0 / 2 ^ 32 % 256 ∧ d1 % 128 = 0 ∧
  (d0 / 2 ^ 32 % 256 = 0 ∨ d1 + d0 / 2 ^ 32 % 256 * recBytes kc ≤ spmSize s.dual)

/-- The accumulator onto which QACC appends: a full one has been sealed (R255, R256). -/
def QAcc.room (a : QAcc) : QAcc := if a.n = a.kc then { a with b := a.b + 1, n := 0, v := [], t := [] } else a

/-- Lane `r` of the reflector of QACC with pivot `p` (R255). -/
def Cask.reflect (c : Cask) (va : VReg) (p r : Nat) : Lane := if r < p then 0 else if r = p then one32 else c.lane va r

/-- The new column of T above its diagonal: z = T w over w = Vᵀ v, times −τ, each element rounded once (R255). -/
def QAcc.column (a : QAcc) (v : Nat → Lane) (tau : Lane) (i : Nat) : Lane × Rz :=
  let w := (List.range a.n).map fun k =>
    dotQ .rne 7 ((List.range 128).map fun r => rv (smGet 0 a.v (128 * k + r))) ((List.range 128).map fun r => rv (v r))
  let z := dotQ .rne 6 ((List.range a.n).map fun j => rv (smGet 0 a.t (64 * i + j))) w
  let p := (f32 tau).mul z.1
  ((rnd32Of (p.1.neg, p.2) .rne).1, z.2.or (rnd32Of (p.1.neg, p.2) .rne).2)

/-- The apply words: tokens, transposition, tile, accumulator and which of the three (R257). -/
def applyWord : Instr → Option (Tk × Bool × CTile × QReg × QWord)
  | .qapl t tr n q => some (t, tr, n, q, .apl)
  | .qapr t tr n q => some (t, tr, n, q, .apr)
  | .qform t tr n q => some (t, tr, n, q, .form)
  | _ => none

/-! ### M: MMA (R226–R229) -/

/-- Element (r, j) of an MMA of depth `k` under format word `w`: the exact products, or their approximations where the launch
admits them (R94), in the tree of R85; or the integer sum of R86. -/
def State.mmaElem (s : State) (z bt : Bool) (n : CTile) (ra rb w : Nat) (x y : Fmt) (float : Bool) (k el : Nat) :
    Lane × Rz :=
  let a := (List.range k).map fun t => (s.cask.headCode ra (k * (el / 128) + t)).1
  let b := (List.range k).map fun t => (s.cask.headCode rb (if bt then k * (el % 128) + t else 128 * t + el % 128)).1
  let acc := if z then 0 else s.cask.word n el
  if float then
    mmaFloat (fwRm w) (s.apxTick w) k el acc (a.map fun v => (operandVal x v).scale (fwAsc w))
      (b.map fun v => (operandVal y v).scale (fwBsc w))
  else mmaInt acc (a.map (intVal x)) (b.map (intVal y))

/-! ### L and S (R201–R222) -/

/-- The words of the engines that write one x register, or nothing (x0): engine, tokens and how many of each, what they need,
the register and its value. -/
def xValue (s : State) : Instr → Option (Eng × Tk × Nat × Prop × XReg × Word)
  | .nop e t => some (e, t, 1, True, 0, 0)
  | .tok e t n => some (e, t, n.toNat, 1 ≤ n.toNat ∧ n.toNat ≤ 32, 0, 0)
  | .xset e t d imm => some (e, t, 1, True, d, imm)
  | .xadd e t d a b => some (e, t, 1, True, d, s.cask.xreg e a + s.cask.xreg e b)
  | .xaddi e t d a imm => some (e, t, 1, True, d, s.cask.xreg e a + imm.signExtend 64)
  | .xmul e t d a b => some (e, t, 1, True, d, s.cask.xreg e a * s.cask.xreg e b)
  | .vcnt t d m => some (.m, t, 1, True, d, BitVec.ofNat 64 ((List.range 128).filter fun k => (s.cask.mreg m).getLsbD k).length)
  | .qcnt t d q =>
    let a := s.cask.qacc q
    some (.m, t, 1, s.ownsQ q, d, BitVec.ofNat 64 (a.n + a.kc * 2 ^ 8 + a.b * 2 ^ 16 + bit a.rack * 2 ^ 24 + bit a.tr * 2 ^ 25))
  | .ldv t true sg sz d a off =>
    let ea := (s.cask.xreg .l a + off.signExtend 64).toNat
    let n := 2 ^ sz.toNat
    let v := natOf (s.cask.spmBytes ea n)
    some (.l, t, 1, ¬ (sg = true ∧ sz = 3) ∧ s.spmAt ea n n ∧ s.cask.cleanSpm ea n, d,
      if sg then (BitVec.ofNat (8 * n) v).signExtend 64 else BitVec.ofNat 64 v)
  | _ => none

/-- The nest that a firing word in progress takes (R43). -/
def Cask.firing (c : Cask) (e : Eng) (n : NestNo) : NestCopy := (c.nest e n.toNat).act
def Cask.fires (c : Cask) (e : Eng) (ru : Bool) (n : NestNo) (f : Flight) : Prop :=
  (ru = true ∨ f.swp = true ∨ 0 < f.prog) ∧ ∀ l ∈ (c.firing e n).levels, l.1 ≠ 0

/-- A block element format in SF (R221). -/
def blockCode (sf : BitVec 4) : Prop :=
  Fmt.ofCode sf.toNat = some .i8 ∨ Fmt.ofCode sf.toNat = some .i16 ∨ Fmt.ofCode sf.toNat = some .i32

/-- What MCF needs (R214): its mask, its length, its addresses, and a strand of the launch on every core it names. -/
def State.mcfOk (s : State) (d a b : XReg) (aoff : BitVec 32) (len : BitVec 6) : Prop :=
  b.toNat % 2 = 0 ∧ b ≠ 0 ∧ (s.cask.xreg .l (b + 1)).toNat < 2 ^ 32 ∧ s.cask.mcfMask b ≠ 0 ∧ 1 ≤ len.toNat ∧ len.toNat ≤ 32 ∧
  memAt (s.cask.xea .l a aoff) 128 ∧ s.spmAt (s.cask.xreg .l d).toNat (128 * len.toNat) 128 ∧
  ∀ k ∈ mcfCores s.turn.core (s.cask.mcfMask b), (s.launch.ordOf k).isSome = true

/-- The words of L and S whose work can take several steps, as they begin: engine, tokens, what a new one needs, and the
state once it has begun. -/
def startWord (s : State) : Instr → Option (Eng × Tk × Prop × State)
  | .ldv t false sg sz _ a off =>
    some (.l, t, ¬ (sg = true ∧ sz = 3) ∧ memAt (s.cask.xea .l a off) (2 ^ sz.toNat), s.begunWord .l t)
  | .stv t sp sz _ a off =>
    let n := 2 ^ sz.toNat
    some (.s, t, if sp then s.spmAt (s.cask.xea .s a off) n n else memAt (s.cask.xea .s a off) n, s.begunWord .s t)
  | .ldn t d a doff aoff len => some (.l, t, 1 ≤ len.toNat ∧ len.toNat ≤ 4096 ∧
      s.spmAt (s.cask.spmEa .l d doff) len.toNat 1 ∧ memAt (s.cask.xea .l a aoff) 1, s.begunWord .l t)
  | .stn t d a doff aoff len => some (.s, t, 1 ≤ len.toNat ∧ len.toNat ≤ 4096 ∧
      s.spmAt (s.cask.spmEa .s d doff) len.toNat 1 ∧ memAt (s.cask.xea .s a aoff) 1, s.begunWord .s t)
  | .ldg t ring _ b _ cnt => some (.l, t, (s.cask.ring ring.toNat).pipe = false ∧
      cnt.toNat + 1 ≤ (s.cask.ring ring.toNat).rows ∧ s.spmAt (s.cask.xreg .l b).toNat (4 * (cnt.toNat + 1)) 4, s.begunWord .l t)
  | .ldsb t sp ring a off cnt =>
    let ea := s.cask.xea .l a off
    some (.l, t, (s.cask.ring ring.toNat).pipe = false ∧ (s.cask.ring ring.toNat).rows = 1 ∧
      cnt.toNat + 1 ≤ (s.cask.ring ring.toNat).cols ∧ (s.cask.ring ring.toNat).srcf = .fp32 ∧
      (if sp then s.spmAt ea (cnt.toNat + 1) 1 else memAt ea 1), s.begunWord .l t)
  | .mcf t d a b aoff len => some (.l, t, s.mcfOk d a b aoff len, s.begunWord .l t)
  | .sct t d _ b _ rb cnt => some (.s, t, 1 ≤ rb.toNat ∧ rb.toNat ≤ 2048 ∧
      s.spmAt (s.cask.xreg .s b).toNat (4 * (cnt.toNat + 1)) 4 ∧
      s.spmAt (s.cask.xreg .s d).toNat (rb.toNat * (cnt.toNat + 1)) 1, s.begunWord .s t)
  | .tstn t _ a b _ bl lev sf _ => some (.s, t, 1 ≤ bl.toNat ∧ bl.toNat ≤ 8 ∧ lev.toNat ≤ bl.toNat ∧
      (s.cask.xreg .s b).toNat < 2 ^ lev.toNat ∧ blockCode sf ∧
      blockPlaced (s.cask.xreg .s a).toNat ((Fmt.ofCode sf.toNat).getD .i8) bl.toNat = true ∧
      canonical (s.cask.xreg .s a).toNat = true, s.begunWord .s t)
  | .ldt t ru n => some (.l, t, ru = true ∨ (s.cask.nest .l n.toNat).ready = true, s.firedWord .l t ru n)
  | .stt t ru n => some (.s, t, ru = true ∨ (s.cask.nest .s n.toNat).ready = true, s.firedWord .s t ru n)
  | .tld t ru fine desc n lev bl _ => some (.l, t, (ru = true ∨ (s.cask.nest .l n.toNat).ready = true) ∧
      1 ≤ bl.toNat ∧ bl.toNat ≤ 8 ∧ lev.toNat ≤ bl.toNat ∧ (fine = true → desc = true), s.firedWord .l t ru n)
  | .trf t ru n lev bl _ fl _ _ => some (.l, t, (ru = true ∨ (s.cask.nest .l n.toNat).ready = true) ∧
      1 ≤ bl.toNat ∧ bl.toNat ≤ 8 ∧ lev.toNat < fl.toNat ∧ fl.toNat ≤ bl.toNat, s.firedWord .l t ru n)
  | .tstb t ru n bl sf => some (.s, t, (ru = true ∨ (s.cask.nest .s n.toNat).ready = true) ∧ 1 ≤ bl.toNat ∧
      bl.toNat ≤ 8 ∧ blockCode sf, s.firedWord .s t ru n)
  | .tstl t ru n bl sf lev => some (.s, t, (ru = true ∨ (s.cask.nest .s n.toNat).ready = true) ∧ 1 ≤ bl.toNat ∧
      bl.toNat ≤ 8 ∧ lev.toNat ≤ bl.toNat ∧ blockCode sf, s.firedWord .s t ru n)
  | .drn t _ tr n a b m => match s.cask.cp.fq with
    | w :: ws => some (.s, t, s.owns n ∧ (tr = false → b = 0) ∧ (s.cask.xreg .s a).toNat % 128 = 0 ∧
        (tr = true → (s.cask.xreg .s b).toNat % 128 = 0) ∧ (s.cask.xreg .s m).toNat % 128 = 0 ∧ s.cask.cp.fqWait = [] ∧
        drnWordOk w.toNat = true ∧ 128 * (outFmt w.toNat).bits ≤ 8 * (s.cask.xreg .s m).toNat, s.formatWord .s t w ws)
    | [] => none
  | _ => none

/-- The words of S that store bytes of the SPM or of a register to memory, one unit at a time: tokens, what the unit needs,
its address, its bytes, and the progress it makes out of how much. -/
def storeUnit (s : State) (f : Flight) : Instr → Option (Tk × Prop × Nat × List Byte × Nat × Nat)
  | .stv t false sz b a off =>
    some (t, True, s.cask.xea .s a off, bytesOf (2 ^ sz.toNat) (s.cask.xreg .s b).toNat, 1, 1)
  | .stn t d a doff aoff len =>
    let va := (s.cask.xea .s a aoff + f.prog) % 2 ^ 64
    let k := Nat.min (8 - va % 8) (len.toNat - f.prog)
    let at_ := s.cask.spmEa .s d doff + f.prog
    some (t, f.prog < len.toNat ∧ canonical va = true ∧ s.cask.cleanSpm at_ k, va, s.cask.spmBytes at_ k, f.prog + k, len.toNat)
  | .stt t ru n =>
    let x := s.cask.firing .s n
    let at_ := x.target + f.prog * x.elem
    some (t, s.cask.fires .s ru n f ∧ x.toSpm = true ∧ f.prog < x.points ∧ s.spmAt at_ x.elem x.elem ∧
      memAt (x.point f.prog) x.elem ∧ s.cask.cleanSpm at_ x.elem, x.point f.prog, s.cask.spmBytes at_ x.elem, f.prog + 1, x.points)
  | _ => none

/-- The words of L that load bytes of memory into the SPM, one unit at a time: tokens, what the unit needs, its address and
its length, where its bytes go, and the progress it makes out of how much. -/
def loadUnit (s : State) (f : Flight) : Instr → Option (Tk × Prop × Nat × Nat × Nat × Nat × Nat)
  | .ldn t d a doff aoff len =>
    let va := (s.cask.xea .l a aoff + f.prog) % 2 ^ 64
    let k := Nat.min (8 - va % 8) (len.toNat - f.prog)
    some (t, f.prog < len.toNat ∧ canonical va = true, va, k, s.cask.spmEa .l d doff + f.prog, f.prog + k, len.toNat)
  | .ldt t ru n =>
    let x := s.cask.firing .l n
    let at_ := x.target + f.prog * x.elem
    some (t, s.cask.fires .l ru n f ∧ x.toSpm = true ∧ f.prog < x.points ∧ memAt (x.point f.prog) x.elem ∧
      s.spmAt at_ x.elem x.elem, x.point f.prog, x.elem, at_, f.prog + 1, x.points)
  | _ => none

/-- A step of a word of L that fills a ring of its own cask with one tile, piece by piece (R114): what the step needs, the
ring, the word as it stands before its next piece, whether its pieces come in their order, the load of a piece, whether more
of the tile is still to be laid out, the tile that its bytes make, the byte that it keeps for the next tile, and the progress
once the tile is pushed. -/
structure FillStep where
  tk : Tk
  ok : Prop
  ring : Nat
  word : Flight
  ordered : Bool
  load : Nat → Nat → Act (List Byte)
  more : Bool
  tile : List Byte → List Byte
  kept : List Byte → List Nat
  next : Nat
  total : Nat

/-- The words of L that fill a ring so. -/
def fillStep (s : State) (f : Flight) : Instr → Option FillStep
  | .ldt t ru n =>
    let x := s.cask.firing .l n
    let rn := x.target % 16
    let r := s.cask.ring rn
    let size := r.rows * r.cols
    let total := x.points * (if r.srcf.bits = 4 then 2 else 1)
    let cnt := Nat.min size (total - f.prog * size)
    let ps := pointsOf r.srcf (f.prog * size) cnt
    some {
      tk := t, ok := s.cask.fires .l ru n f ∧ x.toSpm = false ∧ x.elem = r.srcf.bytes ∧ f.prog * size < total, ring := rn,
      word := { f with
        rings := [rn], pt := if f.pt.opened then f.pt
          else { opened := true, parts := (x.pieces ps.1 ps.2).drop f.aux.length,
                 data := f.aux.map (BitVec.ofNat 8) ++ (List.replicate (ps.2 * x.elem) 0).drop f.aux.length } },
      ordered := true,
      load := fun va m => do
        checkMem va x.elem
        memLoad va m
      more := false, tile := fun bs => tileOf r.srcf size (nestCodes r.srcf (f.prog * size) cnt bs),
      kept := fun bs => if r.srcf.bits = 4 ∧ (f.prog * size + cnt) % 2 = 1 then (bs.getLast?.map (·.toNat)).toList else [],
      next := f.prog + 1, total := (total + size - 1) / size }
  | .ldg t ring a b m cnt =>
    let r := s.cask.ring ring.toNat
    let w := (r.cols * r.srcf.bits + 7) / 8
    let at_ := (s.cask.xreg .l b).toNat
    let first := f.aux.isEmpty && !f.pt.opened
    let is := if first then (List.range (cnt.toNat + 1)).map fun k => (s.cask.spmWord (at_ + 4 * k)).toNat else f.aux
    let va := fun i => (s.cask.xreg .l a + (BitVec.ofNat 32 i).signExtend 64 * s.cask.xreg .l m).toNat
    let g := match f.pt.parts, is with
      | [], i :: rest => { f with
          rings := [ring.toNat], aux := rest, pt := { f.pt with
            opened := true, parts := piecesOf (Nat.min 8 r.srcf.bytes) f.pt.data.length (va i) w,
            data := f.pt.data ++ List.replicate w 0 } }
      | _, _ => { f with rings := [ring.toNat], aux := is }
    some {
      tk := t, ok := (first = true → s.cask.cleanSpm at_ (4 * (cnt.toNat + 1))) ∧
        ∀ i, f.pt.parts = [] → is.head? = some i →
          memAt (va i) r.srcf.bytes ∧ canonical ((va i + (w - 1)) % 2 ^ 64) = true,
      ring := ring.toNat, word := g, ordered := false, load := memLoad, more := !g.aux.isEmpty,
      tile := fun bs => tileOf r.srcf (r.rows * r.cols) (rowCodes r.srcf r.cols (cnt.toNat + 1) w bs), kept := fun _ => [],
      next := 1, total := 1 }
  | .ldsb t sp ring a off cnt =>
    let r := s.cask.ring ring.toNat
    let ea := s.cask.xea .l a off
    let n := cnt.toNat + 1
    some {
      tk := t, ok := r.srcf = .fp32 ∧ r.rows = 1 ∧ (sp = false → canonical ((ea + (n - 1)) % 2 ^ 64) = true),
      ring := ring.toNat,
      word := { f with
        rings := [ring.toNat], pt := if f.pt.opened then f.pt
          else { opened := true, parts := piecesOf 1 0 ea n, data := List.replicate n 0 } },
      ordered := false, load := fun a k => if sp then onCask (spmLoad a k) else memLoad a k, more := false,
      tile := fun bs => tileOf .fp32 r.cols (bs.map fun b => (cvt ((XR.ofInt 1).scale b.toInt) .fp32 .rne).1),
      kept := fun _ => [], next := 1, total := 1 }
  | _ => none

/-- The words of L that fill a ring with the rows of groups of blocks: tokens, what they need, the nest, blocks per group,
the mask of the current group, the read of the block at a slot, and the rows of a group that has been read. -/
def rowWord (s : State) (f : Flight) :
    Instr → Option (Tk × Prop × NestNo × Nat × Nat × (Nat → Nat → Nat → Act BlkRead) × (List Nat → List BlkRead → Act (List Nat)))
  | .tld t ru fine desc n lev bl k =>
    let x := s.cask.firing .l n
    let r := s.cask.ring (x.target % 16)
    let wide := (k.toNat + 1) * 2 ^ (if fine then lev.toNat + 1 else lev.toNat)
    some (t, s.cask.fires .l ru n f ∧ wide ≤ 128 ∧ wide ≤ r.cols, n, k.toNat + 1, 0,
      fun _ _ va => readBlock r.srcf bl.toNat lev.toNat desc va, tldGroup lev.toNat r.cols desc fine)
  | .trf t ru n lev bl k fl xm moff =>
    let x := s.cask.firing .l n
    let r := s.cask.ring (x.target % 16)
    let at_ := (s.cask.xreg .l xm).toNat + moff.toNat + 16 * f.aux.headD 0
    some (t, s.cask.fires .l ru n f ∧ 2 ^ (fl.toNat - lev.toNat) ≤ 128 ∧ 2 ^ (fl.toNat - lev.toNat) ≤ r.cols ∧
      (f.pt.opened = false → s.spmAt at_ 16 16 ∧ s.cask.cleanSpm at_ 16), n, k.toNat + 1, natOf (s.cask.spmBytes at_ 16),
      fun m slot va => refineBlock r.srcf bl.toNat lev.toNat fl.toNat m slot va, trfGroup lev.toNat fl.toNat r.cols)
  | _ => none

/-- A command has entered queue `q` of a cask: it has the strand's next number and a journal entry of 192 bytes, and waits to
begin (R182, R265, R337, R338). -/
def Cask.forked (c d : Cask) (dual : Bool) (tick q kind chain : Nat) (bs : List Byte) (owner : Option Owed) : Prop :=
  let num := (c.yy.cnum + 1) % 2 ^ 32
  let push := match owner with
    | some o => 2 * bit o.hp + bit o.hn
    | none => 0
  let ent := bs ++ bytesOf 8 (c.yy.jhead + num * 2 ^ 32) ++
    bytesOf 8 (kind + q * 2 ^ 8 + push * 2 ^ 10 + chain * 2 ^ 32) ++ List.replicate 48 (0 : Byte)
  let at_ := klmUser dual + 192 * (c.yy.jhead % 336)
  d.yy = { c.yy with cnum := num, jhead := (c.yy.jhead + 1) % 2 ^ 32, queues := d.yy.queues } ∧
  (∀ r, d.yy.queue r = c.yy.queue r ++ if r = q then [YEnt.fork bs num c.yy.jhead tick owner] else []) ∧
  d.mem = { c.mem with klm := d.mem.klm, klmP := d.mem.klmP } ∧
  (∀ p, smGet 0 d.mem.klm p = if at_ ≤ p ∧ p < at_ + 192 then ent.getD (p - at_) 0 else smGet 0 c.mem.klm p) ∧
  ∀ p, p ∈ d.mem.klmP ↔ p ∈ c.mem.klmP ∧ ¬ (at_ ≤ p ∧ p < at_ + 192)

/-! ### K: memory, shaping, copies, sharing, system words (R172–R200) -/

/-- A nest launch of engine `e`: the table that word 1 completes becomes the shadow copy, READY is 1, and a journal entry
holds it (R141, R176, R337, R338). -/
def Cask.launchNest (c : Cask) (dual : Bool) (n : NestNo) (base w : Word) (e : Eng) : Cask :=
  let x := c.nest e n.toNat
  let shd : NestCopy := { x.shd with
    base := base, elog := w.toNat % 4, toSpm := w.getLsbD 2, target := w.toNat / 2 ^ 8 % 2 ^ 21 }
  let d := NestCopy.descriptor shd
  let ent := d.take 128 ++ List.replicate (128 - d.length) 0 ++ bytesOf 8 c.yy.jhead ++
    bytesOf 8 (4 + (if e = .s then 1 else 0) * 2 ^ 13 + n.toNat * 2 ^ 14) ++ List.replicate 48 0
  let c1 := c.setKlm (klmUser dual + 192 * (c.yy.jhead % 336)) ent
  ({ c1 with yy := { c1.yy with jhead := (c.yy.jhead + 1) % 2 ^ 32 } } : Cask).setNest e n.toNat
    { x with shd := shd, ready := true, jnum := c.yy.jhead }

/-- K's words that act on their cask: what they need, what they wait for (R28), whether they are handshakes, before which
the store buffer drains (R104), what they do, and which commands they join (R108). -/
def caskWord (s : State) : Instr → Option (Prop × Prop × Bool × (Cask → Cask) × (Unjoined → Bool))
  | .nestl m n lev a => some (True, ∀ e ∈ KMask.engines m, (s.cask.nest e n.toNat).ready = false, false, fun c =>
      (KMask.engines m).foldl (fun x e => x.setNest e n.toNat { x.nest e n.toNat with
        shd := { (x.nest e n.toNat).shd with
          levels := (x.nest e n.toNat).shd.levels.set lev.toNat
            ((s.cask.sreg a).toNat / 2 ^ 40, ((s.cask.sreg a).extractLsb' 0 40).toInt) } }) c, fun _ => false)
  | .ringc n a =>
    let r : Ring := { Ring.reset with w0 := s.cask.sreg a }
    let old := s.cask.ring n.toNat
    some ((s.cask.sreg a).toNat / 2 ^ 52 % 16 < 12 ∧ (s.cask.sreg a).toNat / 2 ^ 48 % 16 < 12 ∧ r.base % 128 = 0 ∧
        r.base + r.slots * r.slotBytes ≤ spmSize s.dual ∧ old.pipe = false ∧ old.toPipe = none,
      old.depth = 0 ∧ s.cask.ringNamed n.toNat = false, true, fun c =>
        c.setRing n.toNat { c.ring n.toNat with w0 := s.cask.sreg a &&& 0x00FFFFFFFC1FFFFF, head := 0, tail := 0 }, fun _ => false)
  | .fmt a => some (True, s.cask.cp.fq.length < 32, true, fun c =>
      { c with cp := { c.cp with fq := c.cp.fq ++ [s.cask.sreg a] } }, fun _ => false)
  | .loopb mk a m k => some (1 ≤ (s.cask.sreg a).toNat ∧ (s.cask.sreg a).toNat < 2 ^ 24 ∧
        (mk.l = true ∨ mk.m = true ∨ mk.s = true) ∧ (mk.m = false → m = 0) ∧ (mk.s = false → k = 0) ∧
        (mk.l = false → m = 0 ∧ k = 0),
      ∀ e ∈ KMask.engines mk, (s.cask.eng e).rpt = 0, true, fun c =>
        (KMask.engines mk).foldl (fun x e => x.updEng e fun st => { st with
          rpt := (s.cask.sreg a).toNat, iters := 0, skewFree := !mk.l && decide (c.eL.rpt = 0),
          skew := match e with
            | .l => 0
            | .m => m.toNat
            | .s => k.toNat }) c, fun _ => false)
  | .ewr m sel a => match eState m sel with
    | some x => some (x ≠ .rv ∧ (x = .tks → ∀ i, i < 6 → (s.cask.sreg a).toNat / 4 ^ i % 4 ≠ 3), True, true, fun c =>
        c.ewrWrite (s.cask.sreg a) x, fun _ => false)
    | none => none
  | .cpw k a imm =>
    let ea := (s.cask.sreg a + imm.signExtend 64).toNat
    some (ea % 32 = 0 ∧ ea + 32 ≤ klmSize s.dual ∧ s.cask.cleanKlm ea 32, True, false, fun c =>
      { c with yy := { c.yy with
        staging := smSetRange 0 c.yy.staging (32 * k.toNat) (c.klmBytes ea 32), written := c.yy.written ||| (1 <<< k.toNat) } }, fun _ => false)
  | .waitq q n => some (1 ≤ n.toNat ∧ n.toNat ≤ 64, (s.cask.yy.queue q.toNat).length < n.toNat, false, id,
      fun u => decide (u.queue = q.toNat))
  | .waite ev a imm => some (True,
      (s.cask.evreg ev.toNat - ((s.cask.sreg a).setWidth 32 + imm)).toNat < 2 ^ 31, false, id, fun u => u.evs.contains ev.toNat)
  | .sige ev imm => some (True, True, false, fun c =>
      { c with cp := { c.cp with ev := smSet 0 c.cp.ev ev.toNat (c.evreg ev.toNat + imm) } }, fun _ => false)
  | .mark n m => some (∀ l, s.cask.cp.lastMark = some l → n ≠ l ∧ (n - l).toNat < 2 ^ 15,
      (aGet MarkEnt.reset s.cask.cp.mtab (n.toNat % 16)).pend = KMask.none, false, fun c =>
        let c1 : Cask := { c with cp := { c.cp with
          mtab := aSet c.cp.mtab (n.toNat % 16) { n := n, mask := m, pend := m, cnum := c.yy.cnum }, lastMark := some n } }
        let c2 := (KMask.engines m).foldl (fun c e => c.placeMark n (Config.fetchAhead s.tick e) e) c1
        if m.y then c2.placeYMark n else c2, fun _ => false)
  | .rdvw n =>
    let x := aGet MarkEnt.reset s.cask.cp.mtab (n.toNat % 16)
    some (x.n = n, x.pend = KMask.none, false, id, fun u =>
      x.mask.y && decide (ageOf s.cask.yy.cnum x.cnum ≤ ageOf s.cask.yy.cnum u.cnum))
  | _ => none

/-- The words of K that a handler runs and a user does not (R2, R149, R200), and those that a user runs and a handler does
not (R347). -/
def privileged : Instr → Bool
  | .eret _ | .ffrd _ _ | .jctlHead _ | .jctlTail _ | .jctlFree _ | .jctlReissue _ _ | .casksw _ | .tinvPage _ _
  | .tinvAsid _ _ | .tinvAll _ _ => true
  | _ => false
def userOnly : Instr → Bool
  | .nestl .. | .nestb .. | .ringc .. | .rdring .. | .fmt _ | .cpw .. | .cpgo .. | .cpch .. | .waitq .. | .waite .. | .sige ..
  | .mark .. | .rdvw _ | .loopb .. | .ewr .. | .erd .. | .tnext _ | .tdone | .tdoneEnd | .join _ | .leave _ | .cbar _ | .cbard _
  | .sstep | .lees .. | .watch .. | .waitl | .est _ | .vtab .. | .trap _ | .ovl _ | .ovswap => true
  | _ => false

/-- The special registers whose value the spec states, and the value (R196, R308). -/
def specialValue (s : State) : Nat → Option Word
  | 0x000 => some (BitVec.ofNat 64 s.turn.core)
  | 0x002 => some (BitVec.ofNat 64 s.dev.rtc)
  | 0x003 => some (BitVec.ofNat 64 (bit s.launch.approx + 2 * bit (s.core s.turn.core).dual))
  | 0x004 => some (BitVec.ofNat 64 (s.weight s.launch s.turn.core * s.dev.capf / 256))
  | 0x005 => some (if s.cask.kr.priv then 1 else 0)
  | 0x006 => some s.cask.kr.tag
  | 0x100 => some (BitVec.ofNat 64 s.cask.kr.hvec)
  | 0x101 => some (s.cask.kr.asid.setWidth 64)
  | 0x102 =>
    let k := s.core s.turn.core
    let out := fun b => decide ((k.cask b).st.live = true ∧ k.dual = true ∧ k.cur ≠ b)
    some (BitVec.ofNat 64 (bit k.dual + 2 * bit k.cur + 4 * bit (out false) + 8 * bit (out true)))
  | 0x103 => some (BitVec.ofNat 64 (s.cask.kr.lq.toNat * 2 ^ 32 + s.cask.kr.lid.toNat))
  | 0x104 => some (s.cask.kr.wdog.setWidth 64)
  | 0x105 => some (if s.cask.kr.monen then 1 else 0)
  | 0x106 => some (s.cask.kr.estv.setWidth 64)
  | _ => none

/-- The special registers that WRS writes, and K's registers after the write (R196, R308). -/
def specialWrite (s : State) (v : Word) : Nat → Option KRegs
  | 0x006 => some { s.cask.kr with tag := v }
  | 0x100 => some { s.cask.kr with hvec := v.toNat % imemSize s.dual / 8 * 8 }
  | 0x101 => some { s.cask.kr with asid := v.setWidth 10 }
  | 0x104 => some { s.cask.kr with wdog := v.setWidth 32 }
  | 0x105 => some { s.cask.kr with monen := v.getLsbD 0 }
  | _ => none

/-- A launch of which the tile that the strand holds, if it holds one, has completed (R20). -/
def State.closing (s : State) (l : Launch) : Launch := { l with tiles := l.tiles + if s.cask.st.held.isSome then 1 else 0 }

/-- The descriptor of an overlay that K reads (R198): its eight dwords from 64 bytes, and the overlay. -/
def ovlDword (bs : List Byte) (i : Nat) : Nat := natOf ((bs.drop (8 * i)).take 8)
def ovlOf (bs : List Byte) : Overlay :=
  let f := fun (i : Nat) => (List.range 4).map fun k => 128 * (ovlDword bs i / 2 ^ (16 * k) % 2 ^ 16)
  { vas := (List.range 4).map fun i => BitVec.ofNat 64 (ovlDword bs i), lens := f 4, offs := f 5,
    trailer := BitVec.ofNat 7 (ovlDword bs 6), loaded := false, flt := none }

/-! ### Commands of Y and the fabric (R265–R288, R304, R371) -/

/-- What a command's elements have raised, added to its record (R269, R271). -/
def State.tallied (s : State) (t : Tally) : State := s.updEnt s.yAt.1 s.yAt.2 fun y => y.tally t

/-- The rank that an access of the fabric answers (R371). -/
def FabAcc.origin : FabAcc → Option (BitVec 6)
  | .read org .. | .write org .. | .atomic org .. | .mcast org .. => some org
  | _ => none

/-- One piece of a move of a KVCMT, from `s` on: the command `y` as it stands, the pieces of the plane that are left behind it,
and the state `t` in which it has been moved (R114, R280). -/
def kvPiece (c : Cmd) (i k : Nat) (s : State) (y : YEnt) (left : List Nat) (t : State) : Prop :=
  let n := if c.sfmt.bits < 8 then 1 else c.sfmt.bytes
  let ps := if y.left = [] then List.range (c.kE / n) else y.left
  let m := ps.getD (Config.nextPart s.tick ps.length % ps.length) 0
  s.entAt s.yAt.1 s.yAt.2 = some y ∧ left = ps.erase m ∧ ∃ bs s1,
    yRead c.dst .read (c.slotVa y.part (c.kC + k) + n * m) n s = .ok bs s1 ∧
    yWrite c.dst (c.slotVa y.part (c.kC + i) + n * m) bs s1 = .ok () t

/-- The single-copy pieces of the points of a FRED: how many, their length, and where a piece stands (R114, R284). -/
def fredPieces (c : Cmd) : Nat × Nat × (Nat → Nat) :=
  let k := if c.opr = .blend then 4 else c.elemBytes
  let m := c.elemBytes / k
  (c.points * m, k, fun u => c.srcAt (8 * c.elemBytes) (u / m) + u % m * k)

/-- The commands whose units take several steps: what says that `t` is the state after a step that does not end the unit
(R114, R280, R284). -/
def cmdPart (s : State) (u : Nat) (t : State) : Instr → Prop
  | .kvcmt c => u < c.kA ∧ ∃ p s1 y left s2, kvPath c s = .ok p s1 ∧ p.getD u u ≠ u ∧ kvPiece c u (p.getD u u) s1 y left s2 ∧
      ¬ (left = [] ∧ c.x1.toNat ≤ y.part + 1) ∧
      t = s2.updEnt s.yAt.1 s.yAt.2 fun z => { z with left := left, part := if left = [] then z.part + 1 else z.part }
  | .fred c =>
    let p := fredPieces c
    if u = 0 then ∃ y a s1, s.entAt s.yAt.1 s.yAt.2 = some y ∧ y.part + 1 < p.1 ∧
      yRead c.src .read (p.2.2 y.part) p.2.1 s = .ok a s1 ∧
      t = s1.updEnt s.yAt.1 s.yAt.2 fun z => { z with data := z.data ++ a, part := y.part + 1 }
    else u = 1 ∧ c.tag ∉ s.dev.disagree ∧ c.tag ∈ s.dev.agreed ∧ c.writes s.dev.rank = true ∧ ∃ r y s1,
      aFind s.dev.results c.tag = some r ∧ r.written = false ∧ s.entAt s.yAt.1 s.yAt.2 = some y ∧ y.part + 1 < p.1 ∧
      fredPoint c (decide ((ranksOf c.bind).headD 0 = s.dev.rank)) r.data y.part s = .ok () s1 ∧
      t = s1.updEnt s.yAt.1 s.yAt.2 fun z => { z with part := y.part + 1 }
  | _ => False

/-- The commands: how many units a command has, and what says that `t` is the state in which unit `u` leaves `s`
(R273–R287). The element accesses are the shared ones of Y. -/
def cmdUnit (s : State) (u : Nat) (t : State) : Instr → Option (Nat × Prop)
  | .copy c => some (c.x0.toNat * c.x1.toNat * c.x2.toNat, ∃ v s1 s2,
      getElem c.src c.sfmt (c.srcAt c.sfmt.bits u) u s = .ok v s1 ∧
      let r := cvt (exactVal c.sfmt v) c.dfmt c.rm
      putElem c.dst c.dfmt (c.dstAt c.dfmt.bits u) u (if c.sfmt = c.dfmt then v else r.1) s1 = .ok () s2 ∧
      t = if c.sfmt = c.dfmt then s2 else s2.tallied (tallyOf c.dfmt r.1 r.2))
  | .fill c => some (c.x0.toNat * c.x1.toNat * c.x2.toNat,
      putElem c.dst c.dfmt (c.dstAt c.dfmt.bits u) u c.src.toNat s = .ok () t)
  | .accw c =>
    let n := c.elemBytes
    let da := c.dstAt (8 * n) u
    some (c.x0.toNat * c.x1.toNat * c.x2.toNat, canonical da = true ∧ ∃ s1 b s2 l s3,
      accwLocs (partsOf da n) s = .ok () s1 ∧ yRead c.src .read (c.srcAt (8 * n) u) n s1 = .ok b s2 ∧
      yLoc .both da true s2 = .ok l s3 ∧
      ((c.combines = true ∧ l.sa = false ∧
          let s4 := s3.access l .copy false
          let r := applyElem c (s4.homeBytes l n) b
          s4.homePoison l n = false ∧ t = ((s4.combine l r.1).atomics l 1).tallied r.2) ∨
        ((c.combines = false ∨ l.sa = true) ∧ ∃ old s4 s5 s6, yRead c.dst .both da n s3 = .ok old s4 ∧
          (if c.rtn then yWrite c.ret ((c.ret.toNat + u * n) % 2 ^ 64) old s4 = .ok () s5 else s5 = s4) ∧
          yRewrite c.dst da (applyElem c old b).1 s5 = .ok () s6 ∧ t = (s6.atomics l 1).tallied (applyElem c old b).2)))
  | .ratom c =>
    let n := if c.opr = .cas then 8 else 4
    let da := c.dstAt 32 u
    some (c.x0.toNat * c.x1.toNat * c.x2.toNat, canonical da = true ∧ ∃ l s1 b s2 old s3 s4 s5,
      translate s.turn.core s.cask.kr.asid da .both s = .ok l s1 ∧ (l.ty = 1 → hostOpr c.opr = true) ∧
      yRead c.src .read ((c.src.toNat + u * n) % 2 ^ 64) n s1 = .ok b s2 ∧
      (if l.ty = 2 then ∃ m, yLoc .both da true s2 = .ok m s3 ∧ s3.homePoison m 4 = false ∧ old = s3.homeBytes m 4
        else yRead c.dst .both da 4 s2 = .ok old s3) ∧
      let r := if c.opr = .cas then (if natOf old = natOf b % 2 ^ 32 then natOf b / 2 ^ 32 else natOf old, {})
        else applyOpr c.opr c.dfmt c.rm (natOf old) (natOf b)
      yWrite c.ret ((c.ret.toNat + u * 4) % 2 ^ 64) old s3 = .ok () s4 ∧
      (if l.ty = 2 then ∃ m z, yLoc .both da false s4 = .ok m z ∧
          let x := if c.opr = .cas then (natOf b / 2 ^ 32, natOf b % 2 ^ 32) else (natOf b, 0)
          s5 = ((z.homeDo m (bytesOf 4 r.1)).send (.atomic (m.addr / 2 ^ 64) (BitVec.ofNat 64 m.addr) c.dfmt c.opr c.rm
            (BitVec.ofNat 64 x.1) (BitVec.ofNat 64 x.2))).dropClean m.asid (m.va / 128)
        else yRewrite c.dst da (bytesOf 4 r.1) s4 = .ok () s5) ∧
      t = (s5.atomics l 1).tallied r.2)
  | .tnode c =>
    let va := c.dst.toNat
    let f := c.dfmt
    let n := prefixBytes f c.tLev
    some (1, (s.entAt s.yAt.1 s.yAt.2).all s.cask.yy.treeOrder = true ∧ blockPlaced va f c.tL = true ∧
      ∃ l s1 s2 s3 h s4, yLoc .both va true s = .ok l s1 ∧ mergeRange .tree l n s1 = .ok () s2 ∧
      treeOp (if l.ty = 0 then some l.slice else none) s2 = .ok () s3 ∧ homeHdr va l f c.tL c.tLev s3 = .ok h s4 ∧
      s4.homePoison l n = false ∧
      let body := (pieces f.bytes (2 ^ c.tLev) ((s4.homeBytes l n).drop 16)).map natOf
      t = (partsOf l.va n).foldl (fun x p => x.dropClean l.asid (p.1 / 128))
        (s4.putBlock l f (nodeUpdate f.bits c.tLev c.tNode c.src.toNat (decide (c.opr = .add)) h body)))
  | .kvcmt c => some (c.kA + 1, ∃ p s1, kvPath c s = .ok p s1 ∧
      if u < c.kA then
        if p.getD u u = u then t = s1
        else ∃ y left, kvPiece c u (p.getD u u) s1 y left t ∧ left = [] ∧ c.x1.toNat ≤ y.part + 1
      else yWrite c.bind c.bind.toNat (bytesOf 8 (c.kC + c.kA)) s1 = .ok () t)
  | .fmcast c =>
    let ranks := ranksOf c.bind
    let others := ranks.filter fun r => r ≠ s.dev.rank
    let da := c.dstAt c.dfmt.bits u
    some (c.x0.toNat * c.x1.toNat * c.x2.toNat, canonical da = true ∧
      (∀ r ∈ others, s.lateRank r = false ∧ s.reachable r = true) ∧ ∃ v s1 s2,
      getElem c.src c.sfmt (c.srcAt c.sfmt.bits u) u s = .ok v s1 ∧
      (if s.dev.rank ∈ ranks then putElem c.dst c.dfmt da u v s1 = .ok () s2 else s2 = s1) ∧
      forList (mcastTo c da u v) others s2 = .ok () t)
  | .fred c => some (2,
      let p := fredPieces c
      if u = 0 then ∃ y a s1, s.entAt s.yAt.1 s.yAt.2 = some y ∧ p.1 ≤ y.part + 1 ∧
        yRead c.src .read (p.2.2 y.part) p.2.1 s = .ok a s1 ∧
        let peers := (ranksOf c.bind).filter fun r => r ≠ s1.dev.rank
        let x : Contrib := {
          tag := c.tag, rank := s1.dev.rank, d6 := s1.yDw 6, d7 := s1.yDw 7, d10 := s1.yDw 10, mask := c.bind,
          data := y.data ++ a }
        (∀ r ∈ peers, s1.reachable r = true) ∧
        let d : Dev := { s1.dev with
          results := aDel s1.dev.results c.tag, agreed := nsDel s1.dev.agreed c.tag,
          disagree := nsDel s1.dev.disagree c.tag, nodes := s1.dev.nodes.filter fun v => v.tag ≠ c.tag }
        t = peers.foldl (fun z r => z.send (.contrib r c.tag x.d6 x.d7 x.d10 x.mask)) { s1 with dev := d.contribute x }
      else c.tag ∉ s.dev.disagree ∧ c.tag ∈ s.dev.agreed ∧
        (∀ r ∈ c.takers, r = s.dev.rank ∨ Config.applied s.tick r = true) ∧
        if c.writes s.dev.rank = true then ∃ r s2, aFind s.dev.results c.tag = some r ∧
          (if r.written = true then s2 = s
            else ∃ y s3, s.entAt s.yAt.1 s.yAt.2 = some y ∧ p.1 ≤ y.part + 1 ∧
              fredPoint c (decide ((ranksOf c.bind).headD 0 = s.dev.rank)) r.data y.part s = .ok () s3 ∧
              s2 = { s3 with dev := { s3.dev with results := aSet s3.dev.results c.tag { r with written := true } } }) ∧
          t = s2.tallied { fl := r.fl, nans := r.nans, infs := r.infs, wraps := r.wraps }
        else t = s)
  | .sigr c =>
    let out := s.goesOut c.rloc c.rdev.toNat
    some (1, s.yAt.2 = 0 ∧ (out = true → s.lateRank c.rdev.toNat = false ∧ s.reachable c.rdev.toNat = true ∧
        Config.applied s.tick c.rdev.toNat = true) ∧
      (out = false → s.awaitsStart (s.incTarget c.rloc) c.rcore.toNat = false) ∧
      t = s.sendInc c.rloc c.rdev.toNat c.rcore.toNat c.rev.toNat (c.arg.setWidth 32))
  | .pipeBind c =>
    let m := s.cask.ring c.pring
    some (1, c.ccore / 96 = s.turn.core / 96 ∧ ∃ p, (s.launch.lease.find? fun p => p.1 = c.ccore) = some p ∧
      let n := (s.caskAt p.1 p.2).ring c.cring
      m.depth = 0 ∧ s.cask.ringNamed c.pring = false ∧ n.depth = 0 ∧ sameRing m n = true ∧ n.pipe = false ∧
      let s1 := s.setCask (s.cask.setRing c.pring { m with toPipe := some (2 * p.1 + bit p.2, c.cring) })
      t = s1.setCaskAt p.1 p.2 ((s1.caskAt p.1 p.2).setRing c.cring { n with
        w0 := n.w0 ||| ((1 : Word) <<< 56), head := 0, tail := 0,
        fromPipe := some (2 * s.turn.core + bit s.turn.cask, c.pring) }))
  | .pipeUnbind c =>
    let m := s.cask.ring c.pring
    some (1, c.ccore / 96 = s.turn.core / 96 ∧ ∃ p, (s.launch.lease.find? fun p => p.1 = c.ccore) = some p ∧
      let n := (s.caskAt p.1 p.2).ring c.cring
      if m.toPipe = some (2 * p.1 + bit p.2, c.cring) then s.cask.ringNamed c.pring = false ∧ n.depth = 0 ∧
        let s1 := s.setCask (s.cask.setRing c.pring { m with toPipe := none })
        t = s1.setCaskAt p.1 p.2 ((s1.caskAt p.1 p.2).setRing c.cring { n with
          w0 := n.w0 &&& ~~~ ((1 : Word) <<< 56), fromPipe := none })
      else t = s)
  | _ => none

/-! ### Pieces of the SPM that words of M move -/

/-- A word of M that reads a range of the SPM: the size of a piece, the range, and what the word leaves in a cask once it has the
bytes. -/
def spmLoads (s : State) : Instr → Option (Tk × Nat × Nat × Nat × (List Byte → Cask → Prop))
  | .vld t mk d a imm => some (t, 4, (s.cask.xreg .m a + imm.signExtend 64).toNat, 512, fun bs c =>
      s.cask.sameX c .m ∧ c.mem = s.cask.mem ∧ c.mx = { s.cask.mx with v := c.mx.v } ∧
      ∀ r i, i < 128 → c.lane r i = if r = d ∧ (s.cask.active mk).getLsbD i = true then
        BitVec.ofNat 32 (natOf ((bs.drop (4 * i)).take 4)) else s.cask.lane r i)
  | .vldM t d a imm => some (t, 8, (s.cask.xreg .m a + imm.signExtend 64).toNat, 16, fun bs c =>
      s.cask.sameX c .m ∧ c.mem = s.cask.mem ∧ c.mx = { s.cask.mx with m := c.mx.m } ∧
      (∀ r, r ≠ d → c.mreg r = s.cask.mreg r) ∧ c.mreg d = BitVec.ofNat 128 (natOf bs))
  | .cld t a b len =>
      let off := (s.cask.xreg .m a).toNat
      some (t, 4, (s.cask.xreg .m b).toNat, 128 * len.toNat, fun bs c =>
        s.cask.sameX c .m ∧ c.mx = { s.cask.mx with c := c.mx.c } ∧
        c.mem = { s.cask.mem with acmP := s.cask.mem.acmP.filter fun p => decide (p < off ∨ off + 128 * len.toNat ≤ p) } ∧
        ∀ w, smGet 0 c.mx.c w = if off / 4 ≤ w ∧ w < off / 4 + 32 * len.toNat then
          BitVec.ofNat 32 (natOf ((bs.drop (4 * (w - off / 4))).take 4)) else smGet 0 s.cask.mx.c w)
  | .cqtake t w2 va xa xb m =>
      let k := if w2 then 2 else 1
      let n := Nat.min 128 (s.cask.xreg .m xb).toNat
      some (t, 4, (s.cask.xreg .m xa).toNat, 4 * k * n, fun bs c =>
        c.mem = s.cask.mem ∧ c.mx = { s.cask.mx with v := c.mx.v, m := c.mx.m } ∧
        (∀ r, c.xreg .m r = if r = 0 then 0
          else if r = xb then s.cask.xreg .m xb - BitVec.ofNat 64 n
          else if r = xa then s.cask.xreg .m xa + BitVec.ofNat 64 (4 * k * n) else s.cask.xreg .m r) ∧
        (∀ r, r ≠ m → c.mreg r = s.cask.mreg r) ∧ (∀ i, i < 128 → (c.mreg m).getLsbD i = decide (i < n)) ∧
        ((w2 = true → va.toNat % 2 = 0) → ∀ r i, i < 128 → c.lane r i =
          if r.toNat = va.toNat ∨ w2 = true ∧ r.toNat = va.toNat + 1 then
            (if i < n then BitVec.ofNat 32 (natOf ((bs.drop (4 * (k * i + (r.toNat - va.toNat)))).take 4)) else 0)
          else s.cask.lane r i))
  | _ => none

/-- A word of M that writes a range of the SPM: its pieces, the bytes, and what its x registers read once it has written them. -/
def spmStores (s : State) : Instr → Option (Tk × Prop × List (Nat × Nat × Nat) × List Byte × (XReg → Word))
  | .vst t mk va a imm =>
      let ea := (s.cask.xreg .m a + imm.signExtend 64).toNat
      some (t, True, ((List.range 128).filter fun i => (s.cask.active mk).getLsbD i).map fun i => (4 * i, ea + 4 * i, 4),
        (List.range 512).map fun p => byteOf (s.cask.lane va (p / 4)).toNat (p % 4), s.cask.xreg .m)
  | .vstM t m a imm =>
      let ea := (s.cask.xreg .m a + imm.signExtend 64).toNat
      some (t, True, (List.range 2).map fun i => (8 * i, ea + 8 * i, 8),
        (List.range 16).map fun p => byteOf (s.cask.mreg m).toNat p, s.cask.xreg .m)
  | .cldOut t a b len =>
      let off := (s.cask.xreg .m a).toNat
      let n := 128 * len.toNat
      some (t, ∀ p, p ∈ s.cask.mem.acmP → ¬ (off ≤ p ∧ p < off + n),
        (List.range (n / 4)).map fun i => (4 * i, (s.cask.xreg .m b).toNat + 4 * i, 4),
        (List.range n).map fun p => byteOf (smGet 0 s.cask.mx.c (off / 4 + p / 4)).toNat (p % 4), s.cask.xreg .m)
  | .cqapp t w2 xa xb va vb m =>
      let k := if w2 then 2 else 1
      let n := (s.cask.selected va m).length
      some (t, True, (List.range (k * n)).map fun i => (4 * i, (s.cask.xreg .m xa).toNat + 4 * i, 4),
        (List.range (4 * k * n)).map fun p =>
          byteOf ((s.cask.selected (if w2 ∧ p / 4 % 2 = 1 then vb else va) m).getD (p / 4 / k) 0).toNat (p % 4),
        fun r => if r = 0 then 0
          else if r = xb then s.cask.xreg .m xb + BitVec.ofNat 64 n
          else if r = xa then s.cask.xreg .m xa + BitVec.ofNat 64 (4 * k * n) else s.cask.xreg .m r)
  | _ => none

/-- R114, R231, R240–R242: one piece of such a word in progress, where a turn has room for one unit of work: it is read, and kept with
the word, or written; the last one completes the word, with the effect that it has when it runs in one step. -/
def spmPiecesMove : Prop :=
  (∀ (i : Instr) (s : State) (f : Flight) (t : Tk) (u base n : Nat) (effect : List Byte → Cask → Prop),
    spmLoads s i = some (t, u, base, n, effect) → s.cask.inWord .m t f → s.turn.burst = 0 → f.pt.opened = true ∨ u < n →
    let p : Point := if f.pt.opened then f.pt else {
      opened := true, parts := (List.range (n / u)).map fun k => (u * k, base + u * k, u), data := List.replicate n 0 }
    let k := Config.nextPart s.tick p.parts.length % p.parts.length
    ∀ x, p.parts[k]? = some x → s.cask.cleanSpm x.2.1 x.2.2 → p.data.length = n →
      let rest := p.parts.eraseIdx k
      let data := p.data.take x.1 ++ s.cask.spmBytes x.2.1 x.2.2 ++ p.data.drop (x.1 + x.2.2)
      ∃ v, exec i s = .next v ∧ s.onlyCask v ∧ v.cask.cp.rings = s.cask.cp.rings ∧
        s.cask.ranUnit v.cask .m t f { f with pt := { p with parts := rest, data := data } } (decide (rest = [])) ∧
        (rest ≠ [] → v.cask.mem = s.cask.mem ∧ v.cask.mx = s.cask.mx) ∧
        (rest = [] → data.length = n → effect data v.cask)) ∧
  ∀ (i : Instr) (s : State) (f : Flight) (t : Tk) (ok : Prop) (parts : List (Nat × Nat × Nat)) (bs : List Byte) (xs : XReg → Word),
    spmStores s i = some (t, ok, parts, bs, xs) → s.cask.inWord .m t f → s.turn.burst = 0 →
    f.pt.opened = true ∨ ok ∧ 1 < parts.length →
    let p : Point := if f.pt.opened then f.pt else { opened := true, parts := parts, data := bs }
    let k := Config.nextPart s.tick p.parts.length % p.parts.length
    ∀ x, p.parts[k]? = some x → x.1 + x.2.2 ≤ p.data.length →
      let rest := p.parts.eraseIdx k
      ∃ v, exec i s = .next v ∧ s.onlyCask v ∧ v.cask.cp.rings = s.cask.cp.rings ∧ v.cask.mx = s.cask.mx ∧
        s.cask.ranUnit v.cask .m t f { f with pt := { p with parts := rest } } (decide (rest = [])) ∧
        s.cask.wroteSpm v.cask (fun a => x.2.1 ≤ a ∧ a < x.2.1 + x.2.2) (fun a => p.data.getD (x.1 + (a - x.2.1)) 0) ∧
        ∀ r, v.cask.xreg .m r = if rest = [] then xs r else s.cask.xreg .m r

/-! ### Phases of crews and of the superstep -/

/-- R21, R23, R24, R26, R27: a phase completes once every member of the crew, or every strand that has not ended, has
arrived, and not before. The next phase begins: the phase number has advanced modulo 2^16, nothing has arrived, the members that
dropped have left. Every strand that arrived has the record of the phase: the crew or the superstep, the phase, how many arrived
and which came last but for drops, the spread, and the four slowest with their lag, normalised by their weights, clamped; ties go
to the lower ordinal. That PHASE of a superstep counts as a crew's does is the model's choice (log 50). -/
def phaseCompletes : Prop :=
  ∀ (s : State) (lid : Nat) (id : Option Nat) (l : Launch) (f : Arrival), aFind s.dev.launches lid = some l →
    let k := l.crewOf id
    let early := fun (a b : Arrival) => a.at_ < b.at_ ∨ (a.at_ = b.at_ ∧ a.ord ≤ b.ord)
    let late := fun (a b : Arrival) => b.at_ < a.at_ ∨ (a.at_ = b.at_ ∧ a.ord ≤ b.ord)
    let all := match id with
      | some _ => k.members
      | none => (List.range l.lease.length).filter fun o => !l.ended.contains o
    let full := all ≠ [] ∧ ∀ o ∈ all, ∃ a ∈ k.arrived, a.ord = o
    let t := s.phaseCheck lid id
    let lag := fun (a : Arrival) => Nat.min 0xFFFFFFFF (a.at_ - f.at_)
    let took := fun (a : Arrival) => a.at_ - (aFind k.starts a.ord).getD k.start
    let w := fun (a : Arrival) => s.weight l ((l.lease[a.ord]?).getD (0, false)).1
    let nlag := fun (a : Arrival) => max (-(2 ^ 31 : Int)) (min (2 ^ 31 - 1)
      ((((took a * w a : Nat) : Int) - (took f * w f : Nat)) / (w a : Int)))
    f ∈ k.arrived → (∀ a ∈ k.arrived, early f a) →
    (¬ full → t = s) ∧
    (full →
      (t.launchAt lid).crewOf id = {
        members := k.members.filter fun o => !(k.arrived.any fun a => a.drop && decide (a.ord = o)),
        phase := (k.phase + 1) % 2 ^ 16, arrived := [], start := s.dev.rtc, starts := [] } ∧
      ∀ a ∈ k.arrived, ∀ z, aFind l.saved a.ord = none → l.lease[a.ord]? = some z → (s.caskAt z.1 z.2).st.live = true →
        (s.caskAt z.1 z.2).kr.lid.toNat = lid →
        let word := fun (i : Nat) => smGet 0 (t.caskAt z.1 z.2).st.lees i
        (∃ last, word 0 = BitVec.ofNat 64 (id.getD 0xFF * 2 ^ 56 + (if id.isSome then 0 else 1) * 2 ^ 48 + k.phase * 2 ^ 32 +
            k.arrived.length * 2 ^ 16 + last) ∧
          ((∀ b ∈ k.arrived, b.drop = true) ∧ last = 0xFFFF ∨
            ∃ b ∈ k.arrived, b.drop = false ∧ last = b.ord ∧ ∀ c ∈ k.arrived, c.drop = false → late b c)) ∧
        (∃ b ∈ k.arrived, (∀ c ∈ k.arrived, c.at_ ≤ b.at_) ∧ word 1 = BitVec.ofNat 64 (lag b)) ∧
        ∃ xs : List Arrival, xs.Perm k.arrived ∧
          xs.Pairwise (fun b c => lag c < lag b ∨ (lag b = lag c ∧ b.ord ≤ c.ord)) ∧
          ∀ i, i < 4 → match xs[i]? with
            | some b => word (2 + 2 * i) = BitVec.ofNat 64 (lag b * 2 ^ 32 + bit b.drop * 2 ^ 16 + b.ord) ∧
                word (3 + 2 * i) = (BitVec.ofInt 32 (nlag b)).setWidth 64
            | none => word (2 + 2 * i) = 0xFFFF ∧ word (3 + 2 * i) = 0)

/-! ### Launches: grants, starts and ends -/

/-- R310, R313, R316: a launch that leaves its queue has its completion record written, with its status, the field, its id, the
GANG_LATE reports and its tiles; LQHEAD advances, no record of the queue is taken, its cores are free and its partition is due for
grants. A launch that fails has its strands killed first, and its record has STATUS 2. That a record which a slice holds in a
change of the slice map is written later is the model's (log 21). -/
def launchEnds : Prop :=
  ∀ (s : State) (lid : Nat) (l : Launch),
    (∀ status field : Nat,
      let part := (s.queueAt l.queue).part
      let t := s.launchOut lid l status field
      let rec_ := bytesOf 8 (2 ^ 63 + status * 2 ^ 40 + field * 2 ^ 32 + lid) ++ bytesOf 8 (l.glate * 2 ^ 32 + l.tiles)
      aFind t.dev.launches lid = none ∧
      (t.queueAt l.queue).head = ((s.queueAt l.queue).head + 1) % 2 ^ 64 ∧ (t.queueAt l.queue).taken = none ∧
      (∀ x ∈ l.lease, x ∈ t.dev.freed) ∧ (l.lease ≠ [] → part ∈ t.dev.grantDue) ∧
      (∀ w, ioStore (s.partAt part) l.asid (l.dw 13) rec_ s = .ok () w →
        t.cores = w.cores ∧ t.dev.dmem = w.dev.dmem ∧ t.dev.hmem = w.dev.hmem ∧ t.dev.pmem = w.dev.pmem) ∧
      ∀ w, ioStore (s.partAt part) l.asid (l.dw 13) rec_ s = .error .hold w →
        t.dev.posted = s.dev.posted ++ [{ part := part, asid := l.asid, va := l.dw 13, bytes := rec_ }]) ∧
    (aFind s.dev.launches lid = some l →
      let t := s.killStrands lid
      s.launchFail lid = t.launchOut lid (t.launchAt lid) 2 0 ∧ ∀ p ∈ l.lease, (t.caskAt p.1 p.2).runs lid = false)

/-- R315–R317, R326, R398: a round serves the head launches that fit in what is free, the lowest pass first, the lowest queue id on
a tie, until none fits; none while TRIP is set. A launch fits where all its strands have a core, or where the casks that it held
before are free again; it is granted its whole strand count, on cores in increasing id, and each grant is charged. Which free
cores a new launch receives is the scheduler's free choice (log 10); that a launch which drains takes no part, and that a gang
launch waits for its time, are the model's readings (logs 10 and 19). -/
def launchGrants : Prop :=
  (∀ (pool : List (Nat × Bool)) (again : Bool) (f : Nat) (qs : List Nat) (r : Round),
    let free := pool.filter fun x => !r.taken.contains x
    let fit := qs.filter fun q => r.fits free again q
    (fit = [] → Round.loop pool again f qs r = r) ∧
    (fit ≠ [] → ∃ q, r.s.nextQueue fit = some q ∧ q ∈ fit ∧
      Round.loop pool again (f + 1) qs r = Round.loop pool again f (qs.filter fun x => x ≠ q) (r.grant free q))) ∧
  (∀ (s : State) (p : Nat) (pool : List (Nat × Bool)) (again : Bool),
    let r : Round := { s := s, taken := [], won := [] }
    let qs := (s.queuesOf p).filter fun q => (s.queueAt q).open_
    (s.dev.trip = true → s.round p pool again = r) ∧
    (s.dev.trip = false → s.round p pool again = Round.loop pool again qs.length qs r)) ∧
  (∀ (s : State) (p : Nat) (x : Nat × Bool), x ∈ s.freedCasks p ↔
    x ∈ s.dev.freed ∧ x.1 ∈ (s.partAt p).cores ∧ (aGet Vint.reset s.dev.vint x.1).en = true ∧
    (x.2 = false ∨ (s.partAt p).dual = true) ∧ (s.caskAt x.1 x.2).st.live = false ∧
    ∀ l ∈ s.dev.launches, l.2.granted = true → x ∉ l.2.lease) ∧
  ∀ (r : Round) (free : List (Nat × Bool)) (again : Bool) (q lid : Nat) (l : Launch), r.s.headLaunch q = some (lid, l) →
    let waits := l.begun = false ∧ l.gang = true ∧ l.gangDue r.s.dev = false
    (r.fits free again q = true ↔ ¬ waits ∧ l.policy ≠ some .drain ∧
      (l.lease = [] ∧ l.strands ≤ (free.map (·.1)).eraseDups.length ∨
        l.lease ≠ [] ∧ again = true ∧ ∀ x ∈ l.lease, x ∉ r.taken)) ∧
    (r.fits free again q = true → aFind r.s.dev.launches lid = some l →
      let u := r.grant free q
      ∃ lease, aFind u.s.dev.launches lid = some { l with lease := lease, granted := true, policy := none } ∧
        u.taken = r.taken ++ lease ∧ u.won = r.won ++ [lid] ∧
        (u.s.queueAt q).pass = ((r.s.queueAt q).pass + 2 ^ 20 / (r.s.queueAt q).tickets * l.strands) % 2 ^ 64 ∧
        (l.lease ≠ [] → lease = l.lease) ∧
        (l.lease = [] → lease.length = l.strands ∧ (∀ x ∈ lease, x ∈ free) ∧ lease.Pairwise fun x y => x.1 < y.1))

/-- R9, R11, R13, R15, R16, R34, R304, R313, R314, R396: a launch begins once: its arguments are copied to a buffer of the scheduler, its
tiles dealt by what the hints say, its crews made; an affinity table that cannot be read rejects it. A new strand starts on its
core and cask: its state is that of reset with its start values, its streams stand at offset 0 of the instruction memories, the klm
and spm images over what the windows held, the increments held for it are applied, the dirty lines of the core are home and no
line of the ASID is left. Arguments or an image that cannot be read end the launch with STATUS 2; it starts at a later step while a
slice holds a read or a write-back in a change of the slice map. Those two, and where the buffer lies, are the model's (logs 10 and 21). -/
def launchStarts : Prop :=
  ∀ (s : State) (lid : Nat) (l : Launch), aFind s.dev.launches lid = some l →
    let p := s.partAt (s.queueAt l.queue).part
    (∀ e t, ioLoad p l.asid (l.dw 7) 512 s = .error e t →
      s.beginLaunch lid = if e = .hold then s else t.launchFail lid) ∧
    (∀ bs t, ioLoad p l.asid (l.dw 7) 512 s = .ok bs t →
      (t.placeArgs p lid l bs = none → s.beginLaunch lid = t) ∧
      ∀ va t1, t.placeArgs p lid l bs = some (va, t1) →
        va.toNat % 8 = 0 ∧ 0x40000 ≤ va.toNat ∧ (∃ t2, ioStore p l.asid va.toNat bs t2 = .ok () t1) ∧
        (∀ e t3, launchHints p l t1 = .error e t3 →
          s.beginLaunch lid = if e = .hold then s else t3.launchOut lid l 1 8) ∧
        ∀ hints t3, launchHints p l t1 = .ok hints t3 →
          aFind (s.beginLaunch lid).dev.launches lid = some { l with
            begun := true, startAt := s.dev.rtc, argVa := va, lists := t3.pressLists l hints,
            sstep := { Crew.reset with start := s.dev.rtc },
            crews := if l.full0 = true ∧ 0 < l.crewCount then
              [(0, { Crew.reset with start := s.dev.rtc, members := List.range l.strands })] else [] }) ∧
    ∀ (o n : Nat) (b : Bool),
      (s.homeFree n = false → s.startStrand lid o n b = s) ∧
      (s.homeFree n = true →
        (∀ e t, launchImages p l s = .error e t →
          s.startStrand lid o n b = if e = .hold then s else t.launchFail lid) ∧
        ∀ ims t, launchImages p l s = .ok ims t →
          let u := s.startStrand lid o n b
          let c := u.caskAt n b
          let old := t.caskAt n b
          let dual := (t.core n).dual
          let im := fun (i a : Nat) => ((ims[i]?).getD [])[a]?
          c = { Cask.reset dual with
            mem := c.mem, cp := { (Cask.reset dual).cp with ev := c.cp.ev },
            kr := { (Cask.reset dual).kr with
              s := c.kr.s, hvec := l.dw 15, asid := l.asid, lq := BitVec.ofNat 8 l.queue, lid := BitVec.ofNat 32 lid },
            st := { Strand.reset with
              live := true, ord := o, extents := (List.range 4).map fun i => (0, 128 * (l.dw 5 / 2 ^ (16 * i) % 2 ^ 16)),
              trailer := BitVec.ofNat 7 (l.dw 6 / 2 ^ 48) } } ∧
          (∀ r : SReg, c.sreg r = match r.toNat with
            | 1 => l.argVa
            | 2 => BitVec.ofNat 64 o
            | 3 => BitVec.ofNat 64 l.strands
            | 4 => BitVec.ofNat 64 lid
            | 5 => if b then 1 else 0
            | 6 | 7 | 8 => 0xFFFFFFFFFFFFFFFF
            | 63 => if dual then 0x10000 else 0x30000
            | _ => 0) ∧
          (∀ a, smGet 0 c.mem.ik a = (im 0 a).getD 0 ∧ smGet 0 c.mem.il a = (im 1 a).getD 0 ∧
            smGet 0 c.mem.im a = (im 2 a).getD 0 ∧ smGet 0 c.mem.is a = (im 3 a).getD 0 ∧
            smGet 0 c.mem.klm a = (im 4 a).getD (smGet 0 old.mem.klm a) ∧
            smGet 0 c.mem.spm a = (im 5 a).getD (smGet 0 old.mem.spm a) ∧
            (a ∈ c.mem.klmP ↔ a ∈ old.mem.klmP ∧ im 4 a = none) ∧ (a ∈ c.mem.spmP ↔ a ∈ old.mem.spmP ∧ im 5 a = none)) ∧
          (∀ j, c.evreg j = ((l.incs.filter fun i => i.1 = n ∧ i.2.1 = j).map (·.2.2)).sum) ∧
          aFind u.dev.launches lid = some { l with
            started := l.started ++ [o], incs := l.incs.filter fun i => i.1 ≠ n } ∧
          (let v := t.writeBackIf n fun _ => true
           u.caskAt n (!b) = v.caskAt n (!b) ∧ (u.core n).l1 = (v.core n).l1.filter (fun x => x.asid ≠ l.asid) ∧
           u.dev.dmem = v.dev.dmem ∧ u.dev.hmem = v.dev.hmem ∧ u.dev.pmem = v.dev.pmem))

end Sys2Proof.Machine

open Sys2Proof Sys2Proof.Machine

/-- R170: an integer instruction completes in every state, with the result of the table in its destination, no fault and no
flag, and K at the next word. -/
def Obligations.IntegerResults : Prop :=
  ∀ (i : Instr) (s : State) (d : SReg) (v : Word), intValue s i = some (d, v) →
    ∃ t, exec i s = .next t ∧ s.setsK t d v (s.cask.kr.kpc + 8)

/-- R32, R146, R169, R171: a flow instruction of K that transfers completes with its link or its counter written and K at its
target, wherever the target lies in K's window and, from a register, is a multiple of 8; a BC whose condition does not hold
and a LOOP that has run out complete with K at the next word. A faulting transfer writes no link and changes no counter: K
takes ALIGNMENT at a register target that is no multiple of 8, and ILLEGAL_OPERAND at any target outside the window, the
address behind the window's last word among them. -/
def Obligations.FlowInstructions : Prop :=
  ∀ (i : Instr) (s : State) (d : SReg) (v : Word) (dst : Option (Int × Bool)), flowValue s i = some (d, v, dst) →
    (dst = none → ∃ t, exec i s = .next t ∧ s.setsK t d v (s.cask.kr.kpc + 8)) ∧
    ∀ (pc : Int) (reg : Bool), dst = some (pc, reg) →
      (0 ≤ pc → pc < imemSize s.dual → (reg = true → pc % 8 = 0) → ∃ t, exec i s = .next t ∧ s.setsK t d v pc.toNat) ∧
      (reg = true → pc % 8 ≠ 0 → ∃ va, exec i s = .next (s.coreStop .k { code := 0x07, va := va })) ∧
      ((reg = true → pc % 8 = 0) → ¬ (0 ≤ pc ∧ pc < imemSize s.dual) →
        ∃ va, exec i s = .next (s.coreStop .k { code := 0x02, va := va }))

/-- R2, R40, R42, R177, R180, R192, R195, R200, R347: a word that reads state into a register completes wherever its mode and
its operands allow it, with the value that the rules lay out: word 1 of a ring, the state that a selector names, a word of the
lees record, a vintage entry, a dword of the frame, an end of the journal. That LEASE of VTAB is 1 for a core either cask of
which the lease names is the model's reading (log 39). -/
def Obligations.RegisterReads : Prop :=
  ∀ (i : Instr) (s : State) (ok : Prop) (d : SReg) (v : Word), readValue s i = some (ok, d, v) → ok →
    ∃ t, exec i s = .next t ∧ s.setsK t d v (s.cask.kr.kpc + 8)

/-- R233: a vector word writes the result of the table to every lane whose mask bit is 1; the lanes of the result whose mask
bit is 0 keep their values and count in no flag and no counter. The model's readings: log 28. -/
def Obligations.VectorLanes : Prop :=
  ∀ (i : Instr) (s : State) (t : Tk) (mk : Option MReg) (d : VReg) (counts : Bool) (f : Nat → Lane × Rz),
    laneValue s.cask i = some (t, mk, d, counts, f) → s.cask.fresh .m t 1 →
    ∃ u, exec i s = .next u ∧ s.wroteLanes u t mk d counts f

/-- R236, R244, R245: a word that writes a mask register writes the bits of the table and nothing else. The model's readings:
log 29. -/
def Obligations.MaskWords : Prop :=
  ∀ (i : Instr) (s : State) (t : Tk) (d : MReg) (f : Nat → Bool), maskValue s.cask i = some (t, d, f) →
    s.cask.fresh .m t 1 →
    ∃ u, exec i s = .next u ∧ s.ranAlone u .m t ∧ u.cask.mem = s.cask.mem ∧ s.cask.sameX u.cask .m ∧
      u.cask.mx = { s.cask.mx with m := u.cask.mx.m } ∧ (∀ r, r ≠ d → u.cask.mreg r = s.cask.mreg r) ∧
      ∀ k, k < 128 → (u.cask.mreg d).getLsbD k = f k

/-- R235: VCVT converts each active lane from the source to the destination format under its rounding mode; the code stands in
the low bits of the lane, sign-extended for a signed integer, and the active lanes count as elements of the destination
format. The model's readings: log 28. -/
def Obligations.LaneConversion : Prop :=
  ∀ (s : State) (t : Tk) (mk : Option MReg) (src dst : Fmt) (rm : Rm) (d a : VReg), s.cask.fresh .m t 1 →
    let on := fun k => (s.cask.active mk).getLsbD k
    let f := fun k => cvt (exactVal src ((s.cask.lane a k).toNat % 2 ^ src.bits)) dst rm
    ∃ u, exec (.vcvt t mk src dst rm d a) s = .next u ∧ s.ranAlone u .m t ∧ u.cask.mem = s.cask.mem ∧
      s.cask.sameX u.cask .m ∧
      u.cask.mx = { s.cask.mx with v := u.cask.mx.v, flags := u.cask.mx.flags, mxc := u.cask.mx.mxc } ∧
      (∀ r k, k < 128 → u.cask.lane r k = if r = d ∧ on k = true then
          (if dst.signed then BitVec.ofInt 32 (sxN (f k).1 dst.bits) else BitVec.ofNat 32 (f k).1)
        else s.cask.lane r k) ∧
      s.cask.raised u.cask 128 on (fun k => (f k).2) ∧
      s.cask.counted u.cask 0 128 (fun k => on k && isNanCode dst (f k).1) ∧
      s.cask.counted u.cask 1 128 (fun k => on k && (isInfCode dst (f k).1 && (f k).2.ovf)) ∧
      s.cask.counted u.cask 2 128 (fun k => on k && (f k).2.sat) ∧
      s.cask.counted u.cask 3 128 (fun k => on k && (f k).2.wrap)

/-- R237: a reduction writes its one value to every lane of the destination, and a floating one counts as one element. -/
def Obligations.Reductions : Prop :=
  ∀ (i : Instr) (s : State) (t : Tk) (d : VReg) (counts : Bool) (r : Lane × Rz),
    reduceValue s.cask i = some (t, d, counts, r) → s.cask.fresh .m t 1 →
    ∃ u, exec i s = .next u ∧ s.ranAlone u .m t ∧ u.cask.mem = s.cask.mem ∧ s.cask.sameX u.cask .m ∧
      u.cask.mx = { s.cask.mx with v := u.cask.mx.v, flags := u.cask.mx.flags, mxc := u.cask.mx.mxc } ∧
      (∀ n k, k < 128 → u.cask.lane n k = if n = d then r.1 else s.cask.lane n k) ∧
      (if counts then s.cask.raised u.cask 1 (fun _ => true) (fun _ => r.2) ∧
          s.cask.counted32 u.cask 1 (fun _ => true) (fun _ => r)
        else s.cask.sameCounts u.cask)

/-- R246: VBLEND joins two triples (m, s, v) in every active lane; the three results of a lane all count. The model's
readings: log 28. -/
def Obligations.Blend : Prop :=
  ∀ (s : State) (t : Tk) (mk : Option MReg) (d a b : VReg), s.cask.fresh .m t 1 →
    d.toNat ≤ 29 → a.toNat ≤ 29 → b.toNat ≤ 29 →
    let on := fun k => (s.cask.active mk).getLsbD k
    ∃ u, exec (.vblend t mk d a b) s = .next u ∧ s.ranAlone u .m t ∧ u.cask.mem = s.cask.mem ∧ s.cask.sameX u.cask .m ∧
      u.cask.mx = { s.cask.mx with v := u.cask.mx.v, flags := u.cask.mx.flags, mxc := u.cask.mx.mxc } ∧
      (∀ r k, k < 128 → u.cask.lane r k =
        if d.toNat ≤ r.toNat ∧ r.toNat ≤ d.toNat + 2 ∧ on k = true
        then (blendPart s.cask a b (r.toNat - d.toNat) k).1 else s.cask.lane r k) ∧
      s.cask.raised u.cask 384 (fun k => on (k % 128)) (fun k => (blendPart s.cask a b (k / 128) (k % 128)).2) ∧
      s.cask.counted32 u.cask 384 (fun k => on (k % 128)) (fun k => blendPart s.cask a b (k / 128) (k % 128))

/-- R230, R232: a word that writes a tile writes the words of the table, which count where the table says so, and clears the
poison of what it writes; every other word of every tile is as it was. -/
def Obligations.TileWords : Prop :=
  ∀ (i : Instr) (s : State) (t : Tk) (ok : Prop) (n : CTile) (counts : Bool) (hit : Nat → Prop) (f : Nat → Lane × Rz),
    tileValue s i = some (t, ok, n, counts, hit, f) → s.cask.fresh .m t 1 → ok →
    ∃ u, exec i s = .next u ∧ s.ranAlone u .m t ∧ s.cask.sameX u.cask .m ∧
      u.cask.mx = { s.cask.mx with c := u.cask.mx.c, flags := u.cask.mx.flags, mxc := u.cask.mx.mxc } ∧
      u.cask.mem = { s.cask.mem with acmP := u.cask.mem.acmP } ∧
      (∀ m w, w < 16384 → (m = n ∧ hit w → u.cask.word m w = (f w).1) ∧
        (¬ (m = n ∧ hit w) → u.cask.word m w = s.cask.word m w)) ∧
      (∀ p, p ∈ u.cask.mem.acmP ↔ p ∈ s.cask.mem.acmP ∧ ¬ (p / 0x10000 = n.toNat ∧ hit (p % 0x10000 / 4))) ∧
      (if counts then s.cask.raised u.cask 16384 (fun _ => true) (fun w => (f w).2) ∧
          s.cask.counted32 u.cask 16384 (fun _ => true) f
        else s.cask.sameCounts u.cask)

/-- R247: TMASK fills its tile with +0 at the columns of the context and of a draft's own ancestors, and with -infinity
elsewhere. -/
def Obligations.TreeMask : Prop :=
  ∀ (s : State) (t : Tk) (n : CTile) (a : VReg) (xa xb xc : XReg), s.cask.fresh .m t 1 → s.owns n →
    s.cask.parentsLegal a (s.cask.xreg .m xc).toNat →
    ∃ u, exec (.tmask t n a xa xb xc) s = .next u ∧ s.ranAlone u .m t ∧ s.cask.sameX u.cask .m ∧
      u.cask.mx = { s.cask.mx with c := u.cask.mx.c } ∧ u.cask.mem = { s.cask.mem with acmP := u.cask.mem.acmP } ∧
      (∀ m w, m ≠ n → w < 16384 → u.cask.word m w = s.cask.word m w) ∧
      (∀ p, p ∈ u.cask.mem.acmP ↔ p ∈ s.cask.mem.acmP ∧ p / 0x10000 ≠ n.toNat) ∧
      ∀ r j, r < 128 → j < 128 →
        let col := (s.cask.xreg .m xb).toNat + j
        let ctx := (s.cask.xreg .m xa).toNat
        let kept := col < ctx ∨ r < (s.cask.xreg .m xc).toNat ∧ s.cask.descends a r ((col : Int) - ctx)
        (kept → u.cask.word n (128 * r + j) = 0) ∧ (¬ kept → u.cask.word n (128 * r + j) = 0xFF800000)

/-- R39, R89, R231, R232: CROWV writes row or column xreg(a) of a tile, or a value of each row, to a vector; only the reducing
modes count. CLD copies len × 128 bytes from the SPM to the words of the tiles, row-major, and CLD.out the other way, in one
step where a turn has room for all pieces (logs 1 and 59). -/
def Obligations.TileTransfers : Prop :=
  (∀ (s : State) (t : Tk) (mode : CrowMode) (d : VReg) (n : CTile) (x : XReg), s.cask.fresh .m t 1 → s.owns n →
     s.cask.cleanFor n mode (s.cask.xreg .m x).toNat → (mode = .row ∨ mode = .col → (s.cask.xreg .m x).toNat < 128) →
     ∃ u, exec (.crowv t mode d n x) s = .next u ∧
       s.wroteLanes u t none d (decide (mode ≠ .row ∧ mode ≠ .col))
         (crowvLane s.cask mode n (s.cask.xreg .m x).toNat)) ∧
  (∀ (s : State) (t : Tk) (a b : XReg) (len : BitVec 16), s.cask.fresh .m t 1 → s.cldOk a b len →
     let off := (s.cask.xreg .m a).toNat
     let spm := (s.cask.xreg .m b).toNat
     let n := 128 * len.toNat
     n / 4 ≤ s.turn.burst + 1 →
     ((∀ p, p ∈ s.cask.mem.spmP → ¬ (spm ≤ p ∧ p < spm + n)) →
       ∃ u, exec (.cld t a b len) s = .next u ∧ s.ranAlone u .m t ∧ s.cask.sameX u.cask .m ∧
         u.cask.mx = { s.cask.mx with c := u.cask.mx.c } ∧
         u.cask.mem = { s.cask.mem with acmP := s.cask.mem.acmP.filter fun p => decide (p < off ∨ off + n ≤ p) } ∧
         (∀ k, k < n / 4 → smGet 0 u.cask.mx.c (off / 4 + k) = BitVec.ofNat 32 (natOf (s.cask.spmBytes (spm + 4 * k) 4))) ∧
         ∀ w, w < off / 4 ∨ (off + n) / 4 ≤ w → smGet 0 u.cask.mx.c w = smGet 0 s.cask.mx.c w) ∧
     ((∀ p, p ∈ s.cask.mem.acmP → ¬ (off ≤ p ∧ p < off + n)) →
       ∃ u, exec (.cldOut t a b len) s = .next u ∧ s.ranAlone u .m t ∧ s.cask.sameX u.cask .m ∧
         u.cask.mx = s.cask.mx ∧
         u.cask.mem = { s.cask.mem with
           spm := u.cask.mem.spm, spmP := s.cask.mem.spmP.filter fun p => decide (p < spm ∨ spm + n ≤ p) } ∧
         (∀ k, k < n → smGet 0 u.cask.mem.spm (spm + k) =
           BitVec.ofNat 8 ((smGet 0 s.cask.mx.c (off / 4 + k / 4)).toNat / 256 ^ (k % 4))) ∧
         ∀ p, p < spm ∨ spm + n ≤ p → smGet 0 u.cask.mem.spm p = smGet 0 s.cask.mem.spm p))

/-- R114, R231, R240–R242: VLD fills the active lanes of a vector from the SPM, VLD.m a mask register; VST stores the active
lanes of a vector, VST.m a mask register, and no other byte changes. With room for all their pieces in one turn they complete
in one step; else the words of M that reach a range of the SPM move it piece by piece, in no order. How many pieces a turn has
room for, and the size of a piece, are the model's (logs 1 and 59); so is that the lanes which a VLD writes count nothing,
NaNs among them (log 28). -/
def Obligations.VectorAccesses : Prop :=
  (∀ (s : State) (t : Tk) (mk : Option MReg) (d : VReg) (md : MReg) (a : XReg) (imm : BitVec 16), s.cask.fresh .m t 1 →
     let ea := (s.cask.xreg .m a + imm.signExtend 64).toNat
     (ea % 4 = 0 → ea + 512 ≤ spmSize s.dual → s.cask.cleanSpm ea 512 → 127 ≤ s.turn.burst →
       ∃ u, exec (.vld t mk d a imm) s = .next u ∧
         s.wroteLanes u t mk d false fun k => (s.cask.spmWord (ea + 4 * k), {})) ∧
     (ea % 16 = 0 → ea + 16 ≤ spmSize s.dual → s.cask.cleanSpm ea 16 → 1 ≤ s.turn.burst →
       ∃ u, exec (.vldM t md a imm) s = .next u ∧ s.ranAlone u .m t ∧ u.cask.mem = s.cask.mem ∧ s.cask.sameX u.cask .m ∧
         u.cask.mx = { s.cask.mx with m := u.cask.mx.m } ∧ (∀ r, r ≠ md → u.cask.mreg r = s.cask.mreg r) ∧
         ∀ k, k < 128 → (u.cask.mreg md).getLsbD k = (smGet 0 s.cask.mem.spm (ea + k / 8)).getLsbD (k % 8))) ∧
  (∀ (s : State) (t : Tk) (mk : Option MReg) (va : VReg) (ma : MReg) (a : XReg) (imm : BitVec 16), s.cask.fresh .m t 1 →
     let ea := (s.cask.xreg .m a + imm.signExtend 64).toNat
     (ea % 4 = 0 → ea + 512 ≤ spmSize s.dual → 127 ≤ s.turn.burst →
       ∃ u, exec (.vst t mk va a imm) s = .next u ∧ s.ranAlone u .m t ∧ s.cask.sameX u.cask .m ∧ u.cask.mx = s.cask.mx ∧
         s.cask.wroteSpm u.cask (fun p => ea ≤ p ∧ p < ea + 512 ∧ (s.cask.active mk).getLsbD ((p - ea) / 4) = true)
           fun p => byteOf (s.cask.lane va ((p - ea) / 4)).toNat ((p - ea) % 4)) ∧
     (ea % 16 = 0 → ea + 16 ≤ spmSize s.dual → 1 ≤ s.turn.burst →
       ∃ u, exec (.vstM t ma a imm) s = .next u ∧ s.ranAlone u .m t ∧ s.cask.sameX u.cask .m ∧ u.cask.mx = s.cask.mx ∧
         s.cask.wroteSpm u.cask (fun p => ea ≤ p ∧ p < ea + 16) fun p => byteOf (s.cask.mreg ma).toNat (p - ea))) ∧
  spmPiecesMove

/-- R240, R241: CQAPP appends a record of one or two words for every selected lane, and CQTAKE takes up to 128 records off the
front; both advance the pointer and keep the count, which x0 discards. One step does it where a turn has room for all pieces
(logs 1 and 59). That the lanes which a CQTAKE writes count nothing, NaNs among them, is the model's choice (log 28). -/
def Obligations.ConditionalStreams : Prop :=
  ∀ (s : State) (t : Tk) (w2 : Bool) (xa xb : XReg) (va vb : VReg) (m : MReg), s.cask.fresh .m t 1 → xa ≠ xb →
    let k := if w2 then 2 else 1
    let ea := (s.cask.xreg .m xa).toNat
    let regs := fun (n : Nat) (u : State) (cnt : Word) => ∀ r, u.cask.xreg .m r =
      if r = 0 then 0 else if r = xa then s.cask.xreg .m xa + BitVec.ofNat 64 (4 * k * n)
      else if r = xb then cnt else s.cask.xreg .m r
    (let n := (s.cask.selected va m).length
     ea % 4 = 0 → n = 0 ∨ ea + 4 * k * n ≤ spmSize s.dual → k * n ≤ s.turn.burst + 1 →
      ∃ u, exec (.cqapp t w2 xa xb va vb m) s = .next u ∧ s.ranAlone u .m t ∧ u.cask.mx = s.cask.mx ∧
        regs n u (s.cask.xreg .m xb + BitVec.ofNat 64 n) ∧
        s.cask.wroteSpm u.cask (fun p => ea ≤ p ∧ p < ea + 4 * k * n) fun p =>
          let w := (p - ea) / 4
          byteOf ((s.cask.selected (if w2 ∧ w % 2 = 1 then vb else va) m).getD (w / k) 0).toNat ((p - ea) % 4)) ∧
    (let n := Nat.min 128 (s.cask.xreg .m xb).toNat
     ea % 4 = 0 → n = 0 ∨ ea + 4 * k * n ≤ spmSize s.dual → s.cask.cleanSpm ea (4 * k * n) → (w2 = true → va.toNat % 2 = 0) →
      k * n ≤ s.turn.burst + 1 →
      ∃ u, exec (.cqtake t w2 va xa xb m) s = .next u ∧ s.ranAlone u .m t ∧ u.cask.mem = s.cask.mem ∧
        u.cask.mx = { s.cask.mx with v := u.cask.mx.v, m := u.cask.mx.m } ∧
        regs n u (s.cask.xreg .m xb - BitVec.ofNat 64 n) ∧
        (∀ r, r ≠ m → u.cask.mreg r = s.cask.mreg r) ∧ (∀ i, i < 128 → (u.cask.mreg m).getLsbD i = decide (i < n)) ∧
        ∀ r i, i < 128 → u.cask.lane r i =
          if r.toNat = va.toNat ∨ w2 = true ∧ r.toNat = va.toNat + 1 then
            (if i < n then s.cask.spmWord (ea + 4 * (k * i + (r.toNat - va.toNat))) else 0)
          else s.cask.lane r i)

/-- R243, R84: VPOP writes the rows of the tile at a ring's head to consecutive vectors, with zeros behind the columns, keeps
the side-band of its first row, and takes the tile off the ring. That NaN lanes count nothing in MXC0 is the model's choice
(log 28). -/
def Obligations.VectorPop : Prop :=
  ∀ (s : State) (t : Tk) (d : VReg) (n : RingNo), s.cask.fresh .m t 1 →
    let r := s.cask.ring n.toNat
    s.cask.headClean n.toNat → r.snkf = .fp32 ∨ r.snkf = .i32 ∨ r.snkf = .n32 → d.toNat + r.rows ≤ 32 →
    ∃ u, exec (.vpop t d n) s = .next u ∧ s.onlyCask u ∧ s.cask.ranOn u.cask .m t 1 ∧ u.cask.mem = s.cask.mem ∧
      s.cask.sameX u.cask .m ∧ s.cask.popped u.cask [n.toNat] ∧ u.cask.cp.fq = s.cask.cp.fq ∧ s.cask.sameSignals u.cask ∧
      u.cask.mx = { s.cask.mx with v := u.cask.mx.v, flags := u.cask.mx.flags, mxc := u.cask.mx.mxc,
                                   latch := smGet 0 r.sb (128 * (r.head % r.slots)) } ∧
      (∀ m i, i < 128 → u.cask.lane m i =
        if d.toNat ≤ m.toNat ∧ m.toNat < d.toNat + r.rows then
          (if i < r.cols then BitVec.ofNat 32 (s.cask.headCode n.toNat (r.cols * (m.toNat - d.toNat) + i)).1 else 0)
        else s.cask.lane m i) ∧
      s.cask.raised u.cask (r.rows * r.cols) (fun _ => true) (fun k => (s.cask.headCode n.toNat k).2) ∧
      s.cask.counted u.cask 2 (r.rows * r.cols) (fun k => (s.cask.headCode n.toNat k).2.sat) ∧
      ∀ j, j ≠ 2 → j < 4 → s.cask.counted u.cask j 0 fun _ => false

/-- R226–R229: MMA takes the head of FQ and a tile of each ring, and writes accumulator + A × B to its tile; the pops and the
elements raise flags, the elements count in MXC0 to MXC3, and the pops in MXC2 alone. Its only statement about approximate
products is that log entry 9 names them; that a pop to bx8 takes no SCL of the side-band is the model's reading (log 48). -/
def Obligations.MatrixMultiply : Prop :=
  ∀ (s : State) (t : Tk) (z bt : Bool) (n : CTile) (ra rb : RingNo) (w : Word) (ws : List Word) (x y : Fmt) (float : Bool)
    (k : Nat), s.cask.fresh .m t 1 → s.owns n → s.cask.cp.fq = w :: ws → s.cask.cp.fqWait = [] →
    fwCommon w.toNat = true → fwMma w.toNat = some (x, y, float, k) → ra ≠ rb →
    s.cask.headClean ra.toNat → s.cask.headClean rb.toNat →
    (s.cask.ring ra.toNat).rows = 128 → (s.cask.ring ra.toNat).cols = k →
    (s.cask.ring rb.toNat).rows = (if bt then 128 else k) → (s.cask.ring rb.toNat).cols = (if bt then k else 128) →
    (s.cask.ring ra.toNat).snkf = x → (s.cask.ring rb.toNat).snkf = y → (z = false → s.cask.cleanTile n) →
    let f := s.mmaElem z bt n ra.toNat rb.toNat w.toNat x y float k
    let p := fun i => if i < 128 * k then s.cask.headCode ra.toNat i else s.cask.headCode rb.toNat (i - 128 * k)
    ∃ u, exec (.mma t z bt n ra rb) s = .next u ∧ s.onlyCask u ∧ s.cask.ranOn u.cask .m t 1 ∧ s.cask.sameX u.cask .m ∧
      u.cask.cp.fq = ws ∧ s.cask.sameSignals u.cask ∧ s.cask.popped u.cask [ra.toNat, rb.toNat] ∧
      u.cask.mem = { s.cask.mem with acmP := u.cask.mem.acmP } ∧
      (∀ q, q ∈ u.cask.mem.acmP ↔ q ∈ s.cask.mem.acmP ∧ q / 0x10000 ≠ n.toNat) ∧
      u.cask.mx = { s.cask.mx with c := u.cask.mx.c, flags := u.cask.mx.flags, mxc := u.cask.mx.mxc } ∧
      (∀ m el, el < 16384 → u.cask.word m el = if m = n then (f el).1 else s.cask.word m el) ∧
      s.cask.raised u.cask (16384 + 256 * k) (fun _ => true)
        (fun i => if i < 16384 then (f i).2 else (p (i - 16384)).2) ∧
      s.cask.counted u.cask 0 16384 (fun i => float && isNanCode .fp32 (f i).1.toNat) ∧
      s.cask.counted u.cask 1 16384 (fun i => float && (isInfCode .fp32 (f i).1.toNat && (f i).2.ovf)) ∧
      s.cask.counted u.cask 2 (16384 + 256 * k) (fun i => if i < 16384 then (f i).2.sat else (p (i - 16384)).2.sat) ∧
      s.cask.counted u.cask 3 16384 fun i => (f i).2.wrap

/-- R251, R253, R254, R256, R259, R261: QCFG, QCLR and QTRN give an accumulator the value of the table; QSEAL stores a block
that is not empty at the top of the stack and empties it; QSV stores the whole record, QRS takes one back, both through the
spare region. What is read must be free of poison, and what is written is. Where V, T and the staged bytes lie in the ACM is
the model's (log 4). -/
def Obligations.AccumulatorState : Prop :=
  (∀ (i : Instr) (s : State) (t : Tk) (ok : Prop) (q : QReg) (a : QAcc) (all : Bool), accValue s i = some (t, ok, q, a, all) →
     s.cask.fresh .m t 1 → ok →
     ∃ u, exec i s = .next u ∧ s.ranAlone u .m t ∧ u.cask.mem = { s.cask.mem with acmP := u.cask.mem.acmP } ∧
       s.cask.acmCleared u.cask (fun p => all = true ∧ accByte q p) ∧ s.cask.sameX u.cask .m ∧
       u.cask.mx = { s.cask.mx with q := u.cask.mx.q } ∧ ∀ r, u.cask.qacc r = if r = q then a else s.cask.qacc r) ∧
  (∀ (s : State) (t : Tk) (q : QReg) (x : XReg), s.cask.fresh .m t 1 → s.ownsQ q →
     let a := s.cask.qacc q
     let ea := (s.cask.xreg .m x).toNat
     let same := fun (u : State) => s.ranAlone u .m t ∧ s.cask.sameX u.cask .m
     (a.n ≤ a.kc → a.kc ≤ 64 → a.n = 0 ∨ a.b ≠ a.bmax → s.cask.cleanQ q →
       let at_ := a.base + a.b * recBytes a.kc
       ∃ u, exec (.qseal t q) s = .next u ∧ same u ∧ u.cask.mx = { s.cask.mx with q := u.cask.mx.q } ∧
         (∀ r, u.cask.qacc r =
           if r = q ∧ a.n ≠ 0 then { a with b := a.b + 1, n := 0, v := [], t := [] } else s.cask.qacc r) ∧
         s.cask.acmCleared u.cask (fun p => a.n ≠ 0 ∧ accByte q p) ∧
         ({ s.cask with mem := { s.cask.mem with acmP := u.cask.mem.acmP } } : Cask).wroteSpm u.cask
           (fun p => a.n ≠ 0 ∧ at_ ≤ p ∧ p < at_ + recBytes a.kc)
           fun p => byteOf (a.word false ((p - at_) / 4)) ((p - at_) % 4)) ∧
     (a.n ≤ a.kc → a.kc ≤ 64 → ea % 128 = 0 → ea + recBytes a.kc ≤ spmSize s.dual → s.cask.cleanQ q →
       recBytes a.kc / 8 ≤ s.turn.burst + 1 →
       let byte := fun p => byteOf (a.word true (p / 4)) (p % 4)
       ∃ u, exec (.qsv t q x) s = .next u ∧ same u ∧ u.cask.mx = s.cask.mx ∧ s.staged u (recBytes a.kc) byte ∧
         s.cask.acmCleared u.cask (s.stageByte (recBytes a.kc)) ∧
         ({ s.cask with mem := { s.cask.mem with spare := u.cask.mem.spare, acmP := u.cask.mem.acmP } } : Cask).wroteSpm u.cask
           (fun p => ea ≤ p ∧ p < ea + recBytes a.kc) fun p => byte (p - ea)) ∧
     (let d0 := natOf (s.cask.spmBytes ea 8)
      let d1 := natOf (s.cask.spmBytes (ea + 8) 8)
      let kc := d0 / 2 ^ 8 % 128
      s.recordOk ea d0 d1 → recBytes kc / 8 ≤ s.turn.burst + 1 →
       ∃ u b, exec (.qrs t q x) s = .next u ∧ same u ∧
         u.cask.mem = { s.cask.mem with spare := u.cask.mem.spare, acmP := u.cask.mem.acmP } ∧
         s.staged u (recBytes kc) (fun k => smGet 0 s.cask.mem.spm (ea + k)) ∧
         s.cask.acmCleared u.cask (fun p => s.stageByte (recBytes kc) p ∨ accByte q p) ∧
         u.cask.mx = { s.cask.mx with q := u.cask.mx.q } ∧ (∀ r, u.cask.qacc r = if r = q then b else s.cask.qacc r) ∧
         b = { b with n := d0 % 128, kc := kc, rack := decide (d0 / 2 ^ 15 % 2 = 1), tr := decide (d0 / 2 ^ 16 % 2 = 1),
                      base := d1, bmax := d0 / 2 ^ 32 % 256, b := d0 / 2 ^ 24 % 256 } ∧
         (∀ k r, k < kc → r < 128 → smGet 0 b.v (128 * k + r) = s.cask.spmWord (ea + 4 * (32 + 128 * k + r))) ∧
         ∀ i k, i < kc → k < kc → smGet 0 b.t (64 * i + k) = s.cask.spmWord (ea + 4 * (32 + 128 * kc + kc * i + k))))

/-- R255, R256: QACC appends a reflector, after sealing a full block, with the new column of T, and counts its elements and
its τ. The model's readings: logs 4 and 28. -/
def Obligations.AccumulatorAppend : Prop :=
  ∀ (s : State) (t : Tk) (q : QReg) (va : VReg) (x y : XReg), s.cask.fresh .m t 1 → s.ownsQ q →
    let a := s.cask.qacc q
    let r := a.room
    let p := (s.cask.xreg .m x).toNat
    let v := s.cask.reflect va p
    let tau := (s.cask.xreg .m y).setWidth 32
    let at_ := a.base + a.b * recBytes a.kc
    let f := fun i => if i < r.n then r.column v tau i else quiet tau
    p < 128 → (s.cask.xreg .m y).toNat < 2 ^ 32 → a.tr = false → a.n ≤ a.kc → 1 ≤ a.kc → a.kc ≤ 64 →
    (a.n = a.kc → a.rack = true ∧ a.b ≠ a.bmax) → s.cask.cleanQ q →
    ∃ u b, exec (.qacc t q va x y) s = .next u ∧ s.ranAlone u .m t ∧ s.cask.sameX u.cask .m ∧
      u.cask.mx = { s.cask.mx with q := u.cask.mx.q, flags := u.cask.mx.flags, mxc := u.cask.mx.mxc } ∧
      s.cask.acmCleared u.cask (fun p => reflectorByte q r.n p ∨ a.n = a.kc ∧ accByte q p) ∧
      ({ s.cask with mem := { s.cask.mem with acmP := u.cask.mem.acmP } } : Cask).wroteSpm u.cask
        (fun z => a.n = a.kc ∧ at_ ≤ z ∧ z < at_ + recBytes a.kc)
        (fun z => byteOf (a.word false ((z - at_) / 4)) ((z - at_) % 4)) ∧
      (∀ k, u.cask.qacc k = if k = q then b else s.cask.qacc k) ∧
      b = { r with n := r.n + 1, v := b.v, t := b.t } ∧
      (∀ k l, l < 128 → smGet 0 b.v (128 * k + l) = if k = r.n then v l else smGet 0 r.v (128 * k + l)) ∧
      (∀ i k, k < 64 → smGet 0 b.t (64 * i + k) = if k = r.n ∧ i ≤ r.n then (f i).1 else smGet 0 r.t (64 * i + k)) ∧
      s.cask.raised u.cask (r.n + 1) (fun _ => true) (fun i => (f i).2) ∧
      s.cask.counted32 u.cask (r.n + 1) (fun _ => true) f

/-- R257, R258, R263: an apply word takes the head of FQ and multiplies its tile, or the identity, by the product of the
reflectors of an accumulator; with no block QAPL and QAPR leave their tile. With two units of work in its turn it completes in
one. The model's readings: log 28. -/
def Obligations.AccumulatorApply : Prop :=
  ∀ (i : Instr) (s : State) (t : Tk) (tr : Bool) (n : CTile) (q : QReg) (k : QWord) (w : Word) (ws : List Word)
    (bs : List QBlock), applyWord i = some (t, tr, n, q, k) → s.cask.fresh .m t 1 → s.owns n → s.ownsQ q →
    s.cask.cp.fq = w :: ws → s.cask.cp.fqWait = [] → fwCommon w.toNat = true → fwAf w.toNat = Fmt.code .fp32 →
    blocksOf q s.cask = .ok bs s.cask → (k ≠ .form → s.cask.cleanTile n) → 1 ≤ s.turn.burst →
    let a := s.cask.qacc q
    let rows := (List.range 128).map fun r => (List.range 128).map fun j =>
      rv (if k = .form then (if r = j then one32 else 0) else s.cask.word n (128 * r + j))
    let out := (applyBlocks (decide (k ≠ .apr)) (tr != a.tr) (fwRm w.toNat) bs rows).flatten
    let f := fun el => let e := out.getD el (rv 0); ((rnd32 e.1 .rne).1, e.2)
    let writes := bs ≠ [] ∨ k = .form
    ∃ u, exec i s = .next u ∧ s.onlyCask u ∧ s.cask.ranOn u.cask .m t 1 ∧ s.cask.sameX u.cask .m ∧
      u.cask.cp.fq = ws ∧ s.cask.sameSignals u.cask ∧ u.cask.cp.rings = s.cask.cp.rings ∧
      u.cask.mem = { s.cask.mem with acmP := u.cask.mem.acmP } ∧
      (∀ p, p ∈ u.cask.mem.acmP ↔ p ∈ s.cask.mem.acmP ∧ ¬ (writes ∧ p / 0x10000 = n.toNat)) ∧
      u.cask.mx = { s.cask.mx with c := u.cask.mx.c, flags := u.cask.mx.flags, mxc := u.cask.mx.mxc } ∧
      (∀ m el, el < 16384 → (m = n ∧ writes → u.cask.word m el = (f el).1) ∧
        (¬ (m = n ∧ writes) → u.cask.word m el = s.cask.word m el)) ∧
      (if bs = [] then s.cask.sameCounts u.cask
        else s.cask.raised u.cask 16384 (fun _ => true) (fun el => (f el).2) ∧
          s.cask.counted32 u.cask 16384 (fun _ => true) f)

/-- R204, R205, R213, R245, R260: a word that writes an x register writes the value of the table, a write of x0 is discarded,
and TOK moves as many tokens as it says. -/
def Obligations.EngineRegisters : Prop :=
  ∀ (i : Instr) (s : State) (e : Eng) (t : Tk) (n : Nat) (ok : Prop) (d : XReg) (v : Word),
    xValue s i = some (e, t, n, ok, d, v) → s.cask.fresh e t n → ok →
    ∃ u, exec i s = .next u ∧ s.onlyCask u ∧ s.cask.ran u.cask e t n ∧ u.cask.mem = s.cask.mem ∧ u.cask.mx = s.cask.mx ∧
      ∀ r, u.cask.xreg e r = if r = d ∧ d ≠ 0 then v else s.cask.xreg e r

/-- R34, R206, R48, R179: LPS opens a loop, whose count LOOPB's repeat counter replaces in lp0; LPE ends an iteration, takes 1
from the counter of 24 bits, and goes back while it is not 0. The model's readings: log 33. -/
def Obligations.Loops : Prop :=
  ∀ (s : State) (e : Eng) (t : Tk) (lp : LpNo), s.cask.fresh e t 1 →
    let a := s.cask.eng e
    let armed := lp = 0 ∧ a.rpt ≠ 0
    let inside := a.idx + 1 < a.count
    let on := afterWord a.hoff a.idx a.count
    (∀ n : LpCount,
      let k := if armed then a.rpt else match n with
        | .imm k => k.toNat
        | .reg x => (s.cask.xreg e x).toNat
      0 < k → k < 2 ^ 24 →
      ∃ u, exec (.lps e t lp n) s = .next u ∧ s.onlyCask u ∧ s.cask.onlyEngines u.cask e t ∧
        (∀ e', e' ≠ e → u.cask.eng e' = s.cask.eng e') ∧
        EngSt.went { a with hoff := on.1, idx := on.2, lp := smSet 0 a.lp lp.toNat k,
                            lpStart := if inside then aSet a.lpStart lp.toNat (a.idx + 1) else [],
                            need := if armed then some 0 else none } (u.cask.eng e)) ∧
    (∀ start, aFind a.lpStart lp.toNat = some start →
      let k := (smGet 0 a.lp lp.toNat + (2 ^ 24 - 1)) % 2 ^ 24
      let r := if armed then a.rpt - 1 else a.rpt
      let freed := decide (armed ∧ e = .l ∧ r = 0)
      ∃ u, exec (.lpe e t lp) s = .next u ∧ s.onlyCask u ∧ s.cask.onlyEngines u.cask e t ∧
        (∀ e', e' ≠ e → u.cask.eng e' = { s.cask.eng e' with skewFree := (s.cask.eng e').skewFree || freed }) ∧
        EngSt.went { a with hoff := if k ≠ 0 then a.hoff else on.1, idx := if k ≠ 0 then start else on.2,
                            lp := smSet 0 a.lp lp.toNat k, rpt := r, skewFree := a.skewFree || freed,
                            need := if k ≠ 0 ∧ armed ∧ r ≠ 0 then some a.iters else none,
                            lpStart := if k ≠ 0 ∨ inside then a.lpStart else [] } (u.cask.eng e))

/-- R207, R208: BRX goes to the section at its target where its condition holds, and to the next word where it does not; HALTE
halts its engine. -/
def Obligations.BranchesAndHalts : Prop :=
  ∀ (s : State) (e : Eng) (t : Tk), s.cask.fresh e t 1 →
    let a := s.cask.eng e
    let alone := fun (u : State) => s.onlyCask u ∧ s.cask.onlyEngines u.cask e t ∧
      ∀ e', e' ≠ e → u.cask.eng e' = s.cask.eng e'
    (∀ (cond : Cond) (x y : XReg) (off : BitVec 24),
      let taken := Cond.holds cond (s.cask.xreg e x) (s.cask.xreg e y)
      let dst := (a.hoff : Int) + 4 * off.toInt
      (taken = false → ∃ u, exec (.brx e t cond x y off) s = .next u ∧ alone u ∧ s.cask.onNext u.cask e ∧
        EngSt.went { a with hoff := (u.cask.eng e).hoff, idx := (u.cask.eng e).idx, lpStart := (u.cask.eng e).lpStart }
          (u.cask.eng e)) ∧
      (taken = true → 0 ≤ dst → dst < imemSize s.dual → ∃ u, exec (.brx e t cond x y off) s = .next u ∧ alone u ∧
        EngSt.went { a with hoff := dst.toNat, idx := 0, lpStart := [] } (u.cask.eng e) ∧ (u.cask.eng e).started = false)) ∧
    ∃ u, exec (.halte e t) s = .next u ∧ alone u ∧ EngSt.went { a with halted := true } (u.cask.eng e)

/-- R105: the second of two ALIGNs that meet, with one number, settles both: its own word has left its engine, and that of its
partner has only to push its tokens. -/
def Obligations.Alignment : Prop :=
  ∀ (s : State) (e p : Eng) (t : Tk) (n : BitVec 16) (f : Flight), (e = .l ∧ p = .s) ∨ (e = .s ∧ p = .l) →
    s.cask.fresh e t 1 → (s.cask.eng p).aligned = some n.toNat → (s.cask.eng p).flight = some f → f.begun = true →
    f.again = false → f.jump = none → f.jfree = none → f.hoff = (s.cask.eng p).hoff → s.cask.eS.owed = [] →
    let b := s.cask.eng p
    let on := afterWord f.hoff f.idx b.count
    ∃ u, exec (.align e t n) s = .next u ∧ s.onlyCask u ∧ s.cask.onlyEngines u.cask e t ∧ u.cask.eM = s.cask.eM ∧
      s.cask.onNext u.cask e ∧
      EngSt.went { s.cask.eng e with hoff := (u.cask.eng e).hoff, idx := (u.cask.eng e).idx,
                                     lpStart := (u.cask.eng e).lpStart } (u.cask.eng e) ∧
      (u.cask.eng p).aligned = none ∧ ((u.cask.eng p).hoff, (u.cask.eng p).idx) = on ∧
      ∃ x, (u.cask.eng p).flight = some { f with settled := true, ends := x }

/-- R43, R44, R202: a new word of L or S whose operands are in order takes its pops, its nest or its format word, and then
runs as the word in progress does. The model's readings: log 26. -/
def Obligations.WordsBegin : Prop :=
  ∀ (i : Instr) (s s' : State) (e : Eng) (t : Tk) (ok : Prop), startWord s i = some (e, t, ok, s') → s.cask.fresh e t 1 →
    ok → exec i s = exec i s'

/-- R114, R211, R213, R218, R219: a unit of STV, STN or STT, and a piece of a row of SCT, stores its bytes to memory, within
the token scope (R97, R106), and changes nothing else; the last one completes the word. The model's readings: logs 1 and 59.
-/
def Obligations.StoreUnits : Prop :=
  (∀ (i : Instr) (s s1 : State) (f : Flight) (t : Tk) (ok : Prop) (va : Nat) (bs : List Byte) (next total : Nat),
    storeUnit s f i = some (t, ok, va, bs, next, total) → s.cask.inWord .s t f → s.turn.burst = 0 → ok →
    sStore t va bs s.here = .ok () s1 →
    ∃ u, exec i s = .next u ∧ s1.onlyCask u ∧
      s1.cask.ranUnit u.cask .s t f { f with prog := next, pt := Point.none } (decide (total ≤ next)) ∧
      u.cask.mem = s1.cask.mem ∧ u.cask.mx = s1.cask.mx ∧ u.cask.cp.rings = s1.cask.cp.rings ∧ s1.cask.sameX u.cask .s) ∧
  ∀ (s s1 : State) (t : Tk) (d a b m : XReg) (rb : BitVec 12) (cnt : BitVec 7) (f : Flight) (rest : List (Nat × Nat × Nat)),
    s.cask.inWord .s t f → s.turn.burst = 0 → f.prog ≤ cnt.toNat →
    let w := rb.toNat
    let ix := (s.cask.xreg .s b).toNat + 4 * f.prog
    let va := (s.cask.xreg .s a + (s.cask.spmWord ix).signExtend 64 * s.cask.xreg .s m).toNat
    let at_ := (s.cask.xreg .s d).toNat + f.prog * w
    let p := if f.pt.opened then f.pt else { opened := true, parts := piecesOf 8 0 va w }
    (f.pt.opened = false → s.cask.cleanSpm ix 4 ∧ canonical va = true ∧ canonical ((va + (w - 1)) % 2 ^ 64) = true) →
    pieceMoved (s.withWord .s { f with pt := p }) p at_ (sStore t) rest s1 →
    ∃ u, exec (.sct t d a b m rb cnt) s = .next u ∧ s1.onlyCask u ∧
      s1.cask.ranUnit u.cask .s t f
        (if rest = [] then { f with prog := f.prog + 1, pt := Point.none } else { f with pt := { p with parts := rest } })
        (decide (rest = [] ∧ cnt.toNat ≤ f.prog)) ∧
      u.cask.mem = s1.cask.mem ∧ u.cask.mx = s1.cask.mx ∧ u.cask.cp.rings = s1.cask.cp.rings ∧ s1.cask.sameX u.cask .s

/-- R213, R219: STV to the SPM stores the low bytes of an x register; LDV from memory extends the bytes that its load finds to
64 bits, in its x register. -/
def Obligations.ScalarAccesses : Prop :=
  (∀ (s : State) (t : Tk) (sz : BitVec 2) (b a : XReg) (off : BitVec 32) (f : Flight), s.cask.inWord .s t f →
     let ea := s.cask.xea .s a off
     ∃ u, exec (.stv t true sz b a off) s = .next u ∧ s.onlyCask u ∧ s.cask.ranUnit u.cask .s t f f true ∧
       u.cask.mx = s.cask.mx ∧ u.cask.cp.rings = s.cask.cp.rings ∧ s.cask.sameX u.cask .s ∧
       s.cask.wroteSpm u.cask (fun p => ea ≤ p ∧ p < ea + 2 ^ sz.toNat)
         fun p => byteOf (s.cask.xreg .s b).toNat (p - ea)) ∧
  (∀ (s s1 : State) (t : Tk) (sg : Bool) (sz : BitVec 2) (d a : XReg) (off : BitVec 32) (f : Flight) (bs : List Byte),
     s.cask.inWord .l t f → memLoad (s.cask.xea .l a off) (2 ^ sz.toNat) s.here = .ok bs s1 → bs.length = 2 ^ sz.toNat →
     ∃ u, exec (.ldv t false sg sz d a off) s = .next u ∧ s1.onlyCask u ∧ s1.cask.ranUnit u.cask .l t f f true ∧
       u.cask.mem = s1.cask.mem ∧ u.cask.mx = s1.cask.mx ∧ u.cask.cp.rings = s1.cask.cp.rings ∧
       ∀ r, u.cask.xreg .l r = if r = d ∧ d ≠ 0 then
           (if sg then (BitVec.ofNat (8 * 2 ^ sz.toNat) (natOf bs)).signExtend 64 else BitVec.ofNat 64 (natOf bs))
         else s1.cask.xreg .l r)

/-- R210, R211: a unit of LDN, or of LDT with an SPM target, puts the bytes that its load finds into the SPM; the last one
completes the word. R97, R98: bytes that a word of S has stored inside one line are what the next load of the core finds, in
the L1. The model's readings: log 1. -/
def Obligations.LoadUnits : Prop :=
  (∀ (s t : State) (k : Tk) (va : Nat) (bs : List Byte), bs ≠ [] → va % 128 + bs.length ≤ 128 →
    (∀ l ∈ (s.core s.turn.core).l1, l.data.length = 128) → sStore k va bs s = .ok () t →
    ∃ u, memLoad va bs.length t = .ok bs u ∧ u.cask = t.cask ∧ (u.core u.turn.core).l1 = (t.core t.turn.core).l1) ∧
  (∀ (i : Instr) (s s1 : State) (f : Flight) (t : Tk) (ok : Prop) (va n at_ next total : Nat) (bs : List Byte),
    loadUnit s f i = some (t, ok, va, n, at_, next, total) → s.cask.inWord .l t f → s.turn.burst = 0 → ok →
    memLoad va n s.here = .ok bs s1 → bs.length = n →
    ∃ u, exec i s = .next u ∧ s1.onlyCask u ∧
      s1.cask.ranUnit u.cask .l t f { f with prog := next, pt := Point.none } (decide (total ≤ next)) ∧
      s1.cask.wroteSpm u.cask (fun p => at_ ≤ p ∧ p < at_ + n) (fun p => bs.getD (p - at_) 0) ∧
      u.cask.mx = s1.cask.mx ∧ u.cask.cp.rings = s1.cask.cp.rings ∧ s1.cask.sameX u.cask .l)

/-- R41, R114, R210, R212, R217: LDT with a ring target, LDG and LDSB load the bytes of a tile piece by piece; with the last
one the tile of the codes that they make, zeros behind them, is pushed into a ring of the cask. The model's readings: logs 1,
34 and 59. The high nibble of a byte of two tiles is kept for the second (R210). -/
def Obligations.RingLoads : Prop :=
  ∀ (i : Instr) (s s1 : State) (f : Flight) (v : FillStep) (p : Point), fillStep s f i = some v →
    s.cask.inWord .l v.tk f → s.turn.burst = 0 → v.ok → (s.cask.ring v.ring).pipe = false →
    (s.cask.ring v.ring).toPipe = none → (s.cask.ring v.ring).depth < (s.cask.ring v.ring).slots →
    pieceLoaded (s.withWord .l v.word) v.word.pt v.ordered v.load p s1 →
    let full := p.parts.isEmpty && !v.more
    ∃ u, exec i s = .next u ∧ s1.onlyCask u ∧
      s1.cask.ranUnit u.cask .l v.tk f
        (if full then { v.word with prog := v.next, pt := Point.none, aux := v.kept p.data } else { v.word with pt := p })
        (full && decide (v.total ≤ v.next)) ∧
      (if full then s1.cask.pushedTile u.cask v.ring (v.tile p.data) 0
        else u.cask.mem = s1.cask.mem ∧ u.cask.cp.rings = s1.cask.cp.rings) ∧
      u.cask.mx = s1.cask.mx ∧ s1.cask.sameX u.cask .l

/-- R70, R215, R216: a unit of TLD or TRF reads the next block of its group, and with the last one makes the group's rows; or
it pushes the next row that waits, with its side-band, into a ring of one-row tiles; after the last row of the last group the
word is complete. The model's readings: logs 1, 34, 51 and 53. -/
def Obligations.TreeLoadUnits : Prop :=
  ∀ (i : Instr) (s : State) (f : Flight) (t : Tk) (ok : Prop) (n : NestNo) (kk m : Nat)
    (read : Nat → Nat → Nat → Act BlkRead) (rows : List Nat → List BlkRead → Act (List Nat)),
    rowWord s f i = some (t, ok, n, kk, m, read, rows) → s.cask.inWord .l t f → s.turn.burst = 0 → ok →
    let x := s.cask.firing .l n
    let rn := x.target % 16
    let r := s.cask.ring rn
    let groups := (x.points + kk - 1) / kk
    let g := f.aux.headD 0
    let same := fun (s1 u : State) => u.cask.mem = s1.cask.mem ∧ u.cask.mx = s1.cask.mx ∧
      u.cask.cp.rings = s1.cask.cp.rings ∧ s1.cask.sameX u.cask .l
    x.toSpm = false → r.rows = 1 → blockFmt x.elem = some r.srcf → r.pipe = false → r.toPipe = none →
    (∀ (s1 : State) (b : BlkRead), f.aux.drop 1 = [] →
      let p := if f.pt.opened then f.pt else { opened := true, mask := m }
      let w := { f with rings := [rn], pt := p }
      let vas := x.group kk g
      let bs := p.blks ++ [b]
      ∀ va, vas[p.blks.length]? = some va → read p.mask p.blks.length va (s.withWord .l w) = .ok b s1 →
      (bs.length < vas.length → ∃ u, exec i s = .next u ∧ s1.onlyCask u ∧
        s1.cask.ranUnit u.cask .l t f { w with pt := { p with blks := bs } } false ∧ same s1 u) ∧
      ∀ (out : List Nat) (s2 : State), vas.length = bs.length →
        rows vas bs (s1.withWord .l { w with pt := { p with blks := bs } }) = .ok out s2 →
        ∃ u, exec i s = .next u ∧ s2.onlyCask u ∧
          s2.cask.ranUnit u.cask .l t f { w with aux := (g + 1) :: out, pt := Point.none }
            (out.isEmpty && decide (groups ≤ g + 1)) ∧ same s2 u) ∧
    (∀ (sb : Nat) (rest : List Nat), f.aux = g :: sb :: rest → r.depth < r.slots →
      let left := rest.drop r.cols
      ∃ u, exec i s = .next u ∧ s.onlyCask u ∧
        s.cask.ranUnit u.cask .l t f { f with rings := [rn], aux := g :: left, prog := f.prog + 1, pt := Point.none }
          (left.isEmpty && decide (groups ≤ g)) ∧
        s.cask.pushedTile u.cask rn (packCodes r.srcf (rest.take r.cols)) (BitVec.ofNat 512 sb) ∧
        u.cask.mx = s.cask.mx ∧ s.cask.sameX u.cask .l)

/-- R82, R114, R220, R341: DRN stores a copy of its tile row by row, each quantised under a scale and stored piece by piece,
and behind the rows the scales that they were stored with; a row's flags are raised when it is read, and the counts are added
when the last point is stored. The model's readings: logs 1, 35 and 59. -/
def Obligations.DrainUnits : Prop :=
  ∀ (s s1 : State) (t : Tk) (ns tr : Bool) (n : CTile) (a b m : XReg) (f : Flight) (w : Word)
    (rest : List (Nat × Nat × Nat)), s.cask.inWord .s t f → s.turn.burst = 0 → f.fmtw = some w →
    let per := if ns then 128 else 129
    let total := per * (if tr then 2 else 1)
    let second := decide (per ≤ f.prog)
    let j := f.prog % per
    let va := ((s.cask.xreg .s (if second then b else a)).toNat + j * (s.cask.xreg .s m).toNat) % 2 ^ 64
    let row := (List.range 128).map fun k => if second then s.cask.word n (128 * k + j) else s.cask.word n (128 * j + k)
    let es := drainCodes ns w.toNat row
    let y := tally (outFmt w.toNat) es
    let codes := packCodes (outFmt w.toNat) (es.map (·.1))
    let p : Point := if f.pt.opened then f.pt
      else if j = 128 then { opened := true, parts := piecesOf 1 0 va 128, data := scaleBlock second f.scales }
      else { opened := true, parts := piecesOf (Nat.min 8 (outFmt w.toNat).bytes) 0 va codes.length, data := codes,
             scale := rowScale ns w.toNat (drainVals w.toNat row), counts := [y.nans, y.infs, y.sats, y.wraps] }
    let reads := f.pt.opened = false ∧ j ≠ 128
    let c := if reads then s.cask.record y.fl 0 0 0 0 else s.cask
    let g := { f with
      prog := f.prog + 1, pt := Point.none, pnan := f.pnan + p.counts.getD 0 0, pinf := f.pinf + p.counts.getD 1 0,
      psat := f.psat + p.counts.getD 2 0, pwrp := f.pwrp + p.counts.getD 3 0,
      scales := if j = 128 then f.scales else f.scales ++ [p.scale] }
    let last := decide (rest = [] ∧ total ≤ f.prog + 1)
    f.prog < total → (f.pt.opened = false → canonical va = true ∧
      canonical ((va + ((if j = 128 then 128 else 16 * (outFmt w.toNat).bits) - 1)) % 2 ^ 64) = true ∧
      (j ≠ 128 → s.cask.cleanFor n (if second then .col else .row) j)) →
    pieceStored (s.setCask (c.updFlight .s fun _ => { f with pt := p })) p (sStore t) rest s1 →
    ∃ u, exec (.drn t ns tr n a b m) s = .next u ∧ s1.onlyCask u ∧
      s1.cask.ranUnit u.cask .s t f (if rest = [] then g else { f with pt := { p with parts := rest } }) last ∧
      u.cask.mem = s1.cask.mem ∧ u.cask.cp.rings = s1.cask.cp.rings ∧ s1.cask.sameX u.cask .s ∧
      u.cask.mx = { s.cask.mx with flags := s.cask.mx.flags ||| (if reads then y.fl else 0), mxc := u.cask.mx.mxc } ∧
      ∀ i, i < 4 → smGet 0 u.cask.mx.mxc i = if ¬ reads ∧ last = false then smGet 0 s.cask.mx.mxc i
        else Nat.min 0xFFFFFFFF (smGet 0 s.cask.mx.mxc i + if last then [g.pnan, g.pinf, g.psat, g.pwrp].getD i 0 else 0)

/-- R221, R67, R68, R72: a unit of TSTB or TSTL takes the values of one block from the SPM; the home of the block writes the
block whole, or the levels above one, as its next version; the core's own copies of its lines go. The model's readings: logs 1
and 54. -/
def Obligations.TreeStoreUnits : Prop :=
  ∀ (s : State) (t : Tk) (ru : Bool) (n : NestNo) (bl sf lev : BitVec 4) (f : Flight) (g : Fmt),
    s.cask.inWord .s t f → s.turn.burst = 0 → s.cask.fires .s ru n f → Fmt.ofCode sf.toNat = some g →
    let x := s.cask.firing .s n
    x.toSpm = true → blockFmt x.elem = some g → f.prog < x.points →
    let va := x.point f.prog
    let vals := fun (cnt : Nat) => (List.range cnt).map fun k =>
      natOf (s.cask.spmBytes (x.target + f.prog * (cnt * g.bytes) + k * g.bytes) g.bytes)
    let home := fun (s1 : State) (loc : Loc) => (do
        dropRange va (prefixBytes g bl.toNat)
        blockHome va g bl.toNat : Act Loc) s.here = .ok loc s1
    let spm := fun (cnt : Nat) => s.spmAt (x.target + f.prog * (cnt * g.bytes)) (cnt * g.bytes) g.bytes ∧
      s.cask.cleanSpm (x.target + f.prog * (cnt * g.bytes)) (cnt * g.bytes)
    let did := fun (i : Instr) (s2 : State) => ∃ u, exec i s = .next u ∧ s2.onlyCask u ∧
      s2.cask.ranUnit u.cask .s t f { f with prog := f.prog + 1, pt := Point.none } (decide (x.points ≤ f.prog + 1)) ∧
      u.cask.mem = s2.cask.mem ∧ u.cask.mx = s2.cask.mx ∧ u.cask.cp.rings = s2.cask.cp.rings ∧ s2.cask.sameX u.cask .s
    blockPlaced va g bl.toNat = true →
    (∀ s1 loc, spm (2 ^ bl.toNat) → home s1 loc →
      did (.tstb t ru n bl sf) (s1.putWhole loc g bl.toNat (vals (2 ^ bl.toNat)))) ∧
    (∀ s1 s2 loc h, spm (2 ^ lev.toNat) → home s1 loc → homeHdr va loc g bl.toNat lev.toNat s1 = .ok h s2 →
      did (.tstl t ru n bl sf lev) (s2.putBlock loc g (levelWrite g.bits lev.toNat h (vals (2 ^ lev.toNat)))))

/-- R222, R182: TSTN forks a TNODE command for its node, and leaves its engine; its pushes wait for the command. The model's
readings: log 26. -/
def Obligations.NodeStores : Prop :=
  ∀ (s s1 : State) (t : Tk) (add : Bool) (a b m : XReg) (bl lev sf : BitVec 4) (q : YNo) (f : Flight) (g : Fmt),
    s.cask.inWord .s t f → f.jfree = none → s.turn.burst = 0 → Fmt.ofCode sf.toNat = some g →
    let va := s.cask.xreg .s a
    let v : Word := BitVec.ofNat 64 ((s.cask.xreg .s m).toNat % 2 ^ g.bits)
    let own : Owed := { cn := f.cn, hp := t.hp, hn := t.hn, ready := false }
    let bs := cmdBytes 0x05 (tstnCmd q add g bl.toNat lev.toNat (s.cask.xreg .s b).toNat va v)
    flushRange va.toNat (prefixBytes g bl.toNat) s.here = .ok () s1 →
    (s1.cask.yy.queue q.toNat).length < 64 → s1.cask.yy.jheld < 336 →
    ∃ u, exec (.tstn t add a b m bl lev sf q) s = .next u ∧ s1.onlyCask u ∧
      s1.cask.forked u.cask s.dual s.tick q.toNat 3 f.cn bs (some own) ∧
      u.cask.kr = s1.cask.kr ∧ u.cask.st = s1.cask.st ∧ u.cask.eL = s1.cask.eL ∧ u.cask.eM = s1.cask.eM ∧
      u.cask.mx = s1.cask.mx ∧ u.cask.cp = { s1.cask.cp with rv := u.cask.cp.rv, mtab := u.cask.cp.mtab } ∧
      s1.cask.onNext u.cask .s ∧ u.cask.eS = { s1.cask.eS with
        hoff := u.cask.eS.hoff, idx := u.cask.eS.idx, flight := none, wait := none, owed := [own],
        started := u.cask.eS.started, lpStart := u.cask.eS.lpStart, marks := u.cask.eS.marks, rsn := u.cask.eS.rsn,
        retired := u.cask.eS.retired, rsnPend := u.cask.eS.rsnPend }

/-- R114, R123, R214: MCF reads up to 256 bytes at their home, piece by piece, and with the last piece puts them into the SPM
of the strand on every core that its mask names. The model's readings: logs 1 and 59. -/
def Obligations.MulticastFills : Prop :=
  ∀ (s s1 : State) (t : Tk) (d a b : XReg) (aoff : BitVec 32) (len : BitVec 6) (f : Flight) (p : Point),
    s.cask.inWord .l t f → s.turn.burst = 0 →
    let k := Nat.min 256 (128 * len.toNat - 256 * f.prog)
    let va := (s.cask.xea .l a aoff + 256 * f.prog) % 2 ^ 64
    let dst := (s.cask.xreg .l d).toNat + 256 * f.prog
    let total := (len.toNat + 1) / 2
    let q := if f.pt.opened then f.pt else { opened := true, parts := piecesOf 8 0 va k, data := List.replicate k 0 }
    f.prog < total → memAt va 128 → pieceLoaded (s.withWord .l { f with pt := q }) q false homeLoad p s1 →
    (p.parts ≠ [] → ∃ u, exec (.mcf t d a b aoff len) s = .next u ∧ s1.onlyCask u ∧
      s1.cask.ranUnit u.cask .l t f { f with pt := p } false ∧ u.cask.mem = s1.cask.mem ∧ u.cask.mx = s1.cask.mx ∧
      u.cask.cp.rings = s1.cask.cp.rings ∧ s1.cask.sameX u.cask .l) ∧
    (p.parts = [] → p.data.length = k →
      ∃ s2 u : State, exec (.mcf t d a b aoff len) s = .next u ∧ s2.onlyCask u ∧
        s2.cask.ranUnit u.cask .l t f { f with prog := f.prog + 1, pt := Point.none } (decide (total ≤ f.prog + 1)) ∧
        u.cask.mem = s2.cask.mem ∧ u.cask.mx = s2.cask.mx ∧ u.cask.cp.rings = s2.cask.cp.rings ∧ s2.cask.sameX u.cask .l ∧
        (∀ n ∈ mcfCores s.turn.core (s.cask.mcfMask b), ∀ o z, s1.launch.ordOf n = some o →
          aFind s1.launch.saved o = none → s1.launch.lease[o]? = some z → (s1.caskAt z.1 z.2).st.live = true →
          (s1.caskAt z.1 z.2).kr.lid = s1.cask.kr.lid →
          (s1.caskAt z.1 z.2).wroteSpm (s2.caskAt z.1 z.2) (fun y => dst ≤ y ∧ y < dst + k)
            fun y => p.data.getD (y - dst) 0) ∧
        ∀ c x, c ∉ mcfCores s.turn.core (s.cask.mcfMask b) → s2.caskAt c x = s1.caskAt c x)

/-- R38, R101, R147, R172, R173: below 0x40000 LDK reads the KLM and STK writes it, up to the journal at user privilege; an
acquire follows the load, a release the store. -/
def Obligations.LocalAccesses : Prop :=
  ∀ (s : State) (sz : BitVec 2) (sg : Bool) (ord : Option Scope) (d b a : SReg) (imm : BitVec 32),
    let ea := (s.cask.sreg a + imm.signExtend 64).toNat
    let n := 2 ^ sz.toNat
    ea < 0x40000 → ea % n = 0 →
    (ea + n ≤ klmSize s.dual → s.cask.cleanKlm ea n →
      let t := match ord with
        | some sc => s.acquire sc
        | none => s
      ∃ u, exec (.ldk sz sg ord d a imm) s = .next u ∧
        t.setsK u d (loadValue sz.toNat sg (natOf (s.cask.klmBytes ea n))) (s.cask.kr.kpc + 8)) ∧
    (∀ t, ea + n ≤ (if s.cask.kr.priv then klmSize s.dual else klmUser s.dual) →
      releaseFor ord (s.setCask (s.cask.setKlm ea (bytesOf n (s.cask.sreg b).toNat))) = .ok () t →
      ∃ u, exec (.stk sz ord b a imm) s = .next u ∧ t.retired u t.cask (s.cask.kr.kpc + 8) ∧
        ∀ p, smGet 0 u.cask.mem.klm p =
          if ea ≤ p ∧ p < ea + n then byteOf (s.cask.sreg b).toNat (p - ea) else smGet 0 s.cask.mem.klm p)

/-- R101, R102, R108, R172, R173: LDK loads memory through the L1, under the store buffer, and LDK.acq at its home, and then
joins the commands whose records it has read as complete; STK puts its bytes into the store buffer once its address is
translated, and STK.rel writes them through to their home after a release. What an STK has put into the buffer an LDK finds;
what an STK.rel has written stands at its home. The model's readings: log 16. -/
def Obligations.MemoryAccesses : Prop :=
  (∀ (s : State) (sz : BitVec 2) (sg : Bool) (ord : Option Scope) (d b a : SReg) (imm : BitVec 32),
    let ea := (s.cask.sreg a + imm.signExtend 64).toNat
    let n := 2 ^ sz.toNat
    let bs := bytesOf n (s.cask.sreg b).toNat
    let plain := ord = none ∨ ord = some .core
    0x40000 ≤ ea → memAt ea n →
    (∀ xs t, (plain ∧ kLoad ea n s = .ok xs t) ∨ (¬ plain ∧ kLoadHome ea n s = .ok xs t) → xs.length = n →
      let t1 := match ord with
        | some sc => t.acquire sc
        | none => t
      ∃ u, exec (.ldk sz sg ord d a imm) s = .next u ∧
        (if plain then t1 else t1.joins (readsDone t1 ea xs)).setsK u d (loadValue sz.toNat sg (natOf xs))
          (t.cask.kr.kpc + 8)) ∧
    (∀ l t, plain → translate s.turn.core s.cask.kr.asid ea .write s = .ok l t →
      ∃ u, exec (.stk sz ord b a imm) s = .next u ∧
        let e : StoreEnt := { va := ea, bytes := bs, asid := s.cask.kr.asid, casid := l.asid, cva := l.va }
        t.retired u { t.cask with st := { t.cask.st with sbuf := t.cask.st.sbuf ++ [e] } } (t.cask.kr.kpc + 8)) ∧
    (∀ sc l s1 s2 t, ord = some sc → sc ≠ .core → translate s.turn.core s.cask.kr.asid ea .write s = .ok l s1 →
      release sc s1 = .ok () s2 → kStoreHome ea bs s2 = .ok () t →
      ∃ u, exec (.stk sz ord b a imm) s = .next u ∧ t.retired u t.cask (t.cask.kr.kpc + 8))) ∧
  (∀ (s t u : State) (ea : Nat) (bs xs : List Byte), bs ≠ [] → ea % 128 + bs.length ≤ 128 →
    (∀ l ∈ (s.core s.turn.core).l1, l.data.length = 128) → kStore ea bs s = .ok () t →
    kLoad ea bs.length t = .ok xs u → xs = bs) ∧
  ∀ (s s1 t : State) (l : Loc) (ea : Nat) (bs : List Byte), ea % 128 + bs.length ≤ 128 → s.memoriesWf = true →
    (∀ x ∈ s.dev.l2, x.data.length = 128) → translate s.turn.core s.cask.kr.asid ea .write s = .ok l s1 →
    kStoreHome ea bs s = .ok () t → t.homeBytes l bs.length = bs ∧
      ∀ x, (t.core s.turn.core).lineAt l.asid (l.va / 128) = some x → x.data.length = 128 →
        (x.data.drop (ea % 128)).take bs.length = bs ∧ ∀ k, k < bs.length → x.dirty.getLsbD (ea % 128 + k) = false

/-- R98–R101, R108, R113, R174: ACQ acquires, REL releases, FENCE does both. A release leaves the store buffer empty and no
line dirty whose class lies within its scope, and a line that it writes back stands at its home with its dirty bytes; after an
acquire no line of a class within its scope is fresh for the cask; a join of a command acquires at the class that the command
has touched, and takes the command from those to be joined. -/
def Obligations.OrderingWords : Prop :=
  (∀ (s : State) (sc : Scope),
    (∃ u, exec (.acq sc) s = .next u ∧ (s.acquire sc).retired u (s.acquire sc).cask (s.cask.kr.kpc + 8)) ∧
    ∀ t, release sc s = .ok () t →
      (∃ u, exec (.rel sc) s = .next u ∧ t.retired u t.cask (t.cask.kr.kpc + 8)) ∧
      (∃ u, exec (.fence sc) s = .next u ∧ (t.acquire sc).retired u (t.acquire sc).cask (t.cask.kr.kpc + 8)) ∧
      t.cask.st.sbuf = [] ∧ ∀ l ∈ (t.core t.turn.core).l1,
        t.classOf t.turn.core l.ty l.asid (l.line * 128) ≤ scopeClass sc → l.dirty = 0) ∧
  (∀ (s : State) (sc : Scope), ∀ l ∈ ((s.acquire sc).core s.turn.core).l1,
    (s.acquire sc).fresh s.turn.core s.turn.cask l = true → scopeClass sc < s.classOf s.turn.core l.ty l.asid (l.line * 128)) ∧
  (∀ (s s1 t : State) (sc : Scope) (l : L1Line) (loc : Loc) (r : Option (BitVec 10 × Nat)), s.memoriesWf = true →
    (∀ x ∈ s.dev.l2, x.data.length = 128) → s.cask.st.sbuf = [] → l ∈ (s.core s.turn.core).l1 → l.data.length = 128 →
    l.dirty ≠ 0 → s.classOf s.turn.core l.ty l.asid (l.line * 128) ≤ scopeClass sc →
    (∀ x ∈ (s.core s.turn.core).l1, x ≠ l → x.dirty = 0 ∨ scopeClass sc < s.classOf s.turn.core x.ty x.asid (x.line * 128)) →
    (s.core s.turn.core).l1.Nodup →
    translate1 (some s.turn.core) (s.dev.partOfCore s.turn.core) l.asid (l.line * 128) .write true s = .ok (loc, r) s1 →
    release sc s = .ok () t →
    ∀ i, i < 128 → let here : Loc := { loc with addr := loc.addr + i, va := loc.va + i }
      t.homeBytes here 1 = if l.dirty.getLsbD i = true then [l.data.getD i 0] else s.homeBytes here 1) ∧
  ∀ (s : State) (f : Unjoined → Bool), (∀ u, u ∈ (s.joins f).cask.yy.unjoined ↔ u ∈ s.cask.yy.unjoined ∧ f u = false) ∧
    ((∀ u ∈ s.cask.yy.unjoined, u.cls ≤ 3) → ∀ u ∈ s.cask.yy.unjoined, f u = true → ∀ l ∈ ((s.joins f).core s.turn.core).l1,
      s.classOf s.turn.core l.ty l.asid (l.line * 128) ≤ u.cls → (s.joins f).fresh s.turn.core s.turn.cask l = false)

/-- R28, R42–R48, R104, R108, R175–R187: a word of the table that has what it waits for does what the table says of its cask,
once the store buffer has drained where it is a handshake, and joins the commands that the table says; one that has not waits.
How many words stand fetched ahead of a marker is free in the model (log 7); its readings: log 26. -/
def Obligations.CaskWords : Prop :=
  ∀ (i : Instr) (s : State) (ok ready : Prop) (drains : Bool) (f : Cask → Cask) (joined : Unjoined → Bool),
    caskWord s i = some (ok, ready, drains, f, joined) → s.cask.kr.priv = false → ok →
    (∀ t, ready → (if drains then drainBuf s else .ok () s) = .ok () t →
      ∃ u, exec i s = .next u ∧ (t.joins joined).retired u (f (t.joins joined).cask) (t.cask.kr.kpc + 8)) ∧
    (¬ ready → exec i s = .next (s.kWaits false))

/-- R43, R141, R166, R176, R181–R183, R337, R338: NESTB completes the shadow table of every engine that it names, with a
journal entry for each; CPGO forks the staged command with its QUEUE set, CPCH starts a chain, each once the store buffer has
drained, so that the command sees every store of K before it (R107). -/
def Obligations.JournalledIssues : Prop :=
  (∀ (s : State) (m : KMask) (n : NestNo) (a b : SReg), s.cask.kr.priv = false →
     let w := s.cask.sreg b
     w.toNat / 2 ^ 29 = 0 → w.toNat / 2 ^ 3 % 2 ^ 5 = 0 →
     w.toNat / 2 ^ 8 % 2 ^ 21 < (if w.getLsbD 2 then spmSize s.dual else 16) →
     (∀ e ∈ KMask.engines m, (s.cask.nest e n.toNat).ready = false) →
     ∀ t, drainBuf s = .ok () t → t.cask.yy.jhead < 2 ^ 32 → t.cask.yy.jtail < 2 ^ 32 →
       t.cask.yy.jheld + (KMask.engines m).length ≤ 336 →
       ∃ u, exec (.nestb m n a b) s = .next u ∧
         t.retired u ((KMask.engines m).foldl (fun c e => c.launchNest s.dual n (s.cask.sreg a) w e) t.cask)
           (t.cask.kr.kpc + 8)) ∧
  (∀ (s t : State) (q : YNo), s.cask.kr.priv = false → drainBuf s = .ok () t → t.cask.yy.jheld < 336 →
     (∀ reuse : Bool, (reuse = true ∨ s.cask.yy.written = 15) → (t.cask.yy.queue q.toNat).length < 64 →
       let bs := withQueue (smGetRange 0 s.cask.yy.staging 0 128) q.toNat
       ∃ c u, t.cask.forked c s.dual s.tick q.toNat 1 0 bs none ∧ c = { t.cask with mem := c.mem, yy := c.yy } ∧
         exec (.cpgo q reuse) s = .next u ∧ t.retired u { c with yy := { c.yy with written := 0 } } (t.cask.kr.kpc + 8)) ∧
     (∀ a : SReg, (s.cask.sreg a).toNat % 128 = 0 →
       let ent := chainBytes (s.cask.sreg a) q.toNat ++ bytesOf 8 t.cask.yy.jhead ++ bytesOf 8 (5 + q.toNat * 2 ^ 8) ++
         List.replicate 48 0
       let c := t.cask.setKlm (klmUser s.dual + 192 * (t.cask.yy.jhead % 336)) ent
       ∃ u, exec (.cpch q a) s = .next u ∧
         t.retired u { c with yy := { c.yy with
             jhead := (t.cask.yy.jhead + 1) % 2 ^ 32,
             chains := t.cask.yy.chains ++
               [{ start := t.cask.yy.jhead, next := s.cask.sreg a, queue := some q.toNat, wait := none }] } }
           (t.cask.kr.kpc + 8)))

/-- R10, R12, R17, R18, R20, R188, R189: TNEXT takes the head of the core's list, or the last tile of a victim's once the
tiles have aged, or finds none left; it waits for the ageing. The victim is a core with a tile that can be taken, on the own
die where there is one, the one with the most tiles left, and the lowest id on a tie (R18). The tile held before is complete.
TDONE completes the tile held; TDONE.end, once the engines fetch no more words and have retired those that they have fetched,
the copies are done and the store buffer is drained, ends the strand, and K does not go on. That the head of a list can be
taken once its core's strand has ended is the model's choice (log 45); its other readings: logs 7 and 40. -/
def Obligations.Tiles : Prop :=
  (∀ (l : Launch) (core : Nat),
     let left := fun (c : Nat) => (smGet [] l.lists c).drop
       (if (l.ordOf c).any (fun o => !l.ended.contains o) = true then 1 else 0)
     let cand := fun (c : Nat) => c ≠ core ∧ left c ≠ []
     let near := fun (c : Nat) => c / 96 = core / 96 ∨ ∀ d, cand d → d / 96 ≠ core / 96
     (l.victim core = none ↔ ∀ c, ¬ cand c) ∧
     ∀ v, l.victim core = some v → cand v ∧ near v ∧ ∀ c, cand c → near c →
       (left c).length < (left v).length ∨ ((left c).length = (left v).length ∧ v ≤ c)) ∧
  (∀ (s : State) (d : SReg), s.cask.kr.priv = false →
     let l := s.launch
     let mine := smGet [] l.lists s.turn.core
     let got := fun (t : Nat) (lists : SMap (List Nat)) => ∃ u, exec (.tnext d) s = .next u ∧ s.onlyLaunch u ∧
       aFind u.dev.launches s.lid = some { s.closing l with lists := lists } ∧
       u.cask = { s.cask with
         kr := { s.cask.kr with s := u.cask.kr.s, kpc := s.cask.kr.kpc + 8 },
         st := { s.cask.st with held := some t, wait := none } } ∧
       ∀ r, u.cask.sreg r = if r = d ∧ d ≠ 0 then BitVec.ofNat 64 t
         else if r = 6 then BitVec.ofNat 64 (t % l.e0)
         else if r = 7 then BitVec.ofNat 64 (t / l.e0 % l.e1)
         else if r = 8 then BitVec.ofNat 64 (t / (l.e0 * l.e1))
         else s.cask.sreg r
     (∀ t ts, mine = t :: ts → got t (smSet [] l.lists s.turn.core ts)) ∧
     (∀ n v, mine = [] → l.ageing = some n → l.victim s.turn.core = some v →
       (l.aged = true → got ((smGet [] l.lists v).getLastD 0) (smSet [] l.lists v (smGet [] l.lists v).dropLast)) ∧
       (l.aged = false → exec (.tnext d) s = .next (s.kWaits false))) ∧
     (mine = [] → l.ageing = none ∨ l.victim s.turn.core = none →
       ∃ u, exec (.tnext d) s = .next u ∧ s.onlyLaunch u ∧
         aFind u.dev.launches s.lid = (aFind s.dev.launches s.lid).map s.closing ∧
         u.cask = { s.cask with
           kr := { s.cask.kr with s := u.cask.kr.s, kpc := s.cask.kr.kpc + 8 },
           st := { s.cask.st with held := none, wait := none } } ∧
         ∀ r, u.cask.sreg r = if r ≠ 0 ∧ (r = d ∨ r = 6 ∨ r = 7 ∨ r = 8) then 0xFFFFFFFFFFFFFFFF else s.cask.sreg r)) ∧
  (∀ s : State, s.cask.kr.priv = false →
     (∃ u, exec .tdone s = .next u ∧ s.onlyLaunch u ∧
       aFind u.dev.launches s.lid = (aFind s.dev.launches s.lid).map s.closing ∧
       u.cask = { s.cask with
         kr := { s.cask.kr with kpc := s.cask.kr.kpc + 8 }, st := { s.cask.st with held := none, wait := none } }) ∧
     (∀ t, (∀ e, (s.cask.eng e).spent (Config.fetchAhead s.tick e) = true) → s.cask.yy.all = [] → s.cask.yy.chains = [] →
       drainBuf s = .ok () t → exec .tdoneEnd s = .next t.endStrand ∧ t.endStrand.cask.st.live = false))

/-- R21–R25, R190, R191: JOIN makes the strand a member, LEAVE ends that and may complete the phase; CBAR, CBARD and SSTEP
release, arrive once, wait for the phase to complete, and acquire; before it arrives SSTEP waits for the commands issued and
joins them (R24, R108). When a phase completes, what follows and what the record of the phase holds is the second part (R23,
R26, R27). The model's readings: logs 32 and 50. -/
def Obligations.CrewWords : Prop :=
  phaseCompletes ∧
  ∀ (s : State) (c : BitVec 6), s.cask.kr.priv = false →
    let l := s.launch
    let k := l.crewOf (some c.toNat)
    let gone := fun (t : State) (id : Option Nat) (phase : Nat) =>
      (t.launch.crewOf id).phase ≠ phase ∨ ¬ ∃ a ∈ (t.launch.crewOf id).arrived, a.ord = s.cask.st.ord
    let ends := fun (i : Instr) (t : State) (id : Option Nat) (phase : Nat) =>
      (gone t id phase → ∃ u, exec i s = .next u ∧
        (t.acquire .device).retired u { (t.acquire .device).cask with
          st := { (t.acquire .device).cask.st.clearArr id with ybound := none } } ((t.acquire .device).cask.kr.kpc + 8)) ∧
      (¬ gone t id phase → exec i s = .next (t.kWaits false))
    let arrives := fun (t : State) (id : Option Nat) (drop : Bool) =>
      (t.updCask fun x => { x with st := x.st.setArr id (t.launch.crewOf id).phase }).arrive t.lid t.ord id drop
    (c.toNat < l.crewCount → s.cask.st.ord ∉ k.members → s.memberships < 8 →
      ∃ u, exec (.join c) s = .next u ∧ s.onlyLaunch u ∧
        u.cask = { s.cask with kr := { s.cask.kr with kpc := s.cask.kr.kpc + 8 }, st := { s.cask.st with wait := none } } ∧
        aFind u.dev.launches s.lid = some (l.setCrew (some c.toNat) { k with
          members := nsAdd k.members s.cask.st.ord, starts := aSet k.starts s.cask.st.ord s.dev.rtc })) ∧
    (c.toNat < l.crewCount → s.cask.st.ord ∈ k.members →
      let t := (s.updLaunch s.lid fun l => l.setCrew (some c.toNat) { k with
        members := nsDel k.members s.cask.st.ord, arrived := k.arrived.filter fun a => a.ord ≠ s.cask.st.ord }).phaseCheck
          s.lid (some c.toNat)
      ∃ u, exec (.leave c) s = .next u ∧
        t.retired u { t.cask with st := t.cask.st.clearArr (some c.toNat) } (t.cask.kr.kpc + 8)) ∧
    (∀ drop : Bool, let i := if drop then Instr.cbard c else Instr.cbar c
      (∀ phase, s.cask.st.arrivedIn (some c.toNat) = some phase → ends i s (some c.toNat) phase) ∧
      (s.cask.st.arrivedIn (some c.toNat) = none → c.toNat < l.crewCount → s.cask.st.ord ∈ k.members →
        ∀ t, release .device s = .ok () t →
          ends i (arrives t (some c.toNat) drop) (some c.toNat) (t.launch.crewOf (some c.toNat)).phase)) ∧
    (∀ phase, s.cask.st.arrivedIn none = some phase → ends .sstep s none phase) ∧
    (∀ t, s.cask.st.arrivedIn none = none → s.cask.st.ybound = none → release .device s = .ok () t →
      let t1 := t.updCask fun x => { x with st := { x.st with ybound := some x.yy.cnum } }
      let t2 := t1.joins fun _ => true
      (t.cask.yy.doneUpTo t.cask.yy.cnum = true → ends .sstep (arrives t2 none false) none (t2.launch.crewOf none).phase) ∧
      (t.cask.yy.doneUpTo t.cask.yy.cnum = false → exec .sstep s = .next (t1.kWaits false)))

/-- R196, R308, R390–R392: RDS reads a special register, where its privilege allows, and WRS writes one. A read brings what
counts cycles up to date by one number `d` of cycles, which the model leaves free (log 8): CYC of the core's strands, and the
counters of core cycles for the cask that issues. A counter of another event reads as the events up to now have left it; only
what a counter of stall cycles reads is left open. -/
def Obligations.SpecialRegisters : Prop :=
  ∀ (s : State) (r : SReg) (n : BitVec 12),
    let allowed := 0x100 ≤ n.toNat ∧ n.toNat ≤ 0x1FF → s.cask.kr.priv = true
    let mon := 0x010 ≤ n.toNat ∧ n.toNat ≤ 0x017
    let k := s.core s.turn.core
    let other := k.cask !s.turn.cask
    let ticked := fun (c : Cask) (d : Word) => c.kr.cyc + if c.st.live = true then d else 0
    let reads := fun (d v : Word) => ∃ u, exec (.rds r n) s = .next u ∧
      (s.setCaskAt s.turn.core (!s.turn.cask) { other with kr := { other.kr with cyc := ticked other d } }).onlyCask u ∧
      u.cask = { s.cask with
        kr := { s.cask.kr with s := u.cask.kr.s, kpc := s.cask.kr.kpc + 8, cyc := ticked s.cask d },
        st := { s.cask.st with wait := none } } ∧
      ∀ x, u.cask.sreg x = if x = r ∧ r ≠ 0 then v else s.cask.sreg x
    (∃ d : Word,
      (∀ v, specialValue s n.toNat = some v → allowed → reads d v) ∧
      (n.toNat = 0x001 → reads d (ticked s.cask d)) ∧
      (mon → s.cask.kr.priv = true ∨ s.cask.kr.monen = true →
        let m := aGet Mon.reset k.mon (n.toNat - 0x010)
        let evt := m.sel.toNat % 2 ^ 16
        let admits := m.sel.getLsbD 37 = true ∧
          (m.sel.toNat / 2 ^ 38 % 4 = 0 ∨ m.sel.toNat / 2 ^ 38 % 4 = if k.cur then 2 else 1)
        (evt ∉ [0x0001, 0x0007, 0x0008, 0x000C] → reads d (m.val.setWidth 64)) ∧
        (evt = 0x0001 → reads d ((m.val + if admits then d.setWidth 48 else 0).setWidth 64)) ∧ ∃ v, reads d v)) ∧
    (∀ k, specialWrite s (s.cask.sreg r) n.toNat = some k → allowed →
      ∃ u, exec (.wrs n r) s = .next u ∧ s.retired u { s.cask with kr := k } (s.cask.kr.kpc + 8)) ∧
    (¬ allowed → exec (.rds r n) s = .next (s.coreStop .k { code := 0x11 }) ∧
      exec (.wrs n r) s = .next (s.coreStop .k { code := 0x11 })) ∧
    (mon → s.cask.kr.priv = false → s.cask.kr.monen = false →
      exec (.rds r n) s = .next (s.coreStop .k { code := 0x11 }))

/-- R29, R193, R194: WATCH arms the cask's monitor on the line of its address, WAITL returns on an event, with no monitor
armed, or spuriously, and waits otherwise; EST keeps the strand's estimate, saturated. -/
def Obligations.LineWaits : Prop :=
  ∀ (s : State) (a : SReg) (imm : BitVec 32), s.cask.kr.priv = false →
    let ea := (s.cask.sreg a + imm.signExtend 64).toNat
    let est := Nat.min (s.cask.sreg a).toNat 0xFFFFFFFF
    (∀ l t, 0x40000 ≤ ea → canonical ea = true → translate s.turn.core s.cask.kr.asid ea .read s = .ok l t →
      ∃ u, exec (.watch a imm) s = .next u ∧ t.retired u { t.cask with st := { t.cask.st with
        armed := some (l.asid.toNat, l.va / 128), evt := false, spur := false } } (t.cask.kr.kpc + 8)) ∧
    (s.cask.st.evt = true ∨ s.cask.st.armed = none ∨ s.cask.st.spur = true →
      ∃ u, exec .waitl s = .next u ∧
        s.retired u { s.cask with st := { s.cask.st with spur := false } } (s.cask.kr.kpc + 8)) ∧
    (s.cask.st.evt = false → s.cask.st.armed ≠ none → s.cask.st.spur = false → exec .waitl s = .next (s.kWaits false)) ∧
    ∃ u, exec (.est a) s = .next u ∧ s.onlyLaunch u ∧
      aFind u.dev.launches s.lid =
        (aFind s.dev.launches s.lid).map (fun l => { l with ests := aSet l.ests s.cask.st.ord est }) ∧
      u.cask = { s.cask with
        kr := { s.cask.kr with estv := BitVec.ofNat 32 est, kpc := s.cask.kr.kpc + 8 }, st := { s.cask.st with wait := none } }

/-- R121, R198, R199: OVL takes the descriptor of an overlay, whose streams the load then puts into the instruction memories,
and OVSWAP releases, waits for what the trailer names and for the load, and swaps, or takes the fault of the load. The model's
readings: logs 7, 32, 55 and 56. -/
def Obligations.Overlays : Prop :=
  ∀ (s : State) (a : SReg), s.cask.kr.priv = false →
    (∀ bs t, memAt (s.cask.sreg a).toNat 64 → kLoad (s.cask.sreg a).toNat 64 s = .ok bs t → bs.length = 64 →
      let o := ovlOf bs
      ovlDword bs 6 / 2 ^ 7 = 0 → ovlDword bs 7 = 0 → s.cask.st.ovl = none →
      (∀ i, i < 4 → o.lens.getD i 0 = 0 ∨ o.offs.getD i 0 + o.lens.getD i 0 ≤ imemSize s.dual) →
      (∀ p ∈ (o.offs.zip o.lens).zip s.cask.st.extents, overlaps p.1 p.2 = false) →
      ∃ u, exec (.ovl a) s = .next u ∧
        t.retired u { t.cask with st := { t.cask.st with ovl := some o } } (t.cask.kr.kpc + 8)) ∧
    (∀ o t, s.cask.st.ovl = some o → release .device s = .ok () t →
      (t.cask.trailerDone (Config.fetchAhead s.tick) = true → o.loaded = true → o.flt = none → s.cask.st.ckpt = false →
        exec .ovswap s = .next (t.swapIn o) ∧
        (t.swapIn o).cask.kr.kpc = (if o.lens.getD 0 0 = 0 then t.cask.kr.kpc + 8 else o.offs.getD 0 0) ∧
        (t.swapIn o).cask.st.ovl = none ∧ (t.swapIn o).cask.st.trailer = o.trailer) ∧
      (∀ f, t.cask.trailerDone (Config.fetchAhead s.tick) = true → o.loaded = true → o.flt = some f →
        exec .ovswap s = .next (t.coreStop .k f)) ∧
      (t.cask.trailerDone (Config.fetchAhead s.tick) = false ∨ o.loaded = false →
        exec .ovswap s = .next (t.kWaits false))) ∧
    (∀ o t, s.cask.st.ovl = some o → o.loaded = false →
      loadStreams o [(.k, 0), (.l, 1), (.m, 2), (.s, 3)] s = .ok () t →
      ∃ u, exec .overlayLoadDone s = .next u ∧ t.onlyCask u ∧
        u.cask = { t.cask with st := { t.cask.st with ovl := some { o with loaded := true, flt := none } } })

/-- R200, R323, R337, R340, R355: in a handler JCTL frees the journal up to a number that an entry holds and reissues entries,
CASKSW switches to the other cask, and TINV drops cached leaves and synonyms and takes the lines that it covers out of the
L2s. The model's readings: logs 20, 31, 39 and 46; that TINV.page drops the L2 lines of the whole 1 GiB region, where R355
speaks of the affected pages, is its choice (log 72). -/
def Obligations.PrivilegedWords : Prop :=
  ∀ (s : State) (a b : SReg), s.cask.kr.priv = true →
    let v := (s.cask.sreg a).toNat
    let asid : BitVec 10 := (s.cask.sreg b).setWidth 10
    let y := s.cask.yy
    let drops := fun (i : Instr) (f : Leaf → Bool) (g : Syn → Bool) (h : BitVec 10 → Nat → Bool) => ∃ u, exec i s = .next u ∧
      (s.invalidate f g h).retired u (s.invalidate f g h).cask (s.cask.kr.kpc + 8) ∧
      (∀ l ∈ u.dev.leaves, f l = false) ∧ ((∀ x ∈ s.dev.l2, h x.asid x.line = true → x.dirty = 0) →
        ∀ l, l ∈ u.dev.leaves ↔ l ∈ s.dev.leaves ∧ f l = false) ∧
      (∀ c, ∀ x ∈ (u.core c).syn, g x = false) ∧
      ∀ x, x ∈ u.dev.l2 ↔ x ∈ s.dev.l2 ∧ h x.asid x.line = false
    (v < 2 ^ 32 → (v + 2 ^ 32 - y.jtail) % 2 ^ 32 < y.jheld →
      ∃ u, exec (.jctlFree a) s = .next u ∧ s.retired u { s.cask with yy := y.freeTo v } (s.cask.kr.kpc + 8)) ∧
    (∀ m : KMask, m.m = false →
      let ns := (jnums y.jtail y.jheld).filter fun j => decide ((j + 2 ^ 32 - v % 2 ^ 32) % 2 ^ 32 < 2 ^ 31)
      let c := ns.foldl (fun c j => c.reissueNest s.dual m j) s.cask
      ∃ u, exec (.jctlReissue m a) s = .next u ∧
        s.retired u (if m.y then c.reissueCmds s.dual ns else c) (s.cask.kr.kpc + 8)) ∧
    (s.dual = true → v < 2 →
      ((v = 1) = (s.turn.cask = true) → ∃ u, exec (.casksw a) s = .next u ∧ s.retired u s.cask (s.cask.kr.kpc + 8)) ∧
      ((v = 1) ≠ (s.turn.cask = true) → ∃ t, s.retired t s.cask (s.cask.kr.kpc + 8) ∧
        exec (.casksw a) s = .next (t.doSwitch (decide (v = 1)) false))) ∧
    drops (.tinvPage a b) (fun l => decide (l.asid = asid ∧ l.va / 2 ^ l.lg = v / 2 ^ l.lg))
      (fun x => decide ((x.asid = asid ∧ x.page = v / 2 ^ 16) ∨ (x.casid = asid ∧ x.cpage = v / 2 ^ 16)))
      (fun z line => decide (z = asid ∧ 128 * line / 2 ^ 30 = v / 2 ^ 30)) ∧
    drops (.tinvAsid a b) (fun l => decide (l.asid = asid)) (fun x => decide (x.asid = asid ∨ x.casid = asid))
      (fun z _ => decide (z = asid)) ∧
    drops (.tinvAll a b) (fun _ => true) (fun _ => true) (fun _ _ => true)

/-- R2, R149, R347: a privileged word at user privilege raises PROTECTION, and a word of opcodes 0x40 to 0x77 other than RDS
and WRS in a handler ILLEGAL_OPERAND, with no other effect. -/
def Obligations.PrivilegeRules : Prop :=
  ∀ (i : Instr) (s : State),
    (privileged i = true → s.cask.kr.priv = false → exec i s = .next (s.coreStop .k { code := 0x11 })) ∧
    (userOnly i = true → s.cask.kr.priv = true → exec i s = .next (s.coreStop .k { code := 0x02 }))

/-- R197, R263, R307, R331, R333, R334, R347: a fault outside a handler stops the engines, cancels the words of M that are not
settled, which give back what they took and are kept for reissue, writes the frame and enters the handler at HVEC at system
privilege, or stops K at its word where HVEC is 0; TRAP does the same with K to resume at the next word; a fault inside a
handler stops K, keeps the frame and is logged. That the frame of a faulting transfer holds its target as the address is the
model's reading (log 30), and which words of M are in flight apart is (log 26). -/
def Obligations.ExceptionEntry : Prop :=
  ∀ s : State,
    let c := s.cask
    let took := fun (u : State) (code eng : Nat) (va stat : Word) (kpc : Nat) =>
      u.turn = s.turn ∧ u.cask.st.stopped = true ∧ u.cask.st.wait = none ∧ u.cask.st.spur = true ∧
      (if c.kr.hvec = 0 then u.cask.kr = { c.kr with kpc := kpc } ∧ u.cask.st.kstop = true
        else u.cask.kr = { c.kr with kpc := c.kr.hvec, priv := true } ∧ u.cask.st.kstop = c.st.kstop) ∧
      (∀ e f, (u.cask.eng e).flight = some f → f.settled = true) ∧
      (let m := c.eM
       let fs := (m.late.map (·.f)).filter fun f => !f.settled
       let cn := match fs with
         | f :: _ => (f.cn + 2 ^ 32 - 1) % 2 ^ 32
         | [] => m.cn
       m.flight = none → m.held = none → m.redo = [] → c.eL.flight = none → c.eS.flight = none →
         u.cask.eM.redo = fs.map Flight.redo ∧ u.cask.eM.late = m.late.filter (fun l => l.f.settled) ∧ u.cask.mx = c.mx ∧
         u.cask.cp.fq = (fs.foldr putFormat []).filterMap (·.fmtw) ++ c.cp.fq ∧
         u.cask.cp.tok.popCount .m true = c.cp.tok.popCount .m true + (fs.map (·.popP)).sum ∧
         u.cask.cp.tok.popCount .m false = c.cp.tok.popCount .m false + (fs.map (·.popN)).sum ∧
         (cn < 2 ^ 32 → (smGet 0 u.cask.st.frame 15).toNat % 2 ^ 32 = cn ∧ ∀ i, i < 32 →
           ((smGet 0 u.cask.st.frame 15).getLsbD (32 + i) = true ↔
             ∃ d, d ∈ m.done ∧ (∀ f, f ∈ fs → f.cn ≠ d.1) ∧ d.1 = (cn + 2 + i) % 2 ^ 32))) ∧
      (∀ i, i < 5 → smGet 0 u.cask.st.frame i =
        [BitVec.ofNat 64 (code * 2 ^ 56 + eng * 2 ^ 53), va, stat, BitVec.ofNat 64 kpc, c.kr.tag].getD i 0) ∧
      ∀ i k, i < 5 → k < 8 → smGet 0 u.cask.mem.klm (frameAt s.dual + 8 * i + k) =
        byteOf (smGet 0 u.cask.st.frame i).toNat k
    (c.kr.priv = false →
      (∀ (u : CoreUnit) (code : BitVec 8) (va stat : Word), u ≠ .y →
        ∃ t, exec (.coreStop u code va stat) s = .next t ∧ took t code.toNat u.num va stat c.kr.kpc) ∧
      ∀ imm : BitVec 32, ∃ t, exec (.trap imm) s = .next t ∧
        took t 0x70 0 (BitVec.ofNat 64 c.kr.kpc) (imm.setWidth 64) (c.kr.kpc + 8)) ∧
    (c.kr.priv = true → ∀ (u : CoreUnit) (code : BitVec 8) (va stat : Word),
      ∃ t, exec (.coreStop u code va stat) s = .next t ∧
        t.cask = { c with st := { c.st with kstop := true, wait := none } } ∧
        t = (s.setCask { c with st := { c.st with kstop := true, wait := none } }).logAdd 0x0C
          ((s.dev.fnOfAsid c.kr.asid).getD 0) (s.dev.partNo s.turn.core) s.turn.core (code.toNat + c.kr.kpc * 2 ^ 8)) ∧
    ∀ (i : Instr) (d : SReg) (v : Word) (pc : Int) (reg : Bool), flowValue s i = some (d, v, some (pc, reg)) →
      (reg = true ∧ pc % 8 ≠ 0) ∨ ¬ (0 ≤ pc ∧ pc < imemSize s.dual) →
      exec i s = .next (s.coreStop .k {
        code := if reg = true ∧ pc % 8 ≠ 0 then 0x07 else 0x02, va := BitVec.ofInt 64 pc })

/-- R340, R348: ERET resumes the strand from a frame in the KLM: K goes on at its KPC with its TAG, at user privilege; an
engine that is not halted takes its retired section number, its next word, and the words that it reissues or skips with their
completion numbers from the hardware frame and the issue logs, and keeps its loop, repeat and skew registers; Y takes up the
commands of the journal that have not completed, in the order of their numbers, each in its queue. The model's readings: logs
26, 30 and 57. -/
def Obligations.ExceptionReturn : Prop :=
  ∀ (s : State) (a : SReg), s.cask.kr.priv = true →
    let v := (s.cask.sreg a).toNat
    let fa := if v = 0 then frameAt s.dual else v
    let kpc := natOf (s.cask.klmBytes (fa + 24) 8)
    fa % 64 = 0 → fa + 992 ≤ klmSize s.dual → s.cask.cleanKlm fa 992 → kpc < imemSize s.dual → kpc % 8 = 0 →
    ∃ u, exec (.eret a) s = .next u ∧ s.onlyCask u ∧
      u.cask.kr = { s.cask.kr with
        kpc := kpc, priv := false, tag := BitVec.ofNat 64 (natOf (s.cask.klmBytes (fa + 32) 8)) } ∧
      u.cask.st = { s.cask.st with
        stopped := false, kstop := false, wait := none,
        arr := if kpc = (smGet 0 s.cask.st.frame 3).toNat then s.cask.st.arr else [] } ∧
      u.cask.mx = s.cask.mx ∧ u.cask.cp = s.cask.cp ∧ u.cask.yy.parked = false ∧ u.cask.yy.failed = none ∧
      (s.cask.yy.failed = none → u.cask.mem = s.cask.mem ∧ ∀ q, u.cask.yy.queue q =
        (((jnums s.cask.yy.jtail s.cask.yy.jheld).filterMap fun n => s.cask.reissued s.dual n).filter
          fun p => decide (p.1 = q)).map (·.2)) ∧
      ∀ e, let st := s.cask.eng e
        let v := u.cask.eng e
        let log := s.cask.klmBytes (fa + 512 + 160 * (match e with
            | .l => 0
            | .m => 1
            | .s => 2)) 160
        let b := match e with
            | .l => 8
            | .m => 14
            | .s => 20
        let w := fun (n : Nat) => (smGet 0 s.cask.st.frame n).toNat
        let d := natOf (log.take 8)
        let cn := w (b + 1) % 2 ^ 32
        let n := min (d / 2 ^ 58 % 2 ^ 6) 32
        let rs := logRedo st.redo log cn (w (b + 5) % 2 ^ 32) 0 n
        v.x = st.x ∧ v.flight = st.flight ∧ v.nests = st.nests ∧ v.lp = st.lp ∧ v.lpStart = st.lpStart ∧ v.rpt = st.rpt ∧
        v.skew = st.skew ∧ v.cn = st.cn ∧ v.owed = st.owed ∧ v.marks = st.marks ∧ v.wait = none ∧
        (w b / 2 ^ 19 % 2 = 1 → v.halted = true ∧ v.redo = st.redo) ∧
        (w b / 2 ^ 19 % 2 = 0 →
          v.halted = st.halted ∧ v.hoff = d % 2 ^ 17 ∧ v.idx = d / 2 ^ 46 % 2 ^ 12 ∧
          v.rsn = BitVec.ofNat 16 (w b / 2 ^ 36) ∧ v.done = logDone log cn 0 n ∧
          (e ≠ .s → v.redo = rs) ∧
          (e = .s → v.redo.drop 1 = rs.drop 1 ∧ v.redo[0]? = rs[0]?.map fun r => { r with
            pnan := w 30 % 2 ^ 32, pinf := w 30 / 2 ^ 32 % 2 ^ 32, psat := w 31 % 2 ^ 32, pwrp := w 31 / 2 ^ 32 % 2 ^ 32 }))

/-- R110, R114, R264, R270–R287: a command that has begun, and that no earlier one of its queue keeps from its bytes, does the
unit at its cursor, and the last unit ends its work; a unit that takes several steps does one of its pieces. A SIGR is applied
once every earlier command of its queue has completed (R268, R286). The model's readings: logs 1, 17, 18, 37, 59 and 69. -/
def Obligations.CommandUnits : Prop :=
  ∀ (i : Instr) (s t : State) (y : YEnt), s.entAt s.yAt.1 s.yAt.2 = some y → y.begun = true → y.done = false →
    s.cask.yy.goes s.yAt.1 = true → s.blocked s.yAt.1 s.yAt.2 (y.spans s.dev.rank) = false → s.turn.burst = 0 →
    (∀ (total : Nat) (P : Prop), cmdUnit s y.cursor t i = some (total, P) → P → y.cursor < total →
      exec i s = .next (t.updEnt s.yAt.1 s.yAt.2 fun y =>
        { y with
          cursor := y.cursor + 1, part := 0, left := [], data := [], wait := none, done := decide (total ≤ y.cursor + 1) })) ∧
    (cmdPart s y.cursor t i → exec i s = .next t)

/-- R108, R110, R113, R159, R160, R165, R183, R265, R268–R271, R329, R337, R370: a chain's entry enters its queue and the
chain goes on or ends; the next command of a queue begins once its wait clauses hold, waits before, and a malformed one stops
the core; a command that has done its work, an FMCAST once every destination has acknowledged it, writes its record, signals,
sends its increments and leaves its queue, and one with return data awaits its join. The model's readings: logs 1, 18, 27, 37
and 40. -/
def Obligations.CommandFlow : Prop :=
  ∀ (s : State) (q : YNo), s.cask.yy.parked = false →
    (∀ (k : Nat) (x : Chain) (bs : List Byte) (s1 : State), s.cask.yy.chains[k]? = some x → s.cask.yy.failed = none →
      x.next.toNat % 128 = 0 → canonical x.next.toNat = true →
      yHome .read (partsOf x.next.toNat 128) s = .ok bs s1 → bs.length = 128 →
      let d0 := natOf (bs.take 8)
      let dst := x.queue.getD (d0 / 2 ^ 8 % 4)
      (s1.cask.yy.queue dst).length < 64 → s1.cask.yy.jheld < 336 →
      ∃ c u, s1.cask.forked c s1.dual s.tick dst 2 x.start bs none ∧ c = { s1.cask with mem := c.mem, yy := c.yy } ∧
        exec (.chainFetch k) s = .next u ∧ s1.onlyCask u ∧
        let y : Chain := {
          start := x.start, next := BitVec.ofNat 64 (natOf ((bs.drop 96).take 8)), queue := none, wait := none }
        u.cask = if d0 / 2 ^ 16 % 2 = 1 then { c with yy := { c.yy with chains := s1.cask.yy.chains.set k y } }
          else ({ c with yy := { c.yy with chains := s1.cask.yy.chains.eraseIdx k } } : Cask).jfree x.start) ∧
    (∀ (pos : Nat) (y : YEnt), s.cask.yy.nextCmd q.toNat = some pos → s.cask.yy.failed = none →
      s.entAt q.toNat pos = some y →
      let n := natOf y.bytes
      let c := cmdAt n
      let ok := s.groupOk y (n % 256) c
      let clause := fun (k : Clause) => k.en = true → (s.cask.evreg k.ev.toNat - k.thr).toNat < 2 ^ 31
      let b := { y with begun := true, tbeg := BitVec.ofNat 64 s.dev.rtc, wait := none }
      (∀ i, decodeCmd n = .ok i → ok = true →
        (∀ t, clause c.w0 → clause c.w1 → ((s.cask.yy.queue q.toNat).filter (·.begun)).length < 8 →
          s.blocked q.toNat pos y.recordSpan = false → writeRecord b false s = .ok () t → exec (.commandBegin q) s = .next (t.updEnt q.toNat pos fun _ => b)) ∧
        (¬ (clause c.w0 ∧ clause c.w1) → exec (.commandBegin q) s = .next (s.yWaits q.toNat pos)) ∧
        (clause c.w0 → clause c.w1 →
          8 ≤ ((s.cask.yy.queue q.toNat).filter (·.begun)).length ∨ s.blocked q.toNat pos y.recordSpan = true →
          exec (.commandBegin q) s = .next s)) ∧
      let stops := fun (code : Nat) => exec (.commandBegin q) s =
        .next (s.yStop q.toNat y.cnum { code := code, stat := BitVec.ofNat 64 y.cursor })
      (decodeCmd n = .error .illegalOp → stops 0x01) ∧ (decodeCmd n = .error .copyMalformed → stops 0x30) ∧
      (∀ i, decodeCmd n = .ok i → ok = false → stops 0x30) ∧
      (decodeCmd n = .error .illegalOperand → stops (if ok then 0x02 else 0x30))) ∧
    ∀ (y : YEnt) (t : State), s.entAt q.toNat 0 = some y → y.begun = true → y.done = true →
      s.cask.yy.goes q.toNat = true → writeRecord y true s = .ok () t →
      let c := cmdAt (natOf y.bytes)
      let opc := natOf y.bytes % 2 ^ 8
      let rs := if c.rsig = false ∨ opc = 9 then [] else if opc = 7 then ranksOf c.bind else [c.rdev.toNat]
      let sent := rs.foldl (fun x r => x.sendInc c.rloc r c.rcore.toNat c.rev.toNat 1)
        (t.updCask fun x => x.signal c.sigm)
      (y.status = 0 → (opc = 7 → ∀ r ∈ ranksOf c.bind, r = s.dev.rank ∨ Config.applied s.tick r = true) ∧
        ∀ r ∈ rs, s.goesOut c.rloc r = true → s.lateRank r = false ∧ s.reachable r = true) →
      ∃ u, exec (.commandComplete q) s = .next u ∧
        (∀ r, u.cask.yy.queue r = if r = q.toNat then (t.cask.yy.queue r).drop 1 else t.cask.yy.queue r) ∧
        u.cask.yy.jhead = t.cask.yy.jhead ∧ u.cask.kr = t.cask.kr ∧ u.cask.mem = t.cask.mem ∧
        u.cask.yy.unjoined = t.cask.yy.unjoined ++ (if c.rtn then [s.unjoined y c q.toNat] else []) ∧
        u.dev = (if opc = 8 then { sent.dev with
            results := aDel sent.dev.results c.tag, agreed := nsDel sent.dev.agreed c.tag,
            disagree := nsDel sent.dev.disagree c.tag } else sent.dev) ∧
        (∀ m b, (m, b) ≠ (s.turn.core, s.turn.cask) → u.caskAt m b = sent.caskAt m b) ∧
        (∀ k, k < 16 → u.cask.evreg k = sent.cask.evreg k) ∧
        (rs = [] → ∀ k, k < 16 → u.cask.evreg k = t.cask.evreg k + if c.sigm.getLsbD k then 1 else 0)

/-- R268, R277, R284, R285, R304, R328, R329, R370, R371: a remote increment adds to a counter of the strand it is for, waits
for one that has not started, and is dropped and logged where there is none; once all have contributed to a FRED, its members
agree or not, and each member's router combines the nodes of its subtree once they have come and sends the value up, or, at
the root, to those that write it; an access of the fabric performs under FGASID, waits while a slice holds it, or is logged,
and is answered; a contribution, a node, a result and a notice of a gang are kept, and a packet for another device goes on; a
combining buffer merges 4,096 cycles after the last combine. The model's readings: logs 13, 17 and 37. -/
def Obligations.FabricEvents : Prop :=
  ∀ s : State,
    let a : BitVec 10 := s.dev.fgrp.extractLsb' 22 10
    (∀ (tgt : RTarget) (core : CoreNo) (ev : EvNo) (inc : BitVec 32),
      let logged := s.logAdd 0x02 ((s.dev.fnOfAsid a).getD 0) (s.dev.partNo core.toNat) core.toNat
        (core.toNat + ev.toNat * 2 ^ 9 + s.dev.rank * 2 ^ 13)
      (s.targetLid tgt = none → exec (.remoteIncrement tgt core ev inc) s = .next logged) ∧
      ∀ lid, s.targetLid tgt = some lid →
        let l := s.launchAt lid
        (l.ordOf core.toNat = none → exec (.remoteIncrement tgt core ev inc) s = .next logged) ∧
        ∀ o, l.ordOf core.toNat = some o →
          (o ∈ l.ended → exec (.remoteIncrement tgt core ev inc) s = .next logged) ∧
          (o ∉ l.ended → o ∈ l.started → aFind l.saved o = none → ∀ p, l.lease[o]? = some p →
            (s.caskAt p.1 p.2).st.live = true → (s.caskAt p.1 p.2).kr.lid.toNat = lid →
            ∃ u, exec (.remoteIncrement tgt core ev inc) s = .next u ∧ u.dev = s.dev ∧
              u.caskAt p.1 p.2 = (let c := s.caskAt p.1 p.2
                { c with cp := { c.cp with ev := smSet 0 c.cp.ev ev.toNat (c.evreg ev.toNat + inc) } }) ∧
              ∀ m b, (m, b) ≠ p → u.caskAt m b = s.caskAt m b) ∧
          (o ∉ l.ended → o ∉ l.started →
            ∃ u, exec (.remoteIncrement tgt core ev inc) s = .next u ∧ u.cores = s.cores ∧
              aFind u.dev.launches lid = some { l with incs := l.incs ++ [(core.toNat, ev.toNat, inc)] })) ∧
    (∀ tag : BitVec 16,
      let n := tag.toNat
      let cs := (s.dev.contribs.filter fun c => c.tag = n).foldr insertRank []
      let rest := s.dev.contribs.filter fun k => k.tag ≠ n
      (allHere cs = false → exec (.fredCombine tag) s = .next s) ∧
      ∀ x xs, cs = x :: xs → allHere cs = true →
        let c := x.cmd
        let ps := ranksOf c.bind
        ((∀ k ∈ cs, k.rank ≠ s.dev.rank) →
          exec (.fredCombine tag) s = .next { s with dev := { s.dev with contribs := rest } }) ∧
        ∀ own, (cs.find? fun k => k.rank = s.dev.rank) = some own →
          (agree cs = false → ∃ u, exec (.fredCombine tag) s = .next u ∧
            u = { s with dev := { s.dev with contribs := rest, disagree := u.dev.disagree } } ∧
            ∀ m, m ∈ u.dev.disagree ↔ m ∈ s.dev.disagree ∨ m = n) ∧
          (agree cs = true → ∀ i, ps.idxOf s.dev.rank = i →
            let kids := ((List.range 6).filter fun k => decide (i % 2 ^ (k + 1) = 0) && decide (i + 2 ^ k < ps.length)).map
              fun k => ps.getD (i + 2 ^ k) 0
            let at_ := fun (r : Nat) => s.dev.nodes.find? fun v => v.tag = n ∧ v.rank = r
            ((∃ r ∈ kids, at_ r = none) → exec (.fredCombine tag) s = .next s) ∧
            ∀ vs, kids.map at_ = vs.map some → ∃ u, exec (.fredCombine tag) s = .next u ∧ u.cores = s.cores ∧
              u.dev.contribs = rest ∧ u.dev.nodes = (s.dev.nodes.filter fun v => v.tag ≠ n) ∧
              u.dev.disagree = s.dev.disagree ∧ (∀ m, m ∈ u.dev.agreed ↔ m ∈ s.dev.agreed ∨ m = n) ∧
              let z := nodeValue c own.data vs
              (∀ k, i % 2 ^ (k + 1) = 2 ^ k → u.dev.results = s.dev.results ∧ ∃ m, u.dev.out = s.dev.out ++ [m] ∧
                m.pkt = .node (ps.getD (i - 2 ^ k) 0) n z.1 z.2.fl z.2.nans z.2.infs z.2.wraps) ∧
              (i = 0 →
                (c.writes s.dev.rank = true → aFind u.dev.results n = some {
                  data := z.1, fl := z.2.fl, nans := z.2.nans, infs := z.2.infs, wraps := z.2.wraps, written := false }) ∧
                (c.writes s.dev.rank = false → u.dev.results = s.dev.results) ∧
                ∀ k, k ∈ c.takers → k ≠ s.dev.rank → ∃ m ∈ u.dev.out,
                  m.pkt = .result k n z.1 z.2.fl z.2.nans z.2.infs z.2.wraps))) ∧
    (∀ acc : FabAcc, s.dev.groupSize = 0 → exec (.fabricAccess acc) s = .next s) ∧
    (0 < s.dev.groupSize →
      (∀ acc org, FabAcc.origin acc = some org →
        (∀ bs t, fabricDo (s.dev.partOfAsid a) a acc s = .ok bs t →
          exec (.fabricAccess acc) s = .next (t.send (.reply org.toNat 0 bs))) ∧
        (∀ t, fabricDo (s.dev.partOfAsid a) a acc s = .error .hold t → exec (.fabricAccess acc) s = .next s) ∧
        ∀ e t, e ≠ .hold → fabricDo (s.dev.partOfAsid a) a acc s = .error e t →
          let fn := (t.dev.fnOfAsid a).getD 0
          exec (.fabricAccess acc) s =
            .next ((t.logAdd 0x09 fn (t.dev.partOfFn fn) 0 (FabAcc.va acc)).send (.reply org.toNat 3 []))) ∧
      (∀ (org : BitVec 6) (tag : BitVec 16) (d6 d7 d10 mask : Word),
        let x : Contrib := { tag := tag.toNat, rank := org.toNat, d6 := d6, d7 := d7, d10 := d10, mask := mask, data := [] }
        ∃ u, exec (.fabricAccess (.contrib org tag d6 d7 d10 mask)) s = .next u ∧
          u = { s with dev := { s.dev with contribs := u.dev.contribs } } ∧
          ∀ k, k ∈ u.dev.contribs ↔ k = x ∨ (k ∈ s.dev.contribs ∧ ¬ (k.tag = x.tag ∧ k.rank = x.rank))) ∧
      (∀ (org : BitVec 6) (tag : BitVec 16) (bs : List Byte) (fl : BitVec 5) (nans infs wraps : Nat),
        let x : NodeVal := {
          tag := tag.toNat, rank := org.toNat, data := bs, fl := fl, nans := nans, infs := infs, wraps := wraps }
        ∃ u, exec (.fabricAccess (.node org tag bs fl nans infs wraps)) s = .next u ∧
          u = { s with dev := { s.dev with nodes := u.dev.nodes } } ∧
          ∀ k, k ∈ u.dev.nodes ↔ k = x ∨ (k ∈ s.dev.nodes ∧ ¬ (k.tag = x.tag ∧ k.rank = x.rank))) ∧
      (∀ (tag : BitVec 16) (bs : List Byte) (fl : BitVec 5) (nans infs wraps : Nat),
        ∃ u, exec (.fabricAccess (.result tag bs fl nans infs wraps)) s = .next u ∧
          u = { s with dev := { s.dev with results := u.dev.results } } ∧
          ∀ n, aFind u.dev.results n = if n = tag.toNat then some {
            data := bs, fl := fl, nans := nans, infs := infs, wraps := wraps, written := false } else aFind s.dev.results n) ∧
      (∀ (org : BitVec 6) (gid : BitVec 16) (m : GangMsg), ∃ u, exec (.fabricAccess (.gang org gid m)) s = .next u ∧
        u.cores = s.cores ∧
        (match m with
        | .took t => (gid.toNat, org.toNat, t) ∈ u.dev.gangTook
        | .start t => ∀ lid, s.targetLid (.gang gid) = some lid → (s.launchAt lid).gangT = none →
            (u.launchAt lid).gangT = some t
        | .late => (org.toNat, gid.toNat) ∈ u.dev.gangLate
        | .started => (org.toNat, gid.toNat) ∉ u.dev.gangLate)) ∧
      ∀ (org : BitVec 6) (src : Nat) (p : Packet),
        let ports := smGet 0 s.dev.froute p.rank
        (ports = 0 → exec (.fabricAccess (.forward org src p)) s = .next (s.send (.reply org.toNat 3 []))) ∧
        (ports ≠ 0 → exec (.fabricAccess (.forward org src p)) s = .next { s with dev := { s.dev with
          out := s.dev.out ++ [{ port := portOf ports (src + p.rank), org := org.toNat, src := src, pkt := p }] } })) ∧
    ∀ (line : BitVec 33) (t : Nat × Nat), aFind s.dev.combT line.toNat = some t →
      (s.dev.rtc < t.1 + 4096 → exec (.combiningMergeTimeout line) s = .next s) ∧
      (t.1 + 4096 ≤ s.dev.rtc →
        ∃ u, exec (.combiningMergeTimeout line) s = .next u ∧ u.cores = s.cores ∧ u.dev.dmem = s.dev.dmem ∧
          aFind u.dev.combT line.toNat = none ∧
          ∀ p, smGet none u.dev.shadow p = if p / 128 = line.toNat then none else smGet none s.dev.shadow p)

/-- R28, R33, R44, R154–R156, R336: a section starts once its requirements hold, and behind a section with NFA only once that
has retired; a header that fails its check stops the core; a stall at an empty FQ of 256 cycles, and a wait of K, of an
engine's word, of a word of M that has issued or of a command of Y, which lasts longer than LIMIT × 256 ring cycles, stop it
too. The model's readings: logs 26 and 42. -/
def Obligations.WaitBounds : Prop :=
  ∀ (s : State) (e : Eng),
    let st := s.cask.eng e
    let stops := fun (u : CoreUnit) (code : Nat) (stat : Word) => s.coreStop u { code := code, stat := stat }
    let late := fun (w : Option Wait) (token : Bool) => ∃ x, w = some x ∧ x.token = token ∧ x.tried + 1 = s.tick ∧
      0 < s.cask.kr.wdog.toNat ∧ s.cask.kr.wdog.toNat * 256 < s.dev.rtc - x.since
    (st.owed = [] →
      let bad := fun (code : Nat) => exec (.sectionStart e) s = .next (s.takeFaultAt s.turn.core s.turn.cask
        { code := code, eng := e.unit.num } s.cask.kr.kpc (some e))
      let met := fun (o : Eng) (rq : BitVec 16) => rq = 0xFFFF ∨ ((s.cask.eng o).retired = true ∧
        ((s.cask.eng o).rsn - rq).toNat < 2 ^ 15)
      (nsHits (s.cask.imemP e.unit) st.hoff 8 = true → bad 0x21) ∧
      (nsHits (s.cask.imemP e.unit) st.hoff 8 = false →
        (decodeHdr (s.cask.hdrAt e st.hoff) = none → bad 0x02) ∧
        ∀ h, decodeHdr (s.cask.hdrAt e st.hoff) = some h →
          (imemSize s.dual < st.hoff + 8 + 12 * h.n → bad 0x02) ∧
          (st.hoff + 8 + 12 * h.n ≤ imemSize s.dual →
            let ready := met (Eng.others e).1 h.rq1 ∧ met (Eng.others e).2 h.rq2
            (ready → exec (.sectionStart e) s = .next (s.setCask (s.cask.setEng e { st with
              started := true, idx := 0, snum := h.snum, count := h.n, nfa := h.nfa, lpStart := [], wait := none }))) ∧
            (¬ ready → exec (.sectionStart e) s = .next (s.eWaits e true))))) ∧
    (st.nfa = true → st.started = false → st.owed ≠ [] → (∀ o, o ∈ st.owed → o.ready = false) →
      exec (.sectionStart e) s = .next s) ∧
    (∀ t, s.engGoes = true → (s.cask.cp.fqWait.find? fun p => p.1 == e) = some (e, t) → s.cask.cp.fq = [] →
      (256 * 480 ≤ (s.dev.rtc - t) * s.clock →
        exec (.formatUnderflow e) s = .next (stops e.unit 0x03 (eStat s.cask e))) ∧
      ((s.dev.rtc - t) * s.clock < 256 * 480 → exec (.formatUnderflow e) s = .next s)) ∧
    (s.engGoes = true →
      let waits := st.wait :: st.late.map (·.wait)
      ((∃ w, w ∈ waits ∧ late w true) → exec (.tokenTimeout e) s = .next (stops e.unit 0x05 (eStat s.cask e))) ∧
      ((∀ w, w ∈ waits → ¬ late w true) → exec (.tokenTimeout e) s = .next s) ∧
      (∀ q, late st.wait false → exec (.watchdog e.unit q) s = .next (stops e.unit 0x60 (eStat s.cask e)))) ∧
    (s.kGoes = true → ∀ q,
      (late s.cask.st.wait false → exec (.watchdog .k q) s = .next (stops .k 0x60 0)) ∧
      (¬ late s.cask.st.wait false → exec (.watchdog .k q) s = .next s)) ∧
    ∀ q : YNo,
      (s.issuing = false → exec (.watchdog .y q) s = .next s) ∧
      (s.issuing = true →
        (∀ as y bs, s.cask.yy.queue q.toNat = as ++ y :: bs → late y.wait false → (∀ z, z ∈ as → ¬ late z.wait false) →
          exec (.watchdog .y q) s =
            .next (s.yStop q.toNat y.cnum { code := 0x60, stat := BitVec.ofNat 64 y.cursor })) ∧
        ((∀ y, y ∈ s.cask.yy.queue q.toNat → ¬ late y.wait false) →
          (∀ x, x ∈ s.cask.yy.chains → ¬ late x.wait false) → exec (.watchdog .y q) s = .next s))

/-- R18, R29, R190, R300, R307, R323, R324, R340, R344, R346, R357, R360: what happens to a core besides its words: a line
leaves the L1, the monitor entry is lost, bytes are poisoned, tiles age, aliases are cached, a request is nacked, the firmware
resumes a stopped strand, and issue moves to the other cask. The model's readings: logs 20 and 21. -/
def Obligations.CoreEvents : Prop :=
  ∀ s : State,
    (∀ (asid : BitVec 10) (line : BitVec 57) (l : L1Line), (s.core s.turn.core).lineAt asid line.toNat = some l →
      (s.stuck s.turn.core l = true → exec (.eviction asid line) s = .next s) ∧
      (s.stuck s.turn.core l = false →
        ∃ u, exec (.eviction asid line) s = .next u ∧ u.dev = (s.writeBack s.turn.core l).dev ∧
          (l.dirty = 0 → u.dev = s.dev) ∧
          ∀ a n, (u.core s.turn.core).lineAt a n =
            if a = asid ∧ n = line.toNat then none else (s.core s.turn.core).lineAt a n)) ∧
    (s.cask.st.armed ≠ none → exec .monitorEntryEviction s =
      .next (s.setCask { s.cask with st := { s.cask.st with spur := true } })) ∧
    (∀ (addr : Word) (n : Nat),
      let a := addr.toNat
      (∃ u, exec (.dataPoisoned .spm addr n) s = .next u ∧ s.onlyCask u ∧
        u.cask = { s.cask with mem := { s.cask.mem with spmP := u.cask.mem.spmP } } ∧
        ∀ p, p ∈ u.cask.mem.spmP ↔ p ∈ s.cask.mem.spmP ∨ (a ≤ p ∧ p < a + n ∧ p < spmSize s.dual)) ∧
      (∃ u, exec (.dataPoisoned .klm addr n) s = .next u ∧ s.onlyCask u ∧
        u.cask = { s.cask with mem := { s.cask.mem with klmP := u.cask.mem.klmP } } ∧
        ∀ p, p ∈ u.cask.mem.klmP ↔ p ∈ s.cask.mem.klmP ∨ (a ≤ p ∧ p < a + n ∧ p < klmSize s.dual)) ∧
      (∃ u, exec (.dataPoisoned .acm addr n) s = .next u ∧ s.onlyCask u ∧
        u.cask = { s.cask with mem := { s.cask.mem with acmP := u.cask.mem.acmP } } ∧
        ∀ p, p ∈ u.cask.mem.acmP ↔ p ∈ s.cask.mem.acmP ∨ (a ≤ p ∧ p < a + n ∧ p < 0xC0000)) ∧
      (∀ (asid : BitVec 10) (l : L1Line), (s.core s.turn.core).lineAt asid (a / 128) = some l →
        ∃ u m, exec (.dataPoisoned (.l1 asid) addr n) s = .next u ∧ u.dev = s.dev ∧
          (u.core s.turn.core).lineAt asid (a / 128) = some { l with pois := m } ∧
          ∀ i, i < 128 → (m.getLsbD i = true ↔ l.pois.getLsbD i = true ∨ (a % 128 ≤ i ∧ i < a % 128 + n))) ∧
      (∀ u : CoreUnit, u ≠ .y → a < imemSize s.dual →
        ∃ t, s.onlyCask t ∧ t.cask = { s.cask with mem := t.cask.mem } ∧
          exec (.dataPoisoned (.imem u) addr n) s = .next (t.logAdd 0x06 ((s.dev.fnOfAsid s.cask.kr.asid).getD 0)
            (s.dev.partNo s.turn.core) s.turn.core (u.num * 2 ^ 17 + a)) ∧
          ∀ p, p ∈ t.cask.imemP u ↔ p ∈ s.cask.imemP u ∨ p / 128 = a / 128) ∧
      ∃ u, exec (.dataPoisoned .home addr n) s = .next u ∧ u.cores = s.cores ∧
        u.dev = { s.dev with dmemP := u.dev.dmemP, cmon := u.dev.cmon } ∧
        ∀ p, p ∈ u.dev.dmemP ↔ p ∈ s.dev.dmemP ∨ (a ≤ p ∧ p < a + n ∧ p < 384 * 2 ^ 30)) ∧
    (∀ (lid : BitVec 32) (l : Launch) (n : Nat), aFind s.dev.launches lid.toNat = some l → l.ageing = some n →
      l.begun = true → l.startAt + n ≤ s.dev.rtc →
      ∃ u, exec (.tileAgeing lid) s = .next u ∧ u.cores = s.cores ∧
        aFind u.dev.launches lid.toNat = some { l with aged := true }) ∧
    (∀ (va : Word) (l : Loc) (t : State), translate s.turn.core s.cask.kr.asid va.toNat .read s = .ok l t →
      exec (.remap va) s = .next t) ∧
    (∀ u : CoreUnit,
      let k := s.core s.turn.core
      let open_ := fun (x : Ask) => x.unit = askNo s.turn.cask u ∧ x.slice.isSome = true
      ((∀ x ∈ k.asks, ¬ open_ x) → exec (.remapNack u) s = .next s) ∧
      ∀ as x bs, k.asks = as ++ x :: bs → open_ x → (∀ z ∈ as, ¬ open_ z) →
        let n := x.nacks + 1
        let v := s.setCore s.turn.core { k with asks := k.asks.map fun z => if z = x then
          { x with slice := none, nacks := n % 8 } else z }
        let t : State := { v with dev := v.dev.sliceCount (x.slice.getD 0) 7 1 }
        (n ≠ 8 ∨ s.unitGoes u = false → exec (.remapNack u) s = .next t) ∧
        (n = 8 → s.unitGoes u = true →
          (u ≠ .y → exec (.remapNack u) s = .next (t.coreStop u { code := 0x22, stat := match u.engine with
            | some e => eStat t.cask e
            | none => 0 })) ∧
          (u = .y → x.queue ≠ 4 → ∀ cs y ds, t.cask.yy.queue x.queue = cs ++ y :: ds → y.cnum = x.cnum →
            (∀ z ∈ cs, z.cnum ≠ x.cnum) →
            exec (.remapNack u) s = .next (t.yStop x.queue y.cnum { code := 0x22, stat := BitVec.ofNat 64 y.cursor })) ∧
          (u = .y → x.queue = 4 → ∀ c, t.cask.yy.chains[x.cnum]? = some c →
            exec (.remapNack u) s = .next (t.yStop (c.queue.getD 0) 0 { code := 0x22 })))) ∧
    (s.cask.st.live = true → s.cask.st.kstop = true →
      (s.cask.kr.priv = false →
        let pc := natOf (s.cask.klmBytes (frameAt s.dual + 24) 8) % 2 ^ 18
        ∃ u, exec (.firmwareResume true) s = .next u ∧ s.onlyCask u ∧
          u.cask.st = { s.cask.st with
            stopped := false, kstop := false, wait := none,
            arr := if pc = (smGet 0 s.cask.st.frame 3).toNat then s.cask.st.arr else [] } ∧
          u.cask.kr = { s.cask.kr with
            kpc := pc, tag := BitVec.ofNat 64 (natOf (s.cask.klmBytes (frameAt s.dual + 32) 8)) }) ∧
      exec (.firmwareResume false) s = .next (s.launchFail s.lid)) ∧
    ∀ dst ckpt : Bool,
      let k := s.core s.turn.core
      let due := ckpt = true → (s.launchAt (k.cask k.cur).kr.lid.toNat).policy = some .checkpoint
      (¬ (k.dual = true ∧ k.cur ≠ dst ∧ due) → exec (.caskSwitch dst ckpt) s = .next s) ∧
      (k.dual = true → k.cur ≠ dst → due → exec (.caskSwitch dst ckpt) s = .next (s.doSwitch dst ckpt) ∧
        ((s.doSwitch dst ckpt).core s.turn.core).cur = dst)

/-- R9, R11, R13, R15, R16, R34, R194, R304, R310, R313–R318, R326–R329, R396, R398: the grants, starts and ends of launches;
from hand-over on a boundary is due every QUANT cycles and puts the new values in force; the queue with the lowest pass is
served and charged by its stride; the policy of an outgoing launch follows its estimate; drains escalate, checkpoints free
their cores, rank 0 proposes the start time of a gang once every member has taken its record and the members adopt it, and
what holds the lease of a late gang is aborted. The model's readings: logs 10, 19, 43 and 60. -/
def Obligations.SchedulerEvents : Prop :=
  launchEnds ∧ launchGrants ∧ launchStarts ∧
  ∀ s : State,
    let now := s.dev.rtc / s.dev.quant * s.dev.quant
    (now ≤ s.dev.lastQ ∨ s.dev.sec.stage ≠ 15 → exec .quantumBoundary s = .next s) ∧
    (s.dev.lastQ < now → s.dev.sec.stage = 15 → exec .quantumBoundary s = .next ((s.dev.parts.map (·.1)).foldl (fun s p => s.boundary p)
      { s with dev := { s.dev with
        lastQ := now, freed := [], grantDue := [], quant := max 2400 (s.dev.schedctl.extractLsb' 0 16).toNat,
        sched := s.dev.schedctl, capf := s.dev.capfNew,
        lqs := s.dev.lqs.map fun x => (x.1, { x.2 with
          tickets := (x.2.ctl.extractLsb' 0 21).toNat, open_ := x.2.ctl.getLsbD 31 }) } })) ∧
    (∀ (qs : List Nat) (q : Nat), (∀ r ∈ qs, ∀ lid l, s.headLaunch r = some (lid, l) → l.gang = false) →
      s.nextQueue qs = some q → q ∈ qs ∧ ∀ r ∈ qs,
        (s.queueAt q).pass < (s.queueAt r).pass ∨ ((s.queueAt q).pass = (s.queueAt r).pass ∧ q ≤ r)) ∧
    (∀ (r drainb killt prio : Nat) (restartable : Bool), policyOf r drainb killt restartable prio =
      if r ≤ drainb then .drain else if restartable = true ∧ killt ≤ prio then .kill else .checkpoint) ∧
    (∀ p : BitVec 6,
      let n := p.toNat
      let t := (s.settleGrants n).takeHeads n
      let u := (t.round n (t.freedCasks n) false).s.settleGrants n
      (n ∉ s.dev.grantDue → exec (.completionGrant p) s = .next (s.settleGrants n)) ∧
      (n ∈ s.dev.grantDue → exec (.completionGrant p) s = .next { u with dev := { u.dev with
        grantDue := u.dev.grantDue.filter fun k => k ≠ n } })) ∧
    (∀ (lid o n : Nat) (b : Bool),
      let l := s.launchAt lid
      aFind l.saved o = none → o ∉ l.started → l.gangWaits s.dev.rtc = false →
        let v := if l.begun = true then s else s.beginLaunch lid
        s.fill lid o n b = if (v.launchAt lid).begun = true then (v.startStrand lid o n b).wake n b else v) ∧
    (∀ lid : BitVec 32,
      let l := s.launchAt lid.toNat
      let due := l.policy = some .drain ∧ l.drainAt + 4 * (s.dev.sched.extractLsb' 16 16).toNat * 2400 ≤ s.dev.rtc
      (due → exec (.drainEscalation lid) s =
        .next ((s.ckptLaunch lid.toNat).settleGrants (s.partOfLaunch lid.toNat))) ∧
      (¬ due → exec (.drainEscalation lid) s = .next s) ∧
      let after := (s.dev.sched.extractLsb' 32 16).toNat * 2400
      (after ≤ s.dev.rtc → l.late (s.dev.rtc - after) = true →
        let out := (s.dev.launches.map (·.1)).filter fun m =>
          decide (m ≠ lid.toNat) && (s.casksOf m).any fun x => l.lease.contains x
        exec (.gangAbort lid) s =
          .next ((out.foldl (fun s m => s.escalate m) s).settleGrants (s.partOfLaunch lid.toNat)))) ∧
    (s.cask.st.live = true → s.dual = false → s.launch.granted = false → s.launch.policy = some .checkpoint →
      s.linesReady s.turn.core s.turn.cask = true →
      let t := (s.switchOut s.turn.core s.turn.cask true).saveStrand s.turn.core s.turn.cask
      exec .checkpointSaveDone s = .next (t.settleGrants (s.partOfLaunch s.lid)) ∧
      (t.caskAt s.turn.core s.turn.cask).st.live = false) ∧
    ∀ (gid : BitVec 16) (v : Word),
      let first := s.dev.groupSize = 0 ∨ s.dev.rank = 0
      let adopts := fun (u : State) (n : Nat) => u.cores = s.cores ∧ ∀ lid l, s.targetLid (.gang gid) = some lid →
        aFind s.dev.launches lid = some l →
        aFind u.dev.launches lid = some (if l.gangT = none then { l with gangT := some n } else l)
      (¬ first → ∃ u, exec (.gangStart gid v) s = .next u ∧ u.dev = { s.dev with launches := u.dev.launches } ∧
        adopts u v.toNat) ∧
      (first → s.dev.gangTime gid.toNat = none → exec (.gangStart gid v) s = .next s) ∧
      ∀ n, s.dev.gangTime gid.toNat = some n →
        (first → ∃ u, exec (.gangStart gid v) s = .next u ∧ adopts u n ∧
          ∀ r, r < s.dev.groupSize → r ≠ s.dev.rank → ∃ m ∈ u.dev.out, m.pkt = .gang r gid.toNat (.start n)) ∧
        (∀ r, r < s.dev.groupSize → ∃ x ∈ s.dev.gangTook, x.1 = gid.toNat ∧ x.2.1 = r) ∧
        (0 < s.dev.quant → n % s.dev.quant = 0 ∧
          (∀ x ∈ s.dev.gangTook, x.1 = gid.toNat → x.2.2 + 2 * s.dev.quant ≤ n) ∧
          ∃ x ∈ s.dev.gangTook, x.1 = gid.toNat ∧ n < x.2.2 + 3 * s.dev.quant)

/-- R13, R378–R395: a reset leaves no strand, launch or queue, and what stands outside the device as it is, a PF_FLR with
every dirty line written home; VF_FLR ends every launch of the function with STATUS 2, writes its dirty lines home, disables
its queues and invalidates its windows; neither takes place while a slice would turn a line of them away; a doorbell starts a
command of the mailbox or is lost, and the security processor answers it; the power loop steps the cap, and a trip ends what
runs. The model's readings: logs 11, 12, 21, 22 and 60; that RTC is 0 after a cold reset or a PF_FLR is its choice too, since
R196 states no reset value (log 2). -/
def Obligations.BringUpEvents : Prop :=
  ∀ s : State,
    let blank := fun (v u : State) => u.cores = [] ∧ u.turn = s.turn ∧ u.tick = s.tick ∧ u.dev.hmem = v.dev.hmem ∧
      u.dev.pmem = v.dev.pmem ∧ u.dev.hmemP = v.dev.hmemP ∧ u.dev.pmemP = v.dev.pmemP ∧ u.dev.svnMin = v.dev.svnMin ∧
      u.dev.rtc = 0 ∧ u.dev.dmem = [] ∧ u.dev.launches = [] ∧ u.dev.lqs = [] ∧
      u.dev.aslot = [] ∧ u.dev.leaves = [] ∧ u.dev.l2 = [] ∧ u.dev.wins = [] ∧ u.dev.trip = false ∧
      (u.dev.sec.stage ≠ 15 → u.dev.parts = []) ∧
      (u.dev.sec.stage = 15 → ∃ p, u.dev.parts = [(0, p)] ∧ p.dual = false ∧ p.gen = 0 ∧ p.busy = false ∧ p.fns = [] ∧
        (∀ c, c ∈ p.cores ↔ c < 384 ∧ (aGet Vint.reset u.dev.vint c).en = true) ∧
        ∀ i, i < 1024 → smGet 0 p.smap i = i % 96)
    (∃ u, exec .coldReset s = .next u ∧ blank s u) ∧
    (s.dev.sec.stage < 3 → exec .pfFlr s = .next s) ∧
    (s.allFree (fun _ => true) = false → exec .pfFlr s = .next s) ∧
    (3 ≤ s.dev.sec.stage → s.allFree (fun _ => true) = true → ∃ u, exec .pfFlr s = .next u ∧ blank s.allHome u) ∧
    (∀ fn : BitVec 7, (fn = 0 ∨ 64 < fn.toNat ∨ s.dev.sec.stage < 3 → exec (.vfFlr fn) s = .next s) ∧
      (fn ≠ 0 → fn.toNat ≤ 64 → 3 ≤ s.dev.sec.stage →
        let ls := s.dev.launches.filter fun x => decide ((s.queueAt x.2.queue).vf = fn.toNat)
        let v := ls.foldl (fun s x => s.launchFail x.1) s
        let own := fun (l : L1Line) => decide (v.dev.fnOfAsid l.asid = some fn.toNat)
        (v.allFree own = false → exec (.vfFlr fn) s = .next s) ∧
        (v.allFree own = true → ∃ u, exec (.vfFlr fn) s = .next u ∧
          let w := (v.cores.map (·.1)).foldl (fun t n => t.writeBackIf n own) v
          u.cores = w.cores ∧ u.dev = { w.dev with lqs := u.dev.lqs, wins := u.dev.wins } ∧
          (∀ x ∈ u.dev.launches, (u.queueAt x.2.queue).vf ≠ fn.toNat) ∧
          (∀ x ∈ u.dev.lqs, x.2.vf = fn.toNat → x.2.en = false ∧ x.2.open_ = false) ∧
          (∀ q, (w.queueAt q).vf ≠ fn.toNat → u.queueAt q = w.queueAt q) ∧
          ∀ x, x ∈ u.dev.wins ↔ x ∈ w.dev.wins ∧ x.1 / 2 ^ 15 ≠ fn.toNat))) ∧
    (∀ w : Word,
      let x := s.dev.sec
      let sec := fun (y : Secure) => (.next { s with dev := { s.dev with sec := y } } : Host.Outcome State Fault Refusal)
      let isOpen := 3 ≤ x.stage ∨ x.recovery = true
      let code := w.toNat % 2 ^ 8
      let cmds := [(Instr.attest w, 1), (.cert w, 2), (.log w, 3), (.loadimg w, 4)]
      (¬ isOpen → exec (.registerWrite .smcmd w) s = .next s) ∧
      (isOpen → x.job ≠ none → exec (.registerWrite .smcmd w) s = sec { x with lost := true }) ∧
      (isOpen → x.job = none →
        (1 ≤ code ∧ code ≤ 4 → exec (.registerWrite .smcmd w) s = sec { x with job := some w }) ∧
        (code = 0 ∨ 4 < code → exec (.registerWrite .smcmd w) s = sec { x with result := 1 })) ∧
      (∀ c, c ∈ cmds → (x.job ≠ some w ∨ code ≠ c.2 → exec c.1 s = .next s) ∧
        (x.job = some w → code = c.2 → code ≠ 4 → w.toNat / 2 ^ 8 ≠ 0 →
          exec c.1 s = sec { x with job := none, result := 3 })) ∧
      (x.job = some w → w.toNat / 2 ^ 8 = 0 →
        let c := (Config.cert idModulus).take 4088
        let es := (x.log.drop (natOf (smGetRange 0 x.mbox 0 8))).take 31
        (code = 1 → exec (.attest w) s = sec { x with
          job := none, result := 0,
          mbox := smSetRange 0 x.mbox 0 (x.report ++ idSign x.report (padTo 64 (Config.salt s.tick))) }) ∧
        (code = 2 → exec (.cert w) s = sec { x with
          job := none, result := 0, mbox := smSetRange 0 x.mbox 0 (bytesOf 8 c.length ++ c) }) ∧
        (code = 3 → exec (.log w) s = sec { x with
          job := none, result := 0, mbox := smSetRange 0 x.mbox 0 (bytesOf 8 es.length ++ es.flatten) })) ∧
      (x.job = some w → code = 4 → x.recovery = false → exec (.loadimg w) s = sec { x with job := none, result := 2 }) ∧
      (x.job = some w → code = 4 → x.recovery = true →
        let n := (w.extractLsb' 27 13).toNat
        let img := if w.getLsbD 8 = true then smGetRange 0 x.mbox 0 n else x.image.getD [] ++ smGetRange 0 x.mbox 0 n
        let ok := chunkOk x.image w.toNat img
        let code := verifyImage img 1 Config.khash (s.dev.minSvn 1)
        (ok = false → exec (.loadimg w) s = sec { x with job := none, result := 3, image := none }) ∧
        (ok = true → w.getLsbD 9 = false → exec (.loadimg w) s = sec { x with job := none, result := 0, image := some img }) ∧
        (ok = true → w.getLsbD 9 = true → code ≠ 0 →
          exec (.loadimg w) s = sec { x with job := none, result := 0x10 + code, err := code, image := none }) ∧
        (ok = true → w.getLsbD 9 = true → code = 0 →
          let d : Dev := { s.dev with sec := { x with job := none, result := 0, image := none, err := 0 } }
          (x.stage = 2 → exec (.loadimg w) s = .next { s with dev := d.fromStage1 s.tick img }) ∧
          (x.stage ≠ 2 → exec (.loadimg w) s = sec { x with job := none, result := 0, image := none })))) ∧
    (let due := s.dev.rtc / 240000 * 240000
     let t := fun (i : Nat) => Config.temp s.tick i % 256
     let p := Config.power s.tick % 2 ^ 16
     let hot := max (max (max (t 0) (t 1)) (max (t 2) (t 3))) (t 4)
     let cap := if s.dev.plimw < p ∨ s.dev.tthr ≤ hot then max 1 (s.dev.capfNew - 8)
       else if p * 16 < s.dev.plimw * 15 ∧ hot + 5 < s.dev.tthr then min 256 (s.dev.capfNew + 4) else s.dev.capfNew
     let cool := hot + 10 < s.dev.tthr
     (due ≤ s.dev.lastP ∨ s.dev.sec.stage ≠ 15 → exec .powerStep s = .next s) ∧
     (s.dev.lastP < due → s.dev.sec.stage = 15 →
       (hot < 125 → ∃ u, exec .powerStep s = .next u ∧ u.cores = s.cores ∧ u.dev.launches = s.dev.launches ∧
         u.dev.lastP = due ∧ u.dev.capf = s.dev.capf ∧
         (s.dev.trip = false ∨ ¬ cool → u.dev.capfNew = cap ∧ u.dev.trip = s.dev.trip ∧ u.dev.grantDue = s.dev.grantDue) ∧
         (s.dev.trip = true → cool → u.dev.capfNew = 128 ∧ u.dev.trip = false ∧ u.dev.freed = [] ∧ u.dev.grantDue = [])) ∧
       (125 ≤ hot → ∃ v : State, v.cores = s.cores ∧ v.dev.launches = s.dev.launches ∧ v.dev.trip = true ∧
         let out := (v.dev.launches.map (·.1)).filter fun lid => v.running lid
         let ready := ∀ lid ∈ out, ∀ p ∈ (v.launchAt lid).lease, v.linesReady p.1 p.2 = true
         (¬ ready → exec .powerStep s = .next s) ∧
         (ready → exec .powerStep s = .next (out.foldl (fun s lid => s.launchFail lid)
           (out.foldl (fun s lid => (s.launchAt lid).lease.foldl (fun s p => s.linesHome p.1 p.2) s) v))))))

/-- R310, R311, R315, R319–R322, R350, R358, R359, R379: the registers of the launch queues, the cap, the vintage table, the
residency, the slice maps and the slots take what is written from hand-over on, where the manual allows it, and a write that
it does not allow is refused and logged with code 0x03; before, nothing is written. A change of a slice map starts with the
write; no station adopts the new map before every slice has acknowledged and its own requests are answered. The model's
readings: logs 12, 21, 22 and 38. -/
def Obligations.HostRegisters : Prop :=
  ∀ s : State,
    let late := fun (i : Instr) (t : State) =>
      exec i s = .next (if s.dev.sec.stage = 15 then t else s)
    let refused := fun (off fn part core : Nat) => s.logAdd 0x03 fn part core off
    let put := fun (q : Nat) (x : LQueue) => ({ s with dev := { s.dev with lqs := aSet s.dev.lqs q x } } : State)
    let dev := fun (d : Dev) => ({ s with dev := d } : State)
    (∀ (q : BitVec 8) (v : Word),
      let x := s.queueAt q.toNat
      let ahead := (v.toNat + 2 ^ 64 - x.head) % 2 ^ 64
      (x.entries < ahead → late (.lqtailWrite q v) (refused (0x110018 + 64 * q.toNat) 0 x.part 0)) ∧
      (ahead ≤ x.entries → x.head ≠ x.tail ∨ v.toNat = x.head →
        late (.lqtailWrite q v) (put q.toNat { x with tail := v.toNat })) ∧
      (ahead ≤ x.entries → x.head = x.tail → v.toNat ≠ x.head → s.dev.sec.stage = 15 →
        ∃ p, exec (.lqtailWrite q v) s = .next (put q.toNat { x with tail := v.toNat, pass := p }) ∧ x.pass ≤ p)) ∧
    (∀ (q : BitVec 8) (v : Word),
      let vf := (v.extractLsb' 32 7).toNat
      let tickets := (v.extractLsb' 0 21).toNat
      let ok := (1 ≤ tickets ∧ tickets ≤ 2 ^ 20) ∧
        (vf = 0 ∨ vf ∈ (aGet Partition.reset s.dev.parts (v.extractLsb' 40 6).toNat).fns) ∧
        ∃ k, k < 64 ∧ (smGet 0 s.dev.aslot k).getLsbD 7 = true ∧ ((smGet 0 s.dev.aslot k).extractLsb' 0 7).toNat = vf
      (v.getLsbD 31 = false ∨ ok →
        late (.lqctlWrite q v) (put q.toNat { s.queueAt q.toNat with ctl := v &&& 0x80003F7F81FFFFFF })) ∧
      (v.getLsbD 31 = true → ¬ ok → late (.lqctlWrite q v) (refused (0x110008 + 64 * q.toNat) 0 (s.queueAt q.toNat).part 0))) ∧
    (∀ v : Word,
      let n := (v.extractLsb' 0 9).toNat
      (1 ≤ n ∧ n ≤ 256 → late (.vcapWrite v) (dev { s.dev with capfNew := n })) ∧
      (n = 0 ∨ 256 < n → late (.vcapWrite v) (refused 0x100008 0 0 0))) ∧
    (∀ (c : CoreNo) (en spare : Bool), c.toNat < 384 →
      let x := aGet Vint.reset s.dev.vint c.toNat
      let bad := en = true ∧ x.en = false ∧ (x.spare = false ∨ x.seen = true)
      (bad → late (.vintageEnWrite c en spare) (refused (Config.bar0 c.toNat) 0 (s.dev.partNo c.toNat) c.toNat)) ∧
      (¬ bad → late (.vintageEnWrite c en spare) (dev { s.dev with
        vint := aSet s.dev.vint c.toNat { x with en := en, spare := spare, seen := x.seen || en } }))) ∧
    (∀ (p : BitVec 6) (dual : Bool),
      let x := aGet Partition.reset s.dev.parts p.toNat
      let busy := s.anyStrand fun n _ => x.cores.contains n
      (x.dual = dual → late (.residencyChange p dual) s) ∧
      (x.dual ≠ dual → busy = true → late (.residencyChange p dual) (refused (Config.bar0 (1024 + p.toNat)) 0 p.toNat 0)) ∧
      (x.dual ≠ dual → busy = false → (∃ n ∈ x.cores, s.homeFree n = false) → late (.residencyChange p dual) s) ∧
      (x.dual ≠ dual → busy = false → (∀ n ∈ x.cores, s.homeFree n = true) →
        let t := x.cores.foldl (fun s n => s.setMode n dual) s
        late (.residencyChange p dual) { t with dev := { t.dev with
          parts := aSet t.dev.parts p.toNat { aGet Partition.reset t.dev.parts p.toNat with dual := dual } } }) ∧
      ∀ n, let k := (s.setMode n dual).core n
        k.k0 = Cask.reset dual ∧ k.k1 = Cask.reset dual ∧ k.cur = false ∧ k.dual = dual ∧ k.l1 = [] ∧
        k.mon = (s.core n).mon) ∧
    (∀ (p : BitVec 6) (v : Word),
      let x := aGet Partition.reset s.dev.parts p.toNat
      (x.busy = false → (v.setWidth 8 : BitVec 8) = x.gen + 1 →
        late (.smgenWrite p v) (dev { s.dev with parts := aSet s.dev.parts p.toNat { x with
          gen := x.gen + 1, busy := true, next := x.staged, adopted := [], stations := [] } })) ∧
      (x.busy = true ∨ (v.setWidth 8 : BitVec 8) ≠ x.gen + 1 →
        late (.smgenWrite p v) (refused (Config.bar0 (2048 + p.toNat)) 0 p.toNat 0)) ∧
      ∀ c, x.slices.all x.adopted.contains = false ∨ (s.core c).asks.all (·.slice.isNone) = false →
        x.cores.all x.stations.contains = false → s.adoptStep p.toNat false c = s) ∧
    ∀ (slot : BitVec 6) (v : Word),
      let busy := s.anyStrand fun _ c => decide (c.kr.asid.toNat / 16 = slot.toNat)
      (busy = true → late (.aslotWrite slot v) (refused (0x200100 + 8 * slot.toNat) 0 0 0)) ∧
      (busy = false → late (.aslotWrite slot v) (dev { s.dev with
        aslot := smSet 0 s.dev.aslot slot.toNat (v.setWidth 8) }))

/-- R124, R310, R311, R318, R350–R352, R359, R362, R366–R368, R379, R381, R387, R390, R393: migration moves a page and its
leaf; the aperture takes windows of slots that the function is bound to, and requests through them; AtomicOps act on
system-atomic pages alone; the registers of the table take their writes, and the BAR0 of a virtual function takes those of its
queues' LQTAIL. A read in BAR0 is answered with what the register holds: 0 before hand-over, but for the security block, whose
buffer reads 0 while a command runs. The model's readings: logs 11, 12, 13, 21, 38 and 73. -/
def Obligations.HostAccesses : Prop :=
  ∀ s : State,
    let late := fun (i : Instr) (t : State) => exec i s = .next (if s.dev.sec.stage = 15 then t else s)
    let dev := fun (d : Dev) => ({ s with dev := d } : State)
    let answer := fun (t : State) (ok : Bool) (bs : List Byte) =>
      ({ t with dev := { t.dev with hostOk := ok, hostData := bs } } : State)
    (∀ (asid : BitVec 10) (va : Word) (frame : BitVec 24),
      let g := frame.toNat * 2 ^ 16
      (s.dev.migratable asid va.toNat = none → late (.migctl asid va frame) (dev { s.dev with migDone := false })) ∧
      ∀ pa lg e, s.dev.migratable asid va.toNat = some (pa, lg, e) → s.dev.sec.stage = 15 →
        g % 2 ^ lg = 0 → g ≠ pteAddr e → g + 2 ^ lg ≤ 384 * 2 ^ 30 →
        ∃ u, exec (.migctl asid va frame) s = .next u ∧ u.cores = s.cores ∧ u.dev.migDone = true ∧
          (∀ a, a < 2 ^ lg → ¬ (pa ≤ g + a ∧ g + a < pa + 8) →
            smGet 0 u.dev.dmem (g + a) = smGet 0 s.dev.dmem (pteAddr e + a)) ∧
          (∀ a, (a < g ∨ g + 2 ^ lg ≤ a) → ¬ (pa ≤ a ∧ a < pa + 8) → smGet 0 u.dev.dmem a = smGet 0 s.dev.dmem a) ∧
          natOf (smGetRange 0 u.dev.dmem pa 8) = (e % 2 ^ 8 + g + e / 2 ^ 52 % 2 ^ 12 * 2 ^ 52) % 2 ^ 64 ∧
          ∀ l ∈ u.dev.leaves, ¬ (l.asid = asid ∧ l.va / 2 ^ lg = va.toNat / 2 ^ lg)) ∧
    (∀ (fn : BitVec 7) (i : BitVec 15) (v : Word), fn.toNat ≤ 64 → i.toNat < windows fn.toNat →
      let a : BitVec 10 := v.extractLsb' 6 10
      let ok := s.dev.fnOfAsid a = some fn.toNat ∨ (s.dev.fnOfAsid a = none ∧ v.getLsbD 0 = false)
      (ok → late (.apertureWindowWrite fn i v) (dev { s.dev with
        wins := aSet s.dev.wins (2 ^ 15 * fn.toNat + i.toNat)
          { v := v.getLsbD 0, asid := a, page := (v.extractLsb' 21 43).toNat } })) ∧
      (¬ ok → late (.apertureWindowWrite fn i v)
        (s.logAdd 0x03 fn.toNat (s.dev.partOfFn fn.toNat) 0 (Config.bar0 (4096 + 2 ^ 15 * fn.toNat + i.toNat))))) ∧
    (∀ (fn : BitVec 7) (off : BitVec 36), inBar2 fn.toNat off.toNat = true →
      let f := fn.toNat
      let w := aGet Window.reset s.dev.wins (2 ^ 15 * f + off.toNat / 2 ^ 21)
      let va := w.page * 2 ^ 21 + off.toNat % 2 ^ 21
      let p := s.dev.partOfAsid w.asid
      (w.v = false → ∀ (acc : ApAcc) (op : HostAtomic) (sz : BitVec 2) (x c : Word),
        exec (.hostApertureAccess fn off acc) s = .next (answer (s.logAdd 0x08 f (s.dev.partOfFn f) 0 off.toNat) false []) ∧
        exec (.hostAtomicop fn off op sz x c) s = .next (answer (s.logAdd 0x08 f (s.dev.partOfFn f) 0 off.toNat) false [])) ∧
      (w.v = true →
        (∀ (acc : ApAcc) (bs : List Byte) (t : State), hostDo p w.asid va acc s = .ok bs t →
          exec (.hostApertureAccess fn off acc) s = .next (answer t true bs)) ∧
        (∀ (acc : ApAcc) (e : Stop) (t : State), hostDo p w.asid va acc s = .error e t →
          exec (.hostApertureAccess fn off acc) s = .next (if e = .hold then s else answer t false [])) ∧
        ∀ (op : HostAtomic) (sz : BitVec 2) (x c : Word),
          let n := 4 * 2 ^ sz.toNat
          (2 ≤ sz.toNat →
            exec (.hostAtomicop fn off op sz x c) s = .next (answer (s.logAdd 0x01 f (s.dev.partOfFn f) 0 off.toNat) false [])) ∧
          (sz.toNat < 2 → canonical va = true → ∀ e t, translateIo p w.asid va .any s = .error e t →
            exec (.hostAtomicop fn off op sz x c) s = .next (if e = .hold then s else answer t false [])) ∧
          (sz.toNat < 2 → canonical va = true → ∀ l t, translateIo p w.asid va .any s = .ok l t →
            let v := t.reach l .demand
            (l.sa = false → exec (.hostAtomicop fn off op sz x c) s =
              .next (answer (t.logAdd 0x01 f (t.dev.partOfFn f) 0 off.toNat) false [])) ∧
            (l.sa = true → ¬ (va % n = 0 ∧ l.r = true ∧ l.w = true) →
              exec (.hostAtomicop fn off op sz x c) s = .next (answer t false [])) ∧
            (l.sa = true → va % n = 0 → l.r = true → l.w = true → l.ty ≠ 2 → v.homePoison l n = false →
              let bs := v.homeBytes l n
              let new := match op with
                | .fetchAdd => (natOf bs + x.toNat) % 2 ^ (8 * n)
                | .swap => x.toNat % 2 ^ (8 * n)
                | .cas => if natOf bs = c.toNat % 2 ^ (8 * n) then x.toNat % 2 ^ (8 * n) else natOf bs
              exec (.hostAtomicop fn off op sz x c) s = .next (answer ((v.atomics l 1).homeWrite l (bytesOf n new)) true bs))))) ∧
    (∀ (fn : BitVec 7) (off : BitVec 16) (v : Word),
      let qs := (List.range 256).filter fun q => decide (fn.toNat ≠ 0) && decide ((s.queueAt q).vf = fn.toNat)
      (∀ q : BitVec 8, qs[off.toNat / 64]? = some q.toNat → off.toNat % 64 = 0x18 →
        let y := s.queueAt q.toNat
        let ahead := (v.toNat + 2 ^ 64 - y.head) % 2 ^ 64
        (ahead ≤ y.entries → exec (.registerWrite (.vfBar fn off) v) s = exec (.lqtailWrite q v) s) ∧
        (y.entries < ahead → late (.registerWrite (.vfBar fn off) v)
          (s.logAdd 0x03 fn.toNat y.part 0 (0x110018 + 64 * q.toNat)))) ∧
      (off.toNat % 64 ≠ 0x18 ∨ qs[off.toNat / 64]? = none → exec (.registerWrite (.vfBar fn off) v) s = .next s)) ∧
    (∀ v : Word,
      (∀ q : BitVec 8, late (.registerWrite (.lqbase q) v) (dev { s.dev with
        lqs := aSet s.dev.lqs q.toNat { s.queueAt q.toNat with base := v } })) ∧
      late (.registerWrite .schedctl v) (dev { s.dev with schedctl := v }) ∧
      late (.registerWrite .ctxbase v) (dev { s.dev with ctxbase := v }) ∧
      late (.registerWrite .fgrp v) (dev { s.dev with fgrp := v &&& 0xFFFF0000FFFFFE01 }) ∧
      (∀ r : BitVec 6, late (.registerWrite (.froute r) v) (dev { s.dev with
        froute := smSet 0 s.dev.froute r.toNat (v.setWidth 16) })) ∧
      late (.registerWrite .logrd v) (dev { s.dev with logrd := v.toNat }) ∧
      late (.registerWrite .logbase v) (dev { s.dev with logbase := v &&& 0xFFFFFFFFFFFFF000 }) ∧
      (let n := (v.extractLsb' 0 5).toNat
       late (.registerWrite .logctl v) (if 4 ≤ n ∧ n ≤ 20 then dev { s.dev with logctl := v &&& 0x8000001F } else s)) ∧
      (∀ pa : BitVec 40, s.dev.sec.stage = 15 → ∃ u, exec (.registerWrite (.physDword pa) v) s = .next u ∧
        u.cores = s.cores ∧ u.dev = { s.dev with dmem := u.dev.dmem, dmemP := u.dev.dmemP } ∧
        ∀ a, smGet 0 u.dev.dmem a =
          if a / 8 = pa.toNat / 8 ∧ pa.toNat < 384 * 2 ^ 30 then byteOf v.toNat (a % 8) else smGet 0 s.dev.dmem a) ∧
      (let t := (v.extractLsb' 16 8).toNat
       let w := (v.extractLsb' 0 11).toNat
       late (.registerWrite .plim v) (if 70 ≤ t ∧ t ≤ 110 ∧ 300 ≤ w ∧ w ≤ 1650 then
         dev { s.dev with tthr := t, plimw := w } else s.logAdd 0x03 0 0 0 0x780008)) ∧
      ∀ i : BitVec 9, s.dev.sec.job = none → exec (.registerWrite (.mailbox i) v) s = .next (dev { s.dev with
        sec := { s.dev.sec with mbox := smSetRange 0 s.dev.sec.mbox (8 * i.toNat) (bytesOf 8 v.toNat) } })) ∧
    (let x := s.dev.sec
     let secure := fun (r : BarReg) (v : Nat) => s.barRead r = answer s true (bytesOf 8 v)
     let reads := fun (r : BarReg) (v : Word) => s.barRead r =
       answer s true (if x.stage = 15 then bytesOf 8 v.toNat else List.replicate 8 0)
     let field := fun (m : SMap Mon) (k : Nat) => aGet Mon.reset m k
     (∀ i : BitVec 9, secure (.dev (.mailbox i))
       (if x.job = none then natOf (smGetRange 0 x.mbox (8 * i.toNat) 8) else 0)) ∧
     secure (.dev .smsts) (x.result % 256 * 256 + (if x.lost then 2 else 0) + if x.job = none then 0 else 1) ∧
     secure .bootsts ((x.failch * 2 ^ 32 + (if x.slotB then 2 ^ 17 else 0) + (if x.recovery then 2 ^ 16 else 0) +
       x.err % 256 * 256 + x.stage % 16) % 2 ^ 64) ∧
     (∀ q : BitVec 8,
       let y := s.queueAt q.toNat
       reads (.dev (.lqbase q)) y.base ∧ reads (.lq q 0) y.ctl ∧ reads (.lq q 1) (BitVec.ofNat 64 y.head) ∧
       reads (.lq q 2) (BitVec.ofNat 64 y.tail) ∧ reads (.lq q 3) (BitVec.ofNat 64 y.pass)) ∧
     (∀ p : BitVec 6, let y := s.partAt p.toNat
       reads (.smgen p) (BitVec.ofNat 64 ((if y.busy then 256 else 0) + y.gen.toNat))) ∧
     (∀ k : BitVec 6, reads (.aslot k) ((smGet 0 s.dev.aslot k.toNat).setWidth 64)) ∧
     reads (.dev .plim) (BitVec.ofNat 64 (s.dev.tthr * 2 ^ 16 + s.dev.plimw)) ∧
     reads (.dev .logbase) s.dev.logbase ∧ reads (.dev .logctl) s.dev.logctl ∧
     reads .logwr (BitVec.ofNat 64 s.dev.logwr) ∧ reads (.dev .logrd) (BitVec.ofNat 64 s.dev.logrd) ∧
     reads (.dev .logovf) (BitVec.ofNat 64 s.dev.logovf) ∧
     (∀ (j : BitVec 7) (k : BitVec 2), reads (.dev (.monSliceSel j k)) (field s.dev.smon (4 * j.toNat + k.toNat)).sel ∧
       reads (.dev (.monSliceVal j k)) ((field s.dev.smon (4 * j.toNat + k.toNat)).val.setWidth 64)) ∧
     (∀ (h : BitVec 6) (k : BitVec 2), reads (.dev (.monChanSel h k)) (field s.dev.cmon (4 * h.toNat + k.toNat)).sel ∧
       reads (.dev (.monChanVal h k)) ((field s.dev.cmon (4 * h.toNat + k.toNat)).val.setWidth 64)) ∧
     ∀ (c : CoreNo) (k : BitVec 3), c.toNat < 384 → x.stage = 15 →
       let t := s.tickCycles c.toNat
       let m := field (t.core c.toNat).mon k.toNat
       s.barRead (.dev (.monCoreSel c k)) = answer t true (bytesOf 8 m.sel.toNat) ∧
       s.barRead (.dev (.monCoreVal c k)) = answer t true (bytesOf 8 m.val.toNat))

/-- R7, R32, R102, R149, R152–R156, R223, R229, R263, R265, R331, R332, R344: a step runs the instruction that stands where
the agent whose turn it is stands, and then the turn passes on; a word that is poisoned or does not decode takes the exception
instead; a word of M waits while an earlier one in flight holds it up; one that issues and finishes apart takes its operands
at its issue and does its work at its finish; a step that would stop a cask is first that of a word which the stop lets
finish; and of several units that fault in one cycle the first in the order K, L, M, S, Y is reported, with MULTI. That one
agent moves at a step, how the turn passes, and which units fault together are the model's (log 1), and so are what the
counters of slices and channels count in it (log 8) and which words finish apart (log 26). -/
def Obligations.StepRuns : Prop :=
  ∀ s : State, s.turn.core < 384 →
    let ends := fun (t : State) => step s = .next (s.withOthers (s.lettingFinish t)).passTurn
    let runs := fun (i : Instr) => ∀ t, exec i s = .next t → ends t
    let stops := fun (u : CoreUnit) (code : Nat) (stat : Word) => ends (s.coreStop u { code := code, stat := stat })
    let blocked := fun (e : Eng) (i : Instr) => e = .m ∧ (∀ f, s.cask.eM.flight = some f → f.begun = false) ∧
      s.cask.interlocked i (decide (s.turn.agent = .issue)) = true
    let codeOf := fun (e : DecErr) => match e with
      | .illegalOp => 0x01
      | .illegalOperand => 0x02
      | .copyMalformed => 0x30
    (s.turn.agent = .k → s.kGoes = true →
      let pc := s.cask.kr.kpc
      let w := natOf (smGetRange 0 s.cask.mem.ik pc 8)
      (imemSize s.dual ≤ pc → stops .k 0x02 0) ∧
      (pc < imemSize s.dual → nsHits s.cask.mem.ikP pc 8 = true → stops .k 0x21 0) ∧
      (pc < imemSize s.dual → nsHits s.cask.mem.ikP pc 8 = false →
        (∀ i, decodeK w = .ok i → runs i) ∧
        ∀ x, decodeK w = .error x → stops .k (if 0x78 ≤ w / 2 ^ 57 ∧ s.cask.kr.priv = false then 0x11 else codeOf x) 0)) ∧
    (∀ e, s.turn.agent = .eng e ∨ (e = .m ∧ s.turn.agent = .issue) → s.engGoes = true → (s.cask.eng e).idle = false →
      ((s.cask.eng e).before = true → runs (.sectionStart e)) ∧
      ((s.cask.eng e).before = false →
        let p := (s.cask.eng e).at_
        let a := p.1 + 8 + 12 * p.2
        let w := natOf (smGetRange 0 (s.cask.imem e.unit) a 12)
        let bad := (s.cask.eng e).flight = none ∧ nsHits (s.cask.imemP e.unit) a 12 = true
        (bad → stops e.unit 0x21 (eStat s.cask e)) ∧
        (¬ bad → (∀ i, decodeEng e w = .ok i →
            let t0 : State := { s with turn := { s.turn with burst := 0xFFFF } }
            (blocked e i → step s = .next s.passTurn) ∧
            (¬ blocked e i →
              (s.turn.agent ≠ .issue ∨ mUses s.cask i = none → runs i) ∧
              (s.turn.agent = .issue → ∀ u t, mUses s.cask i = some u → exec i t0 = .next t →
                (s.cask.issuesTo t.cask = true → ends (s.updCask fun c => c.park t.cask i u)) ∧
                (s.cask.issuesTo t.cask = false →
                  (s.cask.interlocked i false = true → ends (s.updCask fun c => c.waitAs t.cask)) ∧
                  (s.cask.interlocked i false = false → runs i))))) ∧
          ∀ x, decodeEng e w = .error x → stops e.unit (codeOf x) (eStat s.cask e)))) ∧
    (∀ k l t, s.turn.agent = .finish k → s.cask.eM.late[k]? = some l → s.engGoes = true → s.cask.canFinish k = true →
      exec l.i (s.updCask fun c => c.lateIn k) = .next t → ends (t.updCask Cask.lateOut)) ∧
    ((∀ n b, (s.caskAt n b).eM.late = [] ∧ (s.caskAt n b).ownBegun = false) → ∀ t, s.lettingFinish t = t) ∧
    (s.cask.eM.clear → ∀ i ahead, s.cask.interlocked i ahead = false) ∧
    (∀ q pos y, s.turn.agent = .y q pos → s.entAt q.toNat pos = some y →
      (y.begun = false → s.cask.yy.nextCmd q.toNat = some pos → runs (.commandBegin q)) ∧
      (y.begun = true → y.done = true → pos = 0 → runs (.commandComplete q)) ∧
      (y.begun = true → y.done = false → ∀ i, decodeCmd (natOf y.bytes) = .ok i → runs i)) ∧
    (∀ i, s.turn.agent = .ev i → isEvent i = true → runs i) ∧
    (s.turn.agent = .buf → ends s.drainOne) ∧
    (∀ asid line, s.turn.agent = .clean asid line → ends (s.cleanLine asid line)) ∧
    (∀ fill asid line, s.turn.agent = .l2 fill asid line → ends (if fill = true then s.l2Fill asid line
      else s.l2Flush fun x => decide (x.asid = asid) && decide (x.line = line))) ∧
    (∀ k v, s.turn.agent = .fuse k v → ends (s.raiseSvn k v)) ∧
    (∀ r, s.turn.agent = .bar r → ends (s.barRead r)) ∧
    (∀ p slice i, s.turn.agent = .adopt p slice i → ends (s.adoptStep p slice i)) ∧
    (∀ t : State,
      (s.cask.st.stopped = true ∨ t.cask.st.stopped = false ∨ (∀ a, a ∈ Config.together s.tick → s.faultOf a = none) →
        s.withOthers t = t) ∧
      ∀ n, s.faulted t = some n →
        let xs := ((Config.together s.tick).filterMap s.faultOf).filter fun p => p.1 ≠ n
        xs ≠ [] → ∃ p, p ∈ (n, t) :: xs ∧ (∀ q, q ∈ (n, t) :: xs → p.1 ≤ q.1) ∧ s.withOthers t = p.2.setMulti) ∧
    ∀ t : State, t.passTurn.dev = { t.dev with
        rtc := t.dev.rtc + Config.ringDelta t.tick, smon := t.passTurn.dev.smon, cmon := t.passTurn.dev.cmon } ∧
      t.passTurn.turn = Config.nextTurn t.tick ∧ t.passTurn.tick = t.tick + 1 ∧ t.passTurn.cores = t.cores

/-- R145–R166: the decoder reads back every well-formed instruction from its encoding, which fits its container; whatever it
reads from a container is well-formed and belongs there. -/
def Obligations.RoundTrip : Prop :=
  (∀ (i : Instr) (n w : Nat), i.wf = true → encode i = some (n, w) → w < 2 ^ n ∧ decodeForm i.form w = .ok i) ∧
  ∀ (f : Form) (w : Nat) (i : Instr), decodeForm f w = .ok i → i.wf = true ∧ i.form = f

/-- R151, R184, R200, R208–R224, R229–R245, R253–R261: words that the spec writes out decode to what it says that they stand
for. -/
def Obligations.WordsDecode : Prop :=
  decodeK 0x02484000FFFFFFF8 = .ok (.addi 9 2 (-8)) ∧
  decodeK 0x6059406A00000000 = .ok (.ldk 3 false (some .device) 11 10 0) ∧
  decodeK 0x9400005000000007 = .ok (.mark 7 { l := true, m := false, s := true, y := false }) ∧
  decodeK 0xC200000100000000 = .ok .tdoneEnd ∧ decodeK 0x4201201000000005 = .ok (.bc .lt 9 0 5) ∧
  decodeK 0x4000000000FFFFFB = .ok (.b (-5)) ∧ decodeK 0xD848000000000102 = .ok (.rds 9 0x102) ∧
  decodeK 0xF601200000000000 = .ok (.casksw 9) ∧ decodeK 0x820029C700000000 =
    .ok (.nestb { l := true, m := false, s := false, y := false } 7 1 19) ∧
  decodeEng .m 0x009000000000000000000000 = .ok (.nop .m { pp := true, pn := false, hp := false, hn := true }) ∧
  decodeEng .m 0x409004600000000000000000 =
    .ok (.mma { pp := true, pn := false, hp := false, hn := true } false false 0 2 3) ∧
  decodeEng .l 0x151342440000000000000000 =
    .ok (.tld { pp := false, pn := false, hp := false, hn := true } false true true 2 1 2 1) ∧
  decodeEng .l 0x070040000000000000000040 =
    .ok (.lps .l { pp := false, pn := false, hp := false, hn := false } 1 (.imm 64)) ∧
  decodeEng .s 0xC2A122340000000000000000 =
    .ok (.drn { pp := true, pn := false, hp := true, hn := false } false true 1 2 3 4) ∧
  decodeEng .m 0x530018444000000000000000 =
    .ok (.vfma { pp := false, pn := false, hp := false, hn := false } .fp32 none 3 1 (.v 2) 4) ∧
  decodeEng .m 0x74200000060A000000000000 = .ok (.vcnt { pp := false, pn := false, hp := true, hn := false } 5 3) ∧
  decodeEng .m 0xB20009000004600000000000 =
    .ok (.qacc { pp := false, pn := false, hp := false, hn := false } 1 4 2 3) ∧
  decodeEng .m 0xB49140000000000000000000 =
    .ok (.qapr { pp := true, pn := false, hp := false, hn := true } true 2 0)

/-- The memories keep their canonical form: addresses strictly rising, no byte listed that reads as an unlisted one. The form
is the model's (logs 3 and 5); R7, R115 and R346 are the rules of the writes that keep it. -/
def Obligations.StepKeepsMemories : Prop :=
  ∀ s t : State, s.memoriesWf = true → step s = .next t → t.memoriesWf = true

/-- R26, R34–R36, R40–R46, R309, R337, R379: after a reset the memories are in canonical form, no cask holds a strand, and the
registers have the values that the spec states. The model's readings: logs 2 and 3. -/
def Obligations.Reset : Prop :=
  State.reset.memoriesWf = true ∧ State.reset.turn.agent = .ev .coldReset ∧ State.reset.dev.sec.stage = 1 ∧
  State.reset.dev.launches = [] ∧ ∀ (n : Nat) (b : Bool),
    let k := State.reset.core n
    let c := State.reset.caskAt n b
    k.dual = false ∧ k.cur = false ∧ k.l1 = [] ∧ c.st.live = false ∧ c.kr.priv = false ∧ c.kr.kpc = 0 ∧
    (∀ r : SReg, c.sreg r = if r = 6 ∨ r = 7 ∨ r = 8 then 0xFFFFFFFFFFFFFFFF else if r = 63 then 0x30000 else 0) ∧
    (∀ (e : Eng) (r : XReg), c.xreg e r = 0) ∧
    (∀ e : Eng, (c.eng e).rsn = 0xFFFF ∧ (c.eng e).retired = false ∧ (c.eng e).hoff = 0 ∧ (c.eng e).rpt = 0 ∧
      (c.eng e).halted = false ∧ ∀ j, (c.nest e j).ready = false) ∧
    (∀ (v : VReg) (j : Nat), c.lane v j = 0) ∧ (∀ m : MReg, c.mreg m = 0) ∧ (∀ (t : CTile) (j : Nat), c.word t j = 0) ∧
    (∀ q : QReg, (c.qacc q).n = 0 ∧ (c.qacc q).kc = 64 ∧ (c.qacc q).rack = false ∧ (c.qacc q).tr = false) ∧
    c.mx.flags = 0 ∧ (∀ j, smGet 0 c.mx.mxc j = 0) ∧ (∀ j, c.evreg j = 0) ∧ (∀ j, (c.ring j).depth = 0) ∧ c.cp.fq = [] ∧
    c.cp.tok = { lm := 0, ml := 0, ms := 0, sm := 0, sl := 0, ls := 0 } ∧ c.cp.rv = 0xFFFFFFFFFFFFFFFF ∧
    c.cp.dth = 0xFFFFFFFF ∧ c.cp.tks = 0 ∧ c.yy.cnum = 0 ∧ c.yy.jhead = 1 ∧ c.yy.jtail = 1 ∧ c.st.trailer = 0x7F ∧
    smGet 0 c.st.lees 0 = 0xFF0000000000FFFF ∧ smGet 0 c.st.lees 1 = 0
end

