-- ==== Sys2Proof/Laws/Acts.lean ====
section
/-! SUPPORT. How actions run: each form of an action applied to a state. -/

namespace Sys2Proof.Machine

open Sys2Proof

variable {σ α β : Type}

theorem act_bind (m : EStateM Stop σ α) (f : α → EStateM Stop σ β) (s : σ) :
    (m >>= f) s = match m s with
      | .ok a t => f a t
      | .error e t => .error e t := by
  show EStateM.bind m f s = _
  unfold EStateM.bind
  cases m s <;> rfl
@[simp] theorem act_pure (a : α) (s : σ) : (pure a : EStateM Stop σ α) s = .ok a s := rfl
@[simp] theorem act_get (s : σ) : (get : EStateM Stop σ σ) s = .ok s s := rfl
@[simp] theorem act_set (t s : σ) : (set t : EStateM Stop σ PUnit) s = .ok ⟨⟩ t := rfl
@[simp] theorem act_modify (f : σ → σ) (s : σ) : (modify f : EStateM Stop σ PUnit) s = .ok ⟨⟩ (f s) := rfl
@[simp] theorem act_throw (e : Stop) (s : σ) : (throw e : EStateM Stop σ α) s = .error e s := rfl
@[simp] theorem act_raise (c : Nat) (v : Word) (s : σ) :
    (raise c v : EStateM Stop σ α) s = .error (.trap { code := c, va := v }) s := rfl
theorem act_check (ok : Bool) (c : Nat) (v : Word) (s : σ) :
    (check ok c v : EStateM Stop σ Unit) s = if ok then .ok () s else .error (.trap { code := c, va := v }) s := by
  cases ok <;> rfl
@[simp] theorem act_check_true (c : Nat) (v : Word) (s : σ) : (check true c v : EStateM Stop σ Unit) s = .ok () s := rfl
@[simp] theorem act_check_false (c : Nat) (v : Word) (s : σ) :
    (check false c v : EStateM Stop σ Unit) s = .error (.trap { code := c, va := v }) s := rfl
@[simp] theorem act_await_true (t : Bool) (s : σ) : (await true t : EStateM Stop σ Unit) s = .ok () s := rfl
@[simp] theorem act_await_false (t : Bool) (s : σ) : (await false t : EStateM Stop σ Unit) s = .error (.wait t) s := rfl
@[simp] theorem act_holdTill_true (s : σ) : (holdTill true : EStateM Stop σ Unit) s = .ok () s := rfl
@[simp] theorem act_holdTill_false (s : σ) : (holdTill false : EStateM Stop σ Unit) s = .error .hold s := rfl
theorem act_ite (c : Prop) [Decidable c] (a b : EStateM Stop σ α) (s : σ) :
    (if c then a else b) s = if c then a s else b s := by split <;> rfl

/-- A straight line: the first action completes, and the rest goes on from there. -/
theorem bind_ok {m : EStateM Stop σ α} {f : α → EStateM Stop σ β} {s t : σ} {a : α} (h : m s = .ok a t) :
    (m >>= f) s = f a t := by rw [act_bind, h]
/-- A stop of the first action is the stop of both. -/
theorem bind_error {m : EStateM Stop σ α} {f : α → EStateM Stop σ β} {s t : σ} {e : Stop} (h : m s = .error e t) :
    (m >>= f) s = .error e t := by rw [act_bind, h]
/-- Of two actions that completed, the first completed, and then the second. -/
theorem of_bind_ok {m : EStateM Stop σ α} {f : α → EStateM Stop σ β} {s u : σ} {b : β} (h : (m >>= f) s = .ok b u) :
    ∃ a t, m s = .ok a t ∧ f a t = .ok b u := by
  rw [act_bind] at h
  split at h
  · next a t e => exact ⟨a, t, e, h⟩
  · cases h

@[simp] theorem get_bind (f : σ → EStateM Stop σ β) (s : σ) : (get >>= f) s = f s s := rfl
@[simp] theorem set_bind (t : σ) (f : PUnit → EStateM Stop σ β) (s : σ) : (set t >>= f) s = f ⟨⟩ t := rfl
@[simp] theorem modify_bind (g : σ → σ) (f : PUnit → EStateM Stop σ β) (s : σ) : (modify g >>= f) s = f ⟨⟩ (g s) := rfl
@[simp] theorem pure_bind_act (a : α) (f : α → EStateM Stop σ β) (s : σ) : (pure a >>= f) s = f a s := rfl

/-- A check that holds does nothing. -/
theorem check_bind {ok : Bool} (h : ok = true) (c : Nat) (v : Word) (f : Unit → EStateM Stop σ β) (s : σ) :
    (check ok c v >>= f) s = f () s := by subst h; rfl
/-- A wait whose condition holds does nothing. -/
theorem await_bind {ok : Bool} (h : ok = true) (t : Bool) (f : Unit → EStateM Stop σ β) (s : σ) :
    (await ok t >>= f) s = f () s := by subst h; rfl
theorem holdTill_bind {ok : Bool} (h : ok = true) (f : Unit → EStateM Stop σ β) (s : σ) :
    (holdTill ok >>= f) s = f () s := by subst h; rfl

/-- An action of a cask acts on the cask whose turn it is. -/
theorem onCask_ok {m : CAct α} {s : State} {a : α} {c : Cask} (h : m s.cask = .ok a c) :
    onCask m s = .ok a (s.setCask c) := by unfold onCask; rw [h]
theorem onCask_error {m : CAct α} {s : State} {e : Stop} {c : Cask} (h : m s.cask = .error e c) :
    onCask m s = .error e (s.setCask c) := by unfold onCask; rw [h]
theorem whole_ok {m : EStateM Stop σ α} {s t : σ} {a : α} (h : m s = .ok a t) : whole m s = .ok a t := by
  unfold whole; rw [h]
theorem whole_error {m : EStateM Stop σ α} {s t : σ} {e : Stop} (h : m s = .error e t) : whole m s = .error e s := by
  unfold whole; rw [h]

/-! ### K words -/

/-- A K word whose action completes answers the state it leaves. -/
theorem kRun_ok {m : Act Unit} {s t : State} (h : m s = .ok () t) : kRun m s = .next t := by unfold kRun; rw [h]
/-- A K word whose action traps takes the exception. -/
theorem kRun_trap {m : Act Unit} {s t : State} {f : Flt} (h : m s = .error (.trap f) t) :
    kRun m s = .next (t.coreStop .k f) := by unfold kRun; rw [h]
/-- A K word whose action waits keeps K at its place. -/
theorem kRun_wait {m : Act Unit} {s t : State} {k : Bool} (h : m s = .error (.wait k) t) :
    kRun m s = .next (t.kWaits k) := by unfold kRun; rw [h]
/-- A user word outside a handler runs its action. -/
theorem kUser_run {m : Act Unit} {s : State} (h : s.cask.kr.priv = false) : kUser m s = kRun m s := by
  unfold kUser
  simp [kRun, act_bind, act_check, h]
/-- A user word inside a handler raises ILLEGAL_OPERAND. -/
theorem kUser_handler {m : Act Unit} {s : State} (h : s.cask.kr.priv = true) :
    kUser m s = .next (s.coreStop .k { code := cIllegalOperand }) := by
  unfold kUser
  simp [kRun, act_bind, act_check, h]
/-- A privileged word inside a handler runs its action. -/
theorem kPriv_run {m : Act Unit} {s : State} (h : s.cask.kr.priv = true) : kPriv m s = kRun m s := by
  unfold kPriv
  simp [kRun, act_bind, act_check, h]
/-- A privileged word outside a handler raises PROTECTION. -/
theorem kPriv_user {m : Act Unit} {s : State} (h : s.cask.kr.priv = false) :
    kPriv m s = .next (s.coreStop .k { code := cProtection }) := by
  unfold kPriv
  simp [kRun, act_bind, act_check, h]

end Sys2Proof.Machine
end

