-- ==== Sys2Proof/Laws/Maps.lean ====
section
/-! SUPPORT. What the operations on maps do: reading after writing, and the canonical form that writing keeps. -/

namespace Sys2Proof

variable {α : Type}

/-! ### Reading -/

theorem smGet_none (d : α) (m : SMap α) (k : Nat) (h : ∀ p ∈ m, p.1 ≠ k) : smGet d m k = d := by
  induction m with
  | nil => rfl
  | cons p m ih =>
    have h1 : p.1 ≠ k := h p (by simp)
    simp only [smGet, h1, if_false]
    exact ih fun q hq => h q (by simp [hq])

theorem smGet_append (d : α) (a b : SMap α) (k : Nat) :
    smGet d (a ++ b) k = if a.any (fun p => decide (p.1 = k)) then smGet d a k else smGet d b k := by
  induction a with
  | nil => simp
  | cons p a ih =>
    by_cases h : p.1 = k
    · simp [smGet, h]
    · simp only [List.cons_append, smGet, h, if_false, ih, List.any_cons, decide_false, Bool.false_or]

theorem smGet_filter (d : α) (m : SMap α) (f : Nat → Bool) (k : Nat) (h : f k = true) :
    smGet d (m.filter fun p => f p.1) k = smGet d m k := by
  induction m with
  | nil => rfl
  | cons p m ih =>
    by_cases hp : f p.1 = true
    · rw [List.filter_cons_of_pos (p := fun q : Nat × α => f q.1) hp]
      by_cases hk : p.1 = k
      · simp [smGet, hk]
      · simp [smGet, hk, ih]
    · have hk : p.1 ≠ k := fun e => hp (e ▸ h)
      rw [List.filter_cons_of_neg (p := fun q : Nat × α => f q.1) (by simpa using hp)]
      simp [smGet, hk, ih]

theorem smGetRange_length (d : α) (m : SMap α) (base n : Nat) : (smGetRange d m base n).length = n := by
  simp [smGetRange]

theorem smGetRange_getElem (d : α) (m : SMap α) (base n i : Nat) (h : i < (smGetRange d m base n).length) :
    (smGetRange d m base n)[i] = smGet d m (base + i) := by
  have hi : i < n := by simpa [smGetRange] using h
  simp only [smGetRange, List.getElem_map, List.getElem_range]
  exact smGet_filter d m (fun x => decide (base ≤ x) && decide (x < base + n)) (base + i) (by simp; omega)

theorem smGetRange_eq (d : α) (m : SMap α) (base n : Nat) :
    smGetRange d m base n = (List.range n).map fun i => smGet d m (base + i) := by
  apply List.ext_getElem
  · simp [smGetRange]
  · intro i h1 h2
    rw [smGetRange_getElem]
    simp

theorem smRising_iff (m : SMap α) : smRising m = true ↔ m.Pairwise fun p q => p.1 < q.1 := by
  induction m with
  | nil => simp [smRising]
  | cons p m ih =>
    cases m with
    | nil => simp [smRising]
    | cons q m =>
      rw [List.pairwise_cons]
      simp only [smRising, Bool.and_eq_true, decide_eq_true_eq, ih]
      constructor
      · rintro ⟨h1, h2⟩
        refine ⟨fun r hr => ?_, h2⟩
        simp only [List.mem_cons] at hr
        rcases hr with rfl | hr
        · exact h1
        · exact Nat.lt_trans h1 ((List.pairwise_cons.1 h2).1 r hr)
      · rintro ⟨h1, h2⟩
        exact ⟨h1 q (by simp), h2⟩

variable [DecidableEq α]

theorem smCells_keys (d : α) (base : Nat) (vs : List α) :
    ∀ p ∈ smCells d base vs, base ≤ p.1 ∧ p.1 < base + vs.length := by
  induction vs generalizing base with
  | nil => simp [smCells]
  | cons v vs ih =>
    intro p hp
    simp only [smCells] at hp
    split at hp
    · have := ih (base + 1) p hp
      simp only [List.length_cons]
      omega
    · simp only [List.mem_cons] at hp
      rcases hp with rfl | hp
      · simp
      · have := ih (base + 1) p hp
        simp only [List.length_cons]
        omega

theorem smGet_smCells (d : α) (base : Nat) (vs : List α) (i : Nat) (h : i < vs.length) :
    smGet d (smCells d base vs) (base + i) = vs[i] := by
  induction vs generalizing base i with
  | nil => simp at h
  | cons v vs ih =>
    cases i with
    | zero =>
      simp only [smCells, Nat.add_zero, List.getElem_cons_zero]
      split
      · next e =>
        rw [e]
        exact smGet_none _ _ _ fun p hp => by have := smCells_keys d (base + 1) vs p hp; omega
      · simp [smGet]
    | succ i =>
      have hi : i < vs.length := by simpa using h
      have e : base + (i + 1) = base + 1 + i := by omega
      simp only [smCells, List.getElem_cons_succ]
      split
      · rw [e]; exact ih (base + 1) i hi
      · have hn : base ≠ base + (i + 1) := by omega
        simp only [smGet, hn, if_false]
        rw [e]; exact ih (base + 1) i hi

/-- A key outside the written range keeps its value. -/
theorem smGet_smSetRange_other (d : α) (m : SMap α) (base k : Nat) (vs : List α)
    (h : k < base ∨ base + vs.length ≤ k) : smGet d (smSetRange d m base vs) k = smGet d m k := by
  have hc : (smCells d base vs).any (fun p => decide (p.1 = k)) = false := by
    simp only [List.any_eq_false, decide_eq_true_eq]
    intro p hp e
    have := smCells_keys d base vs p hp
    omega
  unfold smSetRange
  rw [smGet_append, smGet_append, List.any_append, hc, Bool.or_false]
  rcases h with h | h
  · by_cases ha : (m.filter fun p => decide (p.1 < base)).any (fun p => decide (p.1 = k))
    · simp only [ha, if_true]
      exact smGet_filter d m (fun x => decide (x < base)) k (by simpa using h)
    · have e1 : smGet d m k = d := by
        rw [← smGet_filter d m (fun x => decide (x < base)) k (by simpa using h)]
        refine smGet_none _ _ _ fun p hp e => ha ?_
        exact List.any_eq_true.2 ⟨p, hp, by simpa using e⟩
      simp only [ha, Bool.false_eq_true, if_false, e1]
      refine smGet_none _ _ _ fun p hp e => ?_
      simp only [List.mem_filter, decide_eq_true_eq] at hp
      omega
  · have ha : (m.filter fun p => decide (p.1 < base)).any (fun p => decide (p.1 = k)) = false := by
      simp only [List.any_eq_false, decide_eq_true_eq, List.mem_filter]
      intro p hp e
      omega
    simp only [ha, Bool.false_eq_true, if_false]
    exact smGet_filter d m (fun x => decide (base + vs.length ≤ x)) k (by simpa using h)

/-- A key of the written range has the value written. -/
theorem smGet_smSetRange_in (d : α) (m : SMap α) (base i : Nat) (vs : List α) (h : i < vs.length) :
    smGet d (smSetRange d m base vs) (base + i) = vs[i] := by
  have ha : (m.filter fun p => decide (p.1 < base)).any (fun p => decide (p.1 = base + i)) = false := by
    simp only [List.any_eq_false, decide_eq_true_eq, List.mem_filter]
    intro p hp e
    omega
  unfold smSetRange
  rw [smGet_append, smGet_append, List.any_append, ha, Bool.false_or]
  simp only [Bool.false_eq_true, if_false]
  by_cases hc : (smCells d base vs).any (fun p => decide (p.1 = base + i))
  · simp only [hc, if_true]
    exact smGet_smCells d base vs i h
  · simp only [hc, Bool.false_eq_true, if_false]
    have e : vs[i] = d := by
      rw [← smGet_smCells d base vs i h]
      refine smGet_none _ _ _ fun p hp e => hc ?_
      exact List.any_eq_true.2 ⟨p, hp, by simpa using e⟩
    rw [e]
    refine smGet_none _ _ _ fun p hp e => ?_
    simp only [List.mem_filter, decide_eq_true_eq] at hp
    omega

@[simp] theorem smGet_smSet_same (d : α) (m : SMap α) (k : Nat) (v : α) : smGet d (smSet d m k v) k = v :=
  smGet_smSetRange_in d m k 0 [v] (by simp)

theorem smGet_smSet_other (d : α) (m : SMap α) (k j : Nat) (v : α) (h : j ≠ k) :
    smGet d (smSet d m k v) j = smGet d m j :=
  smGet_smSetRange_other d m k j [v] (by simp only [List.length_singleton]; omega)

/-! ### Ranges -/

/-- Reading a range that has just been written gives what was written. -/
theorem smGetRange_smSetRange (d : α) (m : SMap α) (base : Nat) (vs : List α) :
    smGetRange d (smSetRange d m base vs) base vs.length = vs := by
  apply List.ext_getElem
  · simp [smGetRange]
  · intro i h1 h2
    rw [smGetRange_getElem, smGet_smSetRange_in]

/-- Reading a range that a write does not meet gives what it gave before. -/
theorem smGetRange_smSetRange_other (d : α) (m : SMap α) (base a n : Nat) (vs : List α)
    (h : a + n ≤ base ∨ base + vs.length ≤ a) :
    smGetRange d (smSetRange d m base vs) a n = smGetRange d m a n := by
  rw [smGetRange_eq, smGetRange_eq]
  refine List.map_congr_left fun i hi => smGet_smSetRange_other d m base (a + i) vs ?_
  have := List.mem_range.1 hi
  omega

/-! ### The canonical form -/

theorem smWf_iff (d : α) (m : SMap α) :
    smWf d m = true ↔ (m.Pairwise fun p q => p.1 < q.1) ∧ ∀ p ∈ m, p.2 ≠ d := by
  simp [smWf, smRising_iff]

theorem smCells_wf (d : α) (base : Nat) (vs : List α) :
    ((smCells d base vs).Pairwise fun p q => p.1 < q.1) ∧ ∀ p ∈ smCells d base vs, p.2 ≠ d := by
  induction vs generalizing base with
  | nil => simp [smCells]
  | cons v vs ih =>
    simp only [smCells]
    split
    · exact ih (base + 1)
    · next h =>
      refine ⟨List.pairwise_cons.2 ⟨fun p hp => ?_, (ih (base + 1)).1⟩, fun p hp => ?_⟩
      · have := smCells_keys d (base + 1) vs p hp
        dsimp only
        omega
      · simp only [List.mem_cons] at hp
        rcases hp with rfl | hp
        · exact h
        · exact (ih (base + 1)).2 p hp

/-- A write keeps the canonical form. -/
theorem smWf_smSetRange (d : α) (m : SMap α) (base : Nat) (vs : List α) (h : smWf d m = true) :
    smWf d (smSetRange d m base vs) = true := by
  rw [smWf_iff] at h ⊢
  obtain ⟨hp, hd⟩ := h
  have hc := smCells_wf d base vs
  refine ⟨?_, ?_⟩
  · unfold smSetRange
    rw [List.append_assoc, List.pairwise_append]
    refine ⟨hp.sublist List.filter_sublist, ?_, ?_⟩
    · rw [List.pairwise_append]
      refine ⟨hc.1, hp.sublist List.filter_sublist, ?_⟩
      intro a ha b hb
      have := smCells_keys d base vs a ha
      simp only [List.mem_filter, decide_eq_true_eq] at hb
      omega
    · intro a ha b hb
      simp only [List.mem_filter, decide_eq_true_eq] at ha
      simp only [List.mem_append, List.mem_filter, decide_eq_true_eq] at hb
      rcases hb with hb | hb
      · have := smCells_keys d base vs b hb
        omega
      · omega
  · intro p hp
    unfold smSetRange at hp
    simp only [List.mem_append, List.mem_filter, decide_eq_true_eq] at hp
    rcases hp with (hp | hp) | hp
    · exact hd p hp.1
    · exact hc.2 p hp
    · exact hd p hp.1

/-- Dropping entries keeps the canonical form. -/
theorem smWf_filter (d : α) (m : SMap α) (f : Nat × α → Bool) (h : smWf d m = true) : smWf d (m.filter f) = true := by
  rw [smWf_iff] at h ⊢
  exact ⟨h.1.sublist List.filter_sublist, fun p hp => h.2 p (List.mem_filter.1 hp).1⟩

end Sys2Proof

namespace Sys2Proof

variable {α : Type}

/-! ### Structures by key -/

theorem aGet_none (d : α) (m : SMap α) (k : Nat) (h : ∀ p ∈ m, p.1 ≠ k) : aGet d m k = d := by
  induction m with
  | nil => rfl
  | cons p m ih =>
    have h1 : p.1 ≠ k := h p (by simp)
    simp only [aGet, h1, if_false]
    exact ih fun q hq => h q (by simp [hq])

theorem aGet_append (d : α) (a b : SMap α) (k : Nat) :
    aGet d (a ++ b) k = if a.any (fun p => decide (p.1 = k)) then aGet d a k else aGet d b k := by
  induction a with
  | nil => simp
  | cons p a ih =>
    by_cases h : p.1 = k
    · simp [aGet, h]
    · simp only [List.cons_append, aGet, h, if_false, ih, List.any_cons, decide_false, Bool.false_or]

theorem aGet_filter (d : α) (m : SMap α) (f : Nat → Bool) (k : Nat) (h : f k = true) :
    aGet d (m.filter fun p => f p.1) k = aGet d m k := by
  induction m with
  | nil => rfl
  | cons p m ih =>
    by_cases hp : f p.1 = true
    · rw [List.filter_cons_of_pos (p := fun q : Nat × α => f q.1) hp]
      by_cases hk : p.1 = k
      · simp [aGet, hk]
      · simp [aGet, hk, ih]
    · have hk : p.1 ≠ k := fun e => hp (e ▸ h)
      rw [List.filter_cons_of_neg (p := fun q : Nat × α => f q.1) (by simpa using hp)]
      simp [aGet, hk, ih]

@[simp] theorem aGet_aSet_same (d : α) (m : SMap α) (k : Nat) (v : α) : aGet d (aSet m k v) k = v := by
  have ha : (m.filter fun p => decide (p.1 < k)).any (fun p => decide (p.1 = k)) = false := by
    simp only [List.any_eq_false, decide_eq_true_eq, List.mem_filter]
    intro p hp e
    omega
  unfold aSet
  rw [aGet_append, ha]
  simp [aGet]

theorem aGet_aSet_other (d : α) (m : SMap α) (k j : Nat) (v : α) (h : j ≠ k) :
    aGet d (aSet m k v) j = aGet d m j := by
  unfold aSet
  rw [aGet_append]
  by_cases hj : j < k
  · by_cases ha : (m.filter fun p => decide (p.1 < k)).any (fun p => decide (p.1 = j))
    · simp only [ha, if_true]
      exact aGet_filter d m (fun x => decide (x < k)) j (by simpa using hj)
    · have e1 : aGet d m j = d := by
        rw [← aGet_filter d m (fun x => decide (x < k)) j (by simpa using hj)]
        refine aGet_none _ _ _ fun p hp e => ha ?_
        exact List.any_eq_true.2 ⟨p, hp, by simpa using e⟩
      simp only [ha, Bool.false_eq_true, if_false, e1]
      refine aGet_none _ _ _ fun p hp e => ?_
      simp only [List.mem_cons, List.mem_filter, decide_eq_true_eq] at hp
      rcases hp with rfl | hp
      · exact h e.symm
      · omega
  · have ha : (m.filter fun p => decide (p.1 < k)).any (fun p => decide (p.1 = j)) = false := by
      simp only [List.any_eq_false, decide_eq_true_eq, List.mem_filter]
      intro p hp e
      omega
    simp only [ha, Bool.false_eq_true, if_false, aGet]
    rw [if_neg (fun e => h e.symm)]
    exact aGet_filter d m (fun x => decide (k < x)) j (by simp; omega)

theorem aFind_aSet_same (m : SMap α) (k : Nat) (v : α) : aFind (aSet m k v) k = some v := by
  unfold aFind aSet
  rw [List.find?_append]
  have : (m.filter fun p => decide (p.1 < k)).find? (fun p => decide (p.1 = k)) = none := by
    rw [List.find?_eq_none]
    intro p hp
    simp only [List.mem_filter, decide_eq_true_eq] at hp
    simp
    omega
  simp [this]

end Sys2Proof
end

