-- ==== Sys2Proof/Laws/State.lean ====
section
/-! SUPPORT. What the updates of State do, field by field, so that no proof unfolds a record update; and how cores, casks
and registers read after they are written. -/

namespace Sys2Proof.Machine

open Sys2Proof

/-! ### Cores and casks -/

@[simp] theorem core_setCore_same (s : State) (c : Nat) (k : Core) : (s.setCore c k).core c = k := by
  simp [State.core, State.setCore]
theorem core_setCore_other (s : State) (c d : Nat) (k : Core) (h : d ≠ c) : (s.setCore c k).core d = s.core d := by
  simp [State.core, State.setCore, aGet_aSet_other _ _ _ _ _ h]
@[simp] theorem setCore_dev (s : State) (c : Nat) (k : Core) : (s.setCore c k).dev = s.dev := rfl
@[simp] theorem setCore_turn (s : State) (c : Nat) (k : Core) : (s.setCore c k).turn = s.turn := rfl
@[simp] theorem setCore_tick (s : State) (c : Nat) (k : Core) : (s.setCore c k).tick = s.tick := rfl

@[simp] theorem core_cask_setCask (k : Core) (b : Bool) (c : Cask) : (k.setCask b c).cask b = c := by
  cases b <;> rfl
theorem core_cask_setCask_other (k : Core) (b d : Bool) (c : Cask) (h : d ≠ b) : (k.setCask b c).cask d = k.cask d := by
  cases b <;> cases d <;> first | rfl | exact absurd rfl h
@[simp] theorem core_setCask_cur (k : Core) (b : Bool) (c : Cask) : (k.setCask b c).cur = k.cur := by cases b <;> rfl
@[simp] theorem core_setCask_dual (k : Core) (b : Bool) (c : Cask) : (k.setCask b c).dual = k.dual := by cases b <;> rfl
@[simp] theorem core_setCask_l1 (k : Core) (b : Bool) (c : Cask) : (k.setCask b c).l1 = k.l1 := by cases b <;> rfl
@[simp] theorem core_setCask_syn (k : Core) (b : Bool) (c : Cask) : (k.setCask b c).syn = k.syn := by cases b <;> rfl
@[simp] theorem core_setCask_mon (k : Core) (b : Bool) (c : Cask) : (k.setCask b c).mon = k.mon := by cases b <;> rfl
@[simp] theorem core_setCask_fills (k : Core) (b : Bool) (c : Cask) : (k.setCask b c).fills = k.fills := by
  cases b <;> rfl
@[simp] theorem core_setCask_asks (k : Core) (b : Bool) (c : Cask) : (k.setCask b c).asks = k.asks := by
  cases b <;> rfl

@[simp] theorem caskAt_setCaskAt_same (s : State) (n : Nat) (b : Bool) (c : Cask) :
    (s.setCaskAt n b c).caskAt n b = c := by
  simp [State.caskAt, State.setCaskAt]
theorem caskAt_setCaskAt_other (s : State) (n m : Nat) (b d : Bool) (c : Cask) (h : ¬ (m = n ∧ d = b)) :
    (s.setCaskAt n b c).caskAt m d = s.caskAt m d := by
  by_cases hm : m = n
  · subst hm
    have hd : d ≠ b := fun e => h ⟨rfl, e⟩
    simp [State.caskAt, State.setCaskAt, core_cask_setCask_other _ _ _ _ hd]
  · simp [State.caskAt, State.setCaskAt, core_setCore_other _ _ _ _ hm]
@[simp] theorem setCaskAt_dev (s : State) (n : Nat) (b : Bool) (c : Cask) : (s.setCaskAt n b c).dev = s.dev := rfl
@[simp] theorem setCaskAt_turn (s : State) (n : Nat) (b : Bool) (c : Cask) : (s.setCaskAt n b c).turn = s.turn := rfl
@[simp] theorem setCaskAt_tick (s : State) (n : Nat) (b : Bool) (c : Cask) : (s.setCaskAt n b c).tick = s.tick := rfl
theorem core_setCaskAt (s : State) (n m : Nat) (b : Bool) (c : Cask) :
    (s.setCaskAt n b c).core m = if m = n then (s.core n).setCask b c else s.core m := by
  by_cases h : m = n
  · subst h; simp [State.setCaskAt]
  · simp [State.setCaskAt, core_setCore_other _ _ _ _ h, h]

@[simp] theorem cask_setCask (s : State) (c : Cask) : (s.setCask c).cask = c := by
  simp [State.cask, State.setCask]
@[simp] theorem setCask_dev (s : State) (c : Cask) : (s.setCask c).dev = s.dev := rfl
@[simp] theorem setCask_turn (s : State) (c : Cask) : (s.setCask c).turn = s.turn := rfl
@[simp] theorem setCask_tick (s : State) (c : Cask) : (s.setCask c).tick = s.tick := rfl
@[simp] theorem cask_updCask (s : State) (f : Cask → Cask) : (s.updCask f).cask = f s.cask := by
  simp [State.updCask]
@[simp] theorem updCask_dev (s : State) (f : Cask → Cask) : (s.updCask f).dev = s.dev := rfl
@[simp] theorem updCask_turn (s : State) (f : Cask → Cask) : (s.updCask f).turn = s.turn := rfl
@[simp] theorem updCask_tick (s : State) (f : Cask → Cask) : (s.updCask f).tick = s.tick := rfl
theorem core_setCask (s : State) (c : Cask) (m : Nat) :
    (s.setCask c).core m = if m = s.turn.core then (s.core s.turn.core).setCask s.turn.cask c else s.core m :=
  core_setCaskAt _ _ _ _ _
theorem core_updCask (s : State) (f : Cask → Cask) (m : Nat) :
    (s.updCask f).core m = if m = s.turn.core then (s.core s.turn.core).setCask s.turn.cask (f s.cask) else s.core m :=
  core_setCaskAt _ _ _ _ _
@[simp] theorem dual_setCask (s : State) (c : Cask) : (s.setCask c).dual = s.dual := by
  simp [State.dual, core_setCask]
@[simp] theorem dual_updCask (s : State) (f : Cask → Cask) : (s.updCask f).dual = s.dual := by
  simp [State.updCask]
theorem caskAt_setCask_other (s : State) (c : Cask) (n : Nat) (b : Bool) (h : ¬ (n = s.turn.core ∧ b = s.turn.cask)) :
    (s.setCask c).caskAt n b = s.caskAt n b := caskAt_setCaskAt_other _ _ _ _ _ _ h
theorem caskAt_updCask_other (s : State) (f : Cask → Cask) (n : Nat) (b : Bool)
    (h : ¬ (n = s.turn.core ∧ b = s.turn.cask)) : (s.updCask f).caskAt n b = s.caskAt n b :=
  caskAt_setCaskAt_other _ _ _ _ _ _ h
theorem setCore_setCore (s : State) (n : Nat) (k l : Core) : (s.setCore n k).setCore n l = s.setCore n l := by
  simp only [State.setCore, State.mk.injEq, and_true]
  unfold aSet
  simp only [List.filter_append, List.filter_cons, List.filter_filter]
  simp only [Nat.lt_irrefl, decide_false, Bool.false_eq_true, if_false]
  have e1 : (s.cores.filter fun p => decide (p.1 < n) && decide (p.1 < n)) = s.cores.filter fun p => decide (p.1 < n) := by
    simp
  have e2 : (s.cores.filter fun p => decide (p.1 < n) && decide (n < p.1)) = [] := by
    rw [List.filter_eq_nil_iff]; intro p _; simp; omega
  have e3 : (s.cores.filter fun p => decide (n < p.1) && decide (p.1 < n)) = [] := by
    rw [List.filter_eq_nil_iff]; intro p _; simp; omega
  have e4 : (s.cores.filter fun p => decide (n < p.1) && decide (n < p.1)) = s.cores.filter fun p => decide (n < p.1) := by
    simp
  simp [e2, e3]
theorem core_setCask_setCask (k : Core) (b : Bool) (c d : Cask) : (k.setCask b c).setCask b d = k.setCask b d := by
  cases b <;> rfl
@[simp] theorem setCask_setCask (s : State) (c d : Cask) : (s.setCask c).setCask d = s.setCask d := by
  simp only [State.setCask, State.setCaskAt, setCore_turn, core_setCore_same, core_setCask_setCask]
  exact setCore_setCore _ _ _ _
@[simp] theorem updCask_setCask (s : State) (c : Cask) (f : Cask → Cask) : (s.setCask c).updCask f = s.setCask (f c) := by
  simp [State.updCask]
theorem updCask_updCask (s : State) (f g : Cask → Cask) : (s.updCask f).updCask g = s.updCask fun c => g (f c) := by
  simp [State.updCask]

/-! ### Registers -/

@[simp] theorem sreg_zero (c : Cask) : c.sreg 0 = 0 := rfl
theorem sreg_setS (c : Cask) (n m : SReg) (v : Word) :
    (c.setS n v).sreg m = if m = n then (if n = 0 then 0 else v) else c.sreg m := by
  unfold Cask.setS Cask.sreg
  by_cases hn : n = 0
  · rw [if_pos hn, if_pos hn]
    by_cases h : m = n
    · rw [if_pos h, if_pos (h.trans hn)]
    · rw [if_neg h]
  · rw [if_neg hn, if_neg hn]
    by_cases h : m = n
    · rw [if_pos h, if_neg (h ▸ hn), h, smGet_smSet_same]
    · have : m.toNat ≠ n.toNat := fun e => h (BitVec.eq_of_toNat_eq e)
      rw [if_neg h, smGet_smSet_other _ _ _ _ _ this]
@[simp] theorem eng_setEng_same (c : Cask) (e : Eng) (x : EngSt) : (c.setEng e x).eng e = x := by cases e <;> rfl
theorem eng_setEng_other (c : Cask) (e d : Eng) (x : EngSt) (h : d ≠ e) : (c.setEng e x).eng d = c.eng d := by
  cases e <;> cases d <;> first | rfl | exact absurd rfl h
@[simp] theorem eng_updEng_same (c : Cask) (e : Eng) (f : EngSt → EngSt) : (c.updEng e f).eng e = f (c.eng e) := by
  cases e <;> rfl
theorem eng_updEng_other (c : Cask) (e d : Eng) (f : EngSt → EngSt) (h : d ≠ e) : (c.updEng e f).eng d = c.eng d := by
  cases e <;> cases d <;> first | rfl | exact absurd rfl h
@[simp] theorem updEng_updEng (c : Cask) (e : Eng) (f g : EngSt → EngSt) :
    (c.updEng e f).updEng e g = c.updEng e fun x => g (f x) := by cases e <;> rfl
@[simp] theorem xreg_zero (c : Cask) (e : Eng) : c.xreg e 0 = 0 := rfl
theorem xreg_setX (c : Cask) (e : Eng) (n m : XReg) (v : Word) :
    (c.setX e n v).xreg e m = if m = n then (if n = 0 then 0 else v) else c.xreg e m := by
  unfold Cask.setX Cask.xreg
  by_cases hn : n = 0
  · rw [if_pos hn, if_pos hn]
    by_cases h : m = n
    · rw [if_pos h, if_pos (h.trans hn)]
    · rw [if_neg h]
  · rw [if_neg hn, if_neg hn, eng_updEng_same]
    by_cases h : m = n
    · rw [if_pos h, if_neg (h ▸ hn), h, smGet_smSet_same]
    · have : m.toNat ≠ n.toNat := fun e => h (BitVec.eq_of_toNat_eq e)
      rw [if_neg h, smGet_smSet_other _ _ _ _ _ this]
theorem eng_setX_other (c : Cask) (e d : Eng) (n : XReg) (v : Word) (h : d ≠ e) : (c.setX e n v).eng d = c.eng d := by
  unfold Cask.setX
  split
  · rfl
  · exact eng_updEng_other _ _ _ _ h
theorem mreg_setM (c : Cask) (n m : MReg) (v : BitVec 128) :
    (c.setM n v).mreg m = if m = n then v else c.mreg m := by
  by_cases h : m = n
  · subst h; simp [Cask.mreg, Cask.setM]
  · have : m.toNat ≠ n.toNat := fun e => h (BitVec.eq_of_toNat_eq e)
    simp [Cask.mreg, Cask.setM, h, smGet_smSet_other _ _ _ _ _ this]
theorem evreg_setEv (c : Cask) (n m : Nat) (v : BitVec 32) :
    (c.setEv n v).evreg m = if m = n then v else c.evreg m := by
  by_cases h : m = n
  · subst h; simp [Cask.evreg, Cask.setEv]
  · simp [Cask.evreg, Cask.setEv, h, smGet_smSet_other _ _ _ _ _ h]
theorem qacc_setQ (c : Cask) (n m : QReg) (v : QAcc) : (c.setQ n v).qacc m = if m = n then v else c.qacc m := by
  by_cases h : m = n
  · subst h; simp [Cask.qacc, Cask.setQ]
  · have : m.toNat ≠ n.toNat := fun e => h (BitVec.eq_of_toNat_eq e)
    simp [Cask.qacc, Cask.setQ, h, aGet_aSet_other _ _ _ _ _ this]

/-! ### Monitors -/

@[simp] theorem countAt_dev (s : State) (c : Nat) (b : Bool) (e n : Nat) : (s.countAt c b e n).dev = s.dev := by
  unfold State.countAt; dsimp only; split <;> rfl
@[simp] theorem countAt_turn (s : State) (c : Nat) (b : Bool) (e n : Nat) : (s.countAt c b e n).turn = s.turn := by
  unfold State.countAt; dsimp only; split <;> rfl
@[simp] theorem countAt_tick (s : State) (c : Nat) (b : Bool) (e n : Nat) : (s.countAt c b e n).tick = s.tick := by
  unfold State.countAt; dsimp only; split <;> rfl
/-- Counting an event changes nothing of a core but its monitors, and nothing of another core. -/
theorem core_countAt (s : State) (c : Nat) (b : Bool) (e n m : Nat) :
    ∃ x, (s.countAt c b e n).core m = { s.core m with mon := x } ∧ (m ≠ c → x = (s.core m).mon) := by
  unfold State.countAt
  dsimp only
  split
  · exact ⟨(s.core m).mon, rfl, fun _ => rfl⟩
  · by_cases h : m = c
    · subst h; exact ⟨_, by rw [core_setCore_same], fun h => absurd rfl h⟩
    · exact ⟨(s.core m).mon, by rw [core_setCore_other _ _ _ _ h], fun _ => rfl⟩
@[simp] theorem count_dev (s : State) (e n : Nat) : (s.count e n).dev = s.dev := countAt_dev _ _ _ _ _
@[simp] theorem count_turn (s : State) (e n : Nat) : (s.count e n).turn = s.turn := countAt_turn _ _ _ _ _
@[simp] theorem count_tick (s : State) (e n : Nat) : (s.count e n).tick = s.tick := countAt_tick _ _ _ _ _
theorem core_count (s : State) (e n m : Nat) :
    ∃ x, (s.count e n).core m = { s.core m with mon := x } ∧ (m ≠ s.turn.core → x = (s.core m).mon) :=
  core_countAt _ _ _ _ _ _
@[simp] theorem caskAt_count (s : State) (e n m : Nat) (b : Bool) : (s.count e n).caskAt m b = s.caskAt m b := by
  obtain ⟨x, h, -⟩ := core_count s e n m
  simp only [State.caskAt, h]
  cases b <;> rfl
@[simp] theorem cask_count (s : State) (e n : Nat) : (s.count e n).cask = s.cask := by
  simp [State.cask]
@[simp] theorem dual_count (s : State) (e n : Nat) : (s.count e n).dual = s.dual := by
  obtain ⟨x, h, -⟩ := core_count s e n s.turn.core
  simp [State.dual, h]

/-! ### The updates, field by field -/

@[simp] theorem setS_mem (c : Cask) (n : SReg) (v : Word) : (c.setS n v).mem = c.mem :=
    by unfold Cask.setS; split <;> rfl
@[simp] theorem setS_eL (c : Cask) (n : SReg) (v : Word) : (c.setS n v).eL = c.eL :=
    by unfold Cask.setS; split <;> rfl
@[simp] theorem setS_eM (c : Cask) (n : SReg) (v : Word) : (c.setS n v).eM = c.eM :=
    by unfold Cask.setS; split <;> rfl
@[simp] theorem setS_eS (c : Cask) (n : SReg) (v : Word) : (c.setS n v).eS = c.eS :=
    by unfold Cask.setS; split <;> rfl
@[simp] theorem setS_mx (c : Cask) (n : SReg) (v : Word) : (c.setS n v).mx = c.mx :=
    by unfold Cask.setS; split <;> rfl
@[simp] theorem setS_cp (c : Cask) (n : SReg) (v : Word) : (c.setS n v).cp = c.cp :=
    by unfold Cask.setS; split <;> rfl
@[simp] theorem setS_yy (c : Cask) (n : SReg) (v : Word) : (c.setS n v).yy = c.yy :=
    by unfold Cask.setS; split <;> rfl
@[simp] theorem setS_st (c : Cask) (n : SReg) (v : Word) : (c.setS n v).st = c.st :=
    by unfold Cask.setS; split <;> rfl
@[simp] theorem setS_kr_kpc (c : Cask) (n : SReg) (v : Word) : (c.setS n v).kr.kpc = c.kr.kpc :=
    by unfold Cask.setS; split <;> rfl
@[simp] theorem setS_kr_priv (c : Cask) (n : SReg) (v : Word) : (c.setS n v).kr.priv = c.kr.priv :=
    by unfold Cask.setS; split <;> rfl
@[simp] theorem setS_kr_hvec (c : Cask) (n : SReg) (v : Word) : (c.setS n v).kr.hvec = c.kr.hvec :=
    by unfold Cask.setS; split <;> rfl
@[simp] theorem setS_kr_asid (c : Cask) (n : SReg) (v : Word) : (c.setS n v).kr.asid = c.kr.asid :=
    by unfold Cask.setS; split <;> rfl
@[simp] theorem setS_kr_lq (c : Cask) (n : SReg) (v : Word) : (c.setS n v).kr.lq = c.kr.lq :=
    by unfold Cask.setS; split <;> rfl
@[simp] theorem setS_kr_lid (c : Cask) (n : SReg) (v : Word) : (c.setS n v).kr.lid = c.kr.lid :=
    by unfold Cask.setS; split <;> rfl
@[simp] theorem setS_kr_wdog (c : Cask) (n : SReg) (v : Word) : (c.setS n v).kr.wdog = c.kr.wdog :=
    by unfold Cask.setS; split <;> rfl
@[simp] theorem setS_kr_monen (c : Cask) (n : SReg) (v : Word) : (c.setS n v).kr.monen = c.kr.monen :=
    by unfold Cask.setS; split <;> rfl
@[simp] theorem setS_kr_estv (c : Cask) (n : SReg) (v : Word) : (c.setS n v).kr.estv = c.kr.estv :=
    by unfold Cask.setS; split <;> rfl
@[simp] theorem setS_kr_tag (c : Cask) (n : SReg) (v : Word) : (c.setS n v).kr.tag = c.kr.tag :=
    by unfold Cask.setS; split <;> rfl
@[simp] theorem setS_kr_cyc (c : Cask) (n : SReg) (v : Word) : (c.setS n v).kr.cyc = c.kr.cyc :=
    by unfold Cask.setS; split <;> rfl
@[simp] theorem setEng_kr (c : Cask) (e : Eng) (x : EngSt) : (c.setEng e x).kr = c.kr := by cases e <;> rfl
@[simp] theorem setEng_mem (c : Cask) (e : Eng) (x : EngSt) : (c.setEng e x).mem = c.mem := by cases e <;> rfl
@[simp] theorem setEng_mx (c : Cask) (e : Eng) (x : EngSt) : (c.setEng e x).mx = c.mx := by cases e <;> rfl
@[simp] theorem setEng_cp (c : Cask) (e : Eng) (x : EngSt) : (c.setEng e x).cp = c.cp := by cases e <;> rfl
@[simp] theorem setEng_yy (c : Cask) (e : Eng) (x : EngSt) : (c.setEng e x).yy = c.yy := by cases e <;> rfl
@[simp] theorem setEng_st (c : Cask) (e : Eng) (x : EngSt) : (c.setEng e x).st = c.st := by cases e <;> rfl
@[simp] theorem updEng_kr (c : Cask) (e : Eng) (f : EngSt → EngSt) : (c.updEng e f).kr = c.kr := by cases e <;> rfl
@[simp] theorem updEng_mem (c : Cask) (e : Eng) (f : EngSt → EngSt) : (c.updEng e f).mem = c.mem := by cases e <;> rfl
@[simp] theorem updEng_mx (c : Cask) (e : Eng) (f : EngSt → EngSt) : (c.updEng e f).mx = c.mx := by cases e <;> rfl
@[simp] theorem updEng_cp (c : Cask) (e : Eng) (f : EngSt → EngSt) : (c.updEng e f).cp = c.cp := by cases e <;> rfl
@[simp] theorem updEng_yy (c : Cask) (e : Eng) (f : EngSt → EngSt) : (c.updEng e f).yy = c.yy := by cases e <;> rfl
@[simp] theorem updEng_st (c : Cask) (e : Eng) (f : EngSt → EngSt) : (c.updEng e f).st = c.st := by cases e <;> rfl
@[simp] theorem setX_kr (c : Cask) (e : Eng) (n : XReg) (v : Word) : (c.setX e n v).kr = c.kr :=
    by unfold Cask.setX; split <;> simp
@[simp] theorem setX_mem (c : Cask) (e : Eng) (n : XReg) (v : Word) : (c.setX e n v).mem = c.mem :=
    by unfold Cask.setX; split <;> simp
@[simp] theorem setX_mx (c : Cask) (e : Eng) (n : XReg) (v : Word) : (c.setX e n v).mx = c.mx :=
    by unfold Cask.setX; split <;> simp
@[simp] theorem setX_cp (c : Cask) (e : Eng) (n : XReg) (v : Word) : (c.setX e n v).cp = c.cp :=
    by unfold Cask.setX; split <;> simp
@[simp] theorem setX_yy (c : Cask) (e : Eng) (n : XReg) (v : Word) : (c.setX e n v).yy = c.yy :=
    by unfold Cask.setX; split <;> simp
@[simp] theorem setX_st (c : Cask) (e : Eng) (n : XReg) (v : Word) : (c.setX e n v).st = c.st :=
    by unfold Cask.setX; split <;> simp
@[simp] theorem setV_kr (c : Cask) (n : VReg) (v : List Lane) : (c.setV n v).kr = c.kr := rfl
@[simp] theorem setV_mem (c : Cask) (n : VReg) (v : List Lane) : (c.setV n v).mem = c.mem := rfl
@[simp] theorem setV_eL (c : Cask) (n : VReg) (v : List Lane) : (c.setV n v).eL = c.eL := rfl
@[simp] theorem setV_eM (c : Cask) (n : VReg) (v : List Lane) : (c.setV n v).eM = c.eM := rfl
@[simp] theorem setV_eS (c : Cask) (n : VReg) (v : List Lane) : (c.setV n v).eS = c.eS := rfl
@[simp] theorem setV_cp (c : Cask) (n : VReg) (v : List Lane) : (c.setV n v).cp = c.cp := rfl
@[simp] theorem setV_yy (c : Cask) (n : VReg) (v : List Lane) : (c.setV n v).yy = c.yy := rfl
@[simp] theorem setV_st (c : Cask) (n : VReg) (v : List Lane) : (c.setV n v).st = c.st := rfl
@[simp] theorem setV_mx_m (c : Cask) (n : VReg) (v : List Lane) : (c.setV n v).mx.m = c.mx.m := rfl
@[simp] theorem setV_mx_c (c : Cask) (n : VReg) (v : List Lane) : (c.setV n v).mx.c = c.mx.c := rfl
@[simp] theorem setV_mx_q (c : Cask) (n : VReg) (v : List Lane) : (c.setV n v).mx.q = c.mx.q := rfl
@[simp] theorem setV_mx_flags (c : Cask) (n : VReg) (v : List Lane) : (c.setV n v).mx.flags = c.mx.flags := rfl
@[simp] theorem setV_mx_mxc (c : Cask) (n : VReg) (v : List Lane) : (c.setV n v).mx.mxc = c.mx.mxc := rfl
@[simp] theorem setV_mx_latch (c : Cask) (n : VReg) (v : List Lane) : (c.setV n v).mx.latch = c.mx.latch := rfl
@[simp] theorem setM_kr (c : Cask) (n : MReg) (v : BitVec 128) : (c.setM n v).kr = c.kr := rfl
@[simp] theorem setM_mem (c : Cask) (n : MReg) (v : BitVec 128) : (c.setM n v).mem = c.mem := rfl
@[simp] theorem setM_eL (c : Cask) (n : MReg) (v : BitVec 128) : (c.setM n v).eL = c.eL := rfl
@[simp] theorem setM_eM (c : Cask) (n : MReg) (v : BitVec 128) : (c.setM n v).eM = c.eM := rfl
@[simp] theorem setM_eS (c : Cask) (n : MReg) (v : BitVec 128) : (c.setM n v).eS = c.eS := rfl
@[simp] theorem setM_cp (c : Cask) (n : MReg) (v : BitVec 128) : (c.setM n v).cp = c.cp := rfl
@[simp] theorem setM_yy (c : Cask) (n : MReg) (v : BitVec 128) : (c.setM n v).yy = c.yy := rfl
@[simp] theorem setM_st (c : Cask) (n : MReg) (v : BitVec 128) : (c.setM n v).st = c.st := rfl
@[simp] theorem setM_mx_v (c : Cask) (n : MReg) (v : BitVec 128) : (c.setM n v).mx.v = c.mx.v := rfl
@[simp] theorem setM_mx_c (c : Cask) (n : MReg) (v : BitVec 128) : (c.setM n v).mx.c = c.mx.c := rfl
@[simp] theorem setM_mx_q (c : Cask) (n : MReg) (v : BitVec 128) : (c.setM n v).mx.q = c.mx.q := rfl
@[simp] theorem setM_mx_flags (c : Cask) (n : MReg) (v : BitVec 128) : (c.setM n v).mx.flags = c.mx.flags := rfl
@[simp] theorem setM_mx_mxc (c : Cask) (n : MReg) (v : BitVec 128) : (c.setM n v).mx.mxc = c.mx.mxc := rfl
@[simp] theorem setM_mx_latch (c : Cask) (n : MReg) (v : BitVec 128) : (c.setM n v).mx.latch = c.mx.latch := rfl
@[simp] theorem setTile_kr (c : Cask) (n : CTile) (v : List Lane) : (c.setTile n v).kr = c.kr := rfl
@[simp] theorem setTile_mem (c : Cask) (n : CTile) (v : List Lane) : (c.setTile n v).mem = c.mem := rfl
@[simp] theorem setTile_eL (c : Cask) (n : CTile) (v : List Lane) : (c.setTile n v).eL = c.eL := rfl
@[simp] theorem setTile_eM (c : Cask) (n : CTile) (v : List Lane) : (c.setTile n v).eM = c.eM := rfl
@[simp] theorem setTile_eS (c : Cask) (n : CTile) (v : List Lane) : (c.setTile n v).eS = c.eS := rfl
@[simp] theorem setTile_cp (c : Cask) (n : CTile) (v : List Lane) : (c.setTile n v).cp = c.cp := rfl
@[simp] theorem setTile_yy (c : Cask) (n : CTile) (v : List Lane) : (c.setTile n v).yy = c.yy := rfl
@[simp] theorem setTile_st (c : Cask) (n : CTile) (v : List Lane) : (c.setTile n v).st = c.st := rfl
@[simp] theorem setTile_mx_v (c : Cask) (n : CTile) (v : List Lane) : (c.setTile n v).mx.v = c.mx.v := rfl
@[simp] theorem setTile_mx_m (c : Cask) (n : CTile) (v : List Lane) : (c.setTile n v).mx.m = c.mx.m := rfl
@[simp] theorem setTile_mx_q (c : Cask) (n : CTile) (v : List Lane) : (c.setTile n v).mx.q = c.mx.q := rfl
@[simp] theorem setTile_mx_flags (c : Cask) (n : CTile) (v : List Lane) : (c.setTile n v).mx.flags = c.mx.flags := rfl
@[simp] theorem setTile_mx_mxc (c : Cask) (n : CTile) (v : List Lane) : (c.setTile n v).mx.mxc = c.mx.mxc := rfl
@[simp] theorem setTile_mx_latch (c : Cask) (n : CTile) (v : List Lane) : (c.setTile n v).mx.latch = c.mx.latch := rfl
@[simp] theorem setQ_kr (c : Cask) (n : QReg) (v : QAcc) : (c.setQ n v).kr = c.kr := rfl
@[simp] theorem setQ_mem (c : Cask) (n : QReg) (v : QAcc) : (c.setQ n v).mem = c.mem := rfl
@[simp] theorem setQ_eL (c : Cask) (n : QReg) (v : QAcc) : (c.setQ n v).eL = c.eL := rfl
@[simp] theorem setQ_eM (c : Cask) (n : QReg) (v : QAcc) : (c.setQ n v).eM = c.eM := rfl
@[simp] theorem setQ_eS (c : Cask) (n : QReg) (v : QAcc) : (c.setQ n v).eS = c.eS := rfl
@[simp] theorem setQ_cp (c : Cask) (n : QReg) (v : QAcc) : (c.setQ n v).cp = c.cp := rfl
@[simp] theorem setQ_yy (c : Cask) (n : QReg) (v : QAcc) : (c.setQ n v).yy = c.yy := rfl
@[simp] theorem setQ_st (c : Cask) (n : QReg) (v : QAcc) : (c.setQ n v).st = c.st := rfl
@[simp] theorem setQ_mx_v (c : Cask) (n : QReg) (v : QAcc) : (c.setQ n v).mx.v = c.mx.v := rfl
@[simp] theorem setQ_mx_m (c : Cask) (n : QReg) (v : QAcc) : (c.setQ n v).mx.m = c.mx.m := rfl
@[simp] theorem setQ_mx_c (c : Cask) (n : QReg) (v : QAcc) : (c.setQ n v).mx.c = c.mx.c := rfl
@[simp] theorem setQ_mx_flags (c : Cask) (n : QReg) (v : QAcc) : (c.setQ n v).mx.flags = c.mx.flags := rfl
@[simp] theorem setQ_mx_mxc (c : Cask) (n : QReg) (v : QAcc) : (c.setQ n v).mx.mxc = c.mx.mxc := rfl
@[simp] theorem setQ_mx_latch (c : Cask) (n : QReg) (v : QAcc) : (c.setQ n v).mx.latch = c.mx.latch := rfl
@[simp] theorem setEv_kr (c : Cask) (n : Nat) (v : BitVec 32) : (c.setEv n v).kr = c.kr := rfl
@[simp] theorem setEv_mem (c : Cask) (n : Nat) (v : BitVec 32) : (c.setEv n v).mem = c.mem := rfl
@[simp] theorem setEv_eL (c : Cask) (n : Nat) (v : BitVec 32) : (c.setEv n v).eL = c.eL := rfl
@[simp] theorem setEv_eM (c : Cask) (n : Nat) (v : BitVec 32) : (c.setEv n v).eM = c.eM := rfl
@[simp] theorem setEv_eS (c : Cask) (n : Nat) (v : BitVec 32) : (c.setEv n v).eS = c.eS := rfl
@[simp] theorem setEv_mx (c : Cask) (n : Nat) (v : BitVec 32) : (c.setEv n v).mx = c.mx := rfl
@[simp] theorem setEv_yy (c : Cask) (n : Nat) (v : BitVec 32) : (c.setEv n v).yy = c.yy := rfl
@[simp] theorem setEv_st (c : Cask) (n : Nat) (v : BitVec 32) : (c.setEv n v).st = c.st := rfl
@[simp] theorem addEv_kr (c : Cask) (n : Nat) (v : BitVec 32) : (c.addEv n v).kr = c.kr := rfl
@[simp] theorem addEv_mem (c : Cask) (n : Nat) (v : BitVec 32) : (c.addEv n v).mem = c.mem := rfl
@[simp] theorem addEv_eL (c : Cask) (n : Nat) (v : BitVec 32) : (c.addEv n v).eL = c.eL := rfl
@[simp] theorem addEv_eM (c : Cask) (n : Nat) (v : BitVec 32) : (c.addEv n v).eM = c.eM := rfl
@[simp] theorem addEv_eS (c : Cask) (n : Nat) (v : BitVec 32) : (c.addEv n v).eS = c.eS := rfl
@[simp] theorem addEv_mx (c : Cask) (n : Nat) (v : BitVec 32) : (c.addEv n v).mx = c.mx := rfl
@[simp] theorem addEv_yy (c : Cask) (n : Nat) (v : BitVec 32) : (c.addEv n v).yy = c.yy := rfl
@[simp] theorem addEv_st (c : Cask) (n : Nat) (v : BitVec 32) : (c.addEv n v).st = c.st := rfl
@[simp] theorem record_kr (c : Cask) (fl : BitVec 5) (a b d e : Nat) : (c.record fl a b d e).kr = c.kr := rfl
@[simp] theorem record_mem (c : Cask) (fl : BitVec 5) (a b d e : Nat) : (c.record fl a b d e).mem = c.mem := rfl
@[simp] theorem record_eL (c : Cask) (fl : BitVec 5) (a b d e : Nat) : (c.record fl a b d e).eL = c.eL := rfl
@[simp] theorem record_eM (c : Cask) (fl : BitVec 5) (a b d e : Nat) : (c.record fl a b d e).eM = c.eM := rfl
@[simp] theorem record_eS (c : Cask) (fl : BitVec 5) (a b d e : Nat) : (c.record fl a b d e).eS = c.eS := rfl
@[simp] theorem record_cp (c : Cask) (fl : BitVec 5) (a b d e : Nat) : (c.record fl a b d e).cp = c.cp := rfl
@[simp] theorem record_yy (c : Cask) (fl : BitVec 5) (a b d e : Nat) : (c.record fl a b d e).yy = c.yy := rfl
@[simp] theorem record_st (c : Cask) (fl : BitVec 5) (a b d e : Nat) : (c.record fl a b d e).st = c.st := rfl
@[simp] theorem record_mx_v (c : Cask) (fl : BitVec 5) (a b d e : Nat) : (c.record fl a b d e).mx.v = c.mx.v := rfl
@[simp] theorem record_mx_m (c : Cask) (fl : BitVec 5) (a b d e : Nat) : (c.record fl a b d e).mx.m = c.mx.m := rfl
@[simp] theorem record_mx_c (c : Cask) (fl : BitVec 5) (a b d e : Nat) : (c.record fl a b d e).mx.c = c.mx.c := rfl
@[simp] theorem record_mx_q (c : Cask) (fl : BitVec 5) (a b d e : Nat) : (c.record fl a b d e).mx.q = c.mx.q := rfl
@[simp] theorem record_mx_latch (c : Cask) (fl : BitVec 5) (a b d e : Nat) : (c.record fl a b d e).mx.latch = c.mx.latch :=
    rfl
@[simp] theorem setSpm_kr (c : Cask) (a : Nat) (bs : List Byte) : (c.setSpm a bs).kr = c.kr := rfl
@[simp] theorem setSpm_eL (c : Cask) (a : Nat) (bs : List Byte) : (c.setSpm a bs).eL = c.eL := rfl
@[simp] theorem setSpm_eM (c : Cask) (a : Nat) (bs : List Byte) : (c.setSpm a bs).eM = c.eM := rfl
@[simp] theorem setSpm_eS (c : Cask) (a : Nat) (bs : List Byte) : (c.setSpm a bs).eS = c.eS := rfl
@[simp] theorem setSpm_mx (c : Cask) (a : Nat) (bs : List Byte) : (c.setSpm a bs).mx = c.mx := rfl
@[simp] theorem setSpm_cp (c : Cask) (a : Nat) (bs : List Byte) : (c.setSpm a bs).cp = c.cp := rfl
@[simp] theorem setSpm_yy (c : Cask) (a : Nat) (bs : List Byte) : (c.setSpm a bs).yy = c.yy := rfl
@[simp] theorem setSpm_st (c : Cask) (a : Nat) (bs : List Byte) : (c.setSpm a bs).st = c.st := rfl
@[simp] theorem setSpm_mem_klm (c : Cask) (a : Nat) (bs : List Byte) : (c.setSpm a bs).mem.klm = c.mem.klm := rfl
@[simp] theorem setSpm_mem_ik (c : Cask) (a : Nat) (bs : List Byte) : (c.setSpm a bs).mem.ik = c.mem.ik := rfl
@[simp] theorem setSpm_mem_il (c : Cask) (a : Nat) (bs : List Byte) : (c.setSpm a bs).mem.il = c.mem.il := rfl
@[simp] theorem setSpm_mem_im (c : Cask) (a : Nat) (bs : List Byte) : (c.setSpm a bs).mem.im = c.mem.im := rfl
@[simp] theorem setSpm_mem_is (c : Cask) (a : Nat) (bs : List Byte) : (c.setSpm a bs).mem.is = c.mem.is := rfl
@[simp] theorem setSpm_mem_klmP (c : Cask) (a : Nat) (bs : List Byte) : (c.setSpm a bs).mem.klmP = c.mem.klmP := rfl
@[simp] theorem setSpm_mem_acmP (c : Cask) (a : Nat) (bs : List Byte) : (c.setSpm a bs).mem.acmP = c.mem.acmP := rfl
@[simp] theorem setSpm_mem_ikP (c : Cask) (a : Nat) (bs : List Byte) : (c.setSpm a bs).mem.ikP = c.mem.ikP := rfl
@[simp] theorem setSpm_mem_ilP (c : Cask) (a : Nat) (bs : List Byte) : (c.setSpm a bs).mem.ilP = c.mem.ilP := rfl
@[simp] theorem setSpm_mem_imP (c : Cask) (a : Nat) (bs : List Byte) : (c.setSpm a bs).mem.imP = c.mem.imP := rfl
@[simp] theorem setSpm_mem_isP (c : Cask) (a : Nat) (bs : List Byte) : (c.setSpm a bs).mem.isP = c.mem.isP := rfl
@[simp] theorem setKlm_kr (c : Cask) (a : Nat) (bs : List Byte) : (c.setKlm a bs).kr = c.kr := rfl
@[simp] theorem setKlm_eL (c : Cask) (a : Nat) (bs : List Byte) : (c.setKlm a bs).eL = c.eL := rfl
@[simp] theorem setKlm_eM (c : Cask) (a : Nat) (bs : List Byte) : (c.setKlm a bs).eM = c.eM := rfl
@[simp] theorem setKlm_eS (c : Cask) (a : Nat) (bs : List Byte) : (c.setKlm a bs).eS = c.eS := rfl
@[simp] theorem setKlm_mx (c : Cask) (a : Nat) (bs : List Byte) : (c.setKlm a bs).mx = c.mx := rfl
@[simp] theorem setKlm_cp (c : Cask) (a : Nat) (bs : List Byte) : (c.setKlm a bs).cp = c.cp := rfl
@[simp] theorem setKlm_yy (c : Cask) (a : Nat) (bs : List Byte) : (c.setKlm a bs).yy = c.yy := rfl
@[simp] theorem setKlm_st (c : Cask) (a : Nat) (bs : List Byte) : (c.setKlm a bs).st = c.st := rfl
@[simp] theorem setKlm_mem_spm (c : Cask) (a : Nat) (bs : List Byte) : (c.setKlm a bs).mem.spm = c.mem.spm := rfl
@[simp] theorem setKlm_mem_ik (c : Cask) (a : Nat) (bs : List Byte) : (c.setKlm a bs).mem.ik = c.mem.ik := rfl
@[simp] theorem setKlm_mem_il (c : Cask) (a : Nat) (bs : List Byte) : (c.setKlm a bs).mem.il = c.mem.il := rfl
@[simp] theorem setKlm_mem_im (c : Cask) (a : Nat) (bs : List Byte) : (c.setKlm a bs).mem.im = c.mem.im := rfl
@[simp] theorem setKlm_mem_is (c : Cask) (a : Nat) (bs : List Byte) : (c.setKlm a bs).mem.is = c.mem.is := rfl
@[simp] theorem setKlm_mem_spmP (c : Cask) (a : Nat) (bs : List Byte) : (c.setKlm a bs).mem.spmP = c.mem.spmP := rfl
@[simp] theorem setKlm_mem_acmP (c : Cask) (a : Nat) (bs : List Byte) : (c.setKlm a bs).mem.acmP = c.mem.acmP := rfl
@[simp] theorem setKlm_mem_ikP (c : Cask) (a : Nat) (bs : List Byte) : (c.setKlm a bs).mem.ikP = c.mem.ikP := rfl
@[simp] theorem setKlm_mem_ilP (c : Cask) (a : Nat) (bs : List Byte) : (c.setKlm a bs).mem.ilP = c.mem.ilP := rfl
@[simp] theorem setKlm_mem_imP (c : Cask) (a : Nat) (bs : List Byte) : (c.setKlm a bs).mem.imP = c.mem.imP := rfl
@[simp] theorem setKlm_mem_isP (c : Cask) (a : Nat) (bs : List Byte) : (c.setKlm a bs).mem.isP = c.mem.isP := rfl
@[simp] theorem setImem_kr (c : Cask) (u : CoreUnit) (a : Nat) (bs : List Byte) : (c.setImem u a bs).kr = c.kr :=
    by cases u <;> rfl
@[simp] theorem setImem_eL (c : Cask) (u : CoreUnit) (a : Nat) (bs : List Byte) : (c.setImem u a bs).eL = c.eL :=
    by cases u <;> rfl
@[simp] theorem setImem_eM (c : Cask) (u : CoreUnit) (a : Nat) (bs : List Byte) : (c.setImem u a bs).eM = c.eM :=
    by cases u <;> rfl
@[simp] theorem setImem_eS (c : Cask) (u : CoreUnit) (a : Nat) (bs : List Byte) : (c.setImem u a bs).eS = c.eS :=
    by cases u <;> rfl
@[simp] theorem setImem_mx (c : Cask) (u : CoreUnit) (a : Nat) (bs : List Byte) : (c.setImem u a bs).mx = c.mx :=
    by cases u <;> rfl
@[simp] theorem setImem_cp (c : Cask) (u : CoreUnit) (a : Nat) (bs : List Byte) : (c.setImem u a bs).cp = c.cp :=
    by cases u <;> rfl
@[simp] theorem setImem_yy (c : Cask) (u : CoreUnit) (a : Nat) (bs : List Byte) : (c.setImem u a bs).yy = c.yy :=
    by cases u <;> rfl
@[simp] theorem setImem_st (c : Cask) (u : CoreUnit) (a : Nat) (bs : List Byte) : (c.setImem u a bs).st = c.st :=
    by cases u <;> rfl
@[simp] theorem setImem_mem_spm (c : Cask) (u : CoreUnit) (a : Nat) (bs : List Byte) : (c.setImem u a bs).mem.spm = c.mem.spm :=
    by cases u <;> rfl
@[simp] theorem setImem_mem_klm (c : Cask) (u : CoreUnit) (a : Nat) (bs : List Byte) : (c.setImem u a bs).mem.klm = c.mem.klm :=
    by cases u <;> rfl
@[simp] theorem setImem_mem_spmP (c : Cask) (u : CoreUnit) (a : Nat) (bs : List Byte) : (c.setImem u a bs).mem.spmP = c.mem.spmP :=
    by cases u <;> rfl
@[simp] theorem setImem_mem_klmP (c : Cask) (u : CoreUnit) (a : Nat) (bs : List Byte) : (c.setImem u a bs).mem.klmP = c.mem.klmP :=
    by cases u <;> rfl
@[simp] theorem setImem_mem_acmP (c : Cask) (u : CoreUnit) (a : Nat) (bs : List Byte) : (c.setImem u a bs).mem.acmP = c.mem.acmP :=
    by cases u <;> rfl
@[simp] theorem setTok_kr (c : Cask) (t : Tokens) : (c.setTok t).kr = c.kr := rfl
@[simp] theorem setTok_mem (c : Cask) (t : Tokens) : (c.setTok t).mem = c.mem := rfl
@[simp] theorem setTok_eL (c : Cask) (t : Tokens) : (c.setTok t).eL = c.eL := rfl
@[simp] theorem setTok_eM (c : Cask) (t : Tokens) : (c.setTok t).eM = c.eM := rfl
@[simp] theorem setTok_eS (c : Cask) (t : Tokens) : (c.setTok t).eS = c.eS := rfl
@[simp] theorem setTok_mx (c : Cask) (t : Tokens) : (c.setTok t).mx = c.mx := rfl
@[simp] theorem setTok_yy (c : Cask) (t : Tokens) : (c.setTok t).yy = c.yy := rfl
@[simp] theorem setTok_st (c : Cask) (t : Tokens) : (c.setTok t).st = c.st := rfl
@[simp] theorem setTok_cp_rings (c : Cask) (t : Tokens) : (c.setTok t).cp.rings = c.cp.rings := rfl
@[simp] theorem setTok_cp_fq (c : Cask) (t : Tokens) : (c.setTok t).cp.fq = c.cp.fq := rfl
@[simp] theorem setTok_cp_fqWait (c : Cask) (t : Tokens) : (c.setTok t).cp.fqWait = c.cp.fqWait := rfl
@[simp] theorem setTok_cp_ev (c : Cask) (t : Tokens) : (c.setTok t).cp.ev = c.cp.ev := rfl
@[simp] theorem setTok_cp_mtab (c : Cask) (t : Tokens) : (c.setTok t).cp.mtab = c.cp.mtab := rfl
@[simp] theorem setTok_cp_lastMark (c : Cask) (t : Tokens) : (c.setTok t).cp.lastMark = c.cp.lastMark := rfl
@[simp] theorem setTok_cp_rv (c : Cask) (t : Tokens) : (c.setTok t).cp.rv = c.cp.rv := rfl
@[simp] theorem setTok_cp_dth (c : Cask) (t : Tokens) : (c.setTok t).cp.dth = c.cp.dth := rfl
@[simp] theorem setTok_cp_tks (c : Cask) (t : Tokens) : (c.setTok t).cp.tks = c.cp.tks := rfl

end Sys2Proof.Machine
end

