-- ==== Sys2Proof/Laws/Access.lean ====
section
/-! SUPPORT. What an access to memory can do: it changes the memories behind the homes and keeps their canonical form, the
caches, what the device logs and sends, and the event bits of line monitors; nothing else. -/

namespace Sys2Proof.Machine

open Sys2Proof

/-- `e` is `d` but for the memories behind the homes and their poison, the caches, the combining buffers, the log, the packets
sent, and what the monitors of slices and channels have counted. -/
def Dev.touched (d e : Dev) : Prop :=
  e = { d with
    dmem := e.dmem, hmem := e.hmem, pmem := e.pmem, dmemP := e.dmemP, hmemP := e.hmemP, pmemP := e.pmemP, l2 := e.l2,
    shadow := e.shadow, combT := e.combT, leaves := e.leaves, out := e.out, logwr := e.logwr, logovf := e.logovf,
    smon := e.smon, cmon := e.cmon }

theorem touched_refl (d : Dev) : d.touched d := rfl
theorem touched_trans {d e f : Dev} (h : d.touched e) (k : e.touched f) : d.touched f := by
  unfold Dev.touched at *
  rw [h] at k
  exact k

/-- `t` follows `s` by accesses to memory: turns, registers, engines, launches and partitions are as they were, and memories in
canonical form stay so. -/
def State.accessed (s t : State) : Prop :=
  t.turn = s.turn ∧ t.tick = s.tick ∧ (s.memoriesWf = true → t.memoriesWf = true) ∧ s.dev.touched t.dev ∧
  ∀ n, t.core n = { s.core n with
    k0 := { (s.core n).k0 with st := { (s.core n).k0.st with evt := (t.core n).k0.st.evt } },
    k1 := { (s.core n).k1 with st := { (s.core n).k1.st with evt := (t.core n).k1.st.evt } },
    l1 := (t.core n).l1, syn := (t.core n).syn, mon := (t.core n).mon, fills := (t.core n).fills,
    asks := (t.core n).asks }

theorem accessed_refl (s : State) : s.accessed s := ⟨rfl, rfl, id, rfl, fun _ => rfl⟩

theorem accessed_trans {s t u : State} (h : s.accessed t) (k : t.accessed u) : s.accessed u := by
  obtain ⟨h1, h2, h3, h4, h5⟩ := h
  obtain ⟨k1, k2, k3, k4, k5⟩ := k
  refine ⟨k1.trans h1, k2.trans h2, fun w => k3 (h3 w), touched_trans h4 k4, fun n => ?_⟩
  have e := k5 n
  rw [h5 n] at e
  exact e

/-! ### Of an access -/

theorem accessed_caskAt {s t : State} (h : s.accessed t) (n : Nat) (b : Bool) : t.caskAt n b =
    { s.caskAt n b with st := { (s.caskAt n b).st with evt := (t.caskAt n b).st.evt } } := by
  have e := h.2.2.2.2 n
  unfold State.caskAt
  cases b
  · show (t.core n).k0 = _
    rw [e]; rfl
  · show (t.core n).k1 = _
    rw [e]; rfl

theorem accessed_cask {s t : State} (h : s.accessed t) : t.cask =
    { s.cask with st := { s.cask.st with evt := t.cask.st.evt } } := by
  have e := accessed_caskAt h s.turn.core s.turn.cask
  unfold State.cask
  rw [h.1]
  exact e

theorem accessed_dual {s t : State} (h : s.accessed t) : t.dual = s.dual := by
  unfold State.dual
  rw [h.1, h.2.2.2.2 s.turn.core]

theorem touched_launches {d e : Dev} (h : d.touched e) : e.launches = d.launches := by rw [h]
theorem touched_parts {d e : Dev} (h : d.touched e) : e.parts = d.parts := by rw [h]
theorem touched_rtc {d e : Dev} (h : d.touched e) : e.rtc = d.rtc := by rw [h]
theorem accessed_launches {s t : State} (h : s.accessed t) : t.dev.launches = s.dev.launches := touched_launches h.2.2.2.1
theorem accessed_parts {s t : State} (h : s.accessed t) : t.dev.parts = s.dev.parts := touched_parts h.2.2.2.1
theorem accessed_rtc {s t : State} (h : s.accessed t) : t.dev.rtc = s.dev.rtc := touched_rtc h.2.2.2.1

/-! ### Pieces of an access -/

theorem memoriesWf_iff (s : State) : s.memoriesWf = true ↔
    Memory.wf s.dev.dmem = true ∧ Memory.wf s.dev.hmem = true ∧ Memory.wf s.dev.pmem = true := by
  unfold State.memoriesWf
  simp [Bool.and_eq_true, and_assoc]

/-- Bytes written to a memory keep its canonical form. -/
theorem memory_wf_set (m : List Host.Cell) (a : Nat) (bs : List Byte) (h : Memory.wf m = true) :
    Memory.wf (smSetRange Memory.unlisted m a bs) = true := smWf_smSetRange _ _ _ _ h

theorem accessed_setCore (s : State) (n : Nat) (k : Core)
    (h : k = { s.core n with
      l1 := k.l1, syn := k.syn, mon := k.mon, fills := k.fills, asks := k.asks }) :
    s.accessed (s.setCore n k) := by
  refine ⟨rfl, rfl, id, rfl, fun m => ?_⟩
  by_cases e : m = n
  · subst e
    rw [core_setCore_same, h]
  · rw [core_setCore_other _ _ _ _ e]

theorem accessed_dev (s : State) (d : Dev)
    (w : s.memoriesWf = true → State.memoriesWf { s with dev := d } = true) (h : s.dev.touched d) :
    s.accessed { s with dev := d } :=
  ⟨rfl, rfl, w, h, fun _ => rfl⟩

/-- `e` is touched from `d`, and the memories are as they were. -/
def Dev.quiet (d e : Dev) : Prop := d.touched e ∧ e.dmem = d.dmem ∧ e.hmem = d.hmem ∧ e.pmem = d.pmem
theorem quiet_refl (d : Dev) : d.quiet d := ⟨rfl, rfl, rfl, rfl⟩
theorem quiet_trans {d e f : Dev} (h : d.quiet e) (k : e.quiet f) : d.quiet f :=
  ⟨touched_trans h.1 k.1, k.2.1.trans h.2.1, k.2.2.1.trans h.2.2.1, k.2.2.2.trans h.2.2.2⟩
theorem accessed_quiet (s : State) (d : Dev) (h : s.dev.quiet d) : s.accessed { s with dev := d } := by
  refine accessed_dev _ _ (fun w => ?_) h.1
  rw [memoriesWf_iff] at w ⊢
  exact ⟨(congrArg _ h.2.1).trans w.1, (congrArg _ h.2.2.1).trans w.2.1, (congrArg _ h.2.2.2).trans w.2.2⟩

theorem quiet_sliceCount (d : Dev) (j e n : Nat) : d.quiet (d.sliceCount j e n) := ⟨rfl, rfl, rfl, rfl⟩
theorem quiet_chanCount (d : Dev) (j e n : Nat) : d.quiet (d.chanCount j e n) := ⟨rfl, rfl, rfl, rfl⟩
theorem quiet_cacheLeaf (d : Dev) (l : Leaf) : d.quiet (d.cacheLeaf l) := by
  unfold Dev.cacheLeaf
  dsimp only
  split
  · exact ⟨rfl, rfl, rfl, rfl⟩
  · split <;> exact ⟨rfl, rfl, rfl, rfl⟩
theorem quiet_merge (d : Dev) (line : Nat) : d.quiet (d.merge line) := by
  unfold Dev.merge
  dsimp only
  split
  · exact quiet_trans (quiet_sliceCount _ _ _ _) ⟨rfl, rfl, rfl, rfl⟩
  · exact ⟨rfl, rfl, rfl, rfl⟩
theorem quiet_putL2 (d : Dev) (x : L2Line) : d.quiet (d.putL2 x) := ⟨rfl, rfl, rfl, rfl⟩
theorem quiet_access (d : Dev) (l : Loc) (k : Traffic) (wr : Bool) : d.quiet (d.access l k wr) := by
  unfold Dev.access
  split
  · exact quiet_refl d
  · split
    · split
      · exact quiet_sliceCount _ _ _ _
      · exact quiet_refl d
    · cases k
      · exact quiet_trans (quiet_sliceCount _ _ _ _) (quiet_chanCount _ _ _ _)
      · exact quiet_trans (quiet_sliceCount _ _ _ _) (quiet_chanCount _ _ _ _)
      · exact quiet_trans (quiet_sliceCount _ _ _ _) (quiet_chanCount _ _ _ _)
      · exact quiet_chanCount _ _ _ _

theorem accessed_count (s : State) (e n : Nat) : s.accessed (s.count e n) := by
  unfold State.count State.countAt
  dsimp only
  split
  · exact accessed_refl s
  · exact accessed_setCore _ _ _ rfl

theorem accessed_logAdd (s : State) (code fn part core v : Nat) : s.accessed (s.logAdd code fn part core v) := by
  unfold State.logAdd
  dsimp only
  split
  · exact accessed_dev _ _ id rfl
  · refine accessed_dev _ _ (fun w => ?_) rfl
    rw [memoriesWf_iff] at w ⊢
    exact ⟨w.1, memory_wf_set _ _ _ w.2.1, w.2.2⟩

theorem accessed_accessLog (s : State) (code : Nat) (core : Option Nat) (a : BitVec 10) (v : Nat) :
    s.accessed (s.accessLog code core a v) := by
  unfold State.accessLog
  cases core <;> exact accessed_logAdd _ _ _ _ _ _

/-- A map over listed structures that keeps the default. -/
theorem aGet_map {α : Type} (d : α) (f : α → α) (hd : f d = d) (m : SMap α) (k : Nat) :
    aGet d (m.map fun p => (p.1, f p.2)) k = f (aGet d m k) := by
  induction m with
  | nil => exact hd.symm
  | cons p m ih =>
    simp only [List.map_cons, aGet]
    split
    · rfl
    · exact ih

theorem wake_eq (c : Cask) (a : BitVec 10) (line : Nat) : c.wake a line =
    { c with st := { c.st with evt := (c.wake a line).st.evt } } := by
  unfold Cask.wake; split <;> rfl

theorem core_wakeLine (s : State) (a : BitVec 10) (line n : Nat) : (s.wakeLine a line).core n =
    { s.core n with k0 := (s.core n).k0.wake a line, k1 := (s.core n).k1.wake a line } := by
  unfold State.wakeLine State.core
  exact aGet_map Core.reset (fun k : Core => { k with k0 := k.k0.wake a line, k1 := k.k1.wake a line }) rfl _ _

theorem accessed_wakeLine (s : State) (a : BitVec 10) (line : Nat) : s.accessed (s.wakeLine a line) := by
  refine ⟨rfl, rfl, id, rfl, fun n => ?_⟩
  rw [core_wakeLine]
  dsimp only
  rw [← wake_eq, ← wake_eq]

theorem accessed_merge (s : State) (line : Nat) : s.accessed { s with dev := s.dev.merge line } :=
  accessed_quiet _ _ (quiet_merge _ _)
theorem accessed_access (s : State) (l : Loc) (k : Traffic) (wr : Bool) : s.accessed (s.access l k wr) :=
  accessed_quiet _ _ (quiet_access _ _ _ _)
theorem accessed_reach (s : State) (l : Loc) (k : Traffic) : s.accessed (s.reach l k) := by
  refine accessed_quiet _ _ ?_
  split
  · exact quiet_trans (quiet_access _ _ _ _) (quiet_merge _ _)
  · exact quiet_access _ _ _ _
theorem accessed_askPeer (s : State) (l : Loc) (n : Nat) : s.accessed (s.askPeer l n) := by
  unfold State.askPeer
  split
  · exact accessed_refl s
  · exact accessed_quiet _ _ ⟨rfl, rfl, rfl, rfl⟩
theorem accessed_reads (s : State) (l : Loc) (k : Traffic) (n : Nat) : s.accessed (s.reads l k n) :=
  accessed_trans (accessed_reach _ _ _) (accessed_askPeer _ _ _)
theorem accessed_atomics (s : State) (l : Loc) (n : Nat) : s.accessed (s.atomics l n) := by
  unfold State.atomics
  split
  · exact accessed_quiet _ _ (quiet_sliceCount _ _ _ _)
  · exact accessed_refl s

theorem accessed_send (s : State) (p : Packet) : s.accessed (s.send p) :=
  accessed_quiet _ _ ⟨rfl, rfl, rfl, rfl⟩

/-- Bytes put into one memory keep the canonical form of all of them. -/
theorem accessed_put (s : State) (l : Loc) (bs : List Byte) : s.accessed { s with dev := s.dev.put l bs } := by
  obtain ⟨ty, addr, asid, va, sa, r, w, slice⟩ := l
  match ty with
  | 0 =>
    show s.accessed { s with dev := (match s.dev.l2At asid (va / 128) with
      | some x => s.dev.putL2 (x.write (va % 128) bs)
      | none => { s.dev with
          dmem := smSetRange Memory.unlisted s.dev.dmem addr bs, dmemP := nsDelRange s.dev.dmemP addr bs.length }) }
    split
    · exact accessed_quiet _ _ (quiet_putL2 _ _)
    · refine accessed_dev _ _ (fun w => ?_) rfl
      rw [memoriesWf_iff] at w ⊢
      exact ⟨memory_wf_set _ _ _ w.1, w.2⟩
  | 1 =>
    refine accessed_dev _ _ (fun w => ?_) rfl
    rw [memoriesWf_iff] at w ⊢
    exact ⟨w.1, memory_wf_set _ _ _ w.2.1, w.2.2⟩
  | _ + 2 =>
    refine accessed_dev _ _ (fun w => ?_) rfl
    rw [memoriesWf_iff] at w ⊢
    exact ⟨w.1, w.2.1, memory_wf_set _ _ _ w.2.2⟩

theorem accessed_homeWrite (s : State) (l : Loc) (bs : List Byte) : s.accessed (s.homeWrite l bs) := by
  have k : s.accessed (State.wakeLine
      { s with dev := (if l.ty = 0 then s.dev.merge (l.addr / 128) else s.dev).put l bs } l.asid (l.va / 128)) := by
    refine accessed_trans ?_ (accessed_wakeLine _ _ _)
    split
    · exact accessed_trans (accessed_merge s (l.addr / 128)) (accessed_put { s with dev := s.dev.merge (l.addr / 128) } l bs)
    · exact accessed_put s l bs
  unfold State.homeWrite
  dsimp only
  split
  · exact k
  · exact accessed_trans k (accessed_send _ _)

theorem accessed_homePoisonAdd (s : State) (l : Loc) (n : Nat) : s.accessed (s.homePoisonAdd l n) := by
  unfold State.homePoisonAdd
  dsimp only
  split
  · split
    · exact accessed_quiet _ _ (quiet_putL2 _ _)
    · exact accessed_dev _ _ id rfl
  · exact accessed_dev _ _ id rfl
  · exact accessed_dev _ _ id rfl

theorem accessed_dropClean (s : State) (a : BitVec 10) (line : Nat) : s.accessed (s.dropClean a line) := by
  unfold State.dropClean
  dsimp only
  split
  · refine accessed_setCore _ _ _ ?_
    split <;> rfl
  · exact accessed_refl s

/-- Steps over a list that are accesses each are one access. -/
theorem accessed_foldl {α : Type} (f : State → α → State) (h : ∀ (s : State) a, s.accessed (f s a)) (l : List α) (s : State) :
    s.accessed (l.foldl f s) := by
  induction l generalizing s with
  | nil => exact accessed_refl s
  | cons a l ih => exact accessed_trans (h s a) (ih _)

theorem accessed_nextFill (s : State) (c : Nat) : s.accessed (s.nextFill c) := accessed_setCore _ _ _ rfl

/-! ### Actions -/

/-- The action `m` at state `s` is an access, whether it completes or stops. -/
def AccessAt {α : Type} (m : Act α) (s : State) : Prop :=
  match m s with
  | .ok _ t => s.accessed t
  | .error _ t => s.accessed t

/-- The action is an access at every state. -/
def Access {α : Type} (m : Act α) : Prop := ∀ s, AccessAt m s

variable {α β : Type}

theorem accessAt_ok {m : Act α} {s t : State} {a : α} (h : AccessAt m s) (e : m s = .ok a t) : s.accessed t := by
  unfold AccessAt at h; rw [e] at h; exact h
theorem accessAt_error {m : Act α} {s t : State} {x : Stop} (h : AccessAt m s) (e : m s = .error x t) : s.accessed t := by
  unfold AccessAt at h; rw [e] at h; exact h

theorem accessAt_bind {m : Act α} {f : α → Act β} {s : State} (h : AccessAt m s)
    (k : ∀ a t, m s = .ok a t → AccessAt (f a) t) : AccessAt (m >>= f) s := by
  unfold AccessAt at h ⊢
  rw [act_bind]
  cases e : m s with
  | error x t => rw [e] at h; exact h
  | ok a t =>
    rw [e] at h
    have w := k a t e
    unfold AccessAt at w
    dsimp only at h ⊢
    cases e2 : f a t with
    | ok b u => rw [e2] at w; exact accessed_trans h w
    | error x u => rw [e2] at w; exact accessed_trans h w

theorem access_bind {m : Act α} {f : α → Act β} (h : Access m) (k : ∀ a, Access (f a)) : Access (m >>= f) :=
  fun s => accessAt_bind (h s) fun a t _ => k a t
theorem access_pure (a : α) : Access (pure a : Act α) := fun s => accessed_refl s
theorem access_get : Access (get : Act State) := fun s => accessed_refl s
theorem access_throw (e : Stop) : Access (throw e : Act α) := fun s => accessed_refl s
theorem access_raise (c : Nat) (v : Word) : Access (raise c v : Act α) := fun s => accessed_refl s
theorem access_check (ok : Bool) (c : Nat) (v : Word) : Access (check ok c v : Act Unit) := by
  intro s; cases ok <;> exact accessed_refl s
theorem access_modify {f : State → State} (h : ∀ s : State, s.accessed (f s)) : Access (modify f : Act PUnit) := fun s => h s
theorem access_reach (l : Loc) (k : Traffic) : Access (modify fun s : State => s.reach l k) := fun s => accessed_reach s l k
theorem access_reads (l : Loc) (k : Traffic) (n : Nat) : Access (modify fun s : State => s.reads l k n) :=
  fun s => accessed_reads s l k n
theorem access_holdTill (ok : Bool) : Access (holdTill ok : Act Unit) := by
  intro s; cases ok <;> exact accessed_refl s
theorem access_get_bind {f : State → Act β} (h : ∀ s, AccessAt (f s) s) : Access (get >>= f) := fun s => h s
theorem accessAt_get_bind {f : State → Act β} {s : State} (h : AccessAt (f s) s) : AccessAt (get >>= f) s := h
theorem accessAt_set {s t : State} (h : s.accessed t) : AccessAt (set t : Act PUnit) s := h
theorem access_ite (c : Prop) [Decidable c] {a b : Act α} (h : Access a) (k : Access b) : Access (if c then a else b) := by
  split
  · exact h
  · exact k

/-! ### The accesses of R96–R107 and R349–R357 -/

theorem access_leafBelow (core : Option Nat) (p : Partition) (a : BitVec 10) (va : Nat) : Access (leafBelow core p a va) := by
  intro s
  unfold AccessAt leafBelow
  dsimp only
  cases h : s.dev.cached (controllerOf (homeSlice p a va)) a va with
  | some l => exact accessed_refl s
  | none =>
    dsimp only
    have q : ∀ n m, s.dev.quiet ((s.dev.chanCount n 4 1).chanCount m 5 1) := fun n m =>
      quiet_trans (quiet_chanCount _ _ _ _) (quiet_chanCount _ _ _ _)
    cases walk s.dev p a va with
    | leaf lg pte => exact accessed_quiet _ _ (quiet_trans (q _ _) (quiet_cacheLeaf _ _))
    | fault code malformed =>
      cases malformed
      · exact accessed_quiet _ _ (q _ _)
      · exact accessed_trans (accessed_quiet _ _ (q _ _)) (accessed_accessLog _ _ _ _ _)

theorem access_leafFor (core : Option Nat) (p : Partition) (a : BitVec 10) (va : Nat) : Access (leafFor core p a va) := by
  intro s
  have e : leafFor core p a va s = (match s.dev.l2At a (va / 128) with
    | some x => .ok (controllerOf (homeSlice p a va), x.lg, x.pte.toNat) s
    | none => leafBelow core p a va s) := rfl
  have w := access_leafBelow core p a va s
  unfold AccessAt at w ⊢
  rw [e]
  cases s.dev.l2At a (va / 128) with
  | some x => exact accessed_refl s
  | none => exact w

theorem access_translate1 (core : Option Nat) (p : Partition) (a : BitVec 10) (va : Nat) (need : Need) (w : Bool) :
    Access (translate1 core p a va need w) := by
  unfold translate1
  refine access_bind (access_leafFor _ _ _ _) fun r => access_bind (access_check _ _ _) fun _ => access_get_bind fun s => ?_
  split
  · split
    · split <;> exact access_pure _ s
    · exact access_bind (access_modify fun s => accessed_accessLog _ _ _ _ _) (fun _ => access_raise _ _) s
  · exact access_pure _ s

theorem accessed_writeBack (s : State) (c : Nat) (l : L1Line) : s.accessed (s.writeBack c l) := by
  unfold State.writeBack
  dsimp only
  split
  · exact accessed_refl s
  · have h := access_translate1 (some c) (s.dev.partOfCore c) l.asid (l.line * 128) .write true s
    split
    · next loc x s1 e =>
      refine accessed_trans (accessAt_ok h e) (accessed_trans (accessed_trans (accessed_access _ _ _ _)
        (accessed_foldl _ (fun s r => ?_) _ _)) (accessed_setCore _ _ _ rfl))
      exact accessed_trans (accessed_homeWrite _ _ _) (accessed_foldl _ (fun s p => accessed_homePoisonAdd _ _ _) _ _)
    · next e s1 h1 =>
      exact accessed_trans (accessAt_error h h1) (accessed_trans (accessed_accessLog _ _ _ _ _) (accessed_setCore _ _ _ rfl))

theorem accessed_writeBackIf (s : State) (c : Nat) (f : L1Line → Bool) : s.accessed (s.writeBackIf c f) :=
  accessed_foldl _ (fun _ _ => accessed_writeBack _ _ _) _ _

theorem accessed_makeRoom (s : State) (c : Nat) (a : BitVec 10) (line : Nat) : s.accessed (s.makeRoom c a line) := by
  unfold State.makeRoom
  split
  · exact accessed_refl s
  · split
    · exact accessed_trans (accessed_writeBack _ _ _) (accessed_setCore _ _ _ rfl)
    · exact accessed_refl s

theorem accessed_fillLine (s : State) (c : Nat) (b : Bool) (l : Loc) (k : Traffic) : s.accessed (s.fillLine c b l k) := by
  unfold State.fillLine
  dsimp only
  exact accessed_trans (accessed_trans (accessed_makeRoom _ _ _ _) (accessed_reads _ _ _ _)) (accessed_setCore _ _ _ rfl)

theorem keepSyn_eq (k : Core) (e : Syn) : k.keepSyn e = { k with syn := (k.keepSyn e).syn } := rfl

theorem accessed_touch (s : State) (c : Nat) (a : BitVec 10) (va : Nat) : s.accessed (s.touch c a va) := by
  unfold State.touch
  split
  · exact accessed_setCore _ _ _ rfl
  · exact accessed_refl s

theorem access_station (c : Nat) (q : BitVec 10 × Nat) : Access (station c q) := by
  intro s
  unfold AccessAt station
  dsimp only
  cases (s.dev.partOfCore c).nacks c q.1 q.2
  · rw [if_neg Bool.false_ne_true]
    dsimp only
    split
    · exact accessed_setCore _ _ _ rfl
    · exact accessed_refl s
  · rw [if_pos rfl]
    dsimp only
    split
    · split
      · exact accessed_refl s
      · exact accessed_setCore _ _ _ rfl
    · exact accessed_setCore _ _ _ rfl

theorem access_translate (c : Nat) (a : BitVec 10) (va : Nat) (need : Need) : Access (translate c a va need) := by
  unfold translate
  refine access_bind (access_modify fun s => accessed_touch _ _ _ _) fun _ => access_get_bind fun s => ?_
  dsimp only
  refine access_bind (access_station _ _) (fun _ => access_bind (access_translate1 _ _ _ _ _ _) fun r => ?_) s
  split
  · exact access_pure _
  · refine access_bind (access_modify fun s => accessed_setCore s c ((s.core c).keepSyn _) rfl) fun _ => ?_
    exact access_bind (access_station _ _) fun _ => access_bind (access_translate1 _ _ _ _ _ _) fun _ =>
      access_bind (access_check _ _ _) fun _ => access_pure _

theorem access_translateIo (p : Partition) (a : BitVec 10) (va : Nat) (need : Need) : Access (translateIo p a va need) := by
  unfold translateIo
  dsimp only
  refine access_bind (access_holdTill _) fun _ => access_bind (access_translate1 _ _ _ _ _ _) fun r => ?_
  split
  · exact access_pure _
  · exact access_bind (access_holdTill _) fun _ => access_bind (access_translate1 _ _ _ _ _ _) fun _ =>
      access_bind (access_check _ _ _) fun _ => access_pure _

theorem access_peerCheck (l : Loc) : Access (peerCheck l) := access_get_bind fun s => access_check _ _ _ s
theorem access_peerReach (l : Loc) : Access (peerReach l) :=
  access_get_bind fun s => access_bind (access_holdTill _) (fun _ => access_peerCheck l) s

theorem access_fill (c : Nat) (b : Bool) (l : Loc) : Access (fill c b l) :=
  access_get_bind fun s => access_bind (access_holdTill _) (fun _ => access_modify fun _ =>
    accessed_trans (accessed_trans (accessed_fillLine _ _ _ _ _) (accessed_nextFill _ _)) (accessed_count _ _ _)) s

/-- A translation, the reach of a peer, and the fill that follows. -/
theorem access_fillAt {β : Type} (c : Nat) (b : Bool) (a : BitVec 10) (va : Nat) (need : Need) {f : Loc → Act β}
    (h : ∀ l, Access (f l)) : Access (do
      let loc ← translate c a va need
      peerReach loc
      fill c b loc
      f loc) :=
  access_bind (access_translate _ _ _ _) fun l => access_bind (access_peerReach l) fun _ =>
    access_bind (access_fill _ _ _) fun _ => h l

theorem access_lineForLoad (va : Nat) : Access (lineForLoad va) := by
  unfold lineForLoad
  refine access_bind (access_modify fun s => accessed_touch _ _ _ _) fun _ => access_get_bind fun s => ?_
  dsimp only
  split
  · split
    · exact access_bind (access_modify fun s => accessed_count _ _ _) (fun _ => access_pure _) s
    · exact access_fillAt _ _ _ _ _ (fun l => access_pure _) s
  · exact access_fillAt _ _ _ _ _ (fun l => access_get_bind fun t => access_pure _ t) s

theorem access_l1LoadOver (buf : List StoreEnt) (va n : Nat) : Access (l1LoadOver buf va n) := by
  unfold l1LoadOver
  refine access_bind (access_lineForLoad _) fun l => access_get_bind fun s => ?_
  split
  · exact access_bind (access_check _ _ _) (fun _ => access_pure _) s
  · exact access_pure _ s
theorem access_l1Load (va n : Nat) : Access (l1Load va n) := access_l1LoadOver _ _ _

theorem access_l1StoreAs (a : BitVec 10) (va : Nat) (bs : List Byte) : Access (l1StoreAs a va bs) := by
  have put : ∀ (c : Nat), Access (do
      let s ← get
      let q := (s.core c).substitute a va
      match (s.core c).lineAt q.1 (q.2.1 / 128) with
      | some l =>
        let i := va % 128
        let m := lineMask i bs.length
        set (s.setCore c ((s.core c).putLine { l with
          data := l.data.take i ++ bs ++ l.data.drop (i + bs.length), dirty := l.dirty ||| m, pois := l.pois &&& ~~~ m }))
      | none => pure () : Act Unit) := fun c => access_get_bind fun t => by
    dsimp only
    split
    · exact accessAt_set (accessed_setCore _ _ _ rfl)
    · exact access_pure _ t
  unfold l1StoreAs
  refine access_bind (access_modify fun s => accessed_touch _ _ _ _) fun _ => access_get_bind fun s => ?_
  dsimp only
  split
  · split
    · exact access_bind (access_modify fun s => accessed_count _ _ _) (fun _ => put _) s
    · exact access_fillAt _ _ _ _ _ (fun l => put _) s
  · exact access_fillAt _ _ _ _ _ (fun l => put _) s
theorem access_l1Store (va : Nat) (bs : List Byte) : Access (l1Store va bs) :=
  access_get_bind fun s => access_l1StoreAs _ _ _ s

theorem access_loadParts (ps : List (Nat × Nat)) : Access (loadParts ps) := by
  induction ps with
  | nil => exact access_pure _
  | cons p ps ih => exact access_bind (access_l1Load _ _) fun _ => access_bind ih fun _ => access_pure _
theorem access_memLoad (va n : Nat) : Access (memLoad va n) := access_loadParts _

theorem access_storeParts (ps : List (Nat × Nat)) (bs : List Byte) : Access (storeParts ps bs) := by
  induction ps generalizing bs with
  | nil => exact access_pure _
  | cons p ps ih => exact access_bind (access_l1Store _ _) fun _ => ih _
theorem access_memStore (va : Nat) (bs : List Byte) : Access (memStore va bs) := access_storeParts _ _

theorem access_homeParts (need : Need) (ps : List (Nat × Nat)) : Access (homeParts need ps) := by
  induction ps with
  | nil => exact access_pure _
  | cons p ps ih =>
    unfold homeParts
    refine access_bind (access_check _ _ _) fun _ => access_get_bind fun s => ?_
    refine access_bind (access_translate _ _ _ _) (fun l => access_bind (access_peerReach _) fun _ =>
      access_bind (access_reads _ _ _) fun _ => access_get_bind fun t => ?_) s
    exact access_bind (access_check _ _ _) (fun _ => access_bind ih fun _ => access_pure _) t
theorem access_homeLoad (va n : Nat) : Access (homeLoad va n) := access_homeParts _ _

theorem access_homeStore1 (va : Nat) (bs : List Byte) : Access (homeStore1 va bs) := by
  refine access_get_bind fun s => access_bind (access_translate _ _ _ _) (fun l => access_bind (access_peerReach _) fun _ =>
    access_modify fun s => ?_) s
  exact accessed_trans (accessed_trans (accessed_access _ _ _ _) (accessed_homeWrite _ _ _)) (accessed_dropClean _ _ _)
theorem access_homeStoreParts (ps : List (Nat × Nat)) (bs : List Byte) : Access (homeStoreParts ps bs) := by
  induction ps generalizing bs with
  | nil => exact access_pure _
  | cons p ps ih => exact access_bind (access_homeStore1 _ _) fun _ => ih _
theorem access_homeStore (va : Nat) (bs : List Byte) : Access (homeStore va bs) := access_homeStoreParts _ _

theorem access_linesHomeAt (c : Nat) (f : State → State) (h : ∀ s : State, s.accessed (f s)) (ls : List L1Line) :
    Access (linesHomeAt c f ls) := by
  induction ls with
  | nil => exact access_pure _
  | cons l ls ih =>
    exact access_bind (access_station _ _) fun _ => access_bind (access_modify fun s =>
      accessed_trans (accessed_writeBack _ _ _) (h _)) fun _ => ih
theorem access_askLines (c : Nat) (ls : List L1Line) : Access (askLines c ls) := by
  induction ls with
  | nil => exact access_pure _
  | cons l ls ih => exact access_bind (access_station _ _) fun _ => ih
theorem access_throughReady (sc va n : Nat) : Access (throughReady sc va n) :=
  access_get_bind fun s => access_askLines _ _ s
theorem access_flushRange (va n : Nat) : Access (flushRange va n) :=
  access_get_bind fun s => access_linesHomeAt _ _ accessed_refl _ s

theorem access_writeThrough (sc va n : Nat) : Access (writeThrough sc va n) := access_modify fun s => by
  refine accessed_foldl _ (fun s p => ?_) _ _
  split
  · exact accessed_writeBack _ _ _
  · exact accessed_refl _

theorem access_ioParts (p : Partition) (a : BitVec 10) (need : Need) (qs : List (Nat × Nat)) : Access (ioParts p a need qs) := by
  induction qs with
  | nil => exact access_pure _
  | cons q qs ih =>
    unfold ioParts
    refine access_bind (access_check _ _ _) fun _ => access_bind (access_translateIo _ _ _ _) fun l =>
      access_bind (access_peerCheck _) fun _ => access_bind (access_reads _ _ _) fun _ =>
      access_get_bind fun t => ?_
    exact access_bind (access_check _ _ _) (fun _ => access_bind ih fun _ => access_pure _) t
theorem access_ioLoad (p : Partition) (a : BitVec 10) (va n : Nat) : Access (ioLoad p a va n) := access_ioParts _ _ _ _

theorem access_ioStoreParts (p : Partition) (a : BitVec 10) (qs : List (Nat × Nat)) (bs : List Byte) :
    Access (ioStoreParts p a qs bs) := by
  induction qs generalizing bs with
  | nil => exact access_pure _
  | cons q qs ih =>
    unfold ioStoreParts
    exact access_bind (access_check _ _ _) fun _ => access_bind (access_translateIo _ _ _ _) fun l =>
      access_bind (access_peerCheck _) fun _ => access_bind (access_modify fun s =>
        accessed_trans (accessed_access _ _ _ _) (accessed_homeWrite _ _ _)) fun _ => ih _
theorem access_ioStore (p : Partition) (a : BitVec 10) (va : Nat) (bs : List Byte) : Access (ioStore p a va bs) :=
  access_ioStoreParts _ _ _ _

end Sys2Proof.Machine
end

