-- ==== Sys2Proof/Laws/Frame.lean ====
section
/-! SUPPORT. What changes of one cask, and the events that are counted, leave alone. -/

namespace Sys2Proof.Machine

open Sys2Proof

theorem core_setCask_self (k : Core) (b : Bool) : k.setCask b (k.cask b) = k := by cases b <;> rfl

theorem onlyCask_refl (s : State) : s.onlyCask s :=
  ⟨rfl, rfl, rfl, fun _ _ => rfl, by unfold State.cask State.caskAt; rw [core_setCask_self]⟩

/-- Two changes of one cask make one. -/
theorem onlyCask_trans {s t u : State} (h : s.onlyCask t) (k : t.onlyCask u) : s.onlyCask u := by
  obtain ⟨h1, h2, h3, h4, h5⟩ := h
  obtain ⟨k1, k2, k3, k4, k5⟩ := k
  rw [h2] at k4 k5
  refine ⟨k1.trans h1, k2.trans h2, k3.trans h3, fun n hn => (k4 n hn).trans (h4 n hn), ?_⟩
  rw [k5, h5]
  cases s.turn.cask <;> rfl

theorem onlyCask_setCask (s : State) (c : Cask) : s.onlyCask (s.setCask c) := by
  refine ⟨rfl, rfl, rfl, fun n hn => by rw [core_setCask, if_neg hn], ?_⟩
  rw [cask_setCask, core_setCask, if_pos rfl]

theorem onlyCask_updCask (s : State) (f : Cask → Cask) : s.onlyCask (s.updCask f) := onlyCask_setCask _ _

theorem onlyCask_count (s : State) (e n : Nat) : s.onlyCask (s.count e n) := by
  refine ⟨by simp, by simp, by simp, ?_, ?_⟩
  · intro m hm
    obtain ⟨x, hx, h⟩ := core_count s e n m
    rw [hx, h hm]
  · obtain ⟨x, hx, -⟩ := core_count s e n s.turn.core
    rw [cask_count, hx]
    unfold State.cask State.caskAt
    rw [core_setCask_self]

/-- The other cask of the core is as it was. -/
theorem onlyCask_caskAt {s t : State} (h : s.onlyCask t) (n : Nat) (b : Bool)
    (hn : ¬ (n = s.turn.core ∧ b = s.turn.cask)) : t.caskAt n b = s.caskAt n b := by
  obtain ⟨-, -, -, h4, h5⟩ := h
  by_cases hc : n = s.turn.core
  · subst hc
    have hb : b ≠ s.turn.cask := fun e => hn ⟨rfl, e⟩
    unfold State.caskAt
    rw [h5]
    revert hb
    cases b <;> cases s.turn.cask <;> intro hb <;> first | rfl | exact absurd rfl hb
  · unfold State.caskAt; rw [h4 n hc]

theorem onlyCask_dual {s t : State} (h : s.onlyCask t) : t.dual = s.dual := by
  obtain ⟨-, h2, -, -, h5⟩ := h
  unfold State.dual
  rw [h2, h5]
  cases s.turn.cask <;> rfl

/-! ### K words -/

theorem kRetire_onlyCask (s : State) (pc : Nat) : s.onlyCask (s.kRetire pc) :=
  onlyCask_trans (onlyCask_updCask _ _) (onlyCask_count _ _ _)
theorem kRetire_cask (s : State) (pc : Nat) : (s.kRetire pc).cask =
    { s.cask with kr := { s.cask.kr with kpc := pc }, st := { s.cask.st with wait := none } } := by
  simp [State.kRetire]
theorem kNext_onlyCask (s : State) : s.onlyCask s.kNext := kRetire_onlyCask _ _
theorem kNext_cask (s : State) : s.kNext.cask =
    { s.cask with kr := { s.cask.kr with kpc := s.cask.kr.kpc + 8 }, st := { s.cask.st with wait := none } } :=
  kRetire_cask _ _

end Sys2Proof.Machine
end

