-- ==== Sys2Proof/Laws/Engine.lean ====
section
/-! SUPPORT. How a word of an engine runs: the new word whose first unit is its last, the unit of a word in progress, and
what settling, pushing and retiring leave alone. -/

namespace Sys2Proof.Machine

open Sys2Proof

/-! ### Tokens -/

@[simp] theorem pushCount_setPop (k : Tokens) (e : Eng) (p q : Bool) (n : Nat) :
    (k.setPop e p n).pushCount e q = k.pushCount e q := by cases e <;> cases p <;> cases q <;> rfl
@[simp] theorem setTok_eng (c : Cask) (k : Tokens) (e : Eng) : (c.setTok k).eng e = c.eng e := by cases e <;> rfl
@[simp] theorem popCount_setPop_same (k : Tokens) (e : Eng) (p : Bool) (n : Nat) : (k.setPop e p n).popCount e p = n := by
  cases e <;> cases p <;> rfl

/-! ### What the parts of a word leave alone -/

@[simp] theorem jadvance_jhead (n : Nat) (y : YSt) : (jadvance n y).jhead = y.jhead := by
  induction n generalizing y with
  | zero => rfl
  | succ n ih => unfold jadvance; split <;> simp [ih]

@[simp] theorem begin_cp (c : Cask) (e : Eng) : (c.begin e).cp = c.cp := by simp [Cask.begin]
@[simp] theorem begin_kr (c : Cask) (e : Eng) : (c.begin e).kr = c.kr := by simp [Cask.begin]
@[simp] theorem begin_mem (c : Cask) (e : Eng) : (c.begin e).mem = c.mem := by simp [Cask.begin]
@[simp] theorem begin_mx (c : Cask) (e : Eng) : (c.begin e).mx = c.mx := by simp [Cask.begin]
@[simp] theorem begin_yy (c : Cask) (e : Eng) : (c.begin e).yy = c.yy := by simp [Cask.begin]
@[simp] theorem begin_st (c : Cask) (e : Eng) : (c.begin e).st = c.st := by simp [Cask.begin]
theorem begin_eng_other (c : Cask) (e d : Eng) (h : d ≠ e) : (c.begin e).eng d = c.eng d := eng_updEng_other _ _ _ _ h

@[simp] theorem jfree_kr (c : Cask) (n : Nat) : (c.jfree n).kr = c.kr := rfl
@[simp] theorem jfree_mem (c : Cask) (n : Nat) : (c.jfree n).mem = c.mem := rfl
@[simp] theorem jfree_mx (c : Cask) (n : Nat) : (c.jfree n).mx = c.mx := rfl
@[simp] theorem jfree_cp (c : Cask) (n : Nat) : (c.jfree n).cp = c.cp := rfl
@[simp] theorem jfree_st (c : Cask) (n : Nat) : (c.jfree n).st = c.st := rfl
@[simp] theorem jfree_eng (c : Cask) (n : Nat) (e : Eng) : (c.jfree n).eng e = c.eng e := by cases e <;> rfl

@[simp] theorem settle_cp (c : Cask) (e : Eng) : (c.settle e).cp = c.cp := by
  unfold Cask.settle; dsimp only; split <;> simp
@[simp] theorem settle_kr (c : Cask) (e : Eng) : (c.settle e).kr = c.kr := by
  unfold Cask.settle; dsimp only; split <;> simp
@[simp] theorem settle_mem (c : Cask) (e : Eng) : (c.settle e).mem = c.mem := by
  unfold Cask.settle; dsimp only; split <;> simp
@[simp] theorem settle_mx (c : Cask) (e : Eng) : (c.settle e).mx = c.mx := by
  unfold Cask.settle; dsimp only; split <;> simp
@[simp] theorem settle_st (c : Cask) (e : Eng) : (c.settle e).st = c.st := by
  unfold Cask.settle; dsimp only; split <;> simp
theorem settle_eng_other (c : Cask) (e d : Eng) (h : d ≠ e) : (c.settle e).eng d = c.eng d := by
  unfold Cask.settle; dsimp only
  split <;> simp [eng_updEng_other _ _ _ _ h, begin_eng_other _ _ _ h]

@[simp] theorem push_kr (c : Cask) (e : Eng) (a b : Bool) (n : Nat) : (c.push e a b n).kr = c.kr := rfl
@[simp] theorem push_mem (c : Cask) (e : Eng) (a b : Bool) (n : Nat) : (c.push e a b n).mem = c.mem := rfl
@[simp] theorem push_mx (c : Cask) (e : Eng) (a b : Bool) (n : Nat) : (c.push e a b n).mx = c.mx := rfl
@[simp] theorem push_yy (c : Cask) (e : Eng) (a b : Bool) (n : Nat) : (c.push e a b n).yy = c.yy := rfl
@[simp] theorem push_st (c : Cask) (e : Eng) (a b : Bool) (n : Nat) : (c.push e a b n).st = c.st := rfl
@[simp] theorem push_eng (c : Cask) (e d : Eng) (a b : Bool) (n : Nat) : (c.push e a b n).eng d = c.eng d := by
  cases d <;> rfl

/-- Retiring markers changes the reading vector and the marker table alone. -/
theorem retireMark_frame (c : Cask) (u : CoreUnit) (n : BitVec 16) :
    c.retireMark u n = { c with cp := { c.cp with rv := (c.retireMark u n).cp.rv, mtab := (c.retireMark u n).cp.mtab } } := rfl

/-- Markers that fire change the engine's list of markers, the reading vector and the marker table alone. -/
theorem fireMarks_frame (c : Cask) (e : Eng) :
    ∃ ms rv mtab, c.fireMarks e =
      { c.updEng e (fun st => { st with marks := ms }) with cp := { c.cp with rv := rv, mtab := mtab } } := by
  have key : ∀ (ns : List (BitVec 16)) (d : Cask), ∃ rv mtab,
      ns.foldl (fun c n => c.retireMark e.unit n) d = { d with cp := { d.cp with rv := rv, mtab := mtab } } := by
    intro ns
    induction ns with
    | nil => exact fun d => ⟨d.cp.rv, d.cp.mtab, rfl⟩
    | cons n ns ih =>
      intro d
      obtain ⟨rv, mtab, h⟩ := ih (d.retireMark e.unit n)
      exact ⟨rv, mtab, by rw [List.foldl_cons, h, retireMark_frame]⟩
  obtain ⟨rv, mtab, h⟩ := key (frontMarks (c.eng e).marks).1
    (c.updEng e fun st => { st with marks := (frontMarks (c.eng e).marks).2 })
  refine ⟨(frontMarks (c.eng e).marks).2, rv, mtab, ?_⟩
  unfold Cask.fireMarks
  dsimp only
  rw [h]
  cases e <;> rfl

/-- An engine that retires its word with no EWR values waiting changes its own sequencing state, the reading vector and
the marker table alone. -/
theorem retire_frame (c : Cask) (e : Eng) (free : Nat) (owed : Option Owed) (h : (c.eng e).ewr = [])
    (hn : (c.eng e).owes (c.flightOf e).cn = false) :
    ∃ st rv mtab, c.retire e free owed =
      { c.updEng e (fun _ => st) with cp := { c.cp with rv := rv, mtab := mtab } } ∧
      st = { c.eng e with
        flight := none, wait := none, ewr := [], owed := (c.eng e).owed ++ owed.toList, halted := st.halted,
        marks := st.marks, rsn := st.rsn, retired := st.retired, rsnPend := st.rsnPend } ∧
      (st.rsn, st.retired, st.rsnPend) = popSections ((c.eng e).rsnPend ++
        ((c.flightOf e).ends.map fun n => (n, (c.eng e).owed.map (·.cn) ++ (owed.map (·.cn)).toList)).toList)
        (c.eng e).rsn (c.eng e).retired ∧
      st.halted = ((c.eng e).halted || match (c.flightOf e).jump with
        | some (2, _) => true
        | _ => false) := by
  unfold Cask.retire
  dsimp only
  rw [if_neg (by simp [hn])]
  generalize hd : c.updEng e _ = d
  have he : (d.eng e).ewr = [] := by rw [← hd]; simp [EngSt.sections, h]
  have ha : d.applyEwr e = d.updEng e (fun st => { st with ewr := [] }) := by
    unfold Cask.applyEwr; rw [he]; rfl
  rw [ha]
  obtain ⟨ms, rv, mtab, hf⟩ := fireMarks_frame (d.updEng e fun st => { st with ewr := [] }) e
  rw [hf]
  refine ⟨{ d.eng e with ewr := [], marks := ms }, rv, mtab, ?_, ?_, ?_, ?_⟩
  · rw [← hd]; cases e <;> rfl
  · rw [← hd, eng_updEng_same]; rfl
  · rw [← hd, eng_updEng_same]; rfl
  · rw [← hd, eng_updEng_same]; rfl

/-! ### The new word -/

/-- What a word leaves when it finishes: it is settled, its pushes are made, and it leaves the engine. -/
def finishSt (e : Eng) (t : Tk) (n : Nat) (v : State) : State :=
  ((v.updCask fun c => c.settle e).count (settledEvent e) 1).updCask fun c =>
    ((c.push e t.hp t.hn n).popRings e).retire e (Config.fetchAhead v.tick e) none

/-- A word that has read no tile of a ring frees no slot. -/
theorem popRings_none {c : Cask} {e : Eng} (h : (c.flightOf e).pops = []) : c.popRings e = c := by
  unfold Cask.popRings; rw [h]; rfl

theorem finishReady_nil (e : Eng) (s : State) : finishReady e [] s = .ok () s := rfl

theorem runUnits_last {unit : Act Prog} {n : Nat} {s v : State} (h : unit s = .ok .last v) :
    runUnits unit (n + 1) s = .ok .last v := by
  unfold runUnits
  rw [bind_ok h]
  rfl

theorem runUnits_more {unit : Act Prog} {s v : State} (h : unit s = .ok .more v) :
    runUnits unit 1 s = .ok .more v := by
  unfold runUnits
  rw [bind_ok h]
  rfl

/-- The word in progress of an engine has made none of its pushes. -/
def Cask.unpushed (c : Cask) (e : Eng) : Prop := (c.flightOf e).donP = false ∧ (c.flightOf e).donN = false

theorem unpushed_of {c : Cask} {e : Eng} {f : Flight} (h : (c.eng e).flight = some f) (hp : f.donP = false)
    (hn : f.donN = false) : c.unpushed e := by
  unfold Cask.unpushed Cask.flightOf
  rw [h]
  exact ⟨hp, hn⟩

theorem begin_unpushed {c : Cask} {e : Eng} (h : c.unpushed e) : (c.begin e).unpushed e := by
  unfold Cask.unpushed Cask.flightOf Cask.begin at *
  rw [eng_updEng_same]
  cases e' : (c.eng e).flight with
  | none => rw [e'] at h; dsimp only; rw [e']; exact h
  | some f =>
    rw [e'] at h
    dsimp only
    split
    · rw [e']; exact h
    · exact h

theorem settle_unpushed {c : Cask} {e : Eng} (h : c.unpushed e) : (c.settle e).unpushed e := by
  have k := begin_unpushed h
  have key : ∀ d : Cask, (∃ g : Flight, (d.eng e).flight = some g ∧ g.donP = false ∧ g.donN = false) → d.unpushed e :=
    fun d ⟨_, hd, h1, h2⟩ => unpushed_of hd h1 h2
  refine key _ ?_
  unfold Cask.settle
  dsimp only
  generalize c.begin e = d at k ⊢
  obtain ⟨k1, k2⟩ := k
  cases (d.flightOf e).jfree
  all_goals
    simp only [jfree_eng]
    rw [eng_updEng_same, eng_updEng_same]
    split
    · exact ⟨_, rfl, k1, k2⟩
    · split
      · exact ⟨_, rfl, k1, k2⟩
      · split
        · exact ⟨_, rfl, k1, k2⟩
        · exact ⟨_, rfl, k1, k2⟩
        · exact ⟨_, rfl, k1, k2⟩
        · exact ⟨_, rfl, k1, k2⟩
        · split <;> exact ⟨_, rfl, k1, k2⟩

theorem finishWord_run (e : Eng) (t : Tk) (n : Nat) (v : State) (h : v.cask.pushReady e t.hp t.hn n = true)
    (hd : v.cask.unpushed e) :
    finishWord e t n ((v.updCask fun c => c.settle e).count (settledEvent e) 1) = .ok () (finishSt e t n v) := by
  have k := settle_unpushed hd
  unfold Cask.unpushed at k
  unfold finishWord
  rw [get_bind]
  simp only [cask_count, cask_updCask, k.1, k.2, Bool.not_false, Bool.and_true]
  rw [if_pos (by simpa [Cask.pushReady] using h)]
  simp [finishSt]

theorem runRest_last {e : Eng} {t : Tk} {p : Plan} {s v : State} (hu : p.unit s = .ok .last v)
    (hp : v.cask.pushReady e t.hp t.hn p.pushes = true) (hd : v.cask.unpushed e) :
    eAct.runRest e t p s = .ok () (finishSt e t p.pushes v) := by
  unfold eAct.runRest
  rw [get_bind, bind_ok (runUnits_last hu)]
  show (modify _ >>= _ : Act Unit) v = _
  rw [modify_bind]
  exact finishWord_run e t p.pushes v hp hd

/-- A new word whose checks hold, whose pops are there and whose first unit is its last, finishes. -/
theorem eRun_last {e : Eng} {t : Tk} {p : Plan} {s s0 v : State} (hf : (s.cask.eng e).flight = none)
    (ho : (s.cask.eng e).owed = []) (hn : (s.cask.eng e).need = none) (hpre : p.pre s = .ok () s0)
    (hpop : s0.cask.popsReady e t p.pops = true)
    (hu : p.unit (s0.updCask fun c => c.issue e t p.pops) = .ok .last v)
    (hp : v.cask.pushReady e t.hp t.hn p.pushes = true) (hd : v.cask.unpushed e) :
    eRun e t p s = .next (finishSt e t p.pushes v) := by
  have h : eAct e t p s = .ok () (finishSt e t p.pushes v) := by
    unfold eAct
    rw [get_bind, ho, bind_ok (finishReady_nil e s), get_bind, hf]
    dsimp only
    have hb : beginIteration e s = .ok () s := by unfold beginIteration; rw [get_bind, hn]; rfl
    rw [bind_ok hb, bind_ok hpre, get_bind, await_bind hpop, set_bind]
    exact runRest_last hu hp hd
  unfold eRun
  rw [h]

/-- The last unit of a word in progress finishes it. -/
theorem eRun_flight_last {e : Eng} {t : Tk} {p : Plan} {s v : State} {f : Flight}
    (hf : (s.cask.eng e).flight = some f) (hg : f.begun = true) (hs : f.settled = false) (ho : (s.cask.eng e).owed = [])
    (hu : p.unit s = .ok .last v) (hp : v.cask.pushReady e t.hp t.hn p.pushes = true) (hd : v.cask.unpushed e) :
    eRun e t p s = .next (finishSt e t p.pushes v) := by
  have h : eAct e t p s = .ok () (finishSt e t p.pushes v) := by
    unfold eAct
    rw [get_bind, ho, bind_ok (finishReady_nil e s), get_bind, hf]
    simp only [hs, hg, Bool.not_true, Bool.false_eq_true, if_false]
    exact runRest_last hu hp hd
  unfold eRun
  rw [h]

/-- A unit of a word in progress that has more, in a turn of one unit. -/
theorem eRun_flight_more {e : Eng} {t : Tk} {p : Plan} {s v : State} {f : Flight}
    (hf : (s.cask.eng e).flight = some f) (hg : f.begun = true) (hs : f.settled = false) (ho : (s.cask.eng e).owed = [])
    (hb : s.turn.burst = 0) (hu : p.unit s = .ok .more v) :
    eRun e t p s = .next (v.updCask fun c => c.updEng e fun st => { st with wait := none }) := by
  have h : eAct e t p s = .ok () (v.updCask fun c => c.updEng e fun st => { st with wait := none }) := by
    unfold eAct
    rw [get_bind, ho, bind_ok (finishReady_nil e s), get_bind, hf]
    simp only [hs, hg, Bool.not_true, Bool.false_eq_true, if_false]
    unfold eAct.runRest
    rw [get_bind, hb, bind_ok (runUnits_more hu)]
    rfl
  unfold eRun
  rw [h]

/-! ### What a finished word leaves -/

theorem eng_withCp (c : Cask) (x : Coupling) (e : Eng) : ({ c with cp := x } : Cask).eng e = c.eng e := by
  cases e <;> rfl

/-- Behind words that are all settled nothing is noted. -/
theorem noteDone_clear {st : EngSt} (f : Flight) {g : Flight} (hc : st.clear) (hr : st.redo = [])
    (hf : st.flight = some g) (hg : g.settled = true) : { st with done := st.noteDone f } = st := by
  obtain ⟨hl, hh, hd⟩ := hc
  have h : st.noteDone f = [] := by
    unfold EngSt.noteDone EngSt.openCns
    simp [hl, hh, hr, hf, hg, oldest]
  rw [h, ← hd]

/-- Where an engine stands once the word in progress is settled, no jump being due. -/
theorem settle_eng (c : Cask) (e : Eng) (f : Flight) (hf : (c.eng e).flight = some f) (ha : f.again = false)
    (hj : f.jump = none) (hh : f.hoff = (c.eng e).hoff) (hr : (c.eng e).redo = []) (hc : (c.eng e).clear) :
    ∃ g sd ls, (c.settle e).eng e = { c.eng e with
      cn := if f.begun then (c.eng e).cn else f.cn, started := sd, lpStart := ls, flight := some g,
      hoff := (afterWord f.hoff f.idx (c.eng e).count).1, idx := (afterWord f.hoff f.idx (c.eng e).count).2 } ∧
      g.jump = none ∧ g.pops = f.pops := by
  have hb : (c.begin e).eng e = { c.eng e with
      cn := if f.begun then (c.eng e).cn else f.cn,
      flight := some { f with begun := true, tks := if f.begun then f.tks else c.cp.tks } } := by
    unfold Cask.begin
    rw [eng_updEng_same]
    generalize c.eng e = x at hf ⊢
    cases x
    cases f
    dsimp only at hf
    subst hf
    dsimp only
    split <;> simp_all
  have hfl : (c.begin e).flightOf e = { f with begun := true, tks := if f.begun then f.tks else c.cp.tks } := by
    unfold Cask.flightOf; rw [hb]; rfl
  unfold Cask.settle
  dsimp only
  rw [hfl]
  simp only [ha, Bool.false_eq_true, if_false, hj]
  rcases f.jfree with _ | n
  all_goals
    simp only [jfree_eng]
    rw [eng_updEng_same, eng_updEng_same, hb, if_neg (show ¬ (e == .m && (c.eng e).held.isSome) = true by rw [hc.2.1]; simp)]
    by_cases hp : (afterWord f.hoff f.idx (c.eng e).count).1 = f.hoff
    · rw [if_pos (show (afterWord f.hoff f.idx (c.eng e).count).1 = f.hoff from hp)]
      exact ⟨_, _, _, (noteDone_clear _ (by exact hc) (by exact hr) rfl rfl).trans (by rw [hp, hh]), by rfl, by rfl⟩
    · rw [if_neg (show ¬ (afterWord f.hoff f.idx (c.eng e).count).1 = f.hoff from hp)]
      have h2 : (afterWord f.hoff f.idx (c.eng e).count).2 = 0 := by
        unfold afterWord at hp ⊢
        split
        · next h => rw [if_pos h] at hp; exact absurd rfl hp
        · rfl
      exact ⟨_, false, [], (noteDone_clear _ (by exact hc) (by exact hr) rfl rfl).trans (by rw [h2]), by rfl, by rfl⟩

theorem settle_yy (c : Cask) (e : Eng) (f : Flight) (hf : (c.eng e).flight = some f) :
    (c.settle e).yy = match f.jfree with
      | some n => (c.jfree n).yy
      | none => c.yy := by
  have hfl : ((c.begin e).flightOf e).jfree = f.jfree := by
    unfold Cask.flightOf Cask.begin
    rw [eng_updEng_same, hf]
    dsimp only
    split <;> simp_all
  unfold Cask.settle
  dsimp only
  rw [hfl]
  cases f.jfree <;> simp [Cask.jfree]

/-- The word in progress of an engine that a new word has entered. -/
def newFlight (c : Cask) (e : Eng) (t : Tk) (n : Nat) : Flight :=
  let f := Flight.start (((c.eng e).cn + 1) % 2 ^ 32) (c.eng e).hoff (c.eng e).idx c.cp.tks
  { f with popP := if t.pp then n else 0, popN := if t.pn then n else 0 }

/-- A new word stands in its engine. -/
theorem issue_eng (c : Cask) (e : Eng) (t : Tk) (n : Nat) (h : (c.eng e).redo = []) :
    (c.issue e t n).eng e = { c.eng e with flight := some (newFlight c e t n) } := by
  unfold Cask.issue
  dsimp only
  rw [eng_updEng_same, setTok_eng]
  congr 1
  rw [h]
  rfl

@[simp] theorem issue_kr (c : Cask) (e : Eng) (t : Tk) (n : Nat) : (c.issue e t n).kr = c.kr := by simp [Cask.issue]
@[simp] theorem issue_mem (c : Cask) (e : Eng) (t : Tk) (n : Nat) : (c.issue e t n).mem = c.mem := by simp [Cask.issue]
@[simp] theorem issue_mx (c : Cask) (e : Eng) (t : Tk) (n : Nat) : (c.issue e t n).mx = c.mx := by simp [Cask.issue]
@[simp] theorem issue_yy (c : Cask) (e : Eng) (t : Tk) (n : Nat) : (c.issue e t n).yy = c.yy := by simp [Cask.issue]
@[simp] theorem issue_st (c : Cask) (e : Eng) (t : Tk) (n : Nat) : (c.issue e t n).st = c.st := by simp [Cask.issue]
theorem issue_eng_other (c : Cask) (e d : Eng) (t : Tk) (n : Nat) (h : d ≠ e) : (c.issue e t n).eng d = c.eng d := by
  unfold Cask.issue; dsimp only
  rw [eng_updEng_other _ _ _ _ h]
  cases d <;> rfl
theorem issue_x (c : Cask) (e d : Eng) (t : Tk) (n : Nat) : ((c.issue e t n).eng d).x = (c.eng d).x := by
  by_cases h : d = e
  · subst h; unfold Cask.issue; dsimp only; rw [eng_updEng_same]; cases d <;> rfl
  · rw [issue_eng_other _ _ _ _ _ h]
@[simp] theorem issue_xreg (c : Cask) (e d : Eng) (t : Tk) (n : Nat) (r : XReg) : (c.issue e t n).xreg d r = c.xreg d r := by
  unfold Cask.xreg; rw [issue_x]
@[simp] theorem issue_sreg (c : Cask) (e : Eng) (t : Tk) (n : Nat) (r : SReg) : (c.issue e t n).sreg r = c.sreg r := by
  unfold Cask.sreg; rw [issue_kr]
@[simp] theorem issue_vreg (c : Cask) (e : Eng) (t : Tk) (n : Nat) (r : VReg) : (c.issue e t n).vreg r = c.vreg r := by
  unfold Cask.vreg; rw [issue_mx]
@[simp] theorem issue_mreg (c : Cask) (e : Eng) (t : Tk) (n : Nat) (r : MReg) : (c.issue e t n).mreg r = c.mreg r := by
  unfold Cask.mreg; rw [issue_mx]

/-- `d` is the cask `c` with a new word of engine `e` in progress, which has done its work: nothing of the word's own
sequencing has changed but that it may have begun. -/
structure Flown (c d : Cask) (e : Eng) (t : Tk) (n : Nat) (f : Flight) : Prop where
  kr : d.kr = c.kr
  st : d.st = c.st
  others : ∀ d', d' ≠ e → d.eng d' = c.eng d'
  tok : d.cp.tok = (c.issue e t n).cp.tok
  flight : (d.eng e).flight = some f
  again : f.again = false
  pops : f.pops = []
  cn : f.cn = ((c.eng e).cn + 1) % 2 ^ 32
  begun : f.begun = true → (d.eng e).cn = f.cn
  hoff : f.hoff = (c.eng e).hoff
  idx : f.idx = (c.eng e).idx
  at_ : (d.eng e).hoff = (c.eng e).hoff
  count : (d.eng e).count = (c.eng e).count
  ewr : (d.eng e).ewr = []
  owed : (d.eng e).owed = []
  redo : (d.eng e).redo = []
  clear : (d.eng e).clear

theorem issue_tok (c : Cask) (e : Eng) (t : Tk) (n : Nat) :
    (c.issue e t n).cp.tok = (c.cp.tok.setPop e true (c.cp.tok.popCount e true - if t.pp then n else 0)).setPop e false
      ((c.cp.tok.setPop e true (c.cp.tok.popCount e true - if t.pp then n else 0)).popCount e false -
        if t.pn then n else 0) := by
  unfold Cask.issue; dsimp only
  rw [updEng_cp]
  rfl

/-- The pushes of a word find the room that they had before its pops. -/
theorem Flown.room {c d : Cask} {e : Eng} {t : Tk} {n : Nat} {f : Flight} (h : Flown c d e t n f) :
    d.pushReady e t.hp t.hn n = c.pushReady e t.hp t.hn n := by
  unfold Cask.pushReady
  rw [h.tok, issue_tok]
  simp

/-- What a new word leaves when it has finished. -/
theorem finish_new {s : State} {d : Cask} {e : Eng} {t : Tk} {n : Nat} {f : Flight} (h : Flown s.cask d e t n f)
    (hj : f.jump = none) {v : State} (hv : v.cask = d) :
    ∃ u : State, finishSt e t n v = u ∧ v.onlyCask u ∧ s.cask.finished u.cask e t n ∧ s.cask.onNext u.cask e ∧
      u.cask.mem = d.mem ∧ u.cask.mx = d.mx ∧ d.sameCoupling u.cask ∧
      u.cask.yy = (match f.jfree with
        | some k => (d.jfree k).yy
        | none => d.yy) ∧
      (∃ sd ls ms rs rt rp, u.cask.eng e = { d.eng e with
        cn := ((s.cask.eng e).cn + 1) % 2 ^ 32,
        hoff := (afterWord (s.cask.eng e).hoff (s.cask.eng e).idx (s.cask.eng e).count).1,
        idx := (afterWord (s.cask.eng e).hoff (s.cask.eng e).idx (s.cask.eng e).count).2,
        flight := none, wait := none, started := sd, lpStart := ls, marks := ms, rsn := rs, retired := rt, rsnPend := rp }) := by
  obtain ⟨g, sd, ls, hg, hgj, hgp⟩ := settle_eng d e f h.flight h.again hj (h.hoff.trans h.at_.symm) h.redo h.clear
  have he : (((d.settle e).push e t.hp t.hn n).eng e).ewr = [] := by rw [push_eng, hg]; exact h.ewr
  obtain ⟨st, rv, mtab, hr, h1, h2, h3⟩ :=
    retire_frame ((d.settle e).push e t.hp t.hn n) e (Config.fetchAhead v.tick e) none he
      (by rw [push_eng, hg]; unfold EngSt.owes; dsimp only; rw [h.owed]; rfl)
  have hfl : ((d.settle e).push e t.hp t.hn n).flightOf e = g := by
    unfold Cask.flightOf; rw [push_eng, hg]; rfl
  have hu : (finishSt e t n v).cask = ((d.settle e).push e t.hp t.hn n).retire e (Config.fetchAhead v.tick e) none := by
    rw [← popRings_none (c := (d.settle e).push e t.hp t.hn n) (e := e) (by rw [hfl, hgp, h.pops])]
    simp [finishSt, hv]
  have hcn : (if f.begun then (d.eng e).cn else f.cn) = ((s.cask.eng e).cn + 1) % 2 ^ 32 := by
    split
    · next hb => rw [h.begun hb, h.cn]
    · exact h.cn
  have hst : st = { d.eng e with
      cn := ((s.cask.eng e).cn + 1) % 2 ^ 32,
      hoff := (afterWord (s.cask.eng e).hoff (s.cask.eng e).idx (s.cask.eng e).count).1,
      idx := (afterWord (s.cask.eng e).hoff (s.cask.eng e).idx (s.cask.eng e).count).2,
      flight := none, wait := none, started := sd, lpStart := ls, marks := st.marks, rsn := st.rsn,
      retired := st.retired, rsnPend := st.rsnPend } := by
    rw [hfl, hgj] at h3
    rw [h1, h3, push_eng, hg]
    dsimp only
    rw [hcn, h.hoff, h.idx, h.count, h.owed]
    have hw := h.ewr
    have ho := h.owed
    generalize d.eng e = x at hw ho
    cases x
    dsimp only at hw ho
    subst hw ho
    simp
  refine ⟨_, rfl, ?_, ?_, ?_, ?_, ?_, ?_, ?_, ?_⟩
  · exact onlyCask_trans (onlyCask_trans (onlyCask_updCask _ _) (onlyCask_count _ _ _)) (onlyCask_updCask _ _)
  · rw [hu, hr]
    refine ⟨?_, ?_, ?_, ?_, ?_, ?_⟩
    · rw [eng_withCp, eng_updEng_same, hst]
    · rw [eng_withCp, eng_updEng_same, hst]
    · show ((d.settle e).push e t.hp t.hn n).cp.tok = _
      unfold Cask.push Tokens.after
      rw [settle_cp, h.tok, issue_tok]
      cases t.hp <;> cases t.hn <;> rfl
    · show (((d.settle e).push e t.hp t.hn n).updEng e fun _ => st).kr = _
      simp [h.kr]
    · show (((d.settle e).push e t.hp t.hn n).updEng e fun _ => st).st = _
      simp [h.st]
    · intro e' he'
      rw [eng_withCp, eng_updEng_other _ _ _ _ he', push_eng, settle_eng_other _ _ _ he', h.others e' he']
  · unfold Cask.onNext
    rw [hu, hr, eng_withCp, eng_updEng_same, hst]
  · rw [hu, hr]
    show (((d.settle e).push e t.hp t.hn n).updEng e fun _ => st).mem = _
    simp
  · rw [hu, hr]
    show (((d.settle e).push e t.hp t.hn n).updEng e fun _ => st).mx = _
    simp
  · rw [hu, hr]
    unfold Cask.sameCoupling
    dsimp only
    simp [Cask.push]
  · rw [hu, hr]
    show (((d.settle e).push e t.hp t.hn n).updEng e fun _ => st).yy = _
    rw [updEng_yy, push_yy, settle_yy d e f h.flight]
  · rw [hu, hr, eng_withCp, eng_updEng_same]
    exact ⟨sd, ls, st.marks, st.rsn, st.retired, st.rsnPend, hst⟩

/-- `d` differs from `c` in local memories, M's registers and x registers of engine `e` alone. -/
structure Mild (c d : Cask) (e : Eng) : Prop where
  kr : d.kr = c.kr
  st : d.st = c.st
  cp : d.cp = c.cp
  yy : d.yy = c.yy
  others : ∀ d', d' ≠ e → d.eng d' = c.eng d'
  own : d.eng e = { c.eng e with x := (d.eng e).x }

/-- A word that changes nothing but such state is in progress as it issued. -/
theorem flown_of {c d : Cask} {e : Eng} {t : Tk} {n : Nat} (hf : c.fresh e t n) (h : Mild (c.issue e t n) d e) :
    Flown c d e t n (newFlight c e t n) := by
  obtain ⟨h1, h2, h3, h4, h5, h6, h7, h8⟩ := hf
  have hi := issue_eng c e t n h2
  have ho := h.own
  rw [hi] at ho
  refine ⟨by rw [h.kr, issue_kr], by rw [h.st, issue_st], fun d' hd => by rw [h.others d' hd, issue_eng_other _ _ _ _ _ hd],
    by rw [h.cp], by rw [ho], rfl, rfl, rfl, fun hb => ?_, rfl, rfl, by rw [ho], by rw [ho], ?_, ?_, ?_, ?_⟩
  · exact absurd hb (by simp [newFlight, Flight.start])
  · rw [ho]; exact h5
  · rw [ho]; exact h3
  · rw [ho]; exact h2
  · rw [ho]; exact h8

/-- A new word that acts on such state alone runs to its end. -/
theorem eRun_mild {e : Eng} {t : Tk} {p : Plan} {n : Nat} {s s0 v : State} (hf : s.cask.fresh e t n) (hn : p.pops = n)
    (hm : p.pushes = n) (hpre : p.pre s = .ok () s0) (hs0 : s0.cask = s.cask)
    (hu : p.unit (s0.updCask fun c => c.issue e t n) = .ok .last v) (h : Mild (s.cask.issue e t n) v.cask e) :
    ∃ u, eRun e t p s = .next u ∧ v.onlyCask u ∧ s.cask.ran u.cask e t n ∧ u.cask.mem = v.cask.mem ∧
      u.cask.mx = v.cask.mx ∧ (u.cask.eng e).x = (v.cask.eng e).x := by
  subst hn
  have hw := flown_of hf h
  obtain ⟨h1, h2, h3, h4, h5, h6, h7, h8⟩ := hf
  have hr := eRun_last h1 h3 h4 hpre (by rw [hs0]; exact h6) hu (by rw [hm, hw.room]; exact h7)
    (unpushed_of hw.flight rfl rfl)
  rw [hm] at hr
  obtain ⟨u, hu1, hu2, hu3, hu4, hu5, hu6, hu7, hu8, sd, ls, ms, rs, rt, rp, hu9⟩ := finish_new hw rfl (v := v) rfl
  have hown : (v.cask.eng e) = { s.cask.eng e with x := (v.cask.eng e).x, flight := some (newFlight s.cask e t p.pops) } := by
    have := h.own; rw [issue_eng _ _ _ _ h2] at this; exact this
  refine ⟨u, by rw [hr, hu1], hu2, ⟨⟨hu3, hu4, ?_, ?_⟩, ?_⟩, hu5, hu6, by rw [hu9]⟩
  · rw [hu8]; show v.cask.yy = _; rw [h.yy, issue_yy]
  · rw [hu9, hown]
  · unfold Cask.sameCoupling at hu7 ⊢
    rw [h.cp] at hu7
    simpa [Cask.issue, Cask.setTok] using hu7

/-- Such a word whose effect is one of its cask alone. -/
theorem eRun_cask {e : Eng} {t : Tk} {pre : Act Unit} {body : CAct Unit} {s s0 : State} {d : Cask}
    (hf : s.cask.fresh e t 1) (hpre : pre s = .ok () s0) (hs0 : s0.cask = s.cask) (hs1 : s.onlyCask s0)
    (hb : body (s.cask.issue e t 1) = .ok () d) (h : Mild (s.cask.issue e t 1) d e) :
    ∃ u, eRun e t (Plan.mk 1 1 pre (do onCask (whole body); pure Prog.last)) s = .next u ∧ s.onlyCask u ∧
      s.cask.ran u.cask e t 1 ∧ u.cask.mem = d.mem ∧ u.cask.mx = d.mx ∧ (u.cask.eng e).x = (d.eng e).x := by
  have hu : (do onCask (whole body); pure Prog.last : Act Prog) (s0.updCask fun c => c.issue e t 1) =
      .ok .last ((s0.updCask fun c => c.issue e t 1).setCask d) := by
    rw [bind_ok (onCask_ok (whole_ok (by rw [cask_updCask, hs0]; exact hb)))]
    rfl
  obtain ⟨u, h1, h2, h3, h4, h5, h6⟩ := eRun_mild (p := Plan.mk 1 1 pre _) hf rfl rfl hpre hs0 hu
    (by rw [cask_setCask]; exact h)
  rw [cask_setCask] at h4 h5 h6
  exact ⟨u, h1, onlyCask_trans hs1
    (onlyCask_trans (onlyCask_trans (onlyCask_updCask _ _) (onlyCask_setCask _ _)) h2), h3, h4, h5, h6⟩

/-- A word of the common set. -/
theorem cRun_mild {e : Eng} {t : Tk} {pre body : CAct Unit} {s : State} {d : Cask} (hf : s.cask.fresh e t 1)
    (hpre : pre s.cask = .ok () s.cask) (hb : body (s.cask.issue e t 1) = .ok () d) (h : Mild (s.cask.issue e t 1) d e) :
    ∃ u, cRun e t pre body s = .next u ∧ s.onlyCask u ∧ s.cask.ran u.cask e t 1 ∧ u.cask.mem = d.mem ∧
      u.cask.mx = d.mx ∧ (u.cask.eng e).x = (d.eng e).x :=
  eRun_cask hf (onCask_ok hpre) (by rw [cask_setCask]) (onlyCask_setCask _ _) hb h

end Sys2Proof.Machine
end

