-- ==== Sys2Proof/Laws/Matrix.lean ====
section
/-! SUPPORT. How the words of M run, and what their checks come to. -/

namespace Sys2Proof.Machine

open Sys2Proof

/-- A word of M that acts on its cask alone runs to its end. -/
theorem mRun_mild {t : Tk} {pre : Act Unit} {body : CAct Unit} {s : State} {d : Cask} (hf : s.cask.fresh .m t 1)
    (hpre : pre s = .ok () s) (hb : body (s.cask.issue .m t 1) = .ok () d) (h : Mild (s.cask.issue .m t 1) d .m) :
    ∃ u, mRun t pre body s = .next u ∧ s.onlyCask u ∧ s.cask.ran u.cask .m t 1 ∧ u.cask.mem = d.mem ∧
      u.cask.mx = d.mx ∧ (u.cask.eng .m).x = (d.eng .m).x :=
  eRun_cask hf hpre rfl (onlyCask_refl s) hb h

/-- A word that reads or writes a range of the SPM does so at once where its turn has room for all pieces. -/
theorem mPieces_mild {t : Tk} {pre : Act Unit} {n : Cask → Nat} {body : CAct Unit} {slow : Act Prog} {s : State} {d : Cask}
    (hf : s.cask.fresh .m t 1) (hpre : pre s = .ok () s) (hn : n (s.cask.issue .m t 1) ≤ s.turn.burst + 1)
    (hb : body (s.cask.issue .m t 1) = .ok () d) (h : Mild (s.cask.issue .m t 1) d .m) :
    ∃ u, mPieces t pre n body slow s = .next u ∧ s.onlyCask u ∧ s.cask.ran u.cask .m t 1 ∧ u.cask.mem = d.mem ∧
      u.cask.mx = d.mx ∧ (u.cask.eng .m).x = (d.eng .m).x := by
  have hp : ((s.cask.issue .m t 1).flightOf .m).pt.opened = false := by
    unfold Cask.flightOf; rw [issue_eng _ _ _ _ hf.2.1]; rfl
  have hu : (do
      let s ← get
      if !(s.point .m).opened && decide (n s.cask ≤ s.turn.burst + 1) then do
        onCask (whole body)
        pure .last
      else do
        begun .m
        slow : Act Prog) (s.updCask fun c => c.issue .m t 1) = .ok .last ((s.updCask fun c => c.issue .m t 1).setCask d) := by
    have hg : (get : Act State) (s.updCask fun c => c.issue .m t 1) =
        .ok (s.updCask fun c => c.issue .m t 1) (s.updCask fun c => c.issue .m t 1) := rfl
    rw [bind_ok hg, if_pos]
    · rw [bind_ok (onCask_ok (whole_ok (by rw [cask_updCask]; exact hb)))]
      rfl
    · rw [State.point, cask_updCask, hp]
      exact decide_eq_true hn
  obtain ⟨u, h1, h2, h3, h4, h5, h6⟩ := eRun_mild (p := Plan.mk 1 1 pre _) hf rfl rfl hpre rfl hu
    (by rw [cask_setCask]; exact h)
  rw [cask_setCask] at h4 h5 h6
  exact ⟨u, h1, onlyCask_trans (onlyCask_trans (onlyCask_updCask _ _) (onlyCask_setCask _ _)) h2, h3, h4, h5, h6⟩

/-! ### Lanes -/

@[simp] theorem vreg_length (c : Cask) (n : VReg) : (c.vreg n).length = 128 := smGetRange_length _ _ _ _
theorem vreg_getElem (c : Cask) (n : VReg) (k : Nat) (h : k < (c.vreg n).length) : (c.vreg n)[k] = c.lane n k :=
  smGetRange_getElem _ _ _ _ _ h
theorem vreg_getD (c : Cask) (n : VReg) (k : Nat) (h : k < 128) (d : Lane) : (c.vreg n).getD k d = c.lane n k := by
  have hk : k < (c.vreg n).length := by simpa using h
  rw [List.getD_eq_getElem?_getD, List.getElem?_eq_getElem hk, Option.getD_some, vreg_getElem]

/-- A lane after a vector register is written. -/
theorem lane_setV (c : Cask) (n m : VReg) (ls : List Lane) (hl : ls.length = 128) (k : Nat) (hk : k < 128) :
    (c.setV n ls).lane m k = if m = n then ls[k]'(by omega) else c.lane m k := by
  unfold Cask.lane Cask.setV
  by_cases h : m = n
  · subst h
    rw [if_pos rfl]
    exact smGet_smSetRange_in _ _ _ _ _ _
  · rw [if_neg h]
    have : m.toNat ≠ n.toNat := fun e => h (BitVec.eq_of_toNat_eq e)
    exact smGet_smSetRange_other _ _ _ _ _ (by omega)

theorem mergeLanes_length (m : BitVec 128) (i : Nat) (a b : List Lane) (h : a.length = b.length) :
    (mergeLanes m i a b).length = a.length := by
  induction a generalizing i b with
  | nil => cases b <;> simp [mergeLanes]
  | cons x xs ih =>
    cases b with
    | nil => simp at h
    | cons y ys => simp [mergeLanes, ih (i + 1) ys (by simpa using h)]

theorem mergeLanes_getElem (m : BitVec 128) (i : Nat) (a b : List Lane) (h : a.length = b.length) (k : Nat)
    (hk : k < (mergeLanes m i a b).length) :
    (mergeLanes m i a b)[k] = if m.getLsbD (i + k) then b[k]'(by rw [mergeLanes_length _ _ _ _ h] at hk; omega)
      else a[k]'(by rw [mergeLanes_length _ _ _ _ h] at hk; omega) := by
  induction a generalizing i b k with
  | nil => cases b <;> simp [mergeLanes] at hk
  | cons x xs ih =>
    cases b with
    | nil => simp at h
    | cons y ys =>
      simp only [mergeLanes]
      cases k with
      | zero => simp
      | succ k =>
        simp only [List.getElem_cons_succ]
        rw [ih (i + 1) ys (by simpa using h) k]
        simp [Nat.add_assoc, Nat.add_comm 1 k]

/-! ### Tallies -/

theorem foldl_plus (es : List Tally) (t : Tally) :
    es.foldl Tally.plus t = t.plus (es.foldl Tally.plus {}) := by
  have hz : ∀ x : Tally, Tally.plus {} x = x := by intro x; simp [Tally.plus]
  have ha : ∀ x y z : Tally, (x.plus y).plus z = x.plus (y.plus z) := by
    intro x y z; simp [Tally.plus, Nat.add_assoc, BitVec.or_assoc]
  induction es generalizing t with
  | nil => simp [Tally.plus]
  | cons e es ih => rw [List.foldl_cons, ih, List.foldl_cons, ih (Tally.plus {} e), hz, ha]

/-- The tally of no lane, and of one lane more. -/
theorem tally32_nil : tally32 [] = {} := rfl
theorem tally32_cons (e : Lane × Rz) (es : List (Lane × Rz)) :
    tally32 (e :: es) = (tallyOf .fp32 e.1.toNat e.2).plus (tally32 es) := by
  have key : ∀ (es : List (Lane × Rz)) (t : Tally), es.foldl (fun t e => t.plus (tallyOf .fp32 e.1.toNat e.2)) t =
      t.plus (tally32 es) := by
    intro es t
    have h := foldl_plus (es.map fun e => tallyOf .fp32 e.1.toNat e.2) t
    rw [List.foldl_map, List.foldl_map] at h
    exact h
  unfold tally32
  rw [List.foldl_cons, key es (Tally.plus {} _)]
  unfold tally32
  simp [Tally.plus]

/-- The flags of a tally: those that some lane raises. -/
theorem tally32_fl (es : List (Lane × Rz)) (b : Nat) :
    (tally32 es).fl.getLsbD b = es.any fun e => e.2.fl.getLsbD b := by
  induction es with
  | nil => simp [tally32_nil]
  | cons e es ih =>
    rw [tally32_cons]
    simp [Tally.plus, tallyOf, ih]

theorem filter_length_cons {α : Type} (p : α → Bool) (x : α) (xs : List α) :
    ((x :: xs).filter p).length = bit (p x) + (xs.filter p).length := by
  rw [List.filter_cons]
  cases h : p x <;> simp [bit, Nat.add_comm]

/-- The counts of a tally: the lanes that each counter counts (R92). -/
theorem tally32_counts (es : List (Lane × Rz)) :
    (tally32 es).nans = (es.filter fun e => isNanCode .fp32 e.1.toNat).length ∧
    (tally32 es).infs = (es.filter fun e => isInfCode .fp32 e.1.toNat && e.2.ovf).length ∧
    (tally32 es).sats = (es.filter fun e => e.2.sat).length ∧
    (tally32 es).wraps = (es.filter fun e => e.2.wrap).length := by
  induction es with
  | nil => simp [tally32_nil]
  | cons e es ih =>
    obtain ⟨h1, h2, h3, h4⟩ := ih
    rw [tally32_cons]
    simp only [filter_length_cons]
    simp [Tally.plus, tallyOf, h1, h2, h3, h4]

theorem activeOf_cons {α : Type} (m : BitVec 128) (i : Nat) (x : α) (xs : List α) :
    activeOf m i (x :: xs) = if m.getLsbD i then x :: activeOf m (i + 1) xs else activeOf m (i + 1) xs := rfl

theorem activeOf_any {α : Type} (m : BitVec 128) (p : α → Bool) (i : Nat) (xs : List α) :
    (activeOf m i xs).any p = true ↔ ∃ k, ∃ h : k < xs.length, m.getLsbD (i + k) = true ∧ p xs[k] = true := by
  induction xs generalizing i with
  | nil => simp [activeOf]
  | cons x xs ih =>
    rw [activeOf_cons]
    constructor
    · intro h
      by_cases hm : m.getLsbD i = true
      · rw [if_pos hm, List.any_cons, Bool.or_eq_true, ih] at h
        rcases h with h | ⟨k, hk, h1, h2⟩
        · exact ⟨0, by simp, by simpa using hm, by simpa using h⟩
        · exact ⟨k + 1, by simp; omega, by rw [← h1]; congr 1; omega, by simpa using h2⟩
      · rw [if_neg hm, ih] at h
        obtain ⟨k, hk, h1, h2⟩ := h
        exact ⟨k + 1, by simp; omega, by rw [← h1]; congr 1; omega, by simpa using h2⟩
    · rintro ⟨k, hk, h1, h2⟩
      cases k with
      | zero => rw [if_pos (by simpa using h1), List.any_cons]; simp at h2; simp [h2]
      | succ k =>
        have : ((activeOf m (i + 1) xs).any p) = true :=
          (ih (i + 1)).2 ⟨k, by simp at hk; omega, by rw [← h1]; congr 1; omega, by simpa using h2⟩
        split
        · rw [List.any_cons, this, Bool.or_true]
        · exact this

theorem activeOf_count {α : Type} (m : BitVec 128) (p : α → Bool) (d : α) (i : Nat) (xs : List α) :
    ((activeOf m i xs).filter p).length =
      ((List.range xs.length).filter fun k => m.getLsbD (i + k) && p (xs.getD k d)).length := by
  induction xs generalizing i with
  | nil => simp [activeOf]
  | cons x xs ih =>
    rw [List.length_cons, List.range_succ_eq_map, filter_length_cons, List.filter_map, List.length_map]
    have hr : (List.range xs.length).filter ((fun k => m.getLsbD (i + k) && p ((x :: xs).getD k d)) ∘ Nat.succ) =
        (List.range xs.length).filter fun k => m.getLsbD (i + 1 + k) && p (xs.getD k d) := by
      congr 1
      funext k
      simp only [Function.comp, List.getD_cons_succ, Nat.succ_eq_add_one]
      congr 2
      omega
    rw [hr, ← ih, activeOf_cons]
    cases hm : m.getLsbD i
    · simp [bit]
    · simp only [if_true, filter_length_cons]
      simp

/-! ### Vector words -/

theorem record_mx (c : Cask) (fl : BitVec 5) (a b d e : Nat) : (c.record fl a b d e).mx =
    { c.mx with flags := c.mx.flags ||| fl, mxc := (c.record fl a b d e).mx.mxc } := rfl
theorem record_mxc (c : Cask) (fl : BitVec 5) (a b d e j : Nat) : smGet 0 (c.record fl a b d e).mx.mxc j =
    if j = 0 then min (smGet 0 c.mx.mxc 0 + a) 0xFFFFFFFF else if j = 1 then min (smGet 0 c.mx.mxc 1 + b) 0xFFFFFFFF
    else if j = 2 then min (smGet 0 c.mx.mxc 2 + d) 0xFFFFFFFF else if j = 3 then min (smGet 0 c.mx.mxc 3 + e) 0xFFFFFFFF
    else smGet 0 c.mx.mxc j := by
  unfold Cask.record
  dsimp only
  by_cases h3 : j = 3
  · subst h3; simp [smGet_smSet_other]
  by_cases h2 : j = 2
  · subst h2; simp [smGet_smSet_other]
  by_cases h1 : j = 1
  · subst h1; simp [smGet_smSet_other]
  by_cases h0 : j = 0
  · subst h0; simp [smGet_smSet_other]
  simp [smGet_smSet_other, *]

theorem mild_record {c d : Cask} {e : Eng} (h : Mild c d e) (fl : BitVec 5) (a b x y : Nat) :
    Mild c (d.record fl a b x y) e := ⟨h.kr, h.st, h.cp, h.yy, h.others, h.own⟩
theorem mild_refl (c : Cask) (e : Eng) : Mild c c e := ⟨rfl, rfl, rfl, rfl, fun _ _ => rfl, rfl⟩
theorem mild_mx (c : Cask) (e : Eng) (m : MSt) : Mild c { c with mx := m } e :=
  ⟨rfl, rfl, rfl, rfl, fun d _ => by cases d <;> rfl, by cases e <;> rfl⟩
theorem mild_mem (c : Cask) (e : Eng) (m : LocalMem) : Mild c { c with mem := m } e :=
  ⟨rfl, rfl, rfl, rfl, fun d _ => by cases d <;> rfl, by cases e <;> rfl⟩
theorem mild_setX (c : Cask) (e : Eng) (n : XReg) (v : Word) : Mild c (c.setX e n v) e := by
  unfold Cask.setX
  split
  · exact mild_refl c e
  · exact ⟨by simp, by simp, by simp, by simp, fun d hd => eng_updEng_other _ _ _ _ hd, by rw [eng_updEng_same]⟩
theorem mild_trans {a b c : Cask} {e : Eng} (h : Mild a b e) (k : Mild b c e) : Mild a c e :=
  ⟨k.kr.trans h.kr, k.st.trans h.st, k.cp.trans h.cp, k.yy.trans h.yy, fun d hd => (k.others d hd).trans (h.others d hd), by
    rw [k.own, h.own]⟩

theorem mapRange_getElem {α : Type} (f : Nat → α) (k : Nat) (h : k < ((List.range 128).map f).length) :
    ((List.range 128).map f)[k] = f k := by simp

/-- What lanes written under a mask leave. -/
theorem putLanes_spec (c : Cask) (m : BitVec 128) (vd : VReg) (f : Nat → Lane × Rz) (counts : Bool) (e : Eng) :
    let d := c.putLanes m vd ((List.range 128).map f) counts
    Mild c d e ∧ d.mem = c.mem ∧ (∀ e, (d.eng e).x = (c.eng e).x) ∧
    d.mx = { c.mx with v := d.mx.v, flags := d.mx.flags, mxc := d.mx.mxc } ∧
    (∀ r i, i < 128 → d.lane r i = if r = vd ∧ m.getLsbD i = true then (f i).1 else c.lane r i) ∧
    (if counts then c.raised d 128 (fun i => m.getLsbD i) (fun i => (f i).2) ∧
        c.counted32 d 128 (fun i => m.getLsbD i) f
      else c.sameCounts d) := by
  dsimp only
  have hml : (mergeLanes m 0 (c.vreg vd) (((List.range 128).map f).map (·.1))).length = 128 := by
    rw [mergeLanes_length _ _ _ _ (by simp)]; simp
  have hlane : ∀ r i, i < 128 → (c.setV vd (mergeLanes m 0 (c.vreg vd) (((List.range 128).map f).map (·.1)))).lane r i =
      if r = vd ∧ m.getLsbD i = true then (f i).1 else c.lane r i := by
    intro r i hi
    rw [lane_setV _ _ _ _ hml _ hi]
    by_cases hr : r = vd
    · subst hr
      rw [if_pos rfl, mergeLanes_getElem _ _ _ _ (by simp)]
      simp only [Nat.zero_add]
      by_cases hm : m.getLsbD i = true
      · rw [if_pos hm, if_pos (by simpa using hm)]; simp
      · rw [if_neg hm, if_neg (by simpa using hm), vreg_getElem]
    · rw [if_neg hr, if_neg (fun h => hr h.1)]
  cases counts
  · have hd : c.putLanes m vd ((List.range 128).map f) false =
        c.setV vd (mergeLanes m 0 (c.vreg vd) (((List.range 128).map f).map (·.1))) := rfl
    rw [hd]
    exact ⟨mild_mx _ _ _, rfl, fun d => by cases d <;> rfl, rfl, hlane, by
      simp only [Bool.false_eq_true, if_false]; exact ⟨rfl, rfl⟩⟩
  · have hd : c.putLanes m vd ((List.range 128).map f) true =
        (c.setV vd (mergeLanes m 0 (c.vreg vd) (((List.range 128).map f).map (·.1)))).tally
          (tally32 (activeOf m 0 ((List.range 128).map f))) := rfl
    rw [hd]
    obtain ⟨h1, h2, h3, h4⟩ := tally32_counts (activeOf m 0 ((List.range 128).map f))
    refine ⟨mild_record (mild_mx _ _ _) _ _ _ _ _, rfl, fun d => by cases d <;> rfl, rfl, hlane, ?_, ?_⟩
    · intro b
      show (c.mx.flags ||| _).getLsbD b = true ↔ _
      rw [BitVec.getLsbD_or, Bool.or_eq_true, tally32_fl, activeOf_any]
      simp only [List.length_map, List.length_range, Nat.zero_add, mapRange_getElem]
      constructor
      · rintro (h | ⟨k, hk, ha, hb⟩)
        · exact .inl h
        · exact .inr ⟨k, hk, ha, hb⟩
      · rintro (h | ⟨k, hk, ha, hb⟩)
        · exact .inl h
        · exact .inr ⟨k, hk, ha, hb⟩
    · have key : ∀ (p : Lane × Rz → Bool), ((activeOf m 0 ((List.range 128).map f)).filter p).length =
          ((List.range 128).filter fun k => m.getLsbD k && p (f k)).length := by
        intro p
        rw [activeOf_count m p ((0 : Lane), {}) 0, List.length_map, List.length_range]
        refine congrArg List.length (List.filter_congr fun k hk => ?_)
        have hk' : k < 128 := by simpa using hk
        rw [Nat.zero_add, List.getD_eq_getElem?_getD, List.getElem?_map, List.getElem?_range hk']
        rfl
      refine ⟨?_, ?_, ?_, ?_⟩
      · unfold Cask.counted Cask.tally; rw [record_mxc, if_pos rfl, h1, key]; rfl
      · unfold Cask.counted Cask.tally; rw [record_mxc, if_neg (by decide), if_pos rfl, h2, key]; rfl
      · unfold Cask.counted Cask.tally
        rw [record_mxc, if_neg (by decide), if_neg (by decide), if_pos rfl, h3, key]; rfl
      · unfold Cask.counted Cask.tally
        rw [record_mxc, if_neg (by decide), if_neg (by decide), if_neg (by decide), if_pos rfl, h4, key]; rfl

/-- A vector word that writes lanes under a mask runs to its end. -/
theorem vector_word {t : Tk} {mk : Option MReg} {vd : VReg} {counts : Bool} {pre : Act Unit} {body : CAct Unit} {s : State}
    (f : Nat → Lane × Rz) (hf : s.cask.fresh .m t 1) (hpre : pre s = .ok () s)
    (hb : body (s.cask.issue .m t 1) =
      .ok () ((s.cask.issue .m t 1).putLanes ((s.cask.issue .m t 1).active mk) vd ((List.range 128).map f) counts)) :
    ∃ u, mRun t pre body s = .next u ∧ s.wroteLanes u t mk vd counts f := by
  have ha : (s.cask.issue .m t 1).active mk = s.cask.active mk := by cases mk <;> simp [Cask.active]
  rw [ha] at hb
  obtain ⟨h1, h2, h3, h4, h5, h6⟩ := putLanes_spec (s.cask.issue .m t 1) (s.cask.active mk) vd f counts .m
  obtain ⟨u, k1, k2, k3, k4, k5, k6⟩ := mRun_mild hf hpre hb h1
  have hl : ∀ (c : Cask) (r : VReg) (i : Nat), c.mx = (s.cask.issue .m t 1).mx → c.lane r i = s.cask.lane r i := by
    intro c r i h; unfold Cask.lane; rw [h, issue_mx]
  refine ⟨u, k1, k2, k3, by rw [k4, h2, issue_mem], ?_, ?_, ?_, ?_⟩
  · intro n; unfold Cask.xreg; rw [k6, h3, issue_x]
  · rw [k5, h4, issue_mx]
  · intro r i hi
    have h := h5 r i hi
    unfold Cask.lane at h ⊢
    rw [k5, h, issue_mx]
  · cases counts
    · simp only [Bool.false_eq_true, if_false] at h6 ⊢
      unfold Cask.sameCounts at h6 ⊢
      rw [k5, h6.1, h6.2, issue_mx]
      exact ⟨rfl, rfl⟩
    · simp only [if_true] at h6 ⊢
      unfold Cask.raised Cask.counted32 Cask.counted at h6 ⊢
      rw [k5]
      simpa using h6

theorem issue_lane (c : Cask) (e : Eng) (t : Tk) (n : Nat) (r : VReg) (k : Nat) : (c.issue e t n).lane r k = c.lane r k := by
  unfold Cask.lane; rw [issue_mx]
theorem issue_srcLane (c : Cask) (e : Eng) (t : Tk) (n : Nat) (b : VSrc) (k : Nat) :
    (c.issue e t n).srcLane b k = c.srcLane b k := by
  cases b <;> simp [Cask.srcLane, issue_lane]

theorem vsrc_length (c : Cask) (b : VSrc) : (c.vsrc b).length = 128 := by cases b <;> simp [Cask.vsrc]
theorem vsrc_getElem (c : Cask) (b : VSrc) (k : Nat) (h : k < (c.vsrc b).length) : (c.vsrc b)[k] = c.srcLane b k := by
  cases b with
  | v r => exact vreg_getElem _ _ _ _
  | x r => exact List.getElem_replicate _

theorem lanes1 (c : Cask) (a : VReg) (f : Lane → Lane × Rz) :
    (c.vreg a).map f = (List.range 128).map fun k => f (c.lane a k) := by
  apply List.ext_getElem
  · simp
  · intro i h1 h2; simp [vreg_getElem]
theorem lanes2 (c : Cask) (a : VReg) (b : VSrc) (f : Lane → Lane → Lane × Rz) :
    (c.vreg a).zipWith f (c.vsrc b) = (List.range 128).map fun k => f (c.lane a k) (c.srcLane b k) := by
  apply List.ext_getElem
  · simp [vsrc_length]
  · intro i h1 h2; simp [vreg_getElem, vsrc_getElem]
theorem zip3_range (f : Lane → Lane → Lane → Lane × Rz) (a b x : Nat → Lane) (l : List Nat) :
    zip3 f (l.map a) (l.map b) (l.map x) = l.map fun k => f (a k) (b k) (x k) := by
  induction l with
  | nil => rfl
  | cons k l ih => simp [zip3, ih]
theorem vreg_range (c : Cask) (a : VReg) : c.vreg a = (List.range 128).map fun k => c.lane a k := by
  apply List.ext_getElem
  · simp
  · intro i h1 h2; simp [vreg_getElem]
theorem vsrc_range (c : Cask) (b : VSrc) : c.vsrc b = (List.range 128).map fun k => c.srcLane b k := by
  apply List.ext_getElem
  · simp [vsrc_length]
  · intro i h1 h2; simp [vsrc_getElem]

theorem word1 {t : Tk} {mk : Option MReg} {d a : VReg} {n : Bool} {pre : Act Unit} {s : State} (f : Lane → Lane × Rz)
    (hf : s.cask.fresh .m t 1) (hp : pre s = .ok () s) :
    ∃ u, mRun t pre (modify (lane1 mk d a n f)) s = .next u ∧ s.wroteLanes u t mk d n fun k => f (s.cask.lane a k) :=
  vector_word _ hf hp (by rw [act_modify, lane1, lanes1]; simp only [issue_lane])
theorem word2 {t : Tk} {mk : Option MReg} {d a : VReg} {b : VSrc} {n : Bool} {pre : Act Unit} {s : State}
    (f : Lane → Lane → Lane × Rz) (hf : s.cask.fresh .m t 1) (hp : pre s = .ok () s) :
    ∃ u, mRun t pre (modify (lane2 mk d a b n f)) s = .next u ∧
      s.wroteLanes u t mk d n fun k => f (s.cask.lane a k) (s.cask.srcLane b k) :=
  vector_word _ hf hp (by rw [act_modify, lane2, lanes2]; simp only [issue_lane, issue_srcLane])

theorem wroteLanes_congr {s u : State} {t : Tk} {mk : Option MReg} {d : VReg} {n n' : Bool} {f g : Nat → Lane × Rz}
    (h : s.wroteLanes u t mk d n f) (hn : n = n') (hg : ∀ k, k < 128 → f k = g k) : s.wroteLanes u t mk d n' g := by
  subst hn
  obtain ⟨h1, h2, h3, h4, h5, h6, h7⟩ := h
  refine ⟨h1, h2, h3, h4, h5, ?_, ?_⟩
  · intro r i hi; rw [h6 r i hi, hg i hi]
  · cases n
    · exact h7
    · simp only [if_true] at h7 ⊢
      obtain ⟨k1, k2, k3, k4, k5⟩ := h7
      have hc : ∀ p : Lane × Rz → Bool, ((List.range 128).filter fun k => (s.cask.active mk).getLsbD k && p (f k)) =
          (List.range 128).filter fun k => (s.cask.active mk).getLsbD k && p (g k) := fun p =>
        List.filter_congr fun k hk => by rw [hg k (by simpa using hk)]
      refine ⟨?_, ?_, ?_, ?_, ?_⟩
      · intro b
        rw [k1 b]
        constructor
        · rintro (h | ⟨k, a, b, c⟩)
          · exact .inl h
          · exact .inr ⟨k, a, b, by dsimp only at c ⊢; rw [← hg k a]; exact c⟩
        · rintro (h | ⟨k, a, b, c⟩)
          · exact .inl h
          · exact .inr ⟨k, a, b, by dsimp only at c ⊢; rw [hg k a]; exact c⟩
      · have := hc fun x => isNanCode .fp32 x.1.toNat
        unfold Cask.counted at k2 ⊢; rw [k2, this]
      · have := hc fun x => isInfCode .fp32 x.1.toNat && x.2.ovf
        unfold Cask.counted at k3 ⊢; rw [k3, this]
      · have := hc fun x => x.2.sat
        unfold Cask.counted at k4 ⊢; rw [k4, this]
      · have := hc fun x => x.2.wrap
        unfold Cask.counted at k5 ⊢; rw [k5, this]

/-- A whole vector written is lanes written under a full mask. -/
theorem setV_full (c : Cask) (d : VReg) (f : Nat → Lane) :
    c.setV d ((List.range 128).map f) =
      c.putLanes (c.active none) d ((List.range 128).map fun k => (f k, ({} : Rz))) false := by
  have h : mergeLanes (c.active none) 0 (c.vreg d) (((List.range 128).map fun k => (f k, ({} : Rz))).map (·.1)) =
      (List.range 128).map f := by
    apply List.ext_getElem
    · rw [mergeLanes_length _ _ _ _ (by simp)]; simp
    · intro i h1 h2
      have hi : i < 128 := by simpa using h2
      rw [mergeLanes_getElem _ _ _ _ (by simp), if_pos (by rw [Nat.zero_add]; simp only [Cask.active, BitVec.getLsbD_allOnes]; simpa using hi)]
      simp
  show _ = c.setV d (mergeLanes _ 0 _ _)
  rw [h]
/-- Lanes moved are lanes written that count in nothing. -/
theorem moveLanes_put (c : Cask) (mk : Option MReg) (d : VReg) (f : Nat → Lane) :
    c.moveLanes mk d ((List.range 128).map f) =
      c.putLanes (c.active mk) d ((List.range 128).map fun k => (f k, ({} : Rz))) false := by
  show c.setV d (mergeLanes _ 0 _ _) = c.setV d (mergeLanes _ 0 _ _)
  rw [List.map_map]
  rfl

/-- A word that writes a whole vector, and one that moves lanes under a mask. -/
theorem set_word {t : Tk} {d : VReg} {s : State} (f : Nat → Lane) (g : Cask → List Lane) (hf : s.cask.fresh .m t 1)
    (hg : g (s.cask.issue .m t 1) = (List.range 128).map f) :
    ∃ u, vRun t (fun c => c.setV d (g c)) s = .next u ∧ s.wroteLanes u t none d false fun k => (f k, {}) :=
  vector_word _ hf rfl (by rw [act_modify, hg, setV_full])
theorem move_word {t : Tk} {mk : Option MReg} {d : VReg} {s : State} (f : Nat → Lane) (g : Cask → List Lane)
    (hf : s.cask.fresh .m t 1) (hg : g (s.cask.issue .m t 1) = (List.range 128).map f) :
    ∃ u, vRun t (fun c => c.moveLanes mk d (g c)) s = .next u ∧ s.wroteLanes u t mk d false fun k => (f k, {}) :=
  vector_word _ hf rfl (by rw [act_modify, hg, moveLanes_put])

/-- The items of active lanes, and lanes spread over the set bits of a mask, in closed form. -/
theorem activeOf_eq {α : Type} (m : BitVec 128) (d : α) (i : Nat) (xs : List α) :
    activeOf m i xs = ((List.range xs.length).filter fun k => m.getLsbD (i + k)).map fun k => xs.getD k d := by
  induction xs generalizing i with
  | nil => rfl
  | cons x xs ih =>
    rw [activeOf_cons, List.length_cons, List.range_succ_eq_map, List.filter_cons, List.filter_map, ih]
    have hr : (List.range xs.length).filter ((fun k => m.getLsbD (i + k)) ∘ Nat.succ) =
        (List.range xs.length).filter fun k => m.getLsbD (i + 1 + k) := by
      congr 1; funext k; simp only [Function.comp, Nat.succ_eq_add_one]; congr 1; omega
    rw [hr]
    cases hm : m.getLsbD i <;> simp
theorem expandLanes_length (m : BitVec 128) (i n : Nat) (ls : List Lane) : (expandLanes m i n ls).length = n := by
  induction n generalizing i ls with
  | zero => rfl
  | succ n ih => unfold expandLanes; split <;> simp [ih]
theorem expandLanes_getElem (m : BitVec 128) (i n : Nat) (ls : List Lane) (k : Nat) (h : k < (expandLanes m i n ls).length) :
    (expandLanes m i n ls)[k] =
      if m.getLsbD (i + k) then ls.getD ((List.range k).filter fun j => m.getLsbD (i + j)).length 0 else 0 := by
  induction n generalizing i ls k with
  | zero => simp [expandLanes] at h
  | succ n ih =>
    have hsplit : ∀ k, ((List.range (k + 1)).filter fun j => m.getLsbD (i + j)).length =
        bit (m.getLsbD i) + ((List.range k).filter fun j => m.getLsbD (i + 1 + j)).length := by
      intro k
      rw [List.range_succ_eq_map, filter_length_cons, List.filter_map, List.length_map]
      congr 3
      funext j; simp only [Function.comp, Nat.succ_eq_add_one]; congr 1; omega
    have hadd : ∀ k, i + 1 + k = i + (k + 1) := by intro k; omega
    by_cases hm : m.getLsbD i = true
    · have he : expandLanes m i (n + 1) ls = ls.headD 0 :: expandLanes m (i + 1) n (ls.drop 1) := by
        rw [expandLanes, if_pos hm]
      simp only [he]
      cases k with
      | zero => simp [hm]; cases ls <;> rfl
      | succ k =>
        rw [List.getElem_cons_succ, ih, hsplit, hadd, hm]
        congr 1
        cases ls with
        | nil => simp
        | cons x xs => rw [show bit true = 1 from rfl, Nat.add_comm 1]; simp
    · have he : expandLanes m i (n + 1) ls = 0 :: expandLanes m (i + 1) n ls := by
        rw [expandLanes, if_neg hm]
      simp only [he]
      cases k with
      | zero => simp [hm]
      | succ k =>
        rw [List.getElem_cons_succ, ih, hsplit, hadd]
        simp [hm, bit]

end Sys2Proof.Machine
end

