-- ==== Sys2Proof/Laws/Memory.lean ====
section
/-! SUPPORT. The other writers of the memories behind the homes keep their canonical form: a page moved, the scan chain's
double word, the multicast at a peer. -/

namespace Sys2Proof.Machine

open Sys2Proof

theorem smWf_moveCells (m : List Host.Cell) (f g n : Nat) (h : Memory.wf m = true) :
    Memory.wf (moveCells m f g n) = true := by
  unfold Memory.wf at h ⊢
  rw [smWf_iff] at h ⊢
  obtain ⟨hp, hd⟩ := h
  have hm : ∀ p ∈ moveCells m f g n, p.2 ≠ Memory.unlisted := by
    intro p hp
    unfold moveCells at hp
    rw [List.mem_append, List.mem_append, List.mem_map] at hp
    rcases hp with (hp | ⟨q, hq, rfl⟩) | hp
    · exact hd p (List.mem_filter.1 hp).1
    · exact hd q (List.mem_filter.1 hq).1
    · exact hd p (List.mem_filter.1 hp).1
  refine ⟨?_, hm⟩
  unfold moveCells
  rw [List.pairwise_append, List.pairwise_append, List.pairwise_map]
  refine ⟨⟨hp.sublist List.filter_sublist, ?_, ?_⟩, hp.sublist List.filter_sublist, ?_⟩
  · refine (List.Pairwise.sublist List.filter_sublist hp).imp_of_mem ?_
    intro a b ha hb hab
    have ha := (List.mem_filter.1 ha).2
    simp only [Bool.and_eq_true, decide_eq_true_eq] at ha
    show g + (a.1 - f) < g + (b.1 - f)
    have : a.1 < b.1 := hab
    omega
  · intro a ha b hb
    rw [List.mem_map] at hb
    obtain ⟨c, hc, rfl⟩ := hb
    have ha := of_decide_eq_true (List.mem_filter.1 ha).2
    show a.1 < g + (c.1 - f)
    omega
  · intro a ha b hb
    have hb := of_decide_eq_true (List.mem_filter.1 hb).2
    rw [List.mem_append, List.mem_map] at ha
    show a.1 < b.1
    rcases ha with ha | ⟨c, hc, rfl⟩
    · have ha := of_decide_eq_true (List.mem_filter.1 ha).2
      omega
    · have hc := (List.mem_filter.1 hc).2
      simp only [Bool.and_eq_true, decide_eq_true_eq] at hc
      show g + (c.1 - f) < b.1
      omega

/-- A page moved keeps device memory's canonical form, and touches no other memory (R362). -/
theorem migrate_wf (d : Dev) (a : BitVec 10) (va pa lg e g : Nat) (h : Memory.wf d.dmem = true) :
    Memory.wf (d.migrate a va pa lg e g).dmem = true ∧ (d.migrate a va pa lg e g).hmem = d.hmem ∧
    (d.migrate a va pa lg e g).pmem = d.pmem :=
  ⟨memory_wf_set _ _ _ (smWf_moveCells _ _ _ _ h), rfl, rfl⟩

/-- A multicast element written at a peer keeps the memories' canonical form (R283). -/
theorem mcastTo_wf {c : Cmd} {da u v rank : Nat} {s t : State} (w : s.memoriesWf = true)
    (h : mcastTo c da u v rank s = .ok () t) : t.memoriesWf = true := by
  unfold mcastTo at h
  simp only [get_bind] at h
  rw [memoriesWf_iff] at w ⊢
  split at h
  · cases h
  · cases h
    exact ⟨w.1, w.2.1, memory_wf_set _ _ _ w.2.2⟩

/-- A double word written over the scan chain keeps them too (R344). -/
theorem physDword_wf (s : State) (pa : BitVec 40) (v : Word) (w : s.memoriesWf = true) :
    (s.writeReg (.physDword pa) v).memoriesWf = true := by
  rw [memoriesWf_iff] at w ⊢
  show Memory.wf (if memSize ≤ pa.toNat / 8 * 8 then s.dev else _ : Dev).dmem = true ∧
    Memory.wf (if memSize ≤ pa.toNat / 8 * 8 then s.dev else _ : Dev).hmem = true ∧
    Memory.wf (if memSize ≤ pa.toNat / 8 * 8 then s.dev else _ : Dev).pmem = true
  split
  · exact w
  · exact ⟨memory_wf_set _ _ _ w.1, w.2⟩

end Sys2Proof.Machine
end

