-- ==== Sys2Proof/Laws/Overlap.lean ====
section
/-! SUPPORT. What the overlap of words of M does to a step in which no word of M overlaps: nothing. -/

namespace Sys2Proof.Machine

open Sys2Proof

/-- With no late word anywhere, a step that stops a cask is that stop. -/
theorem State.lettingFinish_eq {s : State} (t : State) (h : s.lateCasks = []) : s.lettingFinish t = t := by
  simp [State.lettingFinish, h]

/-- A step that stops no cask holding late words is as it is. -/
theorem State.lettingFinish_of_goes {s t : State} (h : ∀ p ∈ s.lateCasks, s.stopsIn t p = false) :
    s.lettingFinish t = t := by
  have : s.lateCasks.filter (fun p => s.stopsIn t p) = [] := List.filter_eq_nil_iff.2 fun p hp => by simp [h p hp]
  simp [State.lettingFinish, this]

/-- Only the turns of issue and of finish run a word otherwise than by its meaning. -/
theorem State.run_eq_exec {s : State} (i : Instr) (h1 : s.turn.agent ≠ .issue) (h2 : ∀ k, s.turn.agent ≠ .finish k) :
    s.run i = exec i s := by
  unfold State.run
  split
  · exact absurd ‹_› h1
  · exact absurd ‹_› (h2 _)
  · rfl

end Sys2Proof.Machine
end

