-- ==== Sys2Proof/Laws/Tile.lean ====
section
/-! SUPPORT. Tiles in closed form: rows, columns and their flattening over index ranges, words written, and how a word
that writes a tile runs. -/

namespace Sys2Proof.Machine

open Sys2Proof

variable {α β γ : Type}

theorem range_add_map (n k : Nat) (f : Nat → α) :
    (List.range (n + k)).map f = (List.range n).map f ++ (List.range k).map fun i => f (n + i) := by
  apply List.ext_getElem
  · simp
  · intro i h1 h2
    rw [List.getElem_append]
    split
    · simp
    · next h => simp at h ⊢; congr 1; omega

/-- The rows of a list of `n * k` items. -/
theorem rowsOf_range (n k : Nat) (f : Nat → α) : rowsOf n k ((List.range (n * k)).map f) =
    (List.range k).map fun r => (List.range n).map fun j => f (n * r + j) := by
  induction k generalizing f with
  | zero => rfl
  | succ k ih =>
    rw [show n * (k + 1) = n + n * k by rw [Nat.mul_succ, Nat.add_comm], range_add_map]
    unfold rowsOf
    rw [List.take_left' (by simp), List.drop_left' (by simp), ih, List.range_succ_eq_map, List.map_cons, List.map_map]
    congr 1
    · simp
    · refine List.map_congr_left fun r _ => List.map_congr_left fun j _ => ?_
      simp only [Nat.succ_eq_add_one, Nat.mul_add, Nat.mul_one]
      congr 1
      omega

/-- Rows joined again. -/
theorem flatten_range (n k : Nat) (hn : 0 < n) (g : Nat → Nat → α) :
    ((List.range k).map fun r => (List.range n).map (g r)).flatten =
      (List.range (n * k)).map fun w => g (w / n) (w % n) := by
  induction k with
  | zero => simp
  | succ k ih =>
    rw [List.range_succ, List.map_append, List.flatten_append, ih, Nat.mul_succ, range_add_map]
    congr 1
    simp only [List.map_cons, List.map_nil, List.flatten_cons, List.flatten_nil, List.append_nil]
    refine List.map_congr_left fun j hj => ?_
    have hj' : j < n := by simpa using hj
    rw [Nat.mul_add_div hn, Nat.mul_add_mod, Nat.div_eq_of_lt hj', Nat.mod_eq_of_lt hj', Nat.add_zero]

/-- The columns of rows. -/
theorem columns_map (n : Nat) (l : List β) (g : β → Nat → α) :
    columns n (l.map fun r => (List.range n).map (g r)) = (List.range n).map fun j => l.map fun r => g r j := by
  induction l with
  | nil =>
    simp only [List.map_nil, columns]
    rw [List.map_const', List.length_range]
  | cons r l ih =>
    simp only [List.map_cons, columns, ih]
    apply List.ext_getElem
    · simp
    · intro i h1 h2; simp

theorem zipWith_range (n : Nat) (f : α → β → γ) (a : Nat → α) (b : Nat → β) :
    List.zipWith f ((List.range n).map a) ((List.range n).map b) = (List.range n).map fun i => f (a i) (b i) := by
  apply List.ext_getElem
  · simp
  · intro i h1 h2; simp

/-! ### Words -/

theorem tile_range (c : Cask) (n : CTile) : c.tile n = (List.range 16384).map fun w => c.word n w := smGetRange_eq _ _ _ _
theorem tileRows_range (c : Cask) (n : CTile) :
    tileRows (c.tile n) = (List.range 128).map fun r => (List.range 128).map fun j => c.word n (128 * r + j) := by
  rw [tile_range]; exact rowsOf_range 128 128 _
theorem issue_word (c : Cask) (e : Eng) (t : Tk) (k : Nat) (n : CTile) (w : Nat) : (c.issue e t k).word n w = c.word n w := by
  unfold Cask.word; rw [issue_mx]

/-- A word after a tile is written. -/
theorem word_setTile (c : Cask) (n m : CTile) (f : Nat → Lane) (w : Nat) (hw : w < 16384) :
    (c.setTile n ((List.range 16384).map f)).word m w = if m = n then f w else c.word m w := by
  unfold Cask.word Cask.setTile
  by_cases h : m = n
  · subst h
    rw [if_pos rfl]
    have := smGet_smSetRange_in 0 c.mx.c (16384 * m.toNat) w ((List.range 16384).map f) (by simpa using hw)
    rw [this]; simp
  · rw [if_neg h]
    have : m.toNat ≠ n.toNat := fun e => h (BitVec.eq_of_toNat_eq e)
    refine smGet_smSetRange_other _ _ _ _ _ ?_
    rw [List.length_map, List.length_range]
    omega

/-- Without poison in a tile, reading it gives its words. -/
theorem readTile_ok (c : Cask) (n : CTile) (h : ∀ p, p ∈ c.mem.acmP → p / 0x10000 ≠ n.toNat) :
    readTile n c = .ok (c.tile n) c := by
  have hh : (!nsHits c.mem.acmP (0x10000 * n.toNat) 0x10000) = true := by
    unfold nsHits
    rw [Bool.not_eq_true', List.any_eq_false]
    intro p hp
    have := h p hp
    simp only [Bool.and_eq_true, decide_eq_true_eq]
    omega
  unfold readTile
  rw [get_bind, check_bind hh]
  rfl

theorem ownTile_ok {s : State} {n : CTile} (h : tileOwned s.dual s.turn.cask n = true) : ownTile n s = .ok () s := by
  unfold ownTile
  rw [get_bind, h]
  rfl

/-- What a tally of `n` elements leaves (R92). -/
theorem tally_spec (c : Cask) (n : Nat) (f : Nat → Lane × Rz) :
    c.raised (c.tally (tally32 ((List.range n).map f))) n (fun _ => true) (fun k => (f k).2) ∧
    c.counted32 (c.tally (tally32 ((List.range n).map f))) n (fun _ => true) f := by
  obtain ⟨h1, h2, h3, h4⟩ := tally32_counts ((List.range n).map f)
  have key : ∀ p : Lane × Rz → Bool, (((List.range n).map f).filter p).length =
      ((List.range n).filter fun k => true && p (f k)).length := by
    intro p; rw [List.filter_map, List.length_map]; rfl
  refine ⟨?_, ?_, ?_, ?_, ?_⟩
  · intro b
    show (c.mx.flags ||| _).getLsbD b = true ↔ _
    rw [BitVec.getLsbD_or, Bool.or_eq_true, tally32_fl, List.any_map]
    simp only [List.any_eq_true, List.mem_range, Function.comp]
    constructor
    · rintro (h | ⟨k, hk, hb⟩)
      · exact .inl h
      · exact .inr ⟨k, hk, trivial, hb⟩
    · rintro (h | ⟨k, hk, -, hb⟩)
      · exact .inl h
      · exact .inr ⟨k, hk, hb⟩
  · unfold Cask.counted Cask.tally; rw [record_mxc, if_pos rfl, h1, key]
  · unfold Cask.counted Cask.tally; rw [record_mxc, if_neg (by decide), if_pos rfl, h2, key]
  · unfold Cask.counted Cask.tally
    rw [record_mxc, if_neg (by decide), if_neg (by decide), if_pos rfl, h3, key]
  · unfold Cask.counted Cask.tally
    rw [record_mxc, if_neg (by decide), if_neg (by decide), if_neg (by decide), if_pos rfl, h4, key]

theorem nsDelRange_mem (l : List Nat) (a n p : Nat) : p ∈ nsDelRange l a n ↔ p ∈ l ∧ ¬ (a ≤ p ∧ p < a + n) := by
  unfold nsDelRange
  rw [List.mem_filter]
  simp only [Bool.or_eq_true, decide_eq_true_eq]
  constructor
  · rintro ⟨h, k⟩; exact ⟨h, by omega⟩
  · rintro ⟨h, k⟩; exact ⟨h, by omega⟩

/-- A word that writes a whole tile, whose elements may count, runs to its end. -/
theorem tile_word {t : Tk} {n : CTile} {pre : Act Unit} {body : CAct Unit} {s : State} (counts : Bool) (f : Nat → Lane × Rz)
    (hf : s.cask.fresh .m t 1) (hpre : pre s = .ok () s)
    (hb : body (s.cask.issue .m t 1) = .ok () (
      let c1 := (s.cask.issue .m t 1).putTile n ((List.range 16384).map fun w => (f w).1)
      if counts then c1.tally (tally32 ((List.range 16384).map f)) else c1)) :
    ∃ u, mRun t pre body s = .next u ∧ s.ranAlone u .m t ∧ s.cask.sameX u.cask .m ∧
      u.cask.mx = { s.cask.mx with c := u.cask.mx.c, flags := u.cask.mx.flags, mxc := u.cask.mx.mxc } ∧
      u.cask.mem = { s.cask.mem with acmP := u.cask.mem.acmP } ∧
      (∀ m w, w < 16384 → u.cask.word m w = if m = n then (f w).1 else s.cask.word m w) ∧
      (∀ p, p ∈ u.cask.mem.acmP ↔ p ∈ s.cask.mem.acmP ∧ ¬ (p / 0x10000 = n.toNat)) ∧
      (if counts then s.cask.raised u.cask 16384 (fun _ => true) (fun w => (f w).2) ∧
          s.cask.counted32 u.cask 16384 (fun _ => true) f
        else s.cask.sameCounts u.cask) := by
  dsimp only at hb
  generalize hc : s.cask.issue .m t 1 = c at hb
  have hmx : c.mx = s.cask.mx := by rw [← hc, issue_mx]
  have hmem : c.mem = s.cask.mem := by rw [← hc, issue_mem]
  have hx : ∀ e, (c.eng e).x = (s.cask.eng e).x := fun e => by rw [← hc, issue_x]
  generalize hc1 : c.putTile n ((List.range 16384).map fun w => (f w).1) = c1 at hb
  have e1 : c1.mx = { c.mx with c := c1.mx.c } := by rw [← hc1]; rfl
  have e2 : c1.mem = { c.mem with acmP := nsDelRange c.mem.acmP (0x10000 * n.toNat) 0x10000 } := by rw [← hc1]; rfl
  have e3 : Mild c c1 .m := by
    rw [← hc1]; exact ⟨rfl, rfl, rfl, rfl, fun d _ => by cases d <;> rfl, rfl⟩
  have e4 : ∀ e, (c1.eng e).x = (c.eng e).x := fun e => by rw [← hc1]; cases e <;> rfl
  have e5 : ∀ m w, w < 16384 → c1.word m w = if m = n then (f w).1 else c.word m w := by
    intro m w hw
    have := word_setTile c n m (fun w => (f w).1) w hw
    rw [← hc1]; exact this
  obtain ⟨d, hd, k1, k2, k3, k4, k5⟩ : ∃ d, body c = .ok () d ∧ Mild c d .m ∧ d.mem = c1.mem ∧
      (∀ e, (d.eng e).x = (c.eng e).x) ∧ d.mx = { c1.mx with flags := d.mx.flags, mxc := d.mx.mxc } ∧
      (if counts then c.raised d 16384 (fun _ => true) (fun w => (f w).2) ∧ c.counted32 d 16384 (fun _ => true) f
        else c.sameCounts d) := by
    cases counts
    · exact ⟨c1, hb, e3, rfl, e4, rfl, by simp only [Bool.false_eq_true, if_false]; exact ⟨by rw [e1], by rw [e1]⟩⟩
    · refine ⟨_, hb, mild_record e3 _ _ _ _ _, rfl, fun e => ?_, rfl, ?_⟩
      · rw [← e4 e]; cases e <;> rfl
      · simp only [if_true]
        obtain ⟨a, b⟩ := tally_spec c1 16384 f
        unfold Cask.raised at a ⊢
        unfold Cask.counted32 Cask.counted at b ⊢
        rw [e1] at a b
        exact ⟨a, b⟩
  subst hc
  obtain ⟨u, u1, u2, u3, u4, u5, u6⟩ := mRun_mild hf hpre hd k1
  refine ⟨u, u1, ⟨u2, u3⟩, ?_, ?_, ?_, ?_, ?_, ?_⟩
  · intro r; unfold Cask.xreg; rw [u6, k3, hx]
  · rw [u5, k4, e1, hmx]
  · rw [u4, k2, e2, hmem]
  · intro m w hw
    have : u.cask.word m w = d.word m w := by unfold Cask.word; rw [u5]
    rw [this]
    have : d.word m w = c1.word m w := by unfold Cask.word; rw [k4]
    rw [this, e5 m w hw, issue_word]
  · intro p
    rw [u4, k2, e2, hmem]
    rw [nsDelRange_mem]
    constructor
    · rintro ⟨a, b⟩; exact ⟨a, by omega⟩
    · rintro ⟨a, b⟩; exact ⟨a, by omega⟩
  · cases counts
    · simp only [Bool.false_eq_true, if_false] at k5 ⊢
      unfold Cask.sameCounts at k5 ⊢
      rw [u5, k5.1, k5.2, hmx]
      exact ⟨rfl, rfl⟩
    · simp only [if_true] at k5 ⊢
      unfold Cask.raised Cask.counted32 Cask.counted at k5 ⊢
      rw [u5]
      rw [hmx] at k5
      exact k5

end Sys2Proof.Machine
end

