-- ==== Sys2Proof/Tests/Slice0.lean ====
section
/-! SUPPORT. The model's own tests: ill-formed instructions refused, words of the spec decoded, the worked examples of the spec
and hand calculations on one step each, and for every statement of Certificates/Slice0/Obligations.lean a state and operands
that meet its hypotheses. Expected values come from the spec; each test names its rule. -/

namespace Sys2Proof.Tests

open Sys2Proof Sys2Proof.Machine

set_option Elab.async false

/-! ### Well-formed and ill-formed instructions -/

/-- No token. -/
def t0 : Tk := { pp := false, pn := false, hp := false, hn := false }
/-- The engines of a K mask. -/
def km (l m s y : Bool) : KMask := { l := l, m := m, s := s, y := y }
/-- A clause that is not enabled. -/
def noClause : Clause := { en := false, ev := 0, thr := 0 }
/-- A copy command with one i32 element and no option. -/
def cmd : Cmd :=
  { queue := 0, crec := false, rsig := false, rtn := false, link := false, w0 := noClause, w1 := noClause, rdev := 0,
    rloc := false, rev := 0, rcore := 0, sigm := 0, src := 0x10000, dst := 0x20000, x0 := 1, x1 := 1, x2 := 1, ss1 := 0,
    ss2 := 0, ds1 := 0, ds2 := 0, sfmt := .i32, dfmt := .i32, opr := .move, rm := .rne, arg := 0, ret := 0, next := 0,
    bind := 0, crecAt := 0 }
def cmdFill : Cmd := { cmd with src := 5 }
def cmdAccw : Cmd := { cmd with opr := .add }
def cmdRatom : Cmd := { cmd with opr := .add, src := 0xFE00000000000100, rtn := true, crec := true, ret := 0x30000, crecAt := 0x40000 }
def cmdTnode : Cmd := { cmd with x0 := 0, x1 := 0, x2 := 0, src := 7, arg := 0x22 }
def cmdKvcmt : Cmd := { cmd with x0 := 32, bind := 0x50000, arg := 0x0100000000 }
def cmdFmcast : Cmd := { cmd with bind := 2 }
def cmdFred : Cmd := { cmd with opr := .add, bind := 3 }
def cmdSigr : Cmd :=
  { cmd with src := 0, dst := 0, x0 := 0, x1 := 0, x2 := 0, sfmt := .fp32, dfmt := .fp32, rsig := true, arg := 1 }
def cmdPipe : Cmd := { cmd with src := 0, dst := 0, x0 := 0, x1 := 0, x2 := 0, sfmt := .fp32, dfmt := .fp32, bind := 0x51 }

theorem test_wf_words : ([.ldk 3 false none 1 2 0, .nestl (km true false true false) 0 5 1, .nestb (km true false false false) 0 1 2,
    .loopb (km true true true false) 1 0 0, .jctlReissue (km true false true true) 1, .drn t0 false true 1 2 3 4,
    .drn t0 false false 1 2 0 4, .crowv t0 .sum 1 2 0, .crowv t0 .row 1 2 3, .vcmp t0 .un .fp32 none 1 2 (.v 3),
    .vshl t0 .i32 none 1 2 (.v 3), .vshr t0 .n32 none 1 2 (.v 3), .cqapp t0 true 1 2 3 4 5, .cqapp t0 false 1 2 3 0 5,
    .vsband t0 .mask 7, .vsband t0 .ver 8, .remoteIncrement (.launch 0) 383 0 1, .vintageEnWrite 383 true false]
    : List Instr).all Instr.wf = true := by decide

/-- One ill-formed word for each check of WellFormed. -/
theorem test_ill_formed_words : ([.ldk 3 true none 1 2 0, .nestl (km false false false false) 0 0 1,
    .nestl (km true true false false) 0 0 1, .nestl (km true false false true) 0 0 1, .nestl (km true false false false) 0 6 1,
    .nestb (km false false false false) 0 1 2, .nestb (km true true false false) 0 1 2, .loopb (km true false false true) 1 0 0,
    .jctlReissue (km false true false false) 1, .drn t0 false false 1 2 3 4, .crowv t0 .sum 1 2 3,
    .vcmp t0 .un .i32 none 1 2 (.v 3), .vshl t0 .fp32 none 1 2 (.v 3), .vshr t0 .fp32 none 1 2 (.v 3),
    .cqapp t0 false 1 2 3 4 5, .vsband t0 .mask 8, .remoteIncrement (.launch 0) 384 0 1, .vintageEnWrite 384 true false]
    : List Instr).all (fun i => !i.wf) = true := by decide

theorem test_wf_commands : ([.copy cmd, .fill cmdFill, .accw cmdAccw, .ratom cmdRatom, .tnode cmdTnode, .kvcmt cmdKvcmt,
    .fmcast cmdFmcast, .fred cmdFred, .sigr cmdSigr, .pipeBind cmdPipe, .pipeUnbind { cmdPipe with bind := 0x20051 }]
    : List Instr).all Instr.wf = true := by decide

/-- What R158–R162 ask of every command: inactive fields zero, governed dwords aligned, RCORE a core, no extent zero. -/
theorem test_ill_formed_common : ([{ cmd with w0 := { en := false, ev := 1, thr := 0 } },
    { cmd with w1 := { en := false, ev := 0, thr := 1 } }, { cmd with rdev := 1 }, { cmd with rloc := true },
    { cmd with rev := 1 }, { cmd with rcore := 1 }, { cmd with rsig := true, rcore := 384 }, { cmd with ret := 8 },
    { cmd with next := 128 }, { cmd with link := true, next := 64 }, { cmd with link := true, next := 0x8000000000000 },
    { cmd with crecAt := 64 }, { cmd with crec := true, crecAt := 32 }, { cmd with crec := true, crecAt := 0x8000000000000 },
    { cmd with x0 := 0 }, { cmd with x1 := 0 }, { cmd with x2 := 0 }] : List Cmd).all (fun c => !c.okCopy) = true := by decide

theorem test_ill_formed_copy : ([{ cmd with src := 0x8000000000000 }, { cmd with dst := 0x8000000000000 },
    { cmd with opr := .add }, { cmd with arg := 1 }, { cmd with rtn := true, ret := 8 }, { cmd with bind := 1 },
    { cmd with src := 0x10002 }, { cmd with ds1 := 2 }, { cmd with ss2 := 2 }, { cmd with sfmt := .i4, dfmt := .i4 },
    { cmd with dst := 0x10000 }] : List Cmd).all (fun c => !c.okCopy) = true := by decide

theorem test_ill_formed_fill : ([{ cmdFill with dst := 0x8000000000000 }, { cmdFill with sfmt := .i8 },
    { cmdFill with opr := .add }, { cmdFill with rm := .rtz }, { cmdFill with arg := 1 }, { cmdFill with rtn := true, ret := 8 },
    { cmdFill with bind := 1 }, { cmdFill with ss1 := 4 }, { cmdFill with ss2 := 4 }, { cmdFill with src := 0x100000000 },
    { cmdFill with dst := 0x20002 }, { cmdFill with sfmt := .n4, dfmt := .n4 }, { cmdFill with x0 := 0 }]
    : List Cmd).all (fun c => !c.okFill) = true := by decide

theorem test_ill_formed_accw : ([{ cmdAccw with src := 0x8000000000000 }, { cmdAccw with dst := 0xFE00000000000000 },
    { cmdAccw with sfmt := .n32 }, { cmdAccw with opr := .move }, { cmdAccw with sfmt := .fp32, dfmt := .fp32, opr := .and },
    { cmdAccw with sfmt := .i4, dfmt := .i4 }, { cmdAccw with arg := 1 }, { cmdAccw with bind := 1 },
    { cmdAccw with sfmt := .fp32, dfmt := .fp32, opr := .blend, rm := .rtz }, { cmdAccw with src := 0x10002 },
    { cmdAccw with ds2 := 2 }, { cmdAccw with x2 := 0 }] : List Cmd).all (fun c => !c.okAccw) = true := by decide

theorem test_ill_formed_ratom : ([{ cmdRatom with src := 0x10000 }, { cmdRatom with dst := 0xFE00000000000000 },
    { cmdRatom with dfmt := .n32 }, { cmdRatom with sfmt := .fp32, dfmt := .fp32 }, { cmdRatom with opr := .move },
    { cmdRatom with opr := .blend }, { cmdRatom with rm := .rup }, { cmdRatom with arg := 1 },
    { cmdRatom with rtn := false, ret := 0 }, { cmdRatom with crec := false, crecAt := 0 }, { cmdRatom with bind := 1 },
    { cmdRatom with ss1 := 4 }, { cmdRatom with src := 0xFE00000000000102 }, { cmdRatom with ds1 := 2 },
    { cmdRatom with x0 := 0 }] : List Cmd).all (fun c => !c.okRatom) = true := by decide

theorem test_ill_formed_tnode : ([{ cmdTnode with x0 := 1 }, { cmdTnode with ds1 := 4 }, { cmdTnode with dst := 0xFE00000000000000 },
    { cmdTnode with sfmt := .i16 }, { cmdTnode with sfmt := .n32, dfmt := .n32 }, { cmdTnode with opr := .max },
    { cmdTnode with rm := .rdn }, { cmdTnode with arg := 0x00 }, { cmdTnode with arg := 0x09 }, { cmdTnode with arg := 0x32 },
    { cmdTnode with arg := 0x422 }, { cmdTnode with arg := 0x10022 }, { cmdTnode with src := 0x100000000 },
    { cmdTnode with rtn := true, ret := 8 }, { cmdTnode with bind := 1 }] : List Cmd).all (fun c => !c.okTnode) = true := by
  decide

theorem test_ill_formed_kvcmt : ([{ cmdKvcmt with src := 0x8000000000000 }, { cmdKvcmt with dst := 0x8000000000000 },
    { cmdKvcmt with bind := 0x8000000000000 }, { cmdKvcmt with sfmt := .n32 }, { cmdKvcmt with opr := .add },
    { cmdKvcmt with rm := .rtz }, { cmdKvcmt with rtn := true, ret := 8 }, { cmdKvcmt with x2 := 2 }, { cmdKvcmt with ss1 := 4 },
    { cmdKvcmt with ss2 := 4 }, { cmdKvcmt with ds2 := 4 }, { cmdKvcmt with arg := 0 }, { cmdKvcmt with arg := 0x8100000000 },
    { cmdKvcmt with arg := 0x020100000000 }, { cmdKvcmt with src := 0x10002 }, { cmdKvcmt with x0 := 31 },
    { cmdKvcmt with x0 := 0x40020 }, { cmdKvcmt with x1 := 0 }, { cmdKvcmt with x1 := 4097 }, { cmdKvcmt with bind := 0x50004 },
    { cmdKvcmt with ds1 := 2 }] : List Cmd).all (fun c => !c.okKvcmt) = true := by decide

theorem test_ill_formed_fmcast : ([{ cmdFmcast with src := 0x8000000000000 }, { cmdFmcast with dst := 0xFE00000000000000 },
    { cmdFmcast with sfmt := .n32 }, { cmdFmcast with opr := .add }, { cmdFmcast with rm := .rtz }, { cmdFmcast with arg := 1 },
    { cmdFmcast with rtn := true, ret := 8 }, { cmdFmcast with bind := 0 }, { cmdFmcast with rsig := true, rloc := true },
    { cmdFmcast with rsig := true, rdev := 1 }, { cmdFmcast with ss1 := 2 }, { cmdFmcast with dst := 0x20002 },
    { cmdFmcast with sfmt := .i4, dfmt := .i4 }, { cmdFmcast with x1 := 0 }] : List Cmd).all (fun c => !c.okFmcast) = true := by
  decide

theorem test_ill_formed_fred : ([{ cmdFred with src := 0x8000000000000 }, { cmdFred with dst := 0x8000000000000 },
    { cmdFred with sfmt := .n32 }, { cmdFred with sfmt := .i8, dfmt := .i8 },
    { cmdFred with sfmt := .fp32, dfmt := .fp32, opr := .blend, rm := .rtz }, { cmdFred with arg := 0x400000000 },
    { cmdFred with rtn := true, ret := 8 }, { cmdFred with bind := 0 }, { cmdFred with arg := 1 }, { cmdFred with ss2 := 2 },
    { cmdFred with dst := 0x20002 }, { cmdFred with x0 := 0 }] : List Cmd).all (fun c => !c.okFred) = true := by decide

theorem test_ill_formed_sigr : ([{ cmdSigr with x0 := 1 }, { cmdSigr with src := 4 }, { cmdSigr with dst := 4 },
    { cmdSigr with sfmt := .i32 }, { cmdSigr with dfmt := .i32 }, { cmdSigr with opr := .add }, { cmdSigr with rm := .rtz },
    { cmdSigr with rtn := true, ret := 8 }, { cmdSigr with bind := 1 }, { cmdSigr with rsig := false }, { cmdSigr with arg := 0 },
    { cmdSigr with arg := 0x100000000 }] : List Cmd).all (fun c => !c.okSigr) = true := by decide

theorem test_ill_formed_pipe : ([{ cmdPipe with ss2 := 1 }, { cmdPipe with src := 4 }, { cmdPipe with dst := 4 },
    { cmdPipe with sfmt := .i32 }, { cmdPipe with dfmt := .i32 }, { cmdPipe with opr := .add }, { cmdPipe with rm := .rtz },
    { cmdPipe with rtn := true, ret := 8 }, { cmdPipe with arg := 1 }, { cmdPipe with bind := 0x40000 },
    { cmdPipe with bind := 0x1800 }, { cmdPipe with bind := 0x20051 }] : List Cmd).all (fun c => !c.okPipe false) = true := by
  decide

/-! ### Words of the spec (R145–R166) -/

/-- K words of every family, engine words of every stream. -/
theorem test_decode_words : Obligations.WordsDecode := ⟨rfl, rfl, rfl, rfl, rfl, rfl, rfl, rfl, rfl, rfl, rfl, rfl, rfl, rfl, rfl, rfl, rfl, rfl⟩

/-- A K word of each remaining shape, its fields placed by hand (R146–R149). -/
theorem test_decode_eret : decodeK 0xF000000000000000 = .ok (.eret 0) ∧ decodeK 0xF2A0000000000000 = .ok (.ffrd 20 0) := ⟨rfl, rfl⟩
/-- R155: section 5 of an M stream, after L's section 4, three words. -/
theorem test_decode_header : decodeHdr 0x0FFFF00040005003 =
    some { sync := false, nfa := false, n := 3, snum := 5, rq1 := 4, rq2 := 0xFFFF } := rfl

/-- The dwords of a command as one number. -/
def dwords (ds : List Nat) : Nat := ds.foldr (fun d n => n * 2 ^ 64 + d) 0

/-- R165: 1,024 fp32 elements from memory to the SPM on y1, which signals ev1. -/
def cmd165 : Cmd := { cmd with
  queue := 1, sigm := 2, src := 0x1234000000, dst := 0xFE00000000010000, x0 := 1024, sfmt := .fp32, dfmt := .fp32 }
theorem test_decode_copy : decodeTableWord 1024 (dwords [0x101, 0, 0, 2, 0x1234000000, 0xFE00000000010000, 0x100000400, 1]) =
    some (.copy cmd165) := by decide +kernel
/-- R282. -/
def cmd282 : Cmd := { cmd with
  crec := true, sigm := 4, src := 0xFE00000000002000, dst := 0x4000000000, x0 := 64, x1 := 2, ds1 := 0x100000, sfmt := .fp32,
  dfmt := .fp32, arg := 0x020400000009, bind := 0x4000200000, crecAt := 0x4000200040 }
theorem test_decode_kvcmt : decodeTableWord 1024 (dwords [0x80006, 0, 0, 4, 0xFE00000000002000, 0x4000000000, 0x200000040, 1, 0,
    0x100000, 0x0204000000090000, 0, 0, 0x4000200000, 0x4000200040]) = some (.kvcmt cmd282) := by decide +kernel
/-- A field that must be zero, a command of opcode 0 (R149, R166). -/
theorem test_decode_refuses : decodeK 0x0000000000000001 = .error .illegalOperand ∧ decodeCmd 0 = .error .illegalOp ∧
    decodeTableWord 64 0x02484000FFFFFFF8 = some (.addi 9 2 (-8)) := ⟨rfl, rfl, rfl⟩

/-! ### Steps of K -/

/-- Core 0's cask 0 holds a strand at user privilege, and it is K's turn. -/
def k0 : State := State.reset.withFetchWord 64 0
/-- That cask changed. -/
def at0 (f : Cask → Cask) : State := k0.setCask (f k0.cask)
/-- The same state before a step that takes many pieces at once. -/
def burst (s : State) : State := { s with turn := { s.turn with burst := 0xFFFF } }
/-- s1 = −8 and s2 = 3. -/
def k1 : State := at0 fun c => { c with kr := { c.kr with s := smSet 0 (smSet 0 c.kr.s 1 (-8)) 2 3 } }
/-- The state an instruction leaves. -/
def after (i : Instr) (s : State) : State := match exec i s with
  | .next t => t
  | _ => s
/-- What an instruction leaves in s9. -/
def s9 (i : Instr) : Word := (after i k1).cask.sreg 9

/-- R170, by hand on s1 = −8 and s2 = 3. -/
theorem test_integers : [.add 9 1 2, .addi 9 2 (-8), .sub 9 2 1, .mul 9 1 2, .mulh false 9 1 2, .mulh true 9 1 2,
      .div false 9 1 2, .div true 9 1 0, .rem false 9 1 2, .rem false 9 1 0, .and 9 1 2, .andi 9 1 0xFFFFFFFF, .or 9 1 2,
      .ori 9 2 4, .xor 9 1 2, .xori 9 2 1].map s9 =
    [-5, -5, 11, -24, -1, 2, -2, 0xFFFFFFFFFFFFFFFF, -2, -8, 0, 0xFFFFFFF8, -5, 7, -5, 2] := by decide +kernel
theorem test_shifts : [.shl 9 1 2, .shr 9 1 2, .sar 9 1 2, .min false 9 1 2, .min true 9 1 2, .max false 9 1 2, .max true 9 1 2,
      .clz 9 2, .clz 9 0, .popc 9 1, .slt false 9 1 2, .slt true 9 1 2, .sel 9 1 2 0, .sel 9 1 2 2, .ldih 9 0x12345678].map s9 =
    [-64, 0x1FFFFFFFFFFFFFFF, -1, -8, 3, 3, -8, 62, 64, 61, 1, 0, 3, -8, 0x1234567800000000] := by decide +kernel
/-- R9: a write of s0 is discarded. -/
theorem test_s0 : (after (.addi 0 2 1) k1).cask.sreg 0 = 0 := by decide +kernel
/-- R171: the least quotient wraps to itself. -/
theorem test_div_least : s9 (.div false 9 2 2) = 1 ∧
    (after (.div false 9 1 2) (at0 fun c => { c with kr := { c.kr with s := [(1, 0x8000000000000000), (2, -1)] } })).cask.sreg 9 =
      0x8000000000000000 := by decide +kernel
theorem test_flow : (after (.b 3) k1).cask.kr.kpc = 24 ∧ (after (.bc .lt 1 2 2) k1).cask.kr.kpc = 16 ∧
    (after (.bc .ltu 1 2 2) k1).cask.kr.kpc = 8 ∧ (after (.call 9 2) k1).cask.kr.kpc = 16 ∧ s9 (.call 9 2) = 8 ∧
    (after (.loop 2 4) k1).cask.kr.kpc = 32 ∧ (after (.loop 2 4) k1).cask.sreg 2 = 2 ∧ (after (.loop 0 4) k1).cask.kr.kpc = 8 := by
  decide +kernel
/-- R171: a jump to −8 leaves the window, one to 3 is no multiple of 8; neither writes its link. -/
theorem test_flow_faults : (after (.jr 9 2) k1).cask.st.stopped = true ∧ s9 (.jr 9 2) = 0 ∧
    (after (.jr 9 2) k1).cask.st.frame.head? = some (0, 0x0700000000000000) ∧
    (after (.jr 9 1) k1).cask.st.frame.head? = some (0, 0x0200000000000000) := by decide +kernel
/-- R172, R173: a half-word stored in the KLM and loaded back with its sign. -/
theorem test_local : (after (.ldk 1 true none 9 0 16) (after (.stk 1 none 1 0 16) k1)).cask.sreg 9 = -8 ∧
    (after (.ldk 1 false none 9 0 16) (after (.stk 1 none 1 0 16) k1)).cask.sreg 9 = 0xFFF8 ∧
    (after (.ldk 3 false none 9 0 12) k1).cask.st.frame.head? = some (0, 0x0700000000000000) := by decide +kernel
/-- R102: a store to an address that no table maps raises its fault at once. -/
theorem test_store_unmapped : (after (.stk 3 none 1 0 0x40000) k1).cask.st.stopped = true ∧
    (after (.stk 3 none 1 0 0x40000) k1).cask.st.sbuf = [] := by decide +kernel
/-- R28, R186: WAITE passes once the counter has reached its threshold, and waits before. -/
theorem test_events : (after (.waite 3 0 1) k1).cask.kr.kpc = 0 ∧ (after (.waite 3 0 1) k1).cask.st.wait.isSome = true ∧
    ((after (.sige 3 1) k1).cask.evreg 3 = 1) ∧
    (after (.waite 3 0 1) (at0 fun c => { c with cp := { c.cp with ev := [(3, 1)] } })).cask.kr.kpc = 8 := by decide +kernel
/-- R46: a marker of L and S retires at once at engines that have nothing before it, or waits for what they have fetched; a
second marker with the same number is refused. -/
theorem test_markers : (after (.mark 7 (km false false false true)) k1).cask.kr.kpc = 8 ∧
    (after (.rdvw 7) (after (.mark 7 (km false false false true)) k1)).cask.kr.kpc = 16 ∧
    (after (.mark 7 (km false false false true)) (after (.mark 7 (km false false false true)) k1)).cask.st.stopped = true := by
  decide +kernel
/-- R197: K resumes behind a TRAP, whose operand and address the frame keeps. -/
theorem test_trap : (List.range 4).map (smGet 0 (after (.trap 5) k1).cask.st.frame) = [0x7000000000000000, 0, 5, 8] ∧
    (after (.trap 5) k1).cask.st.kstop = true := by decide +kernel
/-- R347: with HVEC = 0x40 the handler runs there, at system privilege. -/
theorem test_handler : (after (.trap 5) (at0 fun c => { c with kr := { c.kr with hvec := 0x40 } })).cask.kr.kpc = 0x40 ∧
    (after (.trap 5) (at0 fun c => { c with kr := { c.kr with hvec := 0x40 } })).cask.kr.priv = true := by decide +kernel
/-- R340, R348: ERET after it goes on behind the TRAP, at user privilege. -/
theorem test_eret : (after (.eret 0) (after (.trap 5) (at0 fun c => { c with kr := { c.kr with hvec := 0x40 } }))).cask.kr.kpc = 8 ∧
    (after (.eret 0) (after (.trap 5) (at0 fun c => { c with kr := { c.kr with hvec := 0x40 } }))).cask.kr.priv = false ∧
    (after (.eret 0) (after (.trap 5) (at0 fun c => { c with kr := { c.kr with hvec := 0x40 } }))).cask.st.stopped = false := by
  decide +kernel
/-- R2, R347: privilege both ways. -/
theorem test_privilege : (after (.eret 0) k1).cask.st.frame.head? = some (0, 0x1100000000000000) ∧
    (after .sstep (at0 fun c => { c with kr := { c.kr with priv := true } })).cask.st.kstop = true := by decide +kernel
/-- R196: TAG is written and read; COREID and HVEC as the table has them. -/
theorem test_specials : (after (.wrs 6 1) k1).cask.kr.tag = -8 ∧ s9 (.rds 9 0) = 0 ∧
    (after (.rds 9 0x100) k1).cask.st.frame.head? = some (0, 0x1100000000000000) := by decide +kernel
/-- R188: with no tile left TNEXT gives all ones. -/
theorem test_tnext : (after (.tnext 9) k1).cask.sreg 9 = 0xFFFFFFFFFFFFFFFF := by decide +kernel
/-- R166: a CPGO without .reuse needs all four quarters (0x31). -/
theorem test_cpgo : (after (.cpgo 1 false) k1).cask.st.frame.head? = some (0, 0x3100000000000000) ∧
    ((after (.cpgo 1 true) k1).cask.yy.queue 1).length = 1 ∧ (after (.cpgo 1 true) k1).cask.yy.jhead = 2 := by decide +kernel

/-! ### Numbers (R75–R92) -/

theorem test_fp32 : add32 .rne 0x3F800000 0x40000000 = (0x40400000, {}) ∧ (mul32 .rne 0x40400000 0x3F000000).1 = 0x3FC00000 ∧
    (fma32 .rne 0x40000000 0x40400000 0x3F800000).1 = 0x40E00000 ∧ (sub32 .rne 0x3F800000 0x3F800000).1 = 0 ∧
    (add32 .rne 0x7F800000 0xFF800000).1 = 0x7FC00000 := by decide +kernel
/-- R79, R137: 0.3 and −0.75. -/
theorem test_bx8 : (bx8Encode (f32 0x3E99999A)).1 = 0x4E ∧ (bx8Encode (f32 0xBF400000)).1 = 0xEE := by decide +kernel
/-- R80. -/
theorem test_fword : [fwXf, fwBf, fwAf, fwOf].map (fun f => f 0x00000200FD003033) = [3, 3, 0, 3] ∧
    [fwAsc, fwBsc, fwOsc].map (fun f => f 0x00000200FD003033) = [-3, 0, 2] := by decide +kernel
/-- R220: row 0 of the drain quantised twice, and a row of zeros. -/
theorem test_drain : ((drainCodes false 0x3000 ([0x40400000, 0xBF99999A, 0x3F19999A] ++ List.replicate 125 0)).take 4).map (·.1) =
    [0x6E, 0xCE, 0x43, 0] := by decide +kernel
theorem test_drain_scale :
    rowScale false 0x3000 (drainVals 0x3000 ([0x40400000, 0xBF99999A, 0x3F19999A] ++ List.replicate 125 0)) = 2 ∧
    (drainCodes false 0x3000 ([0xBF99999A] ++ List.replicate 127 0)).head?.map (·.1) = some 0xE3 := by decide +kernel

/-! ### Trees (R58, R64, R69) -/

theorem test_lift : lift 8 2 [12, 8, 253, 250] = ([2, 15, 4, 3], false) ∧ lift 8 2 [100, 156, 7, 4] = ([66, 123, 200, 3], true) := by
  decide +kernel
theorem test_recon : recon 8 2 [2, 15, 4, 3] = [12, 8, 253, 250] ∧ recon 8 1 [2, 15] = [10, 251] ∧ recon 8 1 [66, 123] = [128, 5] := by
  decide +kernel
theorem test_maxd : exactMaxd 8 [2, 15, 4, 3] 2 0 = 0x0304 ∧ exactMaxd 8 [66, 123, 200, 3] 2 0 = 0x0607 := by decide +kernel
/-- R69: the node update of the example: level 1, node 1, −2. -/
theorem test_node : nodeUpdate 8 1 1 254 false { scl := 0, wrap := false, fmt := 0, levels := 2, ver := 5, maxd := 0x0304 } [2, 15, 4, 3] =
    ({ scl := 0, wrap := false, fmt := 0, levels := 2, ver := 6, maxd := 0x0304 }, [4, 12, 4, 3]) := by decide +kernel

/-! ### Words of M -/

/-- Vectors, x registers and masks in place. -/
def m1 (v : SMap Lane) (x : SMap Word) (m : SMap (BitVec 128)) : State := burst <| at0 fun c =>
  { c with mx := { c.mx with v := v, m := m }, eM := { c.eM with x := x } }

/-- R246: the four lanes of the example, triples at v1 and v4, result at v7. -/
def blend4 : State := after (.vblend t0 none 7 1 4) (m1
  [(128, 0x3F800000), (129, 0xFF800000), (130, 0x40400000), (131, 0xFF800000), (256, 0x40000000), (258, 0x40E00000),
   (384, 0x3F000000), (386, 0x3F800000), (512, 0x3F800000), (513, 0x40800000), (514, 0xFF800000), (515, 0xFF800000),
   (640, 0x40400000), (641, 0x3FC00000), (768, 0x3E800000), (769, 0xC0000000), (770, 0x41100000)] [] [])
theorem test_blend : ([7, 8, 9].map fun r => (List.range 4).map fun k => blend4.cask.lane r k) =
    [[0x3F800000, 0x40800000, 0x40400000, 0xFF800000], [0x40A00000, 0x3FC00000, 0x40E00000, 0],
     [0x3F400000, 0xC0000000, 0x3F800000, 0]] := by decide +kernel

/-- R240, R241: the example of CQAPP; the next two words of it on the state that it leaves. -/
def app1 : State := after (.cqapp t0 false 4 5 1 0 2)
  (m1 [(131, 33), (137, 39), (168, 40)] [(4, 0x8000)] [(2, (1 <<< 3) ||| (1 <<< 9) ||| (1 <<< 40))])
theorem test_cqapp : app1.cask.xreg .m 4 = 0x800C ∧ app1.cask.xreg .m 5 = 3 ∧
    [0x8000, 0x8004, 0x8008].map app1.cask.spmWord = [33, 39, 40] := by decide +kernel
theorem test_cqtake :
    (let s := after (.cqtake t0 false 8 6 7 3) (burst <| at0 fun c => { app1.cask with eM := { c.eM with x := [(6, 0x8000), (7, 129)] } })
     s.cask.xreg .m 7 = 1 ∧ s.cask.xreg .m 6 = 0x8200 ∧ s.cask.mreg 3 = BitVec.allOnes 128 ∧ s.cask.lane 8 1 = 39) := by decide +kernel

/-- R247: rows 1, 3 and 4 of the example at columns 0, 4, 5 to 8 and 9. -/
theorem test_tmask : ([1, 3, 4].map fun r => [0, 4, 5, 6, 7, 8, 9].map fun j =>
      decide ((tmaskRow ([0xFFFFFFFF, 0, 0, 1] ++ List.replicate 124 0) 5 0 4 r).getD j 7 = 0)) =
    [[true, true, true, true, false, false, false], [true, true, true, true, false, true, false],
     [true, true, false, false, false, false, false]] := by decide +kernel

/-- R253, R255, R256: three reflectors, one racking. -/
def q1 : State := after (.qcfg t0 0 1) (m1 [(129, 0xBF800000), (258, 0xBF800000)]
  [(1, 0x400000182), (3, 1), (4, 3), (5, 0x3F800000), (6, 0x40000000)] [])
def q2 : State := after (.qacc t0 0 2 3 5) (after (.qacc t0 0 1 0 5) q1)
def q3 : State := after (.qacc t0 0 3 4 6) q2
theorem test_qcfg : (let a := q1.cask.qacc 0; (a.n, a.kc, a.rack, a.bmax, a.base)) = (0, 2, true, 1, 0x40000) ∧ recBytes 2 = 1280 := by
  decide +kernel
theorem test_qacc : (let a := q2.cask.qacc 0; (a.n, a.b, [0, 1, 64, 65].map (smGet 0 a.t))) =
    (2, 0, [0x3F800000, 0x3F800000, 0, 0x3F800000]) := by decide +kernel
theorem test_rack : (let a := q3.cask.qacc 0; (a.n, a.b, smGet 0 a.t 0)) = (1, 1, 0x40000000) ∧
    natOf (q3.cask.spmBytes 0x40000 8) = 0x202 ∧ q3.cask.mx.flags = 0 := by decide +kernel

/-- R204, R205: XADDI, and a push of two tokens. -/
theorem test_engine_words : (after (.xaddi .l t0 3 0 (-1)) k0).cask.xreg .l 3 = 0xFFFFFFFFFFFFFFFF ∧
    (after (.tok .l { t0 with hn := true } 2) k0).cask.cp.tok.lm = 2 ∧
    (after (.nop .m { t0 with pp := true } ) (after (.tok .l { t0 with hn := true } 2) k0)).cask.cp.tok.lm = 1 := by decide +kernel

/-! ### Launches, crews, queues -/

/-- R15: the worked deal of 16 tiles on cores 12, 40 and 77. -/
theorem test_deal : (deal (fun _ => none) 0 16 [{ core := 12, w := 280, share := 0, tiles := [] },
      { core := 40, w := 320, share := 0, tiles := [] }, { core := 77, w := 370, share := 0, tiles := [] }]).map (·.tiles) =
    [[2, 5, 8, 12, 15], [1, 4, 7, 10, 13], [0, 3, 6, 9, 11, 14]] := by decide +kernel
/-- R26, R27: the record of the example. -/
theorem test_lees : (List.range 10).map (smGet 0 (leesRecord 0 1 { Crew.reset with
      arrived := [{ ord := 2, at_ := 1900, drop := false }, { ord := 0, at_ := 2200, drop := true },
        { ord := 1, at_ := 2200, drop := false }], start := 1000 } fun o => [280, 320, 370].getD o 0)) =
    [0x0001000000030001, 300, 0x12C00010000, 10, 0x12C00000001, 159, 2, 0, 0xFFFF, 0] := by decide +kernel
/-- R358: the example's slice under SMAP[i] = i mod 96, and its near cores (R16). -/
theorem test_slice : homeSlice { Partition.reset with smap := [(407, 407 % 96)] } 0x013 0x1234000000 = 23 ∧
    nearCores 23 = [92, 93, 94, 95] := by decide +kernel
/-- R345, R318: what the queue registers refuse. -/
theorem test_lqtail : (after (.lqtailWrite 0 1) { k0 with dev := { k0.dev with sec := { k0.dev.sec with stage := 15 } } }).dev.logovf +
    ((after (.lqtailWrite 0 1) { k0 with dev := { k0.dev with sec := { k0.dev.sec with stage := 15 } } }).queueAt 0).tail = 1 := by
  decide +kernel

/-! ### Every statement's hypotheses are met -/

/-- s1 or x registers of the engines in place. -/
def reg1 (v : Word) : State := at0 fun c => { c with kr := { c.kr with s := smSet 0 c.kr.s 1 v } }
def eng1 (l : SMap Word) : State := at0 fun c =>
  { c with eL := { c.eL with x := l }, eM := { c.eM with x := l }, eS := { c.eS with x := l } }
/-- The same cask in its handler. -/
def h1 (v : Word) : State := at0 fun c => { c with kr := { c.kr with s := smSet 0 c.kr.s 1 v, priv := true } }

theorem fresh0 (e : Eng) : k0.cask.fresh e t0 1 := by cases e <;> exact ⟨rfl, rfl, rfl, rfl, rfl, rfl, rfl, rfl, rfl, rfl⟩
theorem fresh1 (l : SMap Word) (e : Eng) : (eng1 l).cask.fresh e t0 1 := by
  cases e <;> exact ⟨rfl, rfl, rfl, rfl, rfl, rfl, rfl, rfl, rfl, rfl⟩
theorem cleanTile_of {c : Cask} (h : c.mem.acmP = []) (n : CTile) : c.cleanTile n := fun p hp => by rw [h] at hp; cases hp
theorem cleanQ_of {c : Cask} (h : c.mem.acmP = []) (q : QReg) : c.cleanQ q := fun p hp => by rw [h] at hp; cases hp
theorem cleanSpm_of {c : Cask} (h : c.mem.spmP = []) (a n : Nat) : c.cleanSpm a n := fun p hp => by rw [h] at hp; cases hp
theorem cleanKlm_of {c : Cask} (h : c.mem.klmP = []) (a n : Nat) : c.cleanKlm a n := fun p hp => by rw [h] at hp; cases hp
theorem owns_of {s : State} (h : s.dual = false) (n : CTile) : s.owns n := fun k => by rw [h] at k; cases k
theorem ownsQ_of {s : State} (h : s.dual = false) (n : QReg) : s.ownsQ n := fun k => by rw [h] at k; cases k

theorem witness_IntegerResults : ([.add 1 2 3, .addi 1 2 3, .sub 1 2 3, .mul 1 2 3, .mulh true 1 2 3, .div true 1 2 0, .rem true 1 2 3,
    .and 1 2 3, .andi 1 2 3, .or 1 2 3, .ori 1 2 3, .xor 1 2 3, .xori 1 2 3, .shl 1 2 3, .shr 1 2 3, .sar 1 2 3, .min true 1 2 3,
    .max true 1 2 3, .clz 1 2, .popc 1 2, .slt true 1 2 3, .sel 1 2 3 4, .ldih 1 2] : List Instr).all
    (fun i => (intValue k1 i).isSome) = true := by decide

/-- A jump to the last word of the window; a BC and a LOOP that transfer nothing; one that goes to the next word. -/
theorem witness_FlowInstructions : flowValue (reg1 0x1FFF8) (.jr 9 1) = some (9, 8, some (0x1FFF8, true)) ∧
    (0x1FFF8 : Int) < imemSize (reg1 0x1FFF8).dual ∧ (0x1FFF8 : Int) % 8 = 0 ∧
    flowValue (reg1 1) (.bc .eq 1 0 3) = some (0, 0, none) ∧ flowValue (reg1 1) (.bc .ne 1 0 3) = some (0, 0, some (24, false)) ∧
    flowValue (reg1 1) (.loop 1 4) = some (1, 0, none) ∧ flowValue (reg1 2) (.loop 1 1) = some (1, 1, some (8, false)) ∧
    flowValue (reg1 8) (.ret 1) = some (0, 0, some (8, true)) ∧ flowValue k0 (.call 9 2) = some (9, 8, some (16, false)) :=
  ⟨rfl, by decide +kernel, by decide, rfl, rfl, rfl, rfl, rfl, rfl⟩
/-- The address behind the window, from a register and from the window's last word; a target that is no multiple of 8; one
below 0. -/
theorem witness_FlowInstructions_faults : flowValue (reg1 0x20000) (.jr 9 1) = some (9, 8, some (0x20000, true)) ∧
    ¬ ((0x20000 : Int) < imemSize (reg1 0x20000).dual) ∧ (0x20000 : Int) % 8 = 0 ∧
    flowValue (reg1 4) (.ret 1) = some (0, 0, some (4, true)) ∧ (4 : Int) % 8 ≠ 0 ∧
    flowValue k0 (.b (-1)) = some (0, 0, some (-8, false)) ∧
    (let s : State := at0 fun c => { c with kr := { c.kr with kpc := 0x1FFF8 } }
     flowValue s (.b 1) = some (0, 0, some (0x20000, false)) ∧ ¬ (0x20000 : Int) < imemSize s.dual) :=
  ⟨rfl, by decide +kernel, by decide, rfl, by decide, rfl, rfl, by decide +kernel⟩

theorem witness_RegisterReads : ∃ ok v, readValue k0 (.lees 9 9) = some (ok, 9, v) ∧ ok := ⟨_, _, rfl, rfl, by decide⟩
theorem witness_RegisterReads_vtab : ∃ ok v, readValue k0 (.vtab 9 0 383) = some (ok, 9, v) ∧ ok := ⟨_, _, rfl, rfl, by decide⟩
theorem witness_RegisterReads_rings : (∃ ok v, readValue k0 (.rdring 9 15) = some (ok, 9, v) ∧ ok) ∧
    ∃ ok v, readValue k0 (.erd 9 (km true false false false) 15) = some (ok, 9, v) ∧ ok := ⟨⟨_, _, rfl, rfl⟩, _, _, rfl, rfl⟩
theorem witness_RegisterReads_handler : (∃ ok v, readValue (h1 0) (.ffrd 9 19) = some (ok, 9, v) ∧ ok) ∧
    (∃ ok v, readValue (h1 0) (.jctlHead 9) = some (ok, 9, v) ∧ ok) ∧ ∃ ok v, readValue (h1 0) (.jctlTail 9) = some (ok, 9, v) ∧ ok :=
  ⟨⟨_, _, rfl, rfl⟩, ⟨_, _, rfl, rfl⟩, _, _, rfl, rfl⟩

theorem witness_VectorLanes : ([.vadd t0 .fp32 none 1 2 (.v 3), .vsub t0 .i32 none 1 2 (.v 3), .vmul t0 .n32 none 1 2 (.x 3),
    .vfma t0 .fp32 none 1 2 (.v 3) 4, .vmax t0 .i32 none 1 2 (.v 3), .vmin t0 .n32 none 1 2 (.v 3), .vabs t0 .fp32 none 1 2,
    .vneg t0 .i32 none 1 2, .vrcp t0 none 1 2, .vrsq t0 none 1 2, .vsqrt t0 none 1 2, .vexp2 t0 none 1 2, .vlog2 t0 none 1 2,
    .vand t0 none 1 2 (.v 3), .vor t0 none 1 2 (.v 3), .vxor t0 (some 7) 1 2 (.v 3), .vshl t0 .i32 none 1 2 (.v 3),
    .vshr t0 .n32 none 1 2 (.v 3), .vsel t0 1 2 (.v 3) 4, .vbcst t0 none 1 (.lane 2 127), .vbcst t0 none 1 (.x 2),
    .vperm t0 none 1 2 (.v 3), .viota t0 none 1 none, .vcmpr t0 1 2 3, .vexpd t0 1 2 3, .vsband t0 .hdr 1] : List Instr).all
    (fun i => (laneValue k0.cask i).isSome) = true ∧ k0.cask.fresh .m t0 1 := ⟨rfl, fresh0 .m⟩
theorem witness_MaskWords : ([.vcmp t0 .un .fp32 none 1 2 (.v 3), .vcmp t0 .le .i32 none 1 2 (.v 3), .mand t0 1 2 3, .mor t0 1 2 3,
    .mnot t0 1 2, .vsband t0 .mask 7] : List Instr).all (fun i => (maskValue k0.cask i).isSome) = true ∧ k0.cask.fresh .m t0 1 :=
  ⟨rfl, fresh0 .m⟩
theorem witness_LaneConversion : k0.cask.fresh .m t0 1 := fresh0 .m
theorem witness_Reductions : ([.vreds t0 .fp32 none 1 2, .vreds t0 .i32 none 1 2, .vredm t0 .fp32 none 1 2, .vredm t0 .i32 none 1 2,
    .vredm t0 .n32 none 1 2] : List Instr).all (fun i => (reduceValue k0.cask i).isSome) = true ∧ k0.cask.fresh .m t0 1 :=
  ⟨rfl, fresh0 .m⟩
theorem witness_Blend : k0.cask.fresh .m t0 1 ∧ (29 : VReg).toNat ≤ 29 := ⟨fresh0 .m, by decide⟩

theorem witness_TileWords : (∃ t ok n c hit f, tileValue k0 (.czero t0 7) = some (t, ok, n, c, hit, f) ∧ k0.cask.fresh .m t 1 ∧ ok) ∧
    (∃ t ok n c hit f, tileValue k0 (.cscl t0 true 7 1) = some (t, ok, n, c, hit, f) ∧ k0.cask.fresh .m t 1 ∧ ok) ∧
    ∃ t ok n c hit f, tileValue k0 (.ctr t0 7 0) = some (t, ok, n, c, hit, f) ∧ k0.cask.fresh .m t 1 ∧ ok :=
  ⟨⟨_, _, _, _, _, _, rfl, fresh0 .m, owns_of rfl 7⟩, ⟨_, _, _, _, _, _, rfl, fresh0 .m, owns_of rfl 7, cleanTile_of rfl 7⟩,
    _, _, _, _, _, _, rfl, fresh0 .m, owns_of rfl 7, owns_of rfl 0, cleanTile_of rfl 0⟩
theorem witness_TileWords_line : ∃ t ok n c hit f, tileValue (eng1 [(1, 127)]) (.cvrow t0 true 7 1 1) = some (t, ok, n, c, hit, f) ∧
    (eng1 [(1, 127)]).cask.fresh .m t 1 ∧ ok := ⟨_, _, _, _, _, _, rfl, fresh1 _ .m, owns_of rfl 7, by decide⟩

/-- The tree of the example, and 128 drafts that are roots. -/
def tree (ls : List Lane) (n : Word) : State := at0 fun c =>
  { c with mx := { c.mx with v := smSetRange 0 [] 128 ls }, eM := { c.eM with x := [(4, n)] } }
theorem witness_TreeMask : (tree [0xFFFFFFFF, 0, 0, 1] 4).cask.fresh .m t0 1 ∧ (tree [0xFFFFFFFF, 0, 0, 1] 4).owns 7 ∧
    (tree [0xFFFFFFFF, 0, 0, 1] 4).cask.parentsLegal 1 ((tree [0xFFFFFFFF, 0, 0, 1] 4).cask.xreg .m 4).toNat :=
  ⟨⟨rfl, rfl, rfl, rfl, rfl, rfl, rfl, rfl, rfl, rfl⟩, owns_of rfl 7, by unfold Cask.parentsLegal; decide⟩
theorem witness_TreeMask_full : (tree (List.replicate 128 0xFFFFFFFF) 128).cask.parentsLegal 1 128 := by
  unfold Cask.parentsLegal; decide +kernel

theorem witness_TileTransfers : (eng1 [(1, 127)]).cask.fresh .m t0 1 ∧ (eng1 [(1, 127)]).owns 7 ∧ (eng1 [(1, 127)]).cask.cleanTile 7 ∧
    ((eng1 [(1, 127)]).cask.xreg .m 1).toNat < 128 := ⟨fresh1 _ .m, owns_of rfl 7, cleanTile_of rfl 7, by decide⟩
/-- 512 lines at the end of the tiles and of the SPM. -/
def lines512 : State := burst (eng1 [(1, 0x70000), (2, 0x1F0000)])
theorem witness_TileTransfers_lines : lines512.cask.fresh .m t0 1 ∧ lines512.cldOk 1 2 512 ∧
    128 * (512 : BitVec 16).toNat / 4 ≤ lines512.turn.burst + 1 ∧
    (∀ p, p ∈ lines512.cask.mem.spmP → ¬ (0x1F0000 ≤ p ∧ p < 0x1F0000 + 0x10000)) ∧
    ∀ p, p ∈ lines512.cask.mem.acmP → ¬ (0x70000 ≤ p ∧ p < 0x70000 + 0x10000) :=
  ⟨fresh1 _ .m, by unfold State.cldOk; decide +kernel, by decide +kernel, cleanSpm_of rfl _ _, cleanSpm_of (c := k0.cask) rfl _ _⟩

/-- 512 bytes, and 16 bytes, that end with the SPM. -/
def spmEnd : State := burst (eng1 [(1, 0x1FFE00), (2, 0x1FFFF0)])
theorem witness_VectorAccesses : spmEnd.cask.fresh .m t0 1 ∧ 127 ≤ spmEnd.turn.burst ∧ 1 ≤ spmEnd.turn.burst ∧
    (let s := spmEnd
     let ea := (s.cask.xreg .m 1 + (0 : BitVec 16).signExtend 64).toNat
     let eb := (s.cask.xreg .m 2 + (0 : BitVec 16).signExtend 64).toNat
     (ea % 4 = 0 ∧ ea + 512 ≤ spmSize s.dual ∧ eb % 16 = 0 ∧ eb + 16 ≤ spmSize s.dual) ∧ s.cask.cleanSpm ea 512 ∧
       s.cask.cleanSpm eb 16) :=
  ⟨fresh1 _ .m, by decide +kernel, by decide +kernel, by decide +kernel, cleanSpm_of rfl _ _, cleanSpm_of rfl _ _⟩
/-- M works on the word `f`, one piece a turn. -/
def slowM (f : Flight) (x : SMap Word) : State := at0 fun c => { c with eM := { c.eM with x := x, flight := some f } }
def flM (p : Point) : Flight := { Flight.start 0 0 0 0 with begun := true, pt := p }
theorem inWord_slow (p : Point) (x : SMap Word) : (slowM (flM p) x).cask.inWord .m t0 (flM p) :=
  ⟨rfl, rfl, rfl, rfl, rfl, rfl, rfl, rfl, rfl, rfl, rfl, rfl, rfl, rfl, rfl, rfl, rfl, rfl⟩
/-- A list that is not empty has the place that a turn takes. -/
theorem at_mod {α : Type} (xs : List α) (h : 0 < xs.length) (n : Nat) : ∃ x, xs[n % xs.length]? = some x :=
  ⟨_, List.getElem?_eq_getElem (Nat.mod_lt n h)⟩
/-- The first and the last pieces of a VLD.m and of a VST.m. -/
theorem witness_VectorAccesses_pieces : (∃ u base n E, spmLoads (slowM (flM Point.none) [(2, 0x1FFFF0)]) (.vldM t0 3 2 0) = some (t0, u, base, n, E) ∧
      u < n ∧ (∃ x, ((List.range (n / u)).map fun k => (u * k, base + u * k, u))[Config.nextPart (slowM (flM Point.none) []).tick 2 % 2]? = some x) ∧
      (List.replicate n (0 : Byte)).length = n) ∧
    (slowM (flM Point.none) [(2, 0x1FFFF0)]).turn.burst = 0 ∧
    (let p : Point := { opened := true, parts := [(8, 0x1FFFF8, 8)], data := List.replicate 16 1 }
     (slowM (flM p) [(2, 0x1FFFF0)]).cask.inWord .m t0 (flM p) ∧ p.parts[Config.nextPart 0 p.parts.length % p.parts.length]? = some (8, 0x1FFFF8, 8) ∧
       (slowM (flM p) [(2, 0x1FFFF0)]).cask.cleanSpm 0x1FFFF8 8 ∧ p.data.length = 16 ∧ 8 + 8 ≤ p.data.length) ∧
    ∃ ok parts bs xs, spmStores (slowM (flM Point.none) [(2, 0x1FFFF0)]) (.vstM t0 3 2 0) = some (t0, ok, parts, bs, xs) ∧ ok ∧ 1 < parts.length ∧
      ∀ x ∈ parts, x.1 + x.2.2 ≤ bs.length :=
  ⟨⟨_, _, _, _, rfl, by decide, at_mod [(0, 0x1FFFF0, 8), (8, 0x1FFFF8, 8)] (by decide) _, by decide⟩, rfl,
    ⟨inWord_slow _ _, by
      show [(8, 0x1FFFF8, 8)][Config.nextPart 0 1 % 1]? = some (8, 0x1FFFF8, 8)
      rw [Nat.mod_one]
      rfl, cleanSpm_of rfl _ _, by decide, by decide⟩,
    _, _, _, _, rfl, trivial, by decide, by decide +kernel⟩

/-- One record of two words at the end of the SPM, and none at an address behind it. -/
def stream1 (a : Word) (n : Word) (m : BitVec 128) : State := at0 fun c =>
  { c with mx := { c.mx with m := [(3, m)] }, eM := { c.eM with x := [(1, a), (2, n)] } }
theorem witness_ConditionalStreams : (burst (stream1 0x1FFFF8 1 1)).cask.fresh .m t0 1 ∧ (1 : XReg) ≠ 2 ∧
    (let s := burst (stream1 0x1FFFF8 1 1)
     let ea := (s.cask.xreg .m 1).toNat
     (ea % 4 = 0 ∧ (s.cask.selected 4 3).length = 1 ∧ ea + 8 ≤ spmSize s.dual ∧ Nat.min 128 (s.cask.xreg .m 2).toNat = 1 ∧
       (4 : VReg).toNat % 2 = 0 ∧ 2 * 1 ≤ s.turn.burst + 1) ∧ s.cask.cleanSpm ea 8) :=
  ⟨⟨rfl, rfl, rfl, rfl, rfl, rfl, rfl, rfl, rfl, rfl⟩, by decide, by decide +kernel, cleanSpm_of rfl _ _⟩
theorem witness_ConditionalStreams_none : (let s := stream1 0x300000 0 0
     (s.cask.xreg .m 1).toNat % 4 = 0 ∧ (s.cask.selected 4 3).length = 0 ∧ Nat.min 128 (s.cask.xreg .m 2).toNat = 0 ∧
       2 * 0 ≤ s.turn.burst + 1) := by
  decide +kernel

/-- Ring n holds one tile under the configuration `w`. -/
def ringed (rs : List (Nat × Word)) (fq : List Word) : State := at0 fun c =>
  { c with cp := { c.cp with rings := rs.map fun p => (p.1, { Ring.reset with w0 := p.2, tail := 1 }), fq := fq } }
theorem headClean_of {c : Cask} (n : Nat) (h : 0 < (c.ring n).depth) (k : c.mem.spmP = []) : c.headClean n :=
  ⟨h, cleanSpm_of k _ _⟩
theorem witness_VectorPop : (ringed [(15, 0)] []).cask.fresh .m t0 1 ∧ (ringed [(15, 0)] []).cask.headClean 15 ∧
    ((ringed [(15, 0)] []).cask.ring 15).snkf = .fp32 ∧ (31 : VReg).toNat + ((ringed [(15, 0)] []).cask.ring 15).rows ≤ 32 :=
  ⟨⟨rfl, rfl, rfl, rfl, rfl, rfl, rfl, rfl, rfl, rfl⟩, headClean_of _ (by decide) rfl, rfl, by decide⟩

/-- Two fp32 tiles of 128 × 8 and 8 × 128, or with .bt two of 128 × 8. -/
def mma1 : State := ringed [(0, 0xFE1C000000), (1, 0xFFC000000), (2, 0xFE1C000000)] [0]
theorem witness_MatrixMultiply : mma1.cask.fresh .m t0 1 ∧ mma1.owns 7 ∧ mma1.cask.cp.fq = 0 :: [] ∧ mma1.cask.cp.fqWait = [] ∧
    fwCommon 0 = true ∧ fwMma 0 = some (.fp32, .fp32, true, 8) ∧ mma1.cask.headClean 0 ∧ mma1.cask.headClean 1 ∧
    (mma1.cask.ring 0).rows = 128 ∧ (mma1.cask.ring 0).cols = 8 ∧ (mma1.cask.ring 1).rows = 8 ∧ (mma1.cask.ring 1).cols = 128 ∧
    (mma1.cask.ring 0).snkf = .fp32 ∧ (mma1.cask.ring 1).snkf = .fp32 ∧ mma1.cask.cleanTile 7 :=
  ⟨⟨rfl, rfl, rfl, rfl, rfl, rfl, rfl, rfl, rfl, rfl⟩, owns_of rfl 7, rfl, rfl, rfl, rfl, headClean_of _ (by decide) rfl, headClean_of _ (by decide) rfl,
    rfl, rfl, rfl, rfl, rfl, rfl, cleanTile_of rfl 7⟩
theorem witness_MatrixMultiply_bt : mma1.cask.headClean 2 ∧ (mma1.cask.ring 2).rows = 128 ∧ (mma1.cask.ring 2).cols = 8 ∧
    (mma1.cask.ring 2).snkf = .fp32 := ⟨headClean_of _ (by decide) rfl, rfl, rfl, rfl⟩

/-- An accumulator, an operand in x1, bytes of the SPM, format words. -/
def acc1 (a : QAcc) (x : Word) (b : SMap Byte) (fq : List Word) : State :=
  burst <| at0 fun c => { c with
    mx := { c.mx with q := [(3, a)] }, eM := { c.eM with x := [(1, x)] }, mem := { c.mem with spm := b },
    cp := { c.cp with fq := fq } }
theorem freshAcc (a : QAcc) (x : Word) (b : SMap Byte) (fq : List Word) : (acc1 a x b fq).cask.fresh .m t0 1 :=
  ⟨rfl, rfl, rfl, rfl, rfl, rfl, rfl, rfl, rfl, rfl⟩
/-- QCFG with a stack of one block of capacity 64 that ends with the SPM, and with no stack. -/
theorem witness_AccumulatorState : (∃ t ok q a, accValue (acc1 QAcc.reset 0x1F3F800140 [] []) (.qcfg t0 3 1) = some (t, ok, q, a) ∧ ok) ∧
    (∃ t ok q a, accValue (acc1 QAcc.reset 1 [] []) (.qcfg t0 3 1) = some (t, ok, q, a) ∧ ok) ∧
    (∃ t ok q a, accValue k0 (.qclr t0 3) = some (t, ok, q, a) ∧ ok) ∧
    ∃ t ok q a, accValue k0 (.qtrn t0 3) = some (t, ok, q, a) ∧ ok :=
  ⟨⟨_, _, _, _, rfl, ownsQ_of rfl 3, by decide +kernel⟩, ⟨_, _, _, _, rfl, ownsQ_of rfl 3, by decide +kernel⟩,
    ⟨_, _, _, _, rfl, ownsQ_of rfl 3⟩, _, _, _, _, rfl, ownsQ_of rfl 3⟩
def oneCol : QAcc := { QAcc.reset with n := 1, kc := 1, rack := true, bmax := 255, b := 254 }
theorem witness_AccumulatorState_seal : (acc1 oneCol 0 [] []).ownsQ 3 ∧ (acc1 oneCol 0 [] []).cask.cleanQ 3 ∧
    (let a := (acc1 oneCol 0 [] []).cask.qacc 3
     a.n ≤ a.kc ∧ a.kc ≤ 64 ∧ a.b ≠ a.bmax) := ⟨ownsQ_of rfl 3, cleanQ_of rfl 3, by decide +kernel⟩
theorem witness_AccumulatorState_save : (let s := acc1 QAcc.reset 0x1F3F80 [] []
    ((s.cask.xreg .m 1).toNat % 128 = 0 ∧ (s.cask.xreg .m 1).toNat + recBytes (s.cask.qacc 3).kc ≤ spmSize s.dual) ∧
      s.cask.cleanQ 3 ∧ recBytes (s.cask.qacc 3).kc / 8 ≤ s.turn.burst + 1) := ⟨by decide +kernel, cleanQ_of rfl 3, by decide +kernel⟩
theorem witness_AccumulatorState_restore : (let s := acc1 QAcc.reset 0x400 [(0x401, 1)] []
    s.recordOk 0x400 (natOf (s.cask.spmBytes 0x400 8)) (natOf (s.cask.spmBytes 0x408 8)) ∧ recBytes 64 / 8 ≤ s.turn.burst + 1) :=
  ⟨⟨by decide +kernel, by decide +kernel, by decide +kernel, by decide +kernel, cleanSpm_of rfl _ _, by decide +kernel⟩, by decide +kernel⟩

/-- An accumulator with room, and a full one that racks its last block. -/
theorem witness_AccumulatorAppend : (acc1 QAcc.reset 127 [] []).cask.fresh .m t0 1 ∧ (acc1 QAcc.reset 127 [] []).ownsQ 3 ∧
    (let s := acc1 QAcc.reset 127 [] []
     let a := s.cask.qacc 3
     (s.cask.xreg .m 1).toNat < 128 ∧ (s.cask.xreg .m 2).toNat < 2 ^ 32 ∧ a.tr = false ∧ a.n ≤ a.kc ∧ 1 ≤ a.kc ∧ a.kc ≤ 64 ∧
       a.n ≠ a.kc) := ⟨freshAcc _ _ _ _, ownsQ_of rfl 3, by decide +kernel⟩
theorem witness_AccumulatorAppend_rack : (acc1 oneCol 127 [] []).cask.cleanQ 3 ∧ (let a := (acc1 oneCol 127 [] []).cask.qacc 3
    a.tr = false ∧ a.n = a.kc ∧ 1 ≤ a.kc ∧ a.rack = true ∧ a.b ≠ a.bmax) := ⟨cleanQ_of rfl 3, by decide +kernel⟩

/-- No block, and one block. -/
theorem witness_AccumulatorApply : (acc1 QAcc.reset 0 [] [0]).cask.fresh .m t0 1 ∧ (acc1 QAcc.reset 0 [] [0]).owns 7 ∧
    (acc1 QAcc.reset 0 [] [0]).ownsQ 3 ∧ (acc1 QAcc.reset 0 [] [0]).cask.cp.fq = 0 :: [] ∧ fwCommon 0 = true ∧
    fwAf 0 = Fmt.code .fp32 ∧ blocksOf 3 (acc1 QAcc.reset 0 [] [0]).cask =
      .ok [] (acc1 QAcc.reset 0 [] [0]).cask ∧ (acc1 QAcc.reset 0 [] [0]).cask.cleanTile 7 ∧
    1 ≤ (acc1 QAcc.reset 0 [] [0]).turn.burst :=
  ⟨freshAcc _ _ _ _, owns_of rfl 7, ownsQ_of rfl 3, rfl, rfl, rfl, rfl, cleanTile_of rfl 7, by decide⟩
theorem witness_AccumulatorApply_block : blocksOf 3 (acc1 { oneCol with b := 0 } 0 [] [0]).cask =
    .ok [((acc1 { oneCol with b := 0 } 0 [] [0]).cask.qacc 3).block] (acc1 { oneCol with b := 0 } 0 [] [0]).cask := rfl

theorem witness_EngineRegisters : (∃ e t n ok d v, xValue k0 (.tok .s t0 32) = some (e, t, n, ok, d, v) ∧ k0.cask.fresh e t n ∧ ok) ∧
    (∃ e t n ok d v, xValue k0 (.xset .l t0 15 7) = some (e, t, n, ok, d, v) ∧ k0.cask.fresh e t n ∧ ok) ∧
    (∃ e t n ok d v, xValue k0 (.qcnt t0 15 3) = some (e, t, n, ok, d, v) ∧ k0.cask.fresh e t n ∧ ok) ∧
    ([.nop .l t0, .xadd .m t0 1 2 3, .xaddi .s t0 1 2 3, .xmul .l t0 1 2 3, .vcnt t0 1 2] : List Instr).all
      (fun i => (xValue k0 i).isSome) = true :=
  ⟨⟨_, _, _, _, _, _, rfl, ⟨rfl, rfl, rfl, rfl, rfl, rfl, rfl, rfl, rfl, rfl⟩, by decide⟩, ⟨_, _, _, _, _, _, rfl, fresh0 .l, trivial⟩,
    ⟨_, _, _, _, _, _, rfl, fresh0 .m, ownsQ_of rfl 3⟩, rfl⟩
/-- The last double word of the SPM. -/
theorem witness_EngineRegisters_load : ∃ e t n ok d v,
    xValue (eng1 [(1, 0x1FFFF8)]) (.ldv t0 true false 3 15 1 0) = some (e, t, n, ok, d, v) ∧ (eng1 [(1, 0x1FFFF8)]).cask.fresh e t n ∧ ok :=
  ⟨_, _, _, _, _, _, rfl, fresh1 _ .l, by decide, ⟨by decide +kernel, by decide +kernel⟩, cleanSpm_of rfl _ _⟩

/-- An engine inside lp0, with LOOPB's counter at `r`. -/
def loop1 (r : Nat) : State := at0 fun c =>
  { c with eL := { c.eL with x := [(1, 0xFFFFFF)], rpt := r, lp := [(0, 2)], lpStart := [(0, 1)], count := 3, idx := 2 } }
theorem witness_Loops : (loop1 0).cask.fresh .l t0 1 ∧ 0 < ((loop1 0).cask.xreg .l 1).toNat ∧
    ((loop1 0).cask.xreg .l 1).toNat < 2 ^ 24 ∧ aFind ((loop1 0).cask.eng .l).lpStart 0 = some 1 ∧
    (loop1 1).cask.fresh .l t0 1 ∧ ((loop1 1).cask.eng .l).rpt = 1 ∧ 1 < 2 ^ 24 :=
  ⟨⟨rfl, rfl, rfl, rfl, rfl, rfl, rfl, rfl, rfl, rfl⟩, by decide, by decide, rfl, ⟨rfl, rfl, rfl, rfl, rfl, rfl, rfl, rfl, rfl, rfl⟩, rfl, by decide⟩

/-- Branches not taken, and taken to 0 and to the last place of the window. -/
theorem witness_BranchesAndHalts : k0.cask.fresh .s t0 1 ∧ Cond.holds .ne (k0.cask.xreg .s 0) (k0.cask.xreg .s 0) = false ∧
    Cond.holds .eq (k0.cask.xreg .s 0) (k0.cask.xreg .s 0) = true ∧
    ((k0.cask.eng .s).hoff : Int) + 4 * (0 : BitVec 24).toInt = 0 ∧
    ((k0.cask.eng .s).hoff : Int) + 4 * (0x7FFF : BitVec 24).toInt < imemSize k0.dual := ⟨fresh0 .s, by decide, by decide, by decide, by decide⟩

/-- S stands at an ALIGN that has begun and settled with number 9. -/
def align1 : State := at0 fun c => { c with eS := { c.eS with
  aligned := some 9, flight := some { Flight.start 0 0 0 0 with begun := true } } }
theorem witness_Alignment : align1.cask.fresh .l t0 1 ∧ (align1.cask.eng .s).aligned = some (9 : BitVec 16).toNat ∧
    ∃ f, (align1.cask.eng .s).flight = some f ∧ f.begun = true ∧ f.again = false ∧ f.jump = none ∧ f.jfree = none ∧
      f.hoff = (align1.cask.eng .s).hoff ∧ align1.cask.eS.owed = [] :=
  ⟨⟨rfl, rfl, rfl, rfl, rfl, rfl, rfl, rfl, rfl, rfl⟩, rfl, _, rfl, rfl, rfl, rfl, rfl, rfl, rfl⟩

/-! ### States for words that take several steps -/

/-- An action that completes. -/
def okD {σ α : Type} (r : EStateM.Result Stop σ α) : Bool := match r with
  | .ok _ _ => true
  | .error _ _ => false
theorem ok_of {σ α : Type} {r : EStateM.Result Stop σ α} (h : okD r = true) : ∃ a t, r = .ok a t := by
  cases r with
  | ok a t => exact ⟨a, t, rfl⟩
  | error e t => cases h
/-- One that completes with `n` bytes or codes. -/
def okLen {σ α : Type} (n : Nat) (r : EStateM.Result Stop σ (List α)) : Bool := match r with
  | .ok a _ => decide (a.length = n)
  | .error _ _ => false
theorem okLen_of {σ α : Type} {n : Nat} {r : EStateM.Result Stop σ (List α)} (h : okLen n r = true) :
    ∃ a t, r = .ok a t ∧ a.length = n := by
  cases r with
  | ok a t => exact ⟨a, t, rfl, of_decide_eq_true h⟩
  | error e t => cases h

/-- VAs 0 to 2 MiB map to the same device addresses under ASID 0, readable and writable; at 0x1000 and 0x1080 stand the
blocks A and B of R58. -/
def blocksAB : List Host.Cell := [(0x1004, 2), (0x1008, 4), (0x1009, 3), (0x1010, 2), (0x1011, 15), (0x1012, 4), (0x1013, 3),
  (0x1084, 0x42), (0x1088, 7), (0x1089, 6), (0x1090, 66), (0x1091, 123), (0x1092, 200), (0x1093, 3)]
def mapped (s : State) : State := { s with dev := { s.dev with
  dmem := blocksAB, leaves := [{ ctl := 0, asid := 0, va := 0, lg := 21, pte := 0xF }],
  launches := [(0, { Launch.reset with granted := true, lease := [(0, false)], dwords := (List.replicate 16 0).set 0 (64 <<< 8) })] } }
/-- A nest of `n` points of 1, 2 or 4 bytes from VA 0x1000 on. -/
def nest1 (elog n : Nat) (toSpm : Bool) (target : Nat) : Nest :=
  { Nest.reset with act := { NestCopy.reset with
    base := 0x1000, elog := elog, toSpm := toSpm, target := target, levels := (n, 0x80) :: List.replicate 5 (1, 0) } }
/-- L and S work on the word `f`; x1 = 0x2000, x2 = 1, x4 = 0x100; nest 0 is `n` and ring 0 has the configuration `w`. -/
def busy (f : Flight) (n : Nest) (w : Word) : State :=
  let x : SMap Word := [(1, 0x2000), (2, 1), (4, 0x100)]
  mapped (at0 fun c => { c with
    eL := { c.eL with x := x, flight := some f, nests := [(0, n)] }, eS := { c.eS with x := x, flight := some f, nests := [(0, n)] },
    cp := { c.cp with rings := [(0, { Ring.reset with w0 := w })], dth := 3 } })
def fl (prog : Nat) : Flight := { Flight.start 0 0 0 0 with begun := true, prog := prog }

/-- R64: blocks A and B read as one row at level 1, with descent and the fine row. -/
theorem test_tld : (match (do
      let a ← readBlock .i8 2 1 true 0x1000
      let b ← readBlock .i8 2 1 true 0x1080
      tldGroup 1 128 true true [0x1000, 0x1080] [a, b] : Act (List Nat)) (busy (fl 0) (nest1 0 2 false 0) 0) with
    | .ok rows _ => some (rows.length, rows.headD 0 % 2 ^ 128, rows.headD 0 / 2 ^ 384 % 256, (rows.drop 1).take 5,
        (rows.drop 130).take 9)
    | .error _ _ => none) =
    some (258, 0xD, 2, [10, 251, 128, 5, 0], [12, 8, 251, 251, 100, 156, 7, 4, 0]) := by decide +kernel

/-- Every word that can take several steps begins: from the SPM's end, with one point, with the longest fields. -/
theorem witness_WordsBegin : (∃ e t ok u, startWord (mapped (eng1 [(1, 0x1000)])) (.ldv t0 false true 2 5 1 0) = some (e, t, ok, u) ∧ ok) ∧
    (∃ e t ok u, startWord (eng1 [(1, 0x1FFFF8)]) (.stv t0 true 3 5 1 0) = some (e, t, ok, u) ∧ ok) ∧
    (∃ e t ok u, startWord (eng1 [(1, 0x1000)]) (.stv t0 false 3 5 1 0) = some (e, t, ok, u) ∧ ok) ∧
    (∃ e t ok u, startWord (eng1 [(1, 0x1FF000)]) (.ldn t0 1 1 0 0 4096) = some (e, t, ok, u) ∧ ok) ∧
    (∃ e t ok u, startWord (eng1 [(1, 0x1FF000)]) (.stn t0 1 1 0 0 1) = some (e, t, ok, u) ∧ ok) ∧
    (∃ e t ok u, startWord (eng1 [(2, 0x1FFFFC)]) (.ldg t0 0 1 2 3 0) = some (e, t, ok, u) ∧ ok) ∧
    (∃ e t ok u, startWord (eng1 [(1, 0x1FFFFF)]) (.ldsb t0 true 0 1 0 0) = some (e, t, ok, u) ∧ ok) ∧
    (∃ e t ok u, startWord (eng1 [(1, 0x1FFFFF)]) (.ldsb t0 false 0 1 0 0) = some (e, t, ok, u) ∧ ok) ∧
    (∃ e t ok u, startWord (eng1 [(1, 0x1FF000), (2, 0x1FFFFC)]) (.sct t0 1 2 2 2 2048 0) = some (e, t, ok, u) ∧ ok) ∧
    ∃ e t ok u, startWord (mapped (eng1 [(1, 0x1000), (2, 1)])) (.mcf t0 1 1 2 0 32) = some (e, t, ok, u) ∧ ok :=
  ⟨⟨_, _, _, _, rfl, by decide, by decide +kernel, by decide +kernel⟩, ⟨_, _, _, _, rfl, by decide +kernel, by decide +kernel⟩,
    ⟨_, _, _, _, rfl, by decide +kernel, by decide +kernel⟩,
    ⟨_, _, _, _, rfl, by decide, by decide, ⟨by decide +kernel, by decide +kernel⟩, by decide +kernel, by decide +kernel⟩,
    ⟨_, _, _, _, rfl, by decide, by decide, ⟨by decide +kernel, by decide +kernel⟩, by decide +kernel, by decide +kernel⟩,
    ⟨_, _, _, _, rfl, rfl, by decide +kernel, by decide +kernel, by decide +kernel⟩,
    ⟨_, _, _, _, rfl, rfl, by decide +kernel, by decide +kernel, by decide +kernel, by decide +kernel, by decide +kernel⟩,
    ⟨_, _, _, _, rfl, rfl, by decide +kernel, by decide +kernel, by decide +kernel, by decide +kernel, by decide +kernel⟩,
    ⟨_, _, _, _, rfl, by decide, by decide, ⟨by decide +kernel, by decide +kernel⟩, by decide +kernel, by decide +kernel⟩,
    _, _, _, _, rfl, by decide +kernel, by decide +kernel, by decide +kernel, by decide +kernel, by decide +kernel, by decide +kernel,
    ⟨by decide +kernel, by decide +kernel⟩, ⟨by decide +kernel, by decide +kernel⟩, by decide +kernel⟩
/-- A launched nest, or the reuse option. -/
def ready1 : State := at0 fun c => { c with
  eL := { c.eL with nests := [(0, { nest1 0 1 true 0 with ready := true })] },
  eS := { c.eS with nests := [(0, { nest1 0 1 true 0 with ready := true })] } }
theorem witness_WordsBegin_nests : (∃ e t ok u, startWord ready1 (.ldt t0 false 0) = some (e, t, ok, u) ∧ ready1.cask.fresh e t 1 ∧ ok) ∧
    (∃ e t ok u, startWord ready1 (.stt t0 true 0) = some (e, t, ok, u) ∧ ready1.cask.fresh e t 1 ∧ ok) ∧
    (∃ e t ok u, startWord ready1 (.tld t0 false true true 0 8 8 7) = some (e, t, ok, u) ∧ ready1.cask.fresh e t 1 ∧ ok) ∧
    (∃ e t ok u, startWord ready1 (.trf t0 false 0 7 8 7 8 1 0) = some (e, t, ok, u) ∧ ready1.cask.fresh e t 1 ∧ ok) ∧
    (∃ e t ok u, startWord ready1 (.tstb t0 false 0 8 10) = some (e, t, ok, u) ∧ ready1.cask.fresh e t 1 ∧ ok) ∧
    ∃ e t ok u, startWord ready1 (.tstl t0 false 0 1 6 0) = some (e, t, ok, u) ∧ ready1.cask.fresh e t 1 ∧ ok :=
  ⟨⟨_, _, _, _, rfl, ⟨rfl, rfl, rfl, rfl, rfl, rfl, rfl, rfl, rfl, rfl⟩, Or.inr rfl⟩, ⟨_, _, _, _, rfl, ⟨rfl, rfl, rfl, rfl, rfl, rfl, rfl, rfl, rfl, rfl⟩, Or.inl rfl⟩,
    ⟨_, _, _, _, rfl, ⟨rfl, rfl, rfl, rfl, rfl, rfl, rfl, rfl, rfl, rfl⟩, by decide⟩, ⟨_, _, _, _, rfl, ⟨rfl, rfl, rfl, rfl, rfl, rfl, rfl, rfl, rfl, rfl⟩, by decide⟩,
    ⟨_, _, _, _, rfl, ⟨rfl, rfl, rfl, rfl, rfl, rfl, rfl, rfl, rfl, rfl⟩, Or.inr rfl, by decide, by decide, Or.inr (Or.inr rfl)⟩,
    _, _, _, _, rfl, ⟨rfl, rfl, rfl, rfl, rfl, rfl, rfl, rfl, rfl, rfl⟩, Or.inr rfl, by decide, by decide, by decide, Or.inl rfl⟩
theorem witness_WordsBegin_drain : (∃ e t ok u, startWord (acc1 QAcc.reset 0 [] [0x3000]) (.drn t0 false false 7 0 0 4) = some (e, t, ok, u) ∧
      (acc1 QAcc.reset 0 [] [0x3000]).cask.fresh e t 1) ∧
    (let s : State := at0 fun c => { c with cp := { c.cp with fq := [0x3000] }, eS := { c.eS with x := [(4, 128)] } }
     ∃ e t ok u, startWord s (.drn t0 false true 7 0 0 4) = some (e, t, ok, u) ∧ s.cask.fresh e t 1 ∧ ok) ∧
    ∃ e t ok u, startWord (eng1 [(1, 0x1000), (2, 3)]) (.tstn t0 true 1 2 2 2 2 6 3) = some (e, t, ok, u) ∧ ok :=
  ⟨⟨_, _, _, _, rfl, ⟨rfl, rfl, rfl, rfl, rfl, rfl, rfl, rfl, rfl, rfl⟩⟩,
    ⟨_, _, _, _, rfl, ⟨rfl, rfl, rfl, rfl, rfl, rfl, rfl, rfl, rfl, rfl⟩, owns_of rfl 7, by decide, by decide +kernel, by decide +kernel,
      by decide +kernel, rfl, by decide +kernel, by decide +kernel⟩,
    _, _, _, _, rfl, by decide, by decide, by decide, by decide +kernel, Or.inl rfl, by decide +kernel, by decide +kernel⟩

theorem inWord_busy (k : Nat) (n : Nest) (w : Word) (e : Eng) (h : e ≠ .m) : (busy (fl k) n w).cask.inWord e t0 (fl k) := by
  cases e
  · exact ⟨rfl, rfl, rfl, rfl, rfl, rfl, rfl, rfl, rfl, rfl, rfl, rfl, rfl, rfl, rfl, rfl, rfl, rfl⟩
  · exact absurd rfl h
  · exact ⟨rfl, rfl, rfl, rfl, rfl, rfl, rfl, rfl, rfl, rfl, rfl, rfl, rfl, rfl, rfl, rfl, rfl, rfl⟩
/-- A point all of whose pieces can be stored, or loaded. -/
theorem stored_any {s : State} {p : Point} {store : Nat → List Byte → Act Unit}
    (h : (p.parts.all fun x => okD (store x.2.1 ((p.data.drop x.1).take x.2.2) s)) = true) :
    ∃ rest s1, pieceStored s p store rest s1 := by
  cases k : p.parts[Config.nextPart s.tick p.parts.length % p.parts.length]? with
  | none => exact ⟨p.parts.eraseIdx _, s, by simp only [pieceStored, k]; exact ⟨rfl, trivial⟩⟩
  | some x =>
    obtain ⟨_, t, e⟩ := ok_of (List.all_eq_true.mp h x (List.mem_of_getElem? k))
    exact ⟨p.parts.eraseIdx _, t, by simp only [pieceStored, k]; exact ⟨rfl, e⟩⟩
/-- A point whose pieces hold no poisoned byte and can all be stored. -/
theorem moved_any {s : State} {p : Point} {base : Nat} {store : Nat → List Byte → Act Unit} (c : s.cask.mem.spmP = [])
    (h : (p.parts.all fun x => okD (store x.2.1 (s.cask.spmBytes (base + x.1) x.2.2) s)) = true) :
    ∃ rest s1, pieceMoved s p base store rest s1 := by
  cases k : p.parts[Config.nextPart s.tick p.parts.length % p.parts.length]? with
  | none => exact ⟨p.parts.eraseIdx _, s, by simp only [pieceMoved, k]; exact ⟨rfl, trivial⟩⟩
  | some x =>
    obtain ⟨_, t, e⟩ := ok_of (List.all_eq_true.mp h x (List.mem_of_getElem? k))
    exact ⟨p.parts.eraseIdx _, t, by simp only [pieceMoved, k]; exact ⟨rfl, cleanSpm_of c _ _, e⟩⟩
theorem loaded_any {s : State} {p : Point} {o : Bool} {load : Nat → Nat → Act (List Byte)}
    (h : (p.parts.all fun x => okD (load x.2.1 x.2.2 s)) = true) : ∃ q s1, pieceLoaded s p o load q s1 := by
  cases k : p.parts[if o then 0 else Config.nextPart s.tick p.parts.length % p.parts.length]? with
  | none => exact ⟨p, s, by simp only [pieceLoaded, k, and_self]⟩
  | some x =>
    obtain ⟨bs, t, e⟩ := ok_of (List.all_eq_true.mp h x (List.mem_of_getElem? k))
    exact ⟨_, t, by simp only [pieceLoaded, k]; exact ⟨bs, e, rfl⟩⟩
/-- The last piece of a point. -/
theorem loaded_one {s s1 : State} {p : Point} {o : Bool} {load : Nat → Nat → Act (List Byte)} {x : Nat × Nat × Nat} {bs : List Byte}
    (h : p.parts = [x]) (e : load x.2.1 x.2.2 s = .ok bs s1) :
    pieceLoaded s p o load { p with parts := [], data := p.data.take x.1 ++ bs ++ p.data.drop (x.1 + bs.length) } s1 := by
  unfold pieceLoaded
  rw [h]
  cases o <;> simp [Nat.mod_one, e]
/-- The state of these words, with a nest of two i8 points that targets the SPM. -/
def busySpm (k : Nat) : State := busy (fl k) (nest1 0 2 true 0x100) 0

theorem witness_StoreUnits : (∃ t ok va bs k n s1, storeUnit (busySpm 0) (fl 0) (.stv t0 false 3 2 1 0) = some (t, ok, va, bs, k, n) ∧
      (busySpm 0).cask.inWord .s t (fl 0) ∧ (busySpm 0).turn.burst = 0 ∧ ok ∧ sStore t va bs (busySpm 0).here = .ok () s1) ∧
    (∃ t ok va bs k n s1, storeUnit (busySpm 3) (fl 3) (.stn t0 4 1 0 0 4) = some (t, ok, va, bs, k, n) ∧
      (busySpm 3).cask.inWord .s t (fl 3) ∧ ok ∧ n ≤ k ∧ sStore t va bs (busySpm 3).here = .ok () s1) ∧
    ∃ t ok va bs k n s1, storeUnit (busySpm 1) (fl 1) (.stt t0 true 0) = some (t, ok, va, bs, k, n) ∧
      (busySpm 1).cask.inWord .s t (fl 1) ∧ ok ∧ n ≤ k ∧ sStore t va bs (busySpm 1).here = .ok () s1 := by
  refine ⟨?_, ?_, ?_⟩
  · obtain ⟨_, t, h⟩ := ok_of (r := sStore t0 0x2000 (bytesOf 8 1) (busySpm 0).here) (by decide +kernel)
    exact ⟨_, _, _, _, _, _, t, rfl, inWord_busy 0 _ _ .s (by decide), rfl, trivial, h⟩
  · obtain ⟨_, t, h⟩ := ok_of (r := sStore t0 0x2003 ((busySpm 3).cask.spmBytes 0x103 1) (busySpm 3).here) (by decide +kernel)
    exact ⟨_, _, _, _, _, _, t, rfl, inWord_busy 3 _ _ .s (by decide), ⟨by decide, by decide +kernel, cleanSpm_of rfl _ _⟩, by decide +kernel, h⟩
  · obtain ⟨_, t, h⟩ := ok_of (r := sStore t0 0x1080 ((busySpm 1).cask.spmBytes 0x101 1) (busySpm 1).here) (by decide +kernel)
    exact ⟨_, _, _, _, _, _, t, rfl, inWord_busy 1 _ _ .s (by decide),
      ⟨⟨Or.inl rfl, by decide +kernel⟩, rfl, by decide +kernel, ⟨by decide +kernel, by decide +kernel⟩, ⟨by decide +kernel, by decide +kernel⟩, cleanSpm_of rfl _ _⟩, by decide +kernel, h⟩
/-- The last row of an SCT, of 12 bytes, as it begins, and its last piece. -/
theorem witness_StoreUnits_rows : (busySpm 1).cask.inWord .s t0 (fl 1) ∧ (busySpm 1).turn.burst = 0 ∧ (fl 1).prog ≤ (1 : BitVec 7).toNat ∧
    (busySpm 1).cask.cleanSpm (0x100 + 4) 4 ∧ canonical 0x2000 = true ∧ canonical 0x200B = true ∧
    ∃ rest s1,
      let p : Point := { opened := true, parts := piecesOf 8 0 0x2000 12 }
      pieceMoved ((busySpm 1).withWord .s { fl 1 with pt := p }) p (0x100 + 12) (sStore t0) rest s1 :=
  ⟨inWord_busy 1 _ _ .s (by decide), rfl, by decide, cleanSpm_of rfl _ _, by decide, by decide, moved_any rfl (by decide +kernel)⟩
def fl1 : Flight := { fl 1 with pt := { opened := true, parts := [(8, 0x2008, 4)] } }
theorem witness_StoreUnits_piece : (busy fl1 Nest.reset 0).cask.inWord .s t0 fl1 ∧ fl1.pt.opened = true ∧
    ∃ rest s1, pieceMoved ((busy fl1 Nest.reset 0).withWord .s fl1) fl1.pt (0x100 + 12) (sStore t0) rest s1 :=
  ⟨⟨rfl, rfl, rfl, rfl, rfl, rfl, rfl, rfl, rfl, rfl, rfl, rfl, rfl, rfl, rfl, rfl, rfl, rfl⟩, rfl, moved_any rfl (by decide +kernel)⟩

theorem witness_ScalarAccesses : (busySpm 0).cask.inWord .s t0 (fl 0) ∧ (busySpm 0).cask.inWord .l t0 (fl 0) ∧
    ∃ bs s1, memLoad ((busySpm 0).cask.xea .l 1 0) (2 ^ (3 : BitVec 2).toNat) (busySpm 0).here = .ok bs s1 ∧
      bs.length = 2 ^ (3 : BitVec 2).toNat :=
  ⟨inWord_busy 0 _ _ .s (by decide), inWord_busy 0 _ _ .l (by decide), okLen_of (by decide +kernel)⟩

/-- What a word of S has stored inside a line is loaded. -/
theorem witness_LoadUnits_stored : (∀ l ∈ ((busySpm 0).core (busySpm 0).turn.core).l1, l.data.length = 128) ∧
    0x2078 % 128 + (bytesOf 8 1).length ≤ 128 ∧ ∃ t, sStore t0 0x2078 (bytesOf 8 1) (busySpm 0) = .ok () t :=
  ⟨by decide +kernel, by decide, let ⟨_, t, h⟩ := ok_of (r := sStore t0 0x2078 (bytesOf 8 1) (busySpm 0)) (by decide +kernel); ⟨t, h⟩⟩
theorem witness_LoadUnits : (∃ t ok va n a k m bs s1, loadUnit (busySpm 3) (fl 3) (.ldn t0 4 1 0 0 4) = some (t, ok, va, n, a, k, m) ∧
      (busySpm 3).cask.inWord .l t (fl 3) ∧ (busySpm 3).turn.burst = 0 ∧ ok ∧ m ≤ k ∧
      memLoad va n (busySpm 3).here = .ok bs s1 ∧ bs.length = n) ∧
    ∃ t ok va n a k m bs s1, loadUnit (busySpm 1) (fl 1) (.ldt t0 true 0) = some (t, ok, va, n, a, k, m) ∧
      (busySpm 1).cask.inWord .l t (fl 1) ∧ ok ∧ m ≤ k ∧ memLoad va n (busySpm 1).here = .ok bs s1 ∧ bs.length = n := by
  refine ⟨?_, ?_⟩
  · obtain ⟨bs, t, h, l⟩ := okLen_of (r := memLoad 0x2003 1 (busySpm 3).here) (n := 1) (by decide +kernel)
    exact ⟨_, _, _, _, _, _, _, bs, t, rfl, inWord_busy 3 _ _ .l (by decide), rfl, ⟨by decide, by decide +kernel⟩, by decide +kernel, h, l⟩
  · obtain ⟨bs, t, h, l⟩ := okLen_of (r := memLoad 0x1080 1 (busySpm 1).here) (n := 1) (by decide +kernel)
    exact ⟨_, _, _, _, _, _, _, bs, t, rfl, inWord_busy 1 _ _ .l (by decide),
      ⟨⟨Or.inl rfl, by decide +kernel⟩, rfl, by decide +kernel, ⟨by decide +kernel, by decide +kernel⟩, by decide +kernel, by decide +kernel⟩,
      by decide +kernel, h, l⟩

/-- Ring 0 has one slot of one fp32 element, and nest 0 two such points. -/
def busyRing (k : Nat) : State := busy (fl k) (nest1 2 2 false 0) 0
theorem witness_RingLoads_points : ∃ v p s1, fillStep (busyRing 1) (fl 1) (.ldt t0 true 0) = some v ∧ (busyRing 1).cask.inWord .l v.tk (fl 1) ∧
    (busyRing 1).turn.burst = 0 ∧ v.ok ∧ ((busyRing 1).cask.ring v.ring).pipe = false ∧ ((busyRing 1).cask.ring v.ring).toPipe = none ∧
    ((busyRing 1).cask.ring v.ring).depth < ((busyRing 1).cask.ring v.ring).slots ∧
    pieceLoaded ((busyRing 1).withWord .l v.word) v.word.pt v.ordered v.load p s1 := by
  obtain ⟨p, s1, h⟩ := loaded_any (s := (busyRing 1).withWord .l { fl 1 with
      rings := [0], pt := { opened := true, parts := [(0, 0x1080, 4)], data := List.replicate 4 0 } })
    (p := { opened := true, parts := [(0, 0x1080, 4)], data := List.replicate 4 0 }) (o := true)
    (load := fun va m => do
      checkMem va 4
      memLoad va m) (by decide +kernel)
  exact ⟨_, p, s1, rfl, inWord_busy 1 _ _ .l (by decide), rfl, ⟨⟨Or.inl rfl, by decide +kernel⟩, rfl, by decide +kernel, by decide +kernel⟩,
    rfl, rfl, by decide +kernel, h⟩
theorem witness_RingLoads_rows : ∃ v p s1, fillStep (busyRing 0) (fl 0) (.ldg t0 0 1 4 2 0) = some v ∧ (busyRing 0).cask.inWord .l v.tk (fl 0) ∧
    v.ok ∧ ((busyRing 0).cask.ring v.ring).depth < ((busyRing 0).cask.ring v.ring).slots ∧
    pieceLoaded ((busyRing 0).withWord .l v.word) v.word.pt v.ordered v.load p s1 := by
  obtain ⟨p, s1, h⟩ := loaded_any (s := (busyRing 0).withWord .l { fl 0 with
      rings := [0], aux := [], pt := { opened := true, parts := [(0, 0x2000, 4)], data := List.replicate 4 0 } })
    (p := { opened := true, parts := [(0, 0x2000, 4)], data := List.replicate 4 0 }) (o := false) (load := memLoad) (by decide +kernel)
  refine ⟨_, p, s1, rfl, inWord_busy 0 _ _ .l (by decide), ⟨fun _ => cleanSpm_of rfl _ _, ?_⟩, by decide +kernel, h⟩
  intro i _ hi
  obtain rfl : 0 = i := Option.some.inj hi
  exact ⟨⟨by decide +kernel, by decide +kernel⟩, by decide +kernel⟩
theorem witness_RingLoads_scales : (∃ v p s1, fillStep (busyRing 0) (fl 0) (.ldsb t0 true 0 1 0 0) = some v ∧
      (busyRing 0).cask.inWord .l v.tk (fl 0) ∧ v.ok ∧
      pieceLoaded ((busyRing 0).withWord .l v.word) v.word.pt v.ordered v.load p s1) ∧
    ∃ v p s1, fillStep (busyRing 0) (fl 0) (.ldsb t0 false 0 1 0 0) = some v ∧ v.ok ∧
      pieceLoaded ((busyRing 0).withWord .l v.word) v.word.pt v.ordered v.load p s1 := by
  constructor
  · obtain ⟨p, s1, h⟩ := loaded_any (s := (busyRing 0).withWord .l { fl 0 with
        rings := [0], pt := { opened := true, parts := [(0, 0x2000, 1)], data := List.replicate 1 0 } })
      (p := { opened := true, parts := [(0, 0x2000, 1)], data := List.replicate 1 0 }) (o := false)
      (load := fun a k => onCask (spmLoad a k)) (by decide +kernel)
    exact ⟨_, p, s1, rfl, inWord_busy 0 _ _ .l (by decide), ⟨rfl, rfl, fun h => (by cases h)⟩, h⟩
  · obtain ⟨p, s1, h⟩ := loaded_any (s := (busyRing 0).withWord .l { fl 0 with
        rings := [0], pt := { opened := true, parts := [(0, 0x2000, 1)], data := List.replicate 1 0 } })
      (p := { opened := true, parts := [(0, 0x2000, 1)], data := List.replicate 1 0 }) (o := false) (load := memLoad) (by decide +kernel)
    exact ⟨_, p, s1, rfl, ⟨rfl, rfl, fun _ => by decide +kernel⟩, h⟩

/-- Ring 0 has slots of one row of 128 i8 elements, popped as fp32; nest 0 has the blocks A and B. -/
def busyTree (f : Flight) : State :=
  let s := busy f (nest1 0 2 false 0) 0x00600001FC000000
  s.setCask (s.cask.setSpm 0x100 [13])
/-- What the word has read of block A. -/
def blkA (read : Nat → Nat → Nat → Act BlkRead) (m : Nat) : BlkRead := match read m 0 0x1000 (busyTree (fl 0)) with
  | .ok b _ => b
  | .error .. => { hdr := { scl := 0, wrap := false, fmt := 0, levels := 0, ver := 0, maxd := 0 } }
def readTld : Nat → Nat → Nat → Act BlkRead := fun _ _ va => readBlock .i8 2 1 true va
def readTrf : Nat → Nat → Nat → Act BlkRead := fun m slot va => refineBlock .i8 2 1 2 m slot va
/-- The word before block A, and before block B. -/
theorem witness_TreeLoadUnits : ∃ t ok n kk m read rows, rowWord (busyTree (fl 0)) (fl 0) (.tld t0 true true true 0 1 2 1) =
      some (t, ok, n, kk, m, read, rows) ∧ (busyTree (fl 0)).cask.inWord .l t (fl 0) ∧ (busyTree (fl 0)).turn.burst = 0 ∧ ok ∧
    ((busyTree (fl 0)).cask.firing .l n).toSpm = false ∧ ((busyTree (fl 0)).cask.ring 0).rows = 1 ∧
    blockFmt ((busyTree (fl 0)).cask.firing .l n).elem = some ((busyTree (fl 0)).cask.ring 0).srcf ∧
    ((busyTree (fl 0)).cask.ring 0).pipe = false ∧ ((busyTree (fl 0)).cask.ring 0).toPipe = none ∧ (fl 0).aux.drop 1 = [] ∧
    (((busyTree (fl 0)).cask.firing .l n).group kk 0)[0]? = some 0x1000 ∧
    okD (read m 0 0x1000 ((busyTree (fl 0)).withWord .l { fl 0 with rings := [0], pt := { opened := true, mask := m } })) = true :=
  ⟨_, _, _, _, _, _, _, rfl, ⟨rfl, rfl, rfl, rfl, rfl, rfl, rfl, rfl, rfl, rfl, rfl, rfl, rfl, rfl, rfl, rfl, rfl, rfl⟩, rfl,
    ⟨⟨Or.inl rfl, by decide +kernel⟩, by decide +kernel, by decide +kernel⟩, rfl, by decide +kernel, by decide +kernel, by decide +kernel,
    rfl, rfl, by decide +kernel, by decide +kernel⟩
/-- Whether the last block of a group makes its rows. -/
def lastBlock (read : Nat → Nat → Nat → Act BlkRead) (rows : List Nat → List BlkRead → Act (List Nat)) (m : Nat) : Bool :=
  let p : Point := { opened := true, mask := m, blks := [blkA read m] }
  let w : Flight := { fl 0 with rings := [0], pt := p }
  match read m 1 0x1080 ((busyTree w).withWord .l w) with
  | .ok b s1 =>
    let bs := p.blks ++ [b]
    okD (rows [0x1000, 0x1080] bs (s1.withWord .l { w with pt := { p with blks := bs } }))
  | .error .. => false
theorem witness_TreeLoadUnits_last : lastBlock readTld (tldGroup 1 128 true true) 0 = true ∧ lastBlock readTrf (trfGroup 1 2 128) 13 = true := by
  decide +kernel
theorem witness_TreeLoadUnits_refine : ∃ t ok n kk m read rows, rowWord (busyTree (fl 0)) (fl 0) (.trf t0 true 0 1 2 1 2 4 0) =
      some (t, ok, n, kk, m, read, rows) ∧ ok ∧ m = 13 ∧
    okD (read m 0 0x1000 ((busyTree (fl 0)).withWord .l { fl 0 with rings := [0], pt := { opened := true, mask := m } })) = true :=
  ⟨_, _, _, _, _, _, _, rfl, ⟨⟨Or.inl rfl, by decide +kernel⟩, by decide +kernel, by decide +kernel,
    fun _ => ⟨⟨by decide +kernel, by decide +kernel⟩, cleanSpm_of rfl _ _⟩⟩, by decide +kernel, by decide +kernel⟩
/-- A row of zeros that waits for its slot, the last of its group. -/
theorem witness_TreeLoadUnits_row : (let f : Flight := { fl 0 with aux := 1 :: 0 :: List.replicate 128 0 }
    let s := busyTree f
    (s.cask.inWord .l t0 f ∧ f.aux = 1 :: 0 :: List.replicate 128 0) ∧ (s.cask.ring 0).depth < (s.cask.ring 0).slots) :=
  ⟨⟨⟨rfl, rfl, rfl, rfl, rfl, rfl, rfl, rfl, rfl, rfl, rfl, rfl, rfl, rfl, rfl, rfl, rfl, rfl⟩, rfl⟩, by decide +kernel⟩

/-- The last point of a DRN, its scale block, as it begins and before its last piece; its first row as it begins. -/
def flDrn (p : Nat) (pt : Point) : Flight := { fl p with fmtw := some 0x3000, pt := pt, scales := List.replicate p 2 }
theorem inWord_drn (p : Nat) (pt : Point) : (busy (flDrn p pt) Nest.reset 0).cask.inWord .s t0 (flDrn p pt) :=
  ⟨rfl, rfl, rfl, rfl, rfl, rfl, rfl, rfl, rfl, rfl, rfl, rfl, rfl, rfl, rfl, rfl, rfl, rfl⟩
theorem witness_DrainUnits : (busy (flDrn 128 Point.none) Nest.reset 0).turn.burst = 0 ∧ (flDrn 128 Point.none).fmtw = some 0x3000 ∧
    (flDrn 128 Point.none).prog < 129 ∧ canonical 0xA000 = true ∧ canonical (0xA000 + 127) = true ∧
    (((busy (flDrn 128 Point.none) Nest.reset 0).cask.xreg .s 1).toNat +
      128 * ((busy (flDrn 128 Point.none) Nest.reset 0).cask.xreg .s 4).toNat) % 2 ^ 64 = 0xA000 ∧
    ∃ rest s1,
      let p : Point := { opened := true, parts := piecesOf 1 0 0xA000 128, data := scaleBlock false (List.replicate 128 2) }
      pieceStored ((busy (flDrn 128 Point.none) Nest.reset 0).setCask ((busy (flDrn 128 Point.none) Nest.reset 0).cask.updFlight .s
        fun _ => { flDrn 128 Point.none with pt := p })) p (sStore t0) rest s1 :=
  ⟨rfl, rfl, by decide, by decide, by decide, by decide +kernel, stored_any (by decide +kernel)⟩
def lastPt : Point := { opened := true, parts := [(127, 0xA07F, 1)], data := List.replicate 128 2 }
theorem witness_DrainUnits_last : (busy (flDrn 128 lastPt) Nest.reset 0).cask.inWord .s t0 (flDrn 128 lastPt) ∧
    (∃ rest s1, pieceStored ((busy (flDrn 128 lastPt) Nest.reset 0).setCask ((busy (flDrn 128 lastPt) Nest.reset 0).cask.updFlight .s
      fun _ => { flDrn 128 lastPt with pt := lastPt })) lastPt (sStore t0) rest s1) :=
  ⟨inWord_drn _ _, stored_any (by decide +kernel)⟩
theorem witness_DrainUnits_row : (busy (flDrn 0 Point.none) Nest.reset 0).cask.cleanFor 7 .row 0 ∧
    (let s := busy (flDrn 0 Point.none) Nest.reset 0
     let row := (List.range 128).map fun k => s.cask.word 7 (128 * 0 + k)
     let es := drainCodes false 0x3000 row
     let y := tally (outFmt 0x3000) es
     let codes := packCodes (outFmt 0x3000) (es.map (·.1))
     let p : Point := { opened := true, parts := piecesOf (Nat.min 8 (outFmt 0x3000).bytes) 0 0x2000 codes.length, data := codes,
                        scale := rowScale false 0x3000 (drainVals 0x3000 row), counts := [y.nans, y.infs, y.sats, y.wraps] }
     ∃ rest s1, pieceStored (s.setCask ((s.cask.record y.fl 0 0 0 0).updFlight .s fun _ => { flDrn 0 Point.none with pt := p })) p
       (sStore t0) rest s1) :=
  ⟨fun p hp => (by cases hp), stored_any (by decide +kernel)⟩

/-! ### Trees, nodes, multicast fills -/

/-- The block A written again by S: nest 0 has one i8 block; its values stand from SPM address 0x100 on. -/
def busyStore : State := busy (fl 0) (nest1 0 1 true 0x100) 0
theorem witness_TreeStoreUnits : busyStore.cask.inWord .s t0 (fl 0) ∧ busyStore.turn.burst = 0 ∧ busyStore.cask.fires .s true 0 (fl 0) ∧
    Fmt.ofCode (6 : BitVec 4).toNat = some .i8 ∧ (busyStore.cask.firing .s 0).toSpm = true ∧
    blockFmt (busyStore.cask.firing .s 0).elem = some .i8 ∧ (fl 0).prog < (busyStore.cask.firing .s 0).points ∧
    blockPlaced ((busyStore.cask.firing .s 0).point 0) .i8 2 = true ∧ busyStore.spmAt 0x100 4 1 ∧ busyStore.cask.cleanSpm 0x100 4 ∧
    ∃ loc s1, (do dropRange 0x1000 (prefixBytes .i8 2); blockHome 0x1000 .i8 2 : Act Loc) busyStore.here = .ok loc s1 ∧
      ∃ h s2, homeHdr 0x1000 loc .i8 2 1 s1 = .ok h s2 := by
  have e : okD ((do let loc ← (do dropRange 0x1000 (prefixBytes .i8 2); blockHome 0x1000 .i8 2 : Act Loc); homeHdr 0x1000 loc .i8 2 1)
    busyStore.here) = true := by decide +kernel
  obtain ⟨h, s2, k⟩ := ok_of e
  obtain ⟨loc, s1, k1, k2⟩ := of_bind_ok k
  exact ⟨inWord_busy 0 _ _ .s (by decide), rfl, ⟨Or.inl rfl, by decide +kernel⟩, rfl, rfl, rfl, by decide +kernel, by decide +kernel,
    ⟨by decide +kernel, by decide +kernel⟩, cleanSpm_of rfl _ _, loc, s1, k1, h, s2, k2⟩

theorem witness_NodeStores : busyStore.cask.inWord .s t0 (fl 0) ∧ (fl 0).jfree = none ∧ busyStore.turn.burst = 0 ∧
    ∃ s1, flushRange (busyStore.cask.xreg .s 1).toNat (prefixBytes .i8 2) busyStore.here = .ok () s1 ∧
      (s1.cask.yy.queue 3).length < 64 ∧ s1.cask.yy.jheld < 336 :=
  ⟨inWord_busy 0 _ _ .s (by decide), rfl, rfl, _, rfl, by decide +kernel, by decide +kernel⟩

/-- An MCF of one line, to the core itself, as it begins and before its last piece. -/
def flMcf : Flight := { fl 0 with pt := { opened := true, parts := [(120, 0x2078, 8)], data := List.replicate 128 0 } }
theorem witness_MulticastFills : busyStore.cask.inWord .l t0 (fl 0) ∧ memAt ((busyStore.cask.xea .l 1 0 + 256 * 0) % 2 ^ 64) 128 ∧
    (fl 0).prog < ((1 : BitVec 6).toNat + 1) / 2 ∧
    (let q : Point := { opened := true, parts := piecesOf 8 0 0x2000 128, data := List.replicate 128 0 }
     ∃ p s1, pieceLoaded (busyStore.withWord .l { fl 0 with pt := q }) q false homeLoad p s1) ∧
    mcfCores busyStore.turn.core (busyStore.cask.mcfMask 2) = [0] :=
  ⟨inWord_busy 0 _ _ .l (by decide), ⟨by decide +kernel, by decide +kernel⟩, by decide, loaded_any (by decide +kernel), by decide +kernel⟩
theorem witness_MulticastFills_last : let s := busy flMcf Nest.reset 0
    s.cask.inWord .l t0 flMcf ∧ ∃ p s1, pieceLoaded (s.withWord .l flMcf) flMcf.pt false homeLoad p s1 ∧ p.parts = [] ∧
      p.data.length = 128 ∧ s1.launch.ordOf 0 = some 0 ∧ aFind s1.launch.saved 0 = none ∧ s1.launch.lease[0]? = some (0, false) ∧
      (s1.caskAt 0 false).st.live = true := by
  refine ⟨⟨rfl, rfl, rfl, rfl, rfl, rfl, rfl, rfl, rfl, rfl, rfl, rfl, rfl, rfl, rfl, rfl, rfl, rfl⟩, ?_⟩
  have e : (match homeLoad 0x2078 8 ((busy flMcf Nest.reset 0).withWord .l flMcf) with
      | .ok bs s1 => decide (bs.length = 8 ∧ s1.launch.ordOf 0 = some 0 ∧ aFind s1.launch.saved 0 = none ∧
          s1.launch.lease[0]? = some (0, false) ∧ (s1.caskAt 0 false).st.live = true)
      | .error .. => false) = true := by decide +kernel
  split at e
  · next bs s1 h =>
    have e := of_decide_eq_true e
    refine ⟨_, s1, loaded_one rfl h, rfl, ?_, e.2⟩
    simp [flMcf, e.1]
  · cases e

/-! ### K -/

/-- The last double words of the KLM: below the journal for a user, at the end for a handler. -/
theorem witness_LocalAccesses : (let ea := ((reg1 0x2FFF8).cask.sreg 1 + (0 : BitVec 32).signExtend 64).toNat; ea < 0x40000 ∧ ea % 8 = 0 ∧ ea + 8 ≤ klmUser (reg1 0).dual) ∧
    (let ea := ((h1 0x3FFF8).cask.sreg 1 + (0 : BitVec 32).signExtend 64).toNat; ea < 0x40000 ∧ ea % 8 = 0 ∧ ea + 8 ≤ klmSize (h1 0).dual) ∧ (h1 0x3FFF8).cask.cleanKlm 0x3FFF8 8 ∧
    ∃ t, releaseFor (some .system) ((h1 0x3FFF8).setCask ((h1 0x3FFF8).cask.setKlm 0x3FFF8 (bytesOf 8 7))) = .ok () t := by
  refine ⟨by decide +kernel, by decide +kernel, cleanKlm_of rfl _ _, ?_⟩
  have e : okD (releaseFor (some .system) ((h1 0x3FFF8).setCask ((h1 0x3FFF8).cask.setKlm 0x3FFF8 (bytesOf 8 7)))) = true := by
    decide +kernel
  obtain ⟨_, t, k⟩ := ok_of e
  exact ⟨t, k⟩

/-- The first address behind the local window, which maps. -/
def memK : State := mapped (reg1 0x40000)
theorem witness_MemoryAccesses : (0x40000 ≤ (memK.cask.sreg 1 + (0 : BitVec 32).signExtend 64).toNat ∧
      memAt (memK.cask.sreg 1 + (0 : BitVec 32).signExtend 64).toNat 8) ∧
    (∃ xs t, kLoad 0x40000 8 memK = .ok xs t ∧ xs.length = 8) ∧ (∃ xs t, kLoadHome 0x40000 8 memK = .ok xs t ∧ xs.length = 8) ∧
    (∃ l t, translate memK.turn.core memK.cask.kr.asid 0x40000 .write memK = .ok l t) ∧
    ∃ l s1 s2 t, translate memK.turn.core memK.cask.kr.asid 0x40000 .write memK = .ok l s1 ∧ release .system s1 = .ok () s2 ∧
      kStoreHome 0x40000 (bytesOf 8 5) s2 = .ok () t := by
  refine ⟨⟨by decide +kernel, by decide +kernel, by decide +kernel⟩, okLen_of (by decide +kernel), okLen_of (by decide +kernel),
    ok_of (by decide +kernel), ?_⟩
  have e : okD ((do let _ ← translate memK.turn.core memK.cask.kr.asid 0x40000 .write; release .system; kStoreHome 0x40000 (bytesOf 8 5)) memK) =
    true := by decide +kernel
  obtain ⟨_, t, k⟩ := ok_of e
  obtain ⟨l, s1, k1, k2⟩ := of_bind_ok k
  obtain ⟨_, s2, k3, k4⟩ := of_bind_ok k2
  exact ⟨l, s1, s2, t, k1, k3, k4⟩

/-- A line of the L1 with `dirty` bytes, of a page of type `ty`. -/
def l1Of (dirty : BitVec 128) (ty : Nat) : L1Line :=
  { asid := 0, line := 0x800, data := List.replicate 128 9, dirty := dirty, pois := 0, gDie := 0, gDev := 0, gSys := 0, fill := 0, w := true,
    ty := ty, stale := false }
/-- That state, with that line. -/
def holding (s : State) (l : L1Line) : State := s.setCore 0 { s.core 0 with l1 := [l] }
theorem ok_u {r : EStateM.Result Stop State Unit} (h : okD r = true) : ∃ t, r = .ok () t := by
  obtain ⟨_, t, k⟩ := ok_of h
  exact ⟨t, k⟩
theorem witness_MemoryAccesses_forward : (bytesOf 8 5 ≠ [] ∧ 0x40078 % 128 + (bytesOf 8 5).length ≤ 128) ∧
    (∀ l ∈ ((holding memK (l1Of 1 0)).core 0).l1, l.data.length = 128) ∧ ∃ t xs u, kStore 0x40078 (bytesOf 8 5) (holding memK (l1Of 1 0)) = .ok () t ∧
      kLoad 0x40078 (bytesOf 8 5).length t = .ok xs u := by
  refine ⟨by decide +kernel, by decide +kernel, ?_⟩
  have e : okD ((do kStore 0x40078 (bytesOf 8 5); kLoad 0x40078 (bytesOf 8 5).length) (holding memK (l1Of 1 0))) = true := by decide +kernel
  obtain ⟨xs, u, k⟩ := ok_of e
  obtain ⟨_, t, k1, k2⟩ := of_bind_ok k
  exact ⟨t, xs, u, k1, k2⟩
theorem witness_MemoryAccesses_home : (holding memK (l1Of 1 0)).memoriesWf = true ∧ (∀ x ∈ (holding memK (l1Of 1 0)).dev.l2, x.data.length = 128) ∧
    ∃ l s1 t, translate 0 (holding memK (l1Of 1 0)).cask.kr.asid 0x40000 .write (holding memK (l1Of 1 0)) = .ok l s1 ∧
      kStoreHome 0x40000 (bytesOf 8 5) (holding memK (l1Of 1 0)) = .ok () t ∧
      ((t.core 0).lineAt l.asid (l.va / 128)).all (fun x => decide (x.data.length = 128)) = true ∧
      ((t.core 0).lineAt l.asid (l.va / 128)).isSome = true := by
  have e : (match translate 0 (holding memK (l1Of 1 0)).cask.kr.asid 0x40000 .write (holding memK (l1Of 1 0)),
      kStoreHome 0x40000 (bytesOf 8 5) (holding memK (l1Of 1 0)) with
    | .ok l _, .ok _ t => decide (((t.core 0).lineAt l.asid (l.va / 128)).all (fun x => decide (x.data.length = 128)) = true ∧
        ((t.core 0).lineAt l.asid (l.va / 128)).isSome = true)
    | _, _ => false) = true := by decide +kernel
  refine ⟨by decide +kernel, by decide +kernel, ?_⟩
  split at e
  · next l s1 _ t h1 h2 => exact ⟨l, s1, t, h1, h2, of_decide_eq_true e⟩
  · cases e

/-- A line of system class that an acquire at die scope leaves fresh. -/
def lined : State := holding k0 (l1Of 0 1)
theorem witness_OrderingWords : (∃ l, l ∈ ((lined.acquire .die).core 0).l1 ∧ (lined.acquire .die).fresh 0 false l = true) ∧
    ∃ t, release .die memK = .ok () t :=
  ⟨⟨(((lined.acquire .die).core 0).l1.headD ⟨0, 0, [], 0, 0, 0, 0, 0, 0, true, 0, false⟩), by decide +kernel, by decide +kernel⟩,
    ok_u (by decide +kernel)⟩
/-- The only dirty line, of a page that maps. -/
theorem witness_OrderingWords_release : let s := holding memK (l1Of 3 0)
    s.memoriesWf = true ∧ (∀ x ∈ s.dev.l2, x.data.length = 128) ∧ s.cask.st.sbuf = [] ∧ l1Of 3 0 ∈ (s.core s.turn.core).l1 ∧
      (l1Of 3 0).data.length = 128 ∧ (l1Of 3 0).dirty ≠ 0 ∧ s.classOf s.turn.core 0 0 (0x800 * 128) ≤ scopeClass .system ∧
      (∀ x ∈ (s.core s.turn.core).l1, x ≠ l1Of 3 0 → x.dirty = 0) ∧ (s.core s.turn.core).l1.Nodup ∧
      (∃ loc r s1, translate1 (some s.turn.core) (s.dev.partOfCore s.turn.core) 0 (0x800 * 128) .write true s = .ok (loc, r) s1) ∧
      ∃ t, release .system s = .ok () t := by
  refine ⟨by decide +kernel, by decide +kernel, rfl, by decide +kernel, by decide +kernel, by decide, by decide +kernel,
    by decide +kernel, by decide +kernel, ?_, ok_u (by decide +kernel)⟩
  obtain ⟨x, t, k⟩ := ok_of (r := translate1 (some (holding memK (l1Of 3 0)).turn.core)
    ((holding memK (l1Of 3 0)).dev.partOfCore (holding memK (l1Of 3 0)).turn.core) 0 (0x800 * 128) .write true (holding memK (l1Of 3 0)))
    (by decide +kernel)
  exact ⟨x.1, x.2, t, k⟩
/-- A command whose return data K has not joined, at system class. -/
theorem witness_OrderingWords_joins : let u : Unjoined := { queue := 0, cnum := 1, cls := 3, evs := [], rec_ := none }
    let s := lined.updCask fun c => { c with yy := { c.yy with unjoined := [u] } }
    (∀ u ∈ s.cask.yy.unjoined, u.cls ≤ 3) ∧ u ∈ s.cask.yy.unjoined ∧ l1Of 0 1 ∈ (s.core 0).l1 ∧ s.classOf s.turn.core 1 0 (0x800 * 128) ≤ 3 := by
  decide +kernel

/-- One word of each kind with what it needs, at the ends of the operands' ranges. -/
theorem witness_CaskWords : k0.cask.kr.priv = false ∧
    (∃ ok r d f, caskWord k0 (.nestl (km true false true false) 7 5 1) = some (ok, r, d, f) ∧ ok ∧ r) ∧
    (∃ ok r d f, caskWord (reg1 0x1FFF80) (.ringc 15 1) = some (ok, r, d, f) ∧ ok ∧ r) ∧
    (∃ ok r d f, caskWord k0 (.fmt 1) = some (ok, r, d, f) ∧ ok ∧ r) ∧
    (∃ ok r d f, caskWord (reg1 0xFFFFFF) (.loopb (km true true true false) 1 255 255) = some (ok, r, d, f) ∧ ok ∧ r) ∧
    (∃ ok r d f, caskWord (reg1 0xAAA) (.ewr (km false false false false) 0x26 1) = some (ok, r, d, f) ∧ ok ∧ r) ∧
    (∃ ok r d f, caskWord (reg1 0x3FFE0) (.cpw 3 1 0) = some (ok, r, d, f) ∧ ok ∧ r) ∧
    (∃ ok r d f, caskWord k0 (.waitq 3 64) = some (ok, r, d, f) ∧ ok ∧ r) ∧
    (∃ ok r d f, caskWord (reg1 0x80000001) (.waite 15 1 0) = some (ok, r, d, f) ∧ ok ∧ r) ∧
    (∃ ok r d f, caskWord k0 (.sige 15 1) = some (ok, r, d, f) ∧ ok ∧ r) ∧
    (∃ ok r d f, caskWord k0 (.mark 7 (km true true true true)) = some (ok, r, d, f) ∧ ok ∧ r) ∧
    ∃ ok r d f, caskWord k0 (.rdvw 0xFFFF) = some (ok, r, d, f) ∧ ok ∧ r :=
  ⟨rfl, ⟨_, _, _, _, rfl, trivial, by decide +kernel⟩, ⟨_, _, _, _, rfl, by decide +kernel, by decide +kernel⟩,
    ⟨_, _, _, _, rfl, trivial, by decide +kernel⟩, ⟨_, _, _, _, rfl, by decide +kernel, by decide +kernel⟩,
    ⟨_, _, _, _, rfl, ⟨by decide, fun _ => by decide +kernel⟩, trivial⟩,
    ⟨_, _, _, _, rfl, ⟨by decide +kernel, by decide +kernel, cleanKlm_of rfl _ _⟩, trivial⟩,
    ⟨_, _, _, _, rfl, by decide +kernel, by decide +kernel⟩, ⟨_, _, _, _, rfl, trivial, by decide +kernel⟩,
    ⟨_, _, _, _, rfl, trivial, trivial⟩, ⟨_, _, _, _, rfl, fun l h => (by cases h), rfl⟩, _, _, _, _, rfl, rfl, rfl⟩
/-- A word that has to wait: a full format queue, a nest still waiting, one marker before. -/
theorem witness_CaskWords_waits : (∃ ok r d f, caskWord (at0 fun c => { c with cp := { c.cp with fq := List.replicate 32 0 } }) (.fmt 1) =
      some (ok, r, d, f) ∧ ok ∧ ¬ r) ∧
    (∃ ok r d f, caskWord ready1 (.nestl (km true false true false) 0 5 1) = some (ok, r, d, f) ∧ ok ∧ ¬ r) ∧
    ∃ ok r d f, caskWord k0 (.waite 15 0 1) = some (ok, r, d, f) ∧ ok ∧ ¬ r :=
  ⟨⟨_, _, _, _, rfl, trivial, by decide +kernel⟩, ⟨_, _, _, _, rfl, trivial, by decide +kernel⟩, _, _, _, _, rfl, trivial, by decide +kernel⟩

/-- The highest SPM target and the highest ring; CPGO with all quarters written, or with .reuse; an aligned chain. -/
theorem witness_JournalledIssues : (let w := (reg1 0x1FFFFF04).cask.sreg 1; w.toNat / 2 ^ 29 = 0 ∧ w.toNat / 2 ^ 3 % 2 ^ 5 = 0 ∧ w.toNat / 2 ^ 8 % 2 ^ 21 < (if w.getLsbD 2 then spmSize false else 16)) ∧
    (let w := (reg1 0xF00).cask.sreg 1; w.toNat / 2 ^ 29 = 0 ∧ w.toNat / 2 ^ 3 % 2 ^ 5 = 0 ∧ w.toNat / 2 ^ 8 % 2 ^ 21 < (if w.getLsbD 2 then spmSize false else 16)) ∧
    (∀ e ∈ KMask.engines (km true false true false), ((reg1 0xF00).cask.nest e 7).ready = false) ∧
    (∃ t, drainBuf (reg1 0xF00) = .ok () t ∧ t.cask.yy.jhead < 2 ^ 32 ∧ t.cask.yy.jtail < 2 ^ 32 ∧ t.cask.yy.jheld + 2 ≤ 336) := by
  refine ⟨by decide +kernel, by decide +kernel, by decide +kernel, _, rfl, by decide +kernel, by decide +kernel, by decide +kernel⟩
theorem witness_JournalledIssues_copy : k0.cask.kr.priv = false ∧ k0.cask.yy.jheld < 336 ∧ (k0.cask.yy.queue 3).length < 64 ∧
    (at0 fun c => { c with yy := { c.yy with written := 15 } }).cask.yy.written = 15 ∧ ((reg1 0x40000).cask.sreg 1).toNat % 128 = 0 :=
  ⟨rfl, by decide +kernel, by decide +kernel, rfl, by decide +kernel⟩

/-- A launch of two strands on cores 0 and 1 with tiles left. -/
def tiles (mine other : List Nat) (aged : Bool) (code : Word) : State := { k0 with dev := { k0.dev with
  launches := [(0, { Launch.reset with
    lease := [(0, false), (1, false)], lists := [(0, mine), (1, other)], aged := aged, begun := true,
    dwords := (List.replicate 16 0).set 0 (code <<< 32) })] } }
theorem witness_Tiles : (tiles [4, 5] [] false 0).cask.kr.priv = false ∧
    smGet [] (tiles [4, 5] [] false 0).launch.lists 0 = 4 :: [5] ∧
    smGet [] (tiles [] [6, 7] true 0).launch.lists 0 = [] ∧ (tiles [] [6, 7] true 0).launch.ageing = some 120000 ∧
    (tiles [] [6, 7] true 0).launch.victim 0 = some 1 ∧ (tiles [] [6, 7] true 0).launch.aged = true ∧
    (tiles [] [6, 7] false 0).launch.aged = false ∧ (tiles [] [6] true 0).launch.victim 0 = none ∧
    (tiles [] [6, 7] true 0xFFFF).launch.ageing = none := by decide +kernel
/-- A victim on another die, where the own die has none with a tile left but a core that holds its only one. -/
theorem witness_Tiles_victim : (let l := { (tiles [] [6] true 0).launchAt 0 with
      lease := [(0, false), (1, false), (100, false)], lists := [(1, [6]), (100, [8, 9])] }
    l.victim 0 = some 100) ∧ (tiles [] [6] true 0).launch.victim 0 = none := by decide +kernel
/-- Every engine has halted. -/
def halted1 : State := at0 fun c => { c with
  eL := { c.eL with halted := true }, eM := { c.eM with halted := true }, eS := { c.eS with halted := true } }
theorem witness_Tiles_end : (∀ e, (halted1.cask.eng e).quiet (Config.fetchAhead halted1.tick e) = true) ∧ halted1.cask.yy.all = [] ∧
    halted1.cask.yy.chains = [] ∧ ∃ t, drainBuf halted1 = .ok () t :=
  ⟨fun e => by cases e <;> rfl, rfl, rfl, _, rfl⟩

/-- Crew 63 of 64, without and with the strand; a strand that has arrived. -/
def crewed (k : Crew) (arr : List Arrived) : State :=
  let s := mapped (at0 fun c => { c with st := { c.st with arr := arr } })
  s.updLaunch 0 fun l => { l with crews := [(63, k)] }
def member1 : Crew := { Crew.reset with members := [0] }
theorem witness_CrewWords : ((63 : BitVec 6).toNat < (crewed Crew.reset []).launch.crewCount ∧
      (crewed Crew.reset []).cask.st.ord ∉ ((crewed Crew.reset []).launch.crewOf (some 63)).members ∧ (crewed Crew.reset []).memberships < 8) ∧
    ((crewed member1 []).cask.st.ord ∈ ((crewed member1 []).launch.crewOf (some 63)).members ∧
      (crewed member1 []).cask.st.arrivedIn (some 63) = none) ∧
    ((crewed member1 [{ crew := some 63, phase := 0 }]).cask.st.arrivedIn (some 63) = some 0 ∧
      ((crewed member1 [{ crew := some 63, phase := 0 }]).launch.crewOf (some 63)).phase = 0) ∧
    (k0.cask.st.arrivedIn none = none ∧ k0.cask.st.ybound = none) ∧
    (crewed member1 [{ crew := none, phase := 0 }]).cask.st.arrivedIn none = some 0 := by decide +kernel

/-- Launch 0 of two strands, of which `sd` have started and `en` have ended. -/
def incTo (sd en : List Nat) (gang : Bool) : State := (mapped k0).updLaunch 0 fun l => { l with
  lease := [(0, false), (1, false)], started := sd, ended := en,
  dwords := if gang then (List.replicate 16 0).set 0 8 else l.dwords }
/-- Strands 0 and 1 of crew 63 have arrived at cycles 5 and 7, 0 as a drop; one of them only; and the superstep of both. -/
def phased (arr : List Arrival) : State := (incTo [0, 1] [] false).updLaunch 0 fun l =>
  { l with crews := [(63, { Crew.reset with members := [0, 1], arrived := arr })], sstep := { Crew.reset with arrived := arr } }
def both : List Arrival := [{ ord := 1, at_ := 7, drop := false }, { ord := 0, at_ := 5, drop := true }]
theorem witness_CrewWords_phases : (∀ arr ∈ [both, both.drop 1], let s := phased arr
      aFind s.dev.launches 0 = some (s.launchAt 0) ∧ { ord := 0, at_ := 5, drop := true } ∈ ((s.launchAt 0).crewOf (some 63)).arrived ∧
        (∀ a ∈ ((s.launchAt 0).crewOf (some 63)).arrived, 5 < a.at_ ∨ (5 = a.at_ ∧ 0 ≤ a.ord)) ∧
        ((s.launchAt 0).crewOf none).arrived = ((s.launchAt 0).crewOf (some 63)).arrived) ∧
    (let s := phased both; let k := (s.launchAt 0).crewOf (some 63)
     k.members ≠ [] ∧ (∀ o ∈ k.members, ∃ a ∈ k.arrived, a.ord = o) ∧
       (∀ o ∈ (List.range (s.launchAt 0).lease.length).filter fun o => !(s.launchAt 0).ended.contains o, ∃ a ∈ k.arrived, a.ord = o) ∧
       aFind (s.launchAt 0).saved 0 = none ∧ (s.launchAt 0).lease[0]? = some (0, false) ∧ (s.caskAt 0 false).st.live = true ∧
       (s.caskAt 0 false).kr.lid.toNat = 0) ∧
    ¬ ∃ a ∈ ((phased (both.drop 1)).launchAt 0).crewOf (some 63) |>.arrived, a.ord = 1 := by decide +kernel

/-- Registers at the ends of the ranges, at both privileges. -/
theorem witness_SpecialRegisters : ((specialValue k0 0x006).isSome = true ∧ ((specialValue (h1 0) 0x106).isSome = true ∧
      (h1 0).cask.kr.priv = true)) ∧ ((specialWrite k0 5 0x006).isSome = true ∧ (specialWrite (h1 0) 5 0x105).isSome = true) ∧
    (0x100 ≤ (0x1FF : BitVec 12).toNat ∧ (0x1FF : BitVec 12).toNat ≤ 0x1FF ∧ k0.cask.kr.priv = false) ∧
    (0x010 ≤ (0x017 : BitVec 12).toNat ∧ (0x017 : BitVec 12).toNat ≤ 0x017 ∧ k0.cask.kr.monen = false) := by decide +kernel

/-- A counter of ring pops, and one of core cycles for cask 0 that admits; MONEN is 1. -/
def monitored : State :=
  let s := at0 fun c => { c with kr := { c.kr with monen := true } }
  s.setCore 0 { s.core 0 with mon := [(7, { Mon.reset with sel := 6 }), (0, { Mon.reset with sel := 1 + 1 <<< 37 + 1 <<< 38 })] }
theorem witness_SpecialRegisters_counters : monitored.cask.kr.monen = true ∧
    (let m := aGet Mon.reset (monitored.core 0).mon ((0x017 : BitVec 12).toNat - 0x010)
     m.sel.toNat % 2 ^ 16 ∉ [0x0001, 0x0007, 0x0008, 0x000C]) ∧
    (let m := aGet Mon.reset (monitored.core 0).mon ((0x010 : BitVec 12).toNat - 0x010)
     m.sel.toNat % 2 ^ 16 = 0x0001 ∧ m.sel.getLsbD 37 = true ∧ m.sel.toNat / 2 ^ 38 % 4 = if (monitored.core 0).cur then 2 else 1) := by
  decide +kernel

theorem witness_LineWaits : (∃ l t, 0x40000 ≤ (memK.cask.sreg 1 + (0 : BitVec 32).signExtend 64).toNat ∧ canonical 0x40000 = true ∧
      translate memK.turn.core memK.cask.kr.asid 0x40000 .read memK = .ok l t) ∧ k0.cask.st.armed = none ∧
    (let s : State := at0 fun c => { c with st := { c.st with armed := some (0, 0x800) } }; s.cask.st.evt = false ∧ s.cask.st.armed ≠ none ∧ s.cask.st.spur = false) := by
  obtain ⟨l, t, h⟩ := ok_of (r := translate memK.turn.core memK.cask.kr.asid 0x40000 .read memK) (by decide +kernel)
  exact ⟨⟨l, t, by decide +kernel, by decide +kernel, h⟩, rfl, by decide +kernel⟩

/-- An empty overlay at 0x40000; the same one held, loaded and not, with a fault of its load. -/
def overlaid (o : Overlay) : State := mapped (at0 fun c => { c with st := { c.st with ovl := some o, trailer := 0 } })
def emptyOvl : Overlay := ovlOf (List.replicate 64 0)
theorem witness_Overlays : (memK.cask.kr.priv = false ∧ memAt (memK.cask.sreg 1).toNat 64 ∧ memK.cask.st.ovl = none) ∧
    ∃ bs t, kLoad (memK.cask.sreg 1).toNat 64 memK = .ok bs t ∧ bs = List.replicate 64 0 := by
  refine ⟨⟨rfl, ⟨by decide +kernel, by decide +kernel⟩, rfl⟩, ?_⟩
  have e : (match kLoad (memK.cask.sreg 1).toNat 64 memK with
    | .ok bs _ => decide (bs = List.replicate 64 0)
    | .error _ _ => false) = true := by decide +kernel
  revert e
  cases kLoad (memK.cask.sreg 1).toNat 64 memK with
  | ok bs t => exact fun e => ⟨bs, t, rfl, of_decide_eq_true e⟩
  | error x t => exact fun e => by cases e
theorem witness_Overlays_zero : ovlDword (List.replicate 64 0) 6 / 2 ^ 7 = 0 ∧ ovlDword (List.replicate 64 0) 7 = 0 ∧
    (∀ i, i < 4 → emptyOvl.lens.getD i 0 = 0) ∧ memK.cask.st.extents = [] := by decide +kernel
theorem witness_Overlays_swap : (∃ t, release .device (overlaid { emptyOvl with loaded := true }) = .ok () t ∧
      t.cask.trailerDone (Config.fetchAhead (overlaid emptyOvl).tick) = true ∧ (overlaid emptyOvl).cask.st.ckpt = false) ∧
    (overlaid emptyOvl).cask.st.ovl = some emptyOvl ∧ emptyOvl.loaded = false ∧
    ∃ t, loadStreams emptyOvl [(.k, 0), (.l, 1), (.m, 2), (.s, 3)] (overlaid emptyOvl) = .ok () t := by
  have e : okD ((do release .device; let t ← get; check (t.cask.trailerDone (Config.fetchAhead (overlaid emptyOvl).tick)) 0 : Act Unit)
      (overlaid { emptyOvl with loaded := true })) = true := by decide +kernel
  have l : okD (loadStreams emptyOvl [(.k, 0), (.l, 1), (.m, 2), (.s, 3)] (overlaid emptyOvl)) = true := by decide +kernel
  obtain ⟨_, t, k⟩ := ok_of e
  obtain ⟨_, t1, k1, k2⟩ := of_bind_ok k
  rw [get_bind, act_check] at k2
  refine ⟨⟨t1, k1, ?_, rfl⟩, rfl, rfl, ok_u l⟩
  split at k2
  · assumption
  · cases k2

/-- Journal entry 1 is held; a core in dual residency. -/
def dual1 (v : Word) : State :=
  let s := h1 v
  s.setCore 0 { s.core 0 with dual := true }
theorem witness_PrivilegedWords : (h1 1).cask.kr.priv = true ∧
    (let s : State := (h1 1).updCask fun c => { c with yy := { c.yy with jhead := 2 } }; (s.cask.sreg 1).toNat < 2 ^ 32 ∧ ((s.cask.sreg 1).toNat + 2 ^ 32 - s.cask.yy.jtail) % 2 ^ 32 < s.cask.yy.jheld) ∧
    ((dual1 1).dual = true ∧ ((dual1 1).cask.sreg 1).toNat = 1 ∧ (dual1 1).turn.cask = false ∧ ((dual1 0).cask.sreg 1).toNat = 0) ∧
    (let x : L2Line := { asid := 0, line := 0x800, data := [], dirty := 0, pois := 0, lg := 21, pte := 0xF }
     let s : State := { mapped (h1 0x40000) with dev := { (mapped (h1 0x40000)).dev with l2 := [x] } }
     s.cask.kr.priv = true ∧ s.dev.leaves ≠ [] ∧ (∀ x ∈ s.dev.l2, decide (x.asid = 0 ∧ 128 * x.line / 2 ^ 30 = (s.cask.sreg 1).toNat / 2 ^ 30) = true → x.dirty = 0)) := by
  decide +kernel

theorem witness_PrivilegeRules : ([.eret 0, .ffrd 1 0, .jctlHead 1, .jctlTail 1, .jctlFree 1, .jctlReissue (km true false true true) 1,
      .casksw 1, .tinvPage 1 2, .tinvAsid 1 2, .tinvAll 1 2] : List Instr).all privileged = true ∧ k0.cask.kr.priv = false ∧
    ([.nestl (km true false true false) 0 0 1, .trap 0, .ovswap, .tdoneEnd] : List Instr).all userOnly = true ∧
    (h1 0).cask.kr.priv = true := ⟨rfl, rfl, rfl, rfl⟩
theorem witness_ExceptionEntry : k0.cask.kr.priv = false ∧ k0.cask.kr.hvec = 0 ∧ (h1 0).cask.kr.priv = true := ⟨rfl, rfl, rfl⟩
/-- L and S were not halted at the stop; M was. -/
theorem witness_ExceptionReturn_engines : let s := (h1 0).updCask fun c => { c with st := { c.st with frame := smSet 0 c.st.frame 14 (BitVec.ofNat 64 (2 ^ 19)) } }
    s.cask.kr.priv = true ∧ s.cask.yy.failed = none ∧ (smGet 0 s.cask.st.frame 14).toNat / 2 ^ 19 % 2 = 1 ∧
      (smGet 0 s.cask.st.frame 8).toNat / 2 ^ 19 % 2 = 0 ∧ (smGet 0 s.cask.st.frame 20).toNat / 2 ^ 19 % 2 = 0 := by decide +kernel
theorem witness_ExceptionReturn : (h1 0).cask.kr.priv = true ∧ frameAt (h1 0).dual % 64 = 0 ∧
    frameAt (h1 0).dual + 992 ≤ klmSize (h1 0).dual ∧ (h1 0).cask.cleanKlm (frameAt (h1 0).dual) 992 ∧
    natOf ((h1 0).cask.klmBytes (frameAt (h1 0).dual + 24) 8) < imemSize (h1 0).dual ∧
    natOf ((h1 0).cask.klmBytes (frameAt (h1 0).dual + 24) 8) % 8 = 0 :=
  ⟨rfl, by decide +kernel, by decide +kernel, cleanKlm_of rfl _ _, by decide +kernel, by decide +kernel⟩

/-! ### Commands -/

/-- The command `c` alone in queue 0, begun, with `n` points done, and its turn. -/
def yState (c : Cmd) (opc n : Nat) : State :=
  let s := mapped (at0 fun k => { k with
    yy := { k.yy with queues := [(0, [{ YEnt.fork (cmdBytes opc c) 1 1 0 none with begun := true, cursor := n }])] } })
  { s with turn := { core := 0, cask := false, agent := .y 0 0, burst := 0 } }
def yEnt (c : Cmd) (opc n : Nat) : YEnt := { YEnt.fork (cmdBytes opc c) 1 1 0 none with begun := true, cursor := n }
/-- What every command's unit asks of its place. -/
theorem placed (c : Cmd) (opc n : Nat) : (yState c opc n).entAt (yState c opc n).yAt.1 (yState c opc n).yAt.2 = some (yEnt c opc n) ∧
    (yEnt c opc n).begun = true ∧ (yEnt c opc n).done = false ∧ (yState c opc n).cask.yy.goes (yState c opc n).yAt.1 = true ∧
    (yState c opc n).turn.burst = 0 := ⟨rfl, rfl, rfl, rfl, rfl⟩
theorem witness_CommandUnits_place : (yState cmd 1 0).blocked 0 0 ((yEnt cmd 1 0).spans (yState cmd 1 0).dev.rank) = false := by decide +kernel

theorem witness_CommandUnits_copy : ∃ total P t, cmdUnit (yState cmd 1 0) 0 t (.copy cmd) = some (total, P) ∧ P ∧ 0 < total := by
  obtain ⟨_, t, k⟩ := ok_of (r := (do let v ← getElem cmd.src cmd.sfmt (cmd.srcAt 32 0) 0; putElem cmd.dst cmd.dfmt (cmd.dstAt 32 0) 0 v : Act Unit)
    (yState cmd 1 0)) (by decide +kernel)
  obtain ⟨v, s1, k1, k2⟩ := of_bind_ok k
  exact ⟨_, _, t, rfl, ⟨v, s1, t, k1, k2, rfl⟩, by decide⟩
theorem witness_CommandUnits_fill : ∃ total P t, cmdUnit (yState cmdFill 2 0) 0 t (.fill cmdFill) = some (total, P) ∧ P ∧ 0 < total := by
  obtain ⟨t, k⟩ := ok_u (r := putElem cmd.dst cmd.dfmt (cmd.dstAt 32 0) 0 5 (yState cmdFill 2 0)) (by decide +kernel)
  exact ⟨_, _, t, rfl, k, by decide⟩
theorem witness_CommandUnits_accw : ∃ total P t, cmdUnit (yState cmdAccw 3 0) 0 t (.accw cmdAccw) = some (total, P) ∧ P ∧ 0 < total := by
  obtain ⟨_, t, k⟩ := ok_of (r := (do
      accwLocs (partsOf 0x20000 4)
      let b ← yRead cmd.src .read (cmd.srcAt 32 0) 4
      let l ← yLoc .both 0x20000 true
      check (!l.sa) 0
      let s ← get
      check (!(s.access l .copy false).homePoison l 4) 0 : Act Unit) (yState cmdAccw 3 0)) (by decide +kernel)
  obtain ⟨_, s1, k1, k⟩ := of_bind_ok k
  obtain ⟨b, s2, k2, k⟩ := of_bind_ok k
  obtain ⟨l, s3, k3, k⟩ := of_bind_ok k
  obtain ⟨_, s4, k4, k⟩ := of_bind_ok k
  rw [act_check] at k4
  rw [get_bind, act_check] at k
  cases e : l.sa with
  | true => rw [e] at k4; cases k4
  | false =>
    rw [e] at k4
    cases k4
    cases e2 : (s3.access l .copy false).homePoison l 4 with
    | true => rw [e2] at k; cases k
    | false => exact ⟨_, _, _, rfl, ⟨by decide +kernel, s1, b, s2, l, s3, k1, k2, k3, Or.inl ⟨by decide, e, e2, rfl⟩⟩, by decide⟩
/-- With return data the old value is stored too. -/
def cmdAccwRtn : Cmd := { cmdAccw with rtn := true, ret := 0x30000 }
theorem witness_CommandUnits_accw_rtn : ∃ total P t, cmdUnit (yState cmdAccwRtn 3 0) 0 t (.accw cmdAccwRtn) = some (total, P) ∧ P ∧ 0 < total := by
  obtain ⟨_, t, k⟩ := ok_of (r := (do
      accwLocs (partsOf 0x20000 4)
      let b ← yRead cmd.src .read (cmd.srcAt 32 0) 4
      let _ ← yLoc .both 0x20000 true
      let old ← yRead cmd.dst .both 0x20000 4
      yWrite 0x30000 ((0x30000 + 0 * 4) % 2 ^ 64) old
      yRewrite cmd.dst 0x20000 (applyElem cmdAccwRtn old b).1 : Act Unit) (yState cmdAccwRtn 3 0)) (by decide +kernel)
  obtain ⟨_, s1, k1, k⟩ := of_bind_ok k
  obtain ⟨b, s2, k2, k⟩ := of_bind_ok k
  obtain ⟨l, s3, k3, k⟩ := of_bind_ok k
  obtain ⟨old, s4, k4, k⟩ := of_bind_ok k
  obtain ⟨_, s5, k5, k⟩ := of_bind_ok k
  exact ⟨_, _, _, rfl, ⟨by decide +kernel, s1, b, s2, l, s3, k1, k2, k3, Or.inr ⟨Or.inl (by decide), old, s4, s5, t, k4, k5, k, rfl⟩⟩, by decide⟩
theorem witness_CommandUnits_ratom : ∃ total P t, cmdUnit (yState cmdRatom 4 0) 0 t (.ratom cmdRatom) = some (total, P) ∧ P ∧ 0 < total := by
  obtain ⟨_, t, k⟩ := ok_of (r := (do
      let l ← translate 0 0 0x20000 .both
      check (decide (l.ty ≠ 2)) 0
      let b ← yRead cmdRatom.src .read ((cmdRatom.src.toNat + 0 * 4) % 2 ^ 64) 4
      let old ← yRead cmd.dst .both 0x20000 4
      yWrite 0x30000 ((0x30000 + 0 * 4) % 2 ^ 64) old
      yRewrite cmd.dst 0x20000 (bytesOf 4 (applyOpr .add .i32 .rne (natOf old) (natOf b)).1) : Act Unit) (yState cmdRatom 4 0)) (by decide +kernel)
  obtain ⟨l, s1, k1, k⟩ := of_bind_ok k
  obtain ⟨_, s0, k0, k⟩ := of_bind_ok k
  obtain ⟨b, s2, k2, k⟩ := of_bind_ok k
  obtain ⟨old, s3, k3, k⟩ := of_bind_ok k
  obtain ⟨_, s4, k4, k5⟩ := of_bind_ok k
  rw [act_check] at k0
  split at k0
  · next e =>
    have e : l.ty ≠ 2 := of_decide_eq_true e
    obtain rfl : s1 = s0 := by injection k0
    exact ⟨_, _, _, rfl, ⟨by decide +kernel, l, s1, b, s2, old, s3, s4, t, k1, fun _ => rfl, k2, (if_neg e).mpr k3, k4,
      (if_neg e).mpr k5, rfl⟩, by decide⟩
  · cases k0
/-- The block A, node 1 of level 1. -/
def cmdA : Cmd := { cmdTnode with dst := 0x1000, src := 254, sfmt := .i8, dfmt := .i8, arg := 0x112 }
theorem witness_CommandUnits_tnode : ∃ total P t, cmdUnit (yState cmdA 5 0) 0 t (.tnode cmdA) = some (total, P) ∧ P ∧ 0 < total := by
  obtain ⟨_, t, k⟩ := ok_of (r := (do
      let l ← yLoc .both 0x1000 true
      mergeRange .tree l (prefixBytes .i8 1)
      treeOp (if l.ty = 0 then some l.slice else none)
      let _ ← homeHdr 0x1000 l .i8 2 1
      let s ← get
      check (!s.homePoison l (prefixBytes .i8 1)) 0 : Act Unit) (yState cmdA 5 0)) (by decide +kernel)
  obtain ⟨l, s1, k1, k⟩ := of_bind_ok k
  obtain ⟨_, s2, k2, k⟩ := of_bind_ok k
  obtain ⟨_, s3, k3, k⟩ := of_bind_ok k
  obtain ⟨h, s4, k4, k⟩ := of_bind_ok k
  rw [get_bind, act_check] at k
  cases e : State.homePoison s4 l (prefixBytes .i8 1) with
  | true => rw [e] at k; cases k
  | false =>
    exact ⟨_, _, _, rfl, ⟨by decide +kernel, by decide +kernel, l, s1, s2, s3, h, s4, k1, k2, k3, k4, e, rfl⟩, by decide⟩
/-- One accepted draft, which stands where it goes; then the length. -/
def cmdKv : Cmd := { cmdKvcmt with arg := 0x010100000000 }
theorem witness_CommandUnits_kvcmt : (∃ total P t, cmdUnit (yState cmdKv 6 0) 0 t (.kvcmt cmdKv) = some (total, P) ∧ P ∧ 0 < total) ∧
    ∃ total P t, cmdUnit (yState cmdKv 6 1) 1 t (.kvcmt cmdKv) = some (total, P) ∧ P ∧ 1 < total := by
  constructor
  · have e : (match kvPath cmdKv (yState cmdKv 6 0) with
        | .ok p _ => decide (p.getD 0 0 = 0)
        | .error _ _ => false) = true := by decide +kernel
    cases k : kvPath cmdKv (yState cmdKv 6 0) with
    | error x t => rw [k] at e; cases e
    | ok p s1 =>
      rw [k] at e
      refine ⟨_, _, s1, rfl, ⟨p, s1, k, ?_⟩, by decide +kernel⟩
      rw [if_pos (by decide +kernel), if_pos (of_decide_eq_true e)]
  · obtain ⟨_, t, k⟩ := ok_of (r := (do let _ ← kvPath cmdKv; yWrite cmdKv.bind cmdKv.bind.toNat (bytesOf 8 (cmdKv.kC + cmdKv.kA)) : Act Unit)
      (yState cmdKv 6 1)) (by decide +kernel)
    obtain ⟨p, s1, k1, k⟩ := of_bind_ok k
    refine ⟨_, _, t, rfl, ⟨p, s1, k1, ?_⟩, by decide +kernel⟩
    rw [if_neg (by decide +kernel)]
    exact k
/-- Draft 1's entry moves to draft 0's place, in one plane of 128 bytes: a piece of it. -/
def kvEnt : YEnt := { yEnt cmdKv 6 0 with path := some [1] }
def kvMoves : State := (yState cmdKv 6 0).updEnt 0 0 fun _ => kvEnt
theorem witness_CommandUnits_move : ∃ t, cmdPart kvMoves 0 t (.kvcmt cmdKv) := by
  have h : ((List.range 32).all fun m => okD ((do
      let bs ← yRead cmdKv.dst .read (cmdKv.slotVa 0 (cmdKv.kC + 1) + 4 * m) 4
      yWrite cmdKv.dst (cmdKv.slotVa 0 (cmdKv.kC + 0) + 4 * m) bs : Act Unit) kvMoves)) = true := by decide +kernel
  have m0 : ∀ k, k < 32 → (List.range 32).getD k 0 ∈ List.range 32 := by decide
  have m : ∀ j, (List.range 32).getD (j % 32) 0 ∈ List.range 32 := fun j => m0 _ (Nat.mod_lt j (by decide))
  have n : ∀ a, (List.range 32).erase a ≠ [] := by
    intro a e
    have e := congrArg List.length e
    rw [List.length_erase] at e
    split at e <;> simp at e
  have e : (if kvEnt.left = [] then List.range (cmdKv.kE / 4) else kvEnt.left) = List.range 32 := by decide +kernel
  obtain ⟨_, t, k⟩ := ok_of (List.all_eq_true.mp h _ (m (Config.nextPart kvMoves.tick 32)))
  obtain ⟨bs, s1, k1, k2⟩ := of_bind_ok k
  have q : kvPiece cmdKv 0 1 kvMoves kvEnt ((List.range 32).erase ((List.range 32).getD (Config.nextPart kvMoves.tick 32 % 32) 0)) t := by
    unfold kvPiece
    dsimp only
    rw [show (if cmdKv.sfmt.bits < 8 then 1 else cmdKv.sfmt.bytes) = 4 from rfl, e]
    exact ⟨rfl, rfl, bs, s1, k1, k2⟩
  exact ⟨_, by decide +kernel, [1], kvMoves, kvEnt, _, t, rfl, by decide, q, fun x => n _ x.1, rfl⟩
/-- The device alone in its mask: rank 0. -/
def cmdMc : Cmd := { cmdFmcast with bind := 1 }
theorem witness_CommandUnits_fmcast : ∃ total P t, cmdUnit (yState cmdMc 7 0) 0 t (.fmcast cmdMc) = some (total, P) ∧ P ∧ 0 < total := by
  obtain ⟨_, t, k⟩ := ok_of (r := (do
      let v ← getElem cmd.src cmd.sfmt (cmd.srcAt 32 0) 0
      putElem cmd.dst cmd.dfmt (cmd.dstAt 32 0) 0 v : Act Unit) (yState cmdMc 7 0)) (by decide +kernel)
  obtain ⟨v, s1, k1, k⟩ := of_bind_ok k
  have e : (ranksOf cmdMc.bind).filter (fun r => r ≠ (yState cmdMc 7 0).dev.rank) = [] := by decide +kernel
  refine ⟨_, _, t, rfl, ⟨by decide +kernel, ?_, v, s1, t, k1, ?_, ?_⟩, by decide⟩
  · intro r hr
    rw [e] at hr
    cases hr
  · rw [if_pos (by decide +kernel)]
    exact k
  · rw [e]
    rfl
/-- A sum of one participant, which every device writes; the last point and the one before. -/
def cmdFr : Cmd := { cmdFred with bind := 1, arg := 0x20000 }
theorem witness_CommandUnits_fred : ∃ total P t, cmdUnit (yState cmdFr 8 0) 0 t (.fred cmdFr) = some (total, P) ∧ P ∧ 0 < total := by
  obtain ⟨_, t, k⟩ := ok_of (r := (do
      let a ← yRead cmdFr.src .read (cmdFr.srcAt (8 * cmdFr.elemBytes) 0) cmdFr.elemBytes
      let s ← get
      check (decide (s.dev.rank = 0)) 0 : Act Unit) (yState cmdFr 8 0)) (by decide +kernel)
  obtain ⟨a, s1, k1, k⟩ := of_bind_ok k
  rw [get_bind, act_check] at k
  split at k
  · next e =>
    have e := of_decide_eq_true e
    have r0 : ranksOf cmdFr.bind = [0] := by decide +kernel
    have h : ∀ r ∈ (ranksOf cmdFr.bind).filter (fun r => r ≠ s1.dev.rank), s1.reachable r = true := by
      intro r hr
      rw [r0, e, show [0].filter (fun r => decide (r ≠ 0)) = [] from rfl] at hr
      cases hr
    exact ⟨_, _, _, rfl, (if_pos rfl).mpr ⟨yEnt cmdFr 8 0, a, s1, rfl, by decide +kernel, k1, h, rfl⟩, by decide⟩
  · cases k
def cmdFr2 : Cmd := { cmdFr with x0 := 2 }
theorem witness_CommandUnits_point : ∃ t, cmdPart (yState cmdFr2 8 0) 0 t (.fred cmdFr2) := by
  obtain ⟨a, s1, k⟩ := ok_of (r := (yRead cmdFr2.src .read ((fredPieces cmdFr2).2.2 0) (fredPieces cmdFr2).2.1) (yState cmdFr2 8 0))
    (by decide +kernel)
  refine ⟨s1.updEnt (yState cmdFr2 8 0).yAt.1 (yState cmdFr2 8 0).yAt.2 fun z => { z with data := z.data ++ a, part := 0 + 1 }, ?_⟩
  unfold cmdPart
  exact (if_pos rfl).mpr ⟨yEnt cmdFr2 8 0, a, s1, rfl, by decide +kernel, k, rfl⟩
/-- The result has come, and this device writes it; the last point and the one before. -/
def fredR (n : Nat) : FredResult :=
  { data := ([5, 0, 0, 0, 6, 0, 0, 0] : List Byte).take n, fl := 0, nans := 0, infs := 0, wraps := 0, written := false }
def fred2 (c : Cmd) (n : Nat) : State :=
  let s := yState c 8 1
  { s with dev := { s.dev with results := [(0, fredR n)], agreed := [0] } }
theorem witness_CommandUnits_fred_result : ∃ total P t, cmdUnit (fred2 cmdFr 4) 1 t (.fred cmdFr) = some (total, P) ∧ P ∧ 1 < total := by
  obtain ⟨s3, k⟩ := ok_u (r := fredPoint cmdFr (decide ((ranksOf cmdFr.bind).headD 0 = (fred2 cmdFr 4).dev.rank)) (fredR 4).data 0
    (fred2 cmdFr 4)) (by decide +kernel)
  have h1 : cmdFr.tag ∉ (fred2 cmdFr 4).dev.disagree := by decide +kernel
  have h2 : cmdFr.tag ∈ (fred2 cmdFr 4).dev.agreed := by decide +kernel
  have h3 : ∀ r ∈ cmdFr.takers, r = (fred2 cmdFr 4).dev.rank ∨ Config.applied (fred2 cmdFr 4).tick r = true := by
    intro r hr
    have z : cmdFr.takers.all (fun r => decide (r = (fred2 cmdFr 4).dev.rank)) = true := by decide +kernel
    exact Or.inl (of_decide_eq_true (List.all_eq_true.mp z r hr))
  have h4 : aFind (fred2 cmdFr 4).dev.results cmdFr.tag = some (fredR 4) := by decide +kernel
  have w : cmdFr.writes (fred2 cmdFr 4).dev.rank = true := by decide +kernel
  exact ⟨2, _, _, rfl, (if_neg (by decide)).mpr ⟨h1, h2, h3, (if_pos w).mpr ⟨fredR 4, _, h4,
    (if_neg (by decide)).mpr ⟨yEnt cmdFr 8 1, s3, rfl, by decide +kernel, k, rfl⟩, rfl⟩⟩, by decide⟩
theorem witness_CommandUnits_fred_point : ∃ t, cmdPart (fred2 cmdFr2 8) 1 t (.fred cmdFr2) := by
  obtain ⟨s3, k⟩ := ok_u (r := fredPoint cmdFr2 (decide ((ranksOf cmdFr2.bind).headD 0 = (fred2 cmdFr2 8).dev.rank)) (fredR 8).data 0
    (fred2 cmdFr2 8)) (by decide +kernel)
  refine ⟨s3.updEnt (fred2 cmdFr2 8).yAt.1 (fred2 cmdFr2 8).yAt.2 fun z => { z with part := (yEnt cmdFr2 8 1).part + 1 }, ?_⟩
  unfold cmdPart
  exact (if_neg (by decide)).mpr ⟨rfl, by decide +kernel, by decide +kernel, by decide +kernel, fredR 8, yEnt cmdFr2 8 1, s3,
    by decide +kernel, rfl, rfl, by decide +kernel, k, rfl⟩
theorem witness_CommandUnits_sigr : ∃ total P t, cmdUnit (yState cmdSigr 9 0) 0 t (.sigr cmdSigr) = some (total, P) ∧ P ∧ 0 < total :=
  ⟨_, _, _, rfl, ⟨rfl, fun h => absurd h (by decide +kernel), fun _ => by decide +kernel, rfl⟩, by decide⟩
/-- Core 0 binds its ring 1 to ring 0 of core 5, which runs a strand of the launch. -/
def piped : State := (yState cmdPipe 10 0).updLaunch 0 fun l => { l with lease := [(0, false), (5, false)] }
theorem witness_CommandUnits_pipe : (∃ total P t, cmdUnit piped 0 t (.pipeBind cmdPipe) = some (total, P) ∧ P ∧ 0 < total) ∧
    ∃ total P t, cmdUnit piped 0 t (.pipeUnbind cmdPipe) = some (total, P) ∧ P ∧ 0 < total := by
  constructor
  · have h : (piped.launch.lease.find? fun p => p.1 = cmdPipe.ccore) = some (5, false) := by decide +kernel
    have k : (piped.cask.ring cmdPipe.pring).depth = 0 ∧ piped.cask.ringNamed cmdPipe.pring = false ∧
        ((piped.caskAt 5 false).ring cmdPipe.cring).depth = 0 ∧
        sameRing (piped.cask.ring cmdPipe.pring) ((piped.caskAt 5 false).ring cmdPipe.cring) = true ∧
        ((piped.caskAt 5 false).ring cmdPipe.cring).pipe = false := by decide +kernel
    exact ⟨_, _, _, rfl, ⟨by decide +kernel, (5, false), h, k.1, k.2.1, k.2.2.1, k.2.2.2.1, k.2.2.2.2, rfl⟩, by decide⟩
  · refine ⟨_, _, piped, rfl, ⟨by decide +kernel, (5, false), by decide +kernel, ?_⟩, by decide⟩
    dsimp only
    rw [if_neg (by decide +kernel)]
/-! ### What happens besides the words -/

/-- A chain of queue 3 whose next entry stands at VA 0x1000; VA 0x1080 holds no command. -/
def chained (next : Word) : State :=
  let s := yState cmd 1 0
  s.setCask { s.cask with yy := { s.cask.yy with chains := [{ start := 0, next := next, queue := some 3, wait := none }] } }
theorem witness_CommandFlow_chain : ∃ x bs s1, (chained 0x1000).cask.yy.chains[0]? = some x ∧
    (chained 0x1000).cask.yy.parked = false ∧ (chained 0x1000).cask.yy.failed = none ∧
    x.next.toNat % 128 = 0 ∧ canonical x.next.toNat = true ∧ yHome .read (partsOf x.next.toNat 128) (chained 0x1000) = .ok bs s1 ∧
    bs.length = 128 ∧ (s1.cask.yy.queue 3).length < 64 ∧ s1.cask.yy.jheld < 336 := by
  obtain ⟨_, t, k⟩ := ok_of (r := (do
      let bs ← yHome .read (partsOf 0x1000 128)
      let s ← get
      check (decide (bs.length = 128) && decide ((s.cask.yy.queue 3).length < 64) && decide (s.cask.yy.jheld < 336)) 0 : Act Unit)
    (chained 0x1000)) (by decide +kernel)
  obtain ⟨bs, s1, k1, k2⟩ := of_bind_ok k
  rw [get_bind, act_check] at k2
  split at k2
  · next e =>
    simp only [Bool.and_eq_true, decide_eq_true_eq] at e
    exact ⟨_, bs, s1, rfl, rfl, rfl, by decide +kernel, by decide +kernel, k1, e.1.1, e.1.2, e.2⟩
  · cases k2
/-- The bytes `bs` as the one command of queue 0, which has not begun; counters 0 and 1 hold `v`. -/
def waiting (bs : List Byte) (v : BitVec 32) : State :=
  let s := yState cmd 1 0
  s.setCask { s.cask with
    cp := { s.cask.cp with ev := [(0, v), (1, v)] }
    yy := { s.cask.yy with queues := [(0, [YEnt.fork bs 1 1 0 none])] } }
/-- A command that is `i`. -/
def isCmd (n : Nat) (i : Instr) : Bool := match decodeCmd n with
  | .ok j => decide (j = i)
  | .error _ => false
theorem isCmd_of {n : Nat} {i : Instr} (h : isCmd n i = true) : decodeCmd n = .ok i := by
  unfold isCmd at h
  split at h
  · next e => rw [e, of_decide_eq_true h]
  · cases h
def clause1 (thr : BitVec 32) : Clause := { en := true, ev := 1, thr := thr }
def cmdW (thr : BitVec 32) : Cmd := { cmd with w0 := clause1 thr, w1 := clause1 thr }
/-- A clause holds up to 2³¹ − 1 ahead of the threshold, and no further. -/
theorem witness_CommandFlow_begins : ∃ y t, (waiting (cmdBytes 1 (cmdW 1)) 0x80000000).cask.yy.nextCmd 0 = some 0 ∧
    (waiting (cmdBytes 1 (cmdW 1)) 0x80000000).entAt 0 0 = some y ∧
    decodeCmd (natOf y.bytes) = .ok (.copy (cmdW 1)) ∧
    (waiting (cmdBytes 1 (cmdW 1)) 0x80000000).groupOk y (natOf y.bytes % 256) (cmdAt (natOf y.bytes)) = true ∧
    (let k := (cmdAt (natOf y.bytes)).w1; k.en = true ∧
      ((waiting (cmdBytes 1 (cmdW 1)) 0x80000000).cask.evreg k.ev.toNat - k.thr).toNat = 2 ^ 31 - 1) ∧
    (((waiting (cmdBytes 1 (cmdW 1)) 0x80000000).cask.yy.queue 0).filter (·.begun)).length < 8 ∧
    writeRecord { y with begun := true, tbeg := 0, wait := none } false (waiting (cmdBytes 1 (cmdW 1)) 0x80000000) = .ok () t :=
  ⟨YEnt.fork (cmdBytes 1 (cmdW 1)) 1 1 0 none, _, by decide +kernel, rfl, isCmd_of (by decide +kernel), by decide +kernel,
    by decide +kernel, by decide +kernel, rfl⟩
theorem witness_CommandFlow_waits : ∃ y, (waiting (cmdBytes 1 (cmdW 0)) 0x80000000).entAt 0 0 = some y ∧
    decodeCmd (natOf y.bytes) = .ok (.copy (cmdW 0)) ∧
    (waiting (cmdBytes 1 (cmdW 0)) 0x80000000).groupOk y (natOf y.bytes % 256) (cmdAt (natOf y.bytes)) = true ∧
    (let k := (cmdAt (natOf y.bytes)).w0; k.en = true ∧
      ¬ ((waiting (cmdBytes 1 (cmdW 0)) 0x80000000).cask.evreg k.ev.toNat - k.thr).toNat < 2 ^ 31) :=
  ⟨YEnt.fork (cmdBytes 1 (cmdW 0)) 1 1 0 none, rfl, isCmd_of (by decide +kernel), by decide +kernel, by decide +kernel⟩
theorem witness_CommandFlow_eight : (let s := waiting (cmdBytes 1 cmd) 0
    let s := s.setCask { s.cask with yy := { s.cask.yy with
      queues := [(0, List.replicate 8 (yEnt cmd 1 0) ++ [YEnt.fork (cmdBytes 1 cmd) 1 1 0 none])] } }
    s.cask.yy.nextCmd 0 = some 8 ∧ 8 ≤ ((s.cask.yy.queue 0).filter (·.begun)).length) := by decide +kernel
/-- An operation that no command has; a copy with 0 in COUNT of a first level; a multicast to a device outside the group. -/
theorem witness_CommandFlow_stops : (match decodeCmd 0 with
      | .error .illegalOp => true
      | _ => false) = true ∧
    (match decodeCmd 1 with
      | .error .copyMalformed => true
      | _ => false) = true ∧
    (∃ y, (waiting (cmdBytes 7 cmdFmcast) 0).entAt 0 0 = some y ∧ decodeCmd (natOf y.bytes) = .ok (.fmcast cmdFmcast) ∧
      (waiting (cmdBytes 7 cmdFmcast) 0).groupOk y (natOf y.bytes % 256) (cmdAt (natOf y.bytes)) = false) :=
  ⟨by decide +kernel, by decide +kernel, YEnt.fork (cmdBytes 7 cmdFmcast) 1 1 0 none, rfl, isCmd_of (by decide +kernel), by decide +kernel⟩
theorem witness_CommandFlow_completes : let s := (yState cmd 1 32).updEnt 0 0 fun y => { y with done := true }
    let y := { yEnt cmd 1 32 with done := true }
    s.entAt 0 0 = some y ∧ y.begun = true ∧ y.done = true ∧ s.cask.yy.goes 0 = true ∧
      okD (writeRecord y true s) = true := by decide +kernel

/-- A multicast to this device alone, which signals the strand of its own launch; a FRED that has done its work. -/
def doneState (c : Cmd) (opc : Nat) : State := (yState c opc 32).updEnt 0 0 fun y => { y with done := true }
theorem witness_CommandFlow_groups : (let c := cmdAt (natOf (yEnt { cmdMc with rsig := true } 7 32).bytes)
      c.rsig = true ∧ ranksOf c.bind = [(doneState cmdMc 7).dev.rank] ∧ (doneState cmdMc 7).cask.yy.goes 0 = true ∧
        (∀ r ∈ ranksOf c.bind, (doneState cmdMc 7).goesOut c.rloc r = false)) ∧
    natOf (yEnt cmdFr 8 32).bytes % 2 ^ 8 = 8 ∧ okD (writeRecord { yEnt cmdFr 8 32 with done := true } true (doneState cmdFr 8)) = true := by
  decide +kernel

/-- A command with a record at 0x1000 that goes behind one which still writes there; it waits, and begins once that is done. -/
theorem witness_CommandFlow_ordered : (let y := { YEnt.fork (cmdBytes 1 { cmd with crec := true, crecAt := 0x1000 }) 2 1 0 none with wait := none }
    let s := yState { cmd with dst := 0x1000 } 1 0
    let s := s.setCask { s.cask with yy := { s.cask.yy with queues := [(0, s.cask.yy.queue 0 ++ [y])] } }
    s.cask.yy.nextCmd 0 = some 1 ∧ s.blocked 0 1 y.recordSpan = true) ∧
    (waiting (cmdBytes 1 (cmdW 1)) 0x80000000).blocked 0 0 (YEnt.fork (cmdBytes 1 (cmdW 1)) 1 1 0 none).recordSpan = false := by
  decide +kernel
/-- A command that increments a counter of its own launch, and one without. -/
theorem witness_CommandFlow_sends : (let c := cmdAt (natOf (yEnt { cmd with rsig := true, rloc := true } 1 32).bytes)
    c.rsig = true ∧ (yState cmd 1 32).goesOut c.rloc c.rdev.toNat = false ∧ (yEnt { cmd with rsig := true, rloc := true } 1 32).status = 0) ∧
    (cmdAt (natOf (yEnt cmd 1 32).bytes)).rsig = false := by decide +kernel

theorem witness_FabricEvents_increments : k0.targetLid (.launch 0) = none ∧ k0.targetLid (.gang 0) = none ∧
    (incTo [] [] false).targetLid (.launch 0) = some 0 ∧
    ((incTo [] [] false).launchAt 0).ordOf 383 = none ∧
    (((incTo [0, 1] [1] false).launchAt 0).ordOf 1 = some 1 ∧ 1 ∈ ((incTo [0, 1] [1] false).launchAt 0).ended) ∧
    (let s := incTo [0] [] false; (s.launchAt 0).ordOf 0 = some 0 ∧ 0 ∉ (s.launchAt 0).ended ∧ 0 ∈ (s.launchAt 0).started ∧
      aFind (s.launchAt 0).saved 0 = none ∧ (s.launchAt 0).lease[0]? = some (0, false) ∧
      (s.caskAt 0 false).st.live = true ∧ (s.caskAt 0 false).kr.lid.toNat = 0) ∧
    (let s := incTo [0] [] false; (s.launchAt 0).ordOf 1 = some 1 ∧ 1 ∉ (s.launchAt 0).ended ∧ 1 ∉ (s.launchAt 0).started ∧
      (s.launchAt 0).granted = true) := by decide +kernel
/-- What ranks 0 and 1 contribute to a sum with tag 0; only rank 0. -/
def contrib (r : Nat) : Contrib := { tag := 0, rank := r, d6 := 0, d7 := 0, d10 := 0, mask := 3, data := List.replicate 4 1 }
def summed (cs : List Contrib) : State := { k0 with dev := { k0.dev with contribs := cs } }
/-- The value of the node of rank 1, for tag 0. -/
def node1 : NodeVal := { tag := 0, rank := 1, data := List.replicate 4 2, fl := 0, nans := 0, infs := 0, wraps := 0 }
def sumsOf (s : State) : List Contrib := (s.dev.contribs.filter fun c => c.tag = (0 : BitVec 16).toNat).foldr insertRank []
/-- At rank 0: one is missing; both are there, and rank 1's node is not, or is. At rank 1: the node has no children and goes to 0. -/
theorem witness_FabricEvents_sums : allHere (sumsOf (summed [contrib 0])) = false ∧
    (let s := summed [contrib 1, contrib 0]
     sumsOf s = contrib 0 :: [contrib 1] ∧ allHere (sumsOf s) = true ∧ agree (sumsOf s) = true ∧
       (sumsOf s).find? (fun k => k.rank = s.dev.rank) = some (contrib 0) ∧
       ranksOf (contrib 0).cmd.bind = [0, 1] ∧ (ranksOf (contrib 0).cmd.bind).idxOf s.dev.rank = 0 ∧
       s.dev.nodes.find? (fun v => v.tag = 0 ∧ v.rank = 1) = none ∧
       ({ s with dev := { s.dev with nodes := [node1] } } : State).dev.nodes.find? (fun v => v.tag = 0 ∧ v.rank = 1) = some node1) ∧
    (let s : State := { summed [contrib 1, contrib 0] with dev := { (summed [contrib 1, contrib 0]).dev with fgrp := 0x10201 } }
     (sumsOf s).find? (fun k => k.rank = s.dev.rank) = some (contrib 1) ∧ (ranksOf (contrib 0).cmd.bind).idxOf s.dev.rank = 1 ∧
       1 % 2 ^ (0 + 1) = 2 ^ 0) := by
  decide +kernel
theorem witness_FabricEvents_other : let cs := sumsOf (summed [{ contrib 1 with mask := 2 }])
    cs = { contrib 1 with mask := 2 } :: [] ∧ allHere cs = true ∧ agree cs = true ∧ ∀ k ∈ cs, k.rank ≠ (summed []).dev.rank := by
  decide +kernel
/-- Two that differ in dword 6; the hub of ranks 0 and 1, whose ROOT is 0, is rank 0, and with ALL both ranks write. -/
theorem witness_FabricEvents_agree : agree (contrib 0 :: [{ contrib 1 with d6 := 1 }]) = false ∧
    allHere (contrib 0 :: [{ contrib 1 with d6 := 1 }]) = true ∧
    ((contrib 0).cmd.hub = 0 ∧ (contrib 0).cmd.writes 0 = true ∧ (contrib 0).cmd.writes 1 = false) ∧
    (let c := { contrib 0 with d10 := 2 ^ 33 }; 1 ∈ c.cmd.takers ∧ 1 ≠ (summed []).dev.rank) ∧
    ({ k0 with dev := { k0.dev with fgrp := 0x10201 } } : State).dev.rank ≠ (contrib 0).cmd.hub := by decide +kernel
/-- A device of a group; an access that a VA allows and one that no page maps. -/
def grouped : State := let s := mapped k0; { s with dev := { s.dev with fgrp := 0x10001 } }
theorem witness_FabricEvents_accesses : 0 < grouped.dev.groupSize ∧
    (∃ bs t, fabricDo (grouped.dev.partOfAsid 0) 0 (.write 1 0x1000 [1, 2]) grouped = .ok bs t) ∧
    FabAcc.origin (.write 1 0x1000 [1, 2]) = some 1 ∧
    ∃ e t, fabricDo (grouped.dev.partOfAsid 0) 0 (.write 1 0x40000000 [1, 2]) grouped = .error e t := by
  have b : okD (fabricDo (grouped.dev.partOfAsid 0) 0 (.write 1 0x40000000 [1, 2]) grouped) = false := by decide +kernel
  refine ⟨by decide +kernel, ok_of (by decide +kernel), rfl, ?_⟩
  cases h : fabricDo (grouped.dev.partOfAsid 0) 0 (.write 1 0x40000000 [1, 2]) grouped with
  | ok _ _ => rw [h] at b; cases b
  | error e t => exact ⟨e, t, rfl⟩
/-- Partition 0 changes its slice map: slice 0 has lost every granule to slice 1, which has not adopted the map. -/
def moving (s : State) : State := { s with dev := { s.dev with parts := [(0, { Partition.reset with
  slices := [0, 1], busy := true, adopted := [0], next := (List.range 1024).map fun i => (i, 1) })] } }
/-- An action that a slice holds. -/
def heldD {σ α : Type} (r : EStateM.Result Stop σ α) : Bool := match r with
  | .error .hold _ => true
  | _ => false
theorem held_of {σ α : Type} {r : EStateM.Result Stop σ α} (h : heldD r = true) : ∃ t, r = .error .hold t := by
  unfold heldD at h
  split at h
  · exact ⟨_, rfl⟩
  · cases h
theorem witness_FabricEvents_held : 0 < (moving grouped).dev.groupSize ∧
    ∃ t, fabricDo ((moving grouped).dev.partOfAsid 0) 0 (.write 1 0x1000 [1, 2]) (moving grouped) = .error .hold t :=
  ⟨by decide +kernel, held_of (by decide +kernel)⟩
/-- The time of a launch that no packet has yet told of; a route and none. -/
theorem witness_FabricEvents_notices : (incTo [] [] true).targetLid (.gang 0) = some 0 ∧ ((incTo [] [] true).launchAt 0).gangT = none ∧
    smGet 0 ({ k0 with dev := { k0.dev with froute := [(5, 0x8000)] } } : State).dev.froute 5 ≠ 0 ∧ smGet 0 k0.dev.froute 5 = 0 := by
  decide +kernel
theorem witness_FabricEvents_merge : (let s : State := { k0 with dev := { k0.dev with combT := [(32, (4, 0))], rtc := 4100 } }
    aFind s.dev.combT (32 : BitVec 33).toNat = some (4, 0) ∧ 4 + 4096 ≤ s.dev.rtc) ∧
    (let s : State := { k0 with dev := { k0.dev with combT := [(32, (4, 0))], rtc := 4099 } }; s.dev.rtc < 4 + 4096) := by decide +kernel

/-- A header of `n` words at the last place where one word fits, with two requirements. -/
def hdrState (n rq : Nat) : State := at0 fun c =>
  let b := bytesOf 8 (n + rq * 2 ^ 28 + 0xFFFF * 2 ^ 44)
  { c with eS := { c.eS with hoff := 0x1FFEC, owed := [] }, mem := { c.mem with is := smSetRange 0 [] 0x1FFEC b } }
theorem witness_WaitBounds_sections :
    ((hdrState 1 0).cask.eng .s).owed = [] ∧ nsHits ((hdrState 1 0).cask.imemP .s) ((hdrState 1 0).cask.eng .s).hoff 8 = false ∧
    decodeHdr ((hdrState 0 0).cask.hdrAt .s 0x1FFEC) = none ∧
    ((decodeHdr ((hdrState 2 0).cask.hdrAt .s 0x1FFEC)).map fun h => decide (imemSize false < 0x1FFEC + 8 + 12 * h.n)) = some true ∧
    ((decodeHdr ((hdrState 1 0xFFFF).cask.hdrAt .s 0x1FFEC)).map fun h =>
      decide (0x1FFEC + 8 + 12 * h.n ≤ imemSize false) && (h.rq1 == 0xFFFF) && (h.rq2 == 0xFFFF)) = some true ∧
    ((decodeHdr ((hdrState 1 0).cask.hdrAt .s 0x1FFEC)).map fun h =>
      decide (h.rq1 = 0) && !((hdrState 1 0).cask.eng (Eng.others .s).1).retired) = some true := by decide +kernel
theorem witness_WaitBounds_sections_poisoned :
    (let s := at0 fun c => { c with mem := { c.mem with isP := [7] } }; nsHits (s.cask.imemP .s) (s.cask.eng .s).hoff 8 = true ∧ (s.cask.eng .s).owed = []) := by
  decide +kernel
/-- S waits at an empty FQ from cycle 0 on; it waits for a token; K waits. -/
def waited (rtc : Nat) (w : Wait) : State :=
  let s := at0 fun c => { c with
    cp := { c.cp with fqWait := [(.s, 0)] }, eS := { c.eS with wait := some w }
    kr := { c.kr with wdog := 1 }, st := { c.st with wait := some { w with token := false } } }
  { s with dev := { s.dev with rtc := rtc, vint := [(0, { Vint.reset with en := true, exf := 480, apxf := 480 })] }, tick := 5 }
theorem witness_WaitBounds : let w : Wait := { since := 0, tried := 4, token := true }
    (let s := waited 257 w
     s.engGoes = true ∧ s.kGoes = true ∧ s.cask.cp.fqWait.find? (fun p => p.1 == .s) = some (.s, 0) ∧ s.cask.cp.fq = [] ∧
      256 * 480 ≤ (s.dev.rtc - 0) * s.clock ∧ w.tried + 1 = s.tick ∧ 0 < s.cask.kr.wdog.toNat ∧
      s.cask.kr.wdog.toNat * 256 < s.dev.rtc - w.since ∧ (s.cask.eng .s).wait = some w ∧
      s.cask.st.wait = some { w with token := false }) ∧
    (let s := waited 255 w
     (s.dev.rtc - 0) * s.clock < 256 * 480 ∧ ¬ s.cask.kr.wdog.toNat * 256 < s.dev.rtc - w.since) := by decide +kernel

/-- A section with NFA whose last word has not retired; a word of M that has issued waits too long, and commands of Y. -/
theorem witness_WaitBounds_late : (let s := at0 fun c => { c with eS := { c.eS with nfa := true, started := false, owed := [{ cn := 1, hp := false, hn := false, ready := false }] } }
     (s.cask.eng .s).nfa = true ∧ (s.cask.eng .s).started = false ∧ (s.cask.eng .s).owed ≠ [] ∧ (s.cask.eng .s).owed.all (fun o => !o.ready) = true) ∧
    (let w : Wait := { since := 0, tried := 4, token := false }
     let q : YEnt := { YEnt.fork (cmdBytes 1 cmd) 1 1 0 none with wait := some w }
     let s := waited 257 w
     let s := s.setCask { s.cask with yy := { s.cask.yy with queues := [(0, [YEnt.fork (cmdBytes 1 cmd) 1 1 0 none, q])] } }
     s.issuing = true ∧ s.cask.yy.queue 0 = [YEnt.fork (cmdBytes 1 cmd) 1 1 0 none] ++ q :: [] ∧ q.wait = some w ∧ w.token = false ∧
       w.tried + 1 = s.tick ∧ 0 < s.cask.kr.wdog.toNat ∧ s.cask.kr.wdog.toNat * 256 < s.dev.rtc - w.since) ∧
    (let s := dual1 0; ({ s with turn := { s.turn with cask := true } } : State).issuing = false) := by decide +kernel
theorem witness_WaitBounds_late_m : let w : Wait := { since := 0, tried := 4, token := true }
    let s := waited 257 w
    let l : Late := { i := .nop .m t0, f := Flight.start 1 0 0 0, x := [], reads := [], writes := [], unit := .array, apply := false, wait := some w }
    let s := s.setCask { s.cask with eM := { s.cask.eM with late := [l] } }
    s.engGoes = true ∧ some w ∈ (s.cask.eng .m).late.map (·.wait) ∧ w.tried + 1 = s.tick := by decide +kernel

theorem witness_CoreEvents : (∃ l, (lined.core lined.turn.core).lineAt 0 (0x800 : BitVec 57).toNat = some l ∧ l.dirty = 0) ∧
    (let s := at0 fun c => { c with st := { c.st with armed := some (0, 0x800) } }; s.cask.st.armed ≠ none) ∧
    (k0.cask.st.live = true ∧ (let s := at0 fun c => { c with st := { c.st with stopped := true, kstop := true } }; s.cask.st.live = true ∧ s.cask.st.kstop = true ∧ s.cask.kr.priv = false)) ∧
    ((dual1 0).dual = true ∧ ((dual1 0).core (dual1 0).turn.core).cur ≠ true) := by
  refine ⟨?_, by decide +kernel⟩
  have h : (match (lined.core lined.turn.core).lineAt 0 (0x800 : BitVec 57).toNat with
    | some l => decide (l.dirty = 0)
    | none => false) = true := by decide +kernel
  split at h
  · next l e => exact ⟨l, e, of_decide_eq_true h⟩
  · cases h
theorem witness_CoreEvents_ageing : let s := tiles [4] [5] false 0
    let l := s.launchAt 0
    aFind s.dev.launches 0 = some l ∧ l.ageing = some 120000 ∧ l.begun = true ∧
      l.startAt + 120000 ≤ ({ s with dev := { s.dev with rtc := 120000 } } : State).dev.rtc := by decide +kernel
theorem witness_CoreEvents_remap : ∃ l t, translate memK.turn.core memK.cask.kr.asid 0x1000 .read memK = .ok l t :=
  ok_of (by decide +kernel)
/-- A request of a unit that slice 3 turned away, `n` times before. -/
def ask (u : CoreUnit) (queue num n : Nat) : Ask :=
  { unit := askNo false u, queue := queue, cnum := num, asid := 0, line := 0x200, gen := 0, slice := some 3, nacks := n }
/-- It stands behind one of M that waits for no slice. -/
def nacked (u : CoreUnit) (queue num n : Nat) : State := (yState cmd 1 0).setCore 0 { (yState cmd 1 0).core 0 with
  asks := [{ ask .m 0 0 1 with slice := none }, ask u queue num n] }
theorem witness_CoreEvents_nacks : (let s := nacked .l 0 0 0
      s.unitGoes .l = true ∧ (s.core 0).asks = [{ ask .m 0 0 1 with slice := none }] ++ ask .l 0 0 0 :: [] ∧
      (ask .l 0 0 0).unit = askNo s.turn.cask .l ∧ (ask .l 0 0 0).slice.isSome = true ∧
      (∀ z ∈ [{ ask .m 0 0 1 with slice := none }], ¬ (z.unit = askNo s.turn.cask .l ∧ z.slice.isSome = true)) ∧
      (ask .l 0 0 0).nacks + 1 ≠ 8) ∧
    ((nacked .l 0 0 7).unitGoes .l = true ∧ (ask .l 0 0 7).nacks + 1 = 8) ∧
    ((nacked .y 0 1 7).unitGoes .y = true ∧ (nacked .y 0 1 7).cask.yy.queue 0 = [] ++ yEnt cmd 1 0 :: [] ∧
      (yEnt cmd 1 0).cnum = (ask .y 0 1 7).cnum) ∧
    (let x : Chain := { start := 0, next := 0x1000, queue := some 2, wait := none }
     let s := (nacked .y 4 0 7).updCask fun c => { c with yy := { c.yy with chains := [x] } }
     s.unitGoes .y = true ∧ s.cask.yy.chains[(ask .y 4 0 7).cnum]? = some x) ∧
    ∀ x ∈ (k0.core k0.turn.core).asks, ¬ (x.unit = askNo k0.turn.cask .l ∧ x.slice.isSome = true) := by decide +kernel
/-- A dirty line whose granule slice 0 has lost to slice 1 in a change of the map, and which the station has not heard of. -/
def stuckState : State := (holding memK (l1Of 3 0)).updPart 0 fun p =>
  { p with cores := [0], busy := true, adopted := [0], next := (List.range 1024).map fun i => (i, 1) }
theorem witness_CoreEvents_stuck : ((stuckState.core stuckState.turn.core).lineAt 0 (0x800 : BitVec 57).toNat).any (fun l =>
    stuckState.stuck stuckState.turn.core l) = true := by decide +kernel
/-- Bytes that turn bad: of a local memory, of a line that the L1 holds, of an instruction memory and at home. -/
theorem witness_CoreEvents_poison : (0x1FFFC : Word).toNat < imemSize k0.dual ∧ CoreUnit.k ≠ .y ∧
    (∃ l, (lined.core lined.turn.core).lineAt 0 ((0x4007F : Word).toNat / 128) = some l) ∧
    (5 ∈ (after (.dataPoisoned .spm 5 1) k0).cask.mem.spmP ∧ 5 ∈ (after (.dataPoisoned .klm 5 1) k0).cask.mem.klmP ∧
      0xBFFFF ∈ (after (.dataPoisoned .acm 0xBFFFF 2) k0).cask.mem.acmP ∧ 0xC0000 ∉ (after (.dataPoisoned .acm 0xBFFFF 2) k0).cask.mem.acmP ∧
      0 ∈ (after (.dataPoisoned (.imem .s) 127 1) k0).cask.mem.isP ∧ 7 ∈ (after (.dataPoisoned .home 7 1) k0).dev.dmemP) := by
  refine ⟨by decide +kernel, by decide, ?_, by decide +kernel⟩
  have h : ((lined.core lined.turn.core).lineAt 0 ((0x4007F : Word).toNat / 128)).isSome = true := by decide +kernel
  exact Option.isSome_iff_exists.mp h
/-- A switch of the policy, due. -/
theorem witness_CoreEvents_switch : let s := ({ dual1 0 with dev := (mapped k0).dev } : State).updLaunch 0 fun l => { l with policy := some .checkpoint }
    let k := s.core s.turn.core
    k.dual = true ∧ k.cur ≠ true ∧ (s.launchAt (k.cask k.cur).kr.lid.toNat).policy = some .checkpoint := by decide +kernel

/-- Queues 1 and 2 of one partition, with the passes 7 and 3; launch 5 heads queue 2. -/
def served : State := { k0 with dev := { k0.dev with
  lqs := [(1, { LQueue.reset with pass := 7 }), (2, { LQueue.reset with pass := 3, taken := some 5, tickets := 1 })]
  launches := [(5, Launch.reset)], rtc := 2 * k0.dev.quant, grantDue := [0], sec := { k0.dev.sec with stage := 15 } } }
theorem witness_SchedulerEvents : (let s := served; let now := s.dev.rtc / s.dev.quant * s.dev.quant; s.dev.lastQ < now ∧ s.dev.sec.stage = 15 ∧ s.nextQueue [1, 2] = some 2 ∧ (∀ r ∈ [1, 2], ∀ lid l, s.headLaunch r = some (lid, l) → l.gang = false) ∧
      s.headLaunch 2 = some (5, Launch.reset) ∧ (0 : BitVec 6).toNat ∈ s.dev.grantDue) ∧
    k0.dev.rtc / k0.dev.quant * k0.dev.quant ≤ k0.dev.lastQ := by
  refine ⟨⟨by decide +kernel, by decide +kernel, by decide +kernel, ?_, by decide +kernel, by decide +kernel⟩, by decide +kernel⟩
  intro r hr lid l h
  simp only [List.mem_cons, List.not_mem_nil, or_false] at hr
  rcases hr with rfl | rfl
  · rw [show served.headLaunch 1 = none by decide +kernel] at h
    cases h
  · rw [show served.headLaunch 2 = some (5, Launch.reset) by decide +kernel] at h
    cases h
    rfl
/-- Launch 0 leaves its queue: its record can be written, or a slice holds it. -/
def recAt : Launch := { (mapped k0).launchAt 0 with dwords := (List.replicate 16 0).set 13 0x1000 }
theorem witness_SchedulerEvents_ends : recAt.lease ≠ [] ∧ aFind (mapped k0).dev.launches 0 = some ((mapped k0).launchAt 0) ∧
    (∃ u t, ioStore ((mapped k0).partAt 0) recAt.asid (recAt.dw 13) (completionWords recAt 0 0 0) (mapped k0) = .ok u t) ∧
    ∃ t, ioStore ((moving (mapped k0)).partAt 0) recAt.asid (recAt.dw 13) (completionWords recAt 0 0 0) (moving (mapped k0)) = .error .hold t :=
  ⟨by decide, by decide +kernel, ok_of (by decide +kernel), held_of (by decide +kernel)⟩
/-- A new launch of two strands fits in two cores and not in one; one that was granted cores before gets those. -/
def twoStrands (lease : List (Nat × Bool)) : Launch := { Launch.reset with lease := lease, dwords := (List.replicate 16 0).set 0 0x20000 }
def roundOf (lease taken : List (Nat × Bool)) : Round :=
  { s := { served with dev := { served.dev with launches := [(5, twoStrands lease)] } }, taken := taken, won := [] }
theorem witness_SchedulerEvents_grants : (roundOf [] []).s.headLaunch 2 = some (5, twoStrands []) ∧ (twoStrands []).strands = 2 ∧
    (roundOf [] []).fits [(7, false), (9, false)] false 2 = true ∧ (roundOf [] []).fits [(7, false)] false 2 = false ∧
    (roundOf [(7, false)] []).fits [] true 2 = true ∧ (roundOf [(7, false)] [(7, false)]).fits [] true 2 = false ∧
    aFind (roundOf [] []).s.dev.launches 5 = some (twoStrands []) ∧
    ([1, 2].filter fun q => (roundOf [] []).fits [(7, false), (9, false)] false q) ≠ [] ∧ served.dev.trip = false ∧
    ({ served with dev := { served.dev with trip := true } } : State).dev.trip = true ∧ (1 : BitVec 6).toNat ∉ served.dev.grantDue := by
  decide +kernel
/-- Arguments, an affinity table and images that can be read, that lie on no page, and that a slice holds. -/
def startAt (arg table image : Word) : Launch := { (mapped k0).launchAt 0 with
  dwords := ((((List.replicate 16 0).set 7 arg).set 8 table).set 1 image).set 5 1 |>.set 0 0x10000 }
theorem witness_SchedulerEvents_starts : let l := startAt 0x1000 0x1000 0x1000
    aFind ((mapped k0).updLaunch 0 fun _ => l).dev.launches 0 = some l ∧
    (∃ b t, ioLoad ((mapped k0).partAt 0) l.asid (l.dw 7) 512 (mapped k0) = .ok b t) ∧
    (∃ t, ioLoad ((moving k0).partAt 0) l.asid (l.dw 7) 512 (moving k0) = .error .hold t) ∧
    (∃ h t, launchHints ((mapped k0).partAt 0) l (mapped k0) = .ok h t) ∧
    okD (launchHints ((mapped k0).partAt 0) (startAt 0x1000 0x40000000 0x1000) (mapped k0)) = false ∧
    (∃ m t, launchImages ((mapped k0).partAt 0) l (mapped k0) = .ok m t) ∧
    okD (launchImages ((mapped k0).partAt 0) (startAt 0x1000 0 0x40000000) (mapped k0)) = false ∧
    (mapped k0).homeFree 0 = true ∧ stuckState.homeFree 0 = false ∧
    aFind ((mapped k0).launchAt 0).saved 0 = none ∧ 0 ∉ ((mapped k0).launchAt 0).started ∧
    ((mapped k0).launchAt 0).gangWaits (mapped k0).dev.rtc = false :=
  ⟨by decide +kernel, ok_of (by decide +kernel), held_of (by decide +kernel), ok_of (by decide +kernel), by decide +kernel,
    ok_of (by decide +kernel), by decide +kernel, by decide +kernel, by decide +kernel, by decide +kernel, by decide +kernel, by decide +kernel⟩
/-- Launch 0 drains; it is a gang launch, late since cycle 5; it is checkpointed. -/
def drained (t : Nat) : State := let s := (incTo [0] [] false).updLaunch 0 fun l => { l with policy := some .drain, drainAt := 0 }; { s with dev := { s.dev with rtc := t } }
theorem witness_SchedulerEvents_drain : (let s := drained 0xFFFFFFFFF; let l := s.launchAt 0
      l.policy = some .drain ∧ l.drainAt + 4 * (s.dev.sched.extractLsb' 16 16).toNat * 2400 ≤ s.dev.rtc) ∧
    (let l := k0.launchAt 0; ¬ l.policy = some .drain) := by decide +kernel
theorem witness_SchedulerEvents_gang : let s := (incTo [] [] true).updLaunch 0 fun l => { l with gangT := some 5, dwords := (List.replicate 16 0).set 0 0x20008 }
    let s : State := { s with dev := { s.dev with rtc := 0xFFFFFFFF } }
    (s.dev.sched.extractLsb' 32 16).toNat * 2400 ≤ s.dev.rtc ∧
      (s.launchAt 0).late (s.dev.rtc - (s.dev.sched.extractLsb' 32 16).toNat * 2400) = true := by decide +kernel
theorem witness_SchedulerEvents_checkpoint : let s := (mapped k0).updLaunch 0 fun l => { l with granted := false, policy := some .checkpoint }
    s.cask.st.live = true ∧ s.dual = false ∧ s.launch.granted = false ∧ s.launch.policy = some .checkpoint ∧
      s.linesReady s.turn.core s.turn.cask = true := by decide +kernel
/-- Rank 0 of a group of two: both members have taken the record, the second at cycle 7; only the first; and rank 1. -/
def ganged (took : List (Nat × Nat × Nat)) (fgrp : Word) : State := let s := incTo [] [] true
  { s with dev := { s.dev with fgrp := fgrp, gangTook := took } }
theorem witness_SchedulerEvents_start : (let s := ganged [(0, 0, 5), (0, 1, 7)] 0x10001
      s.targetLid (.gang 0) = some 0 ∧ aFind s.dev.launches 0 = some (s.launchAt 0) ∧ (s.launchAt 0).gangT = none ∧
        s.dev.rank = 0 ∧ s.dev.gangTime (0 : BitVec 16).toNat = some (3 * s.dev.quant) ∧ 0 < s.dev.quant ∧ 1 < s.dev.groupSize) ∧
    (ganged [(0, 0, 5)] 0x10001).dev.gangTime (0 : BitVec 16).toNat = none ∧
    (let s := ganged [] 0x10201; s.dev.groupSize ≠ 0 ∧ s.dev.rank ≠ 0 ∧ s.targetLid (.gang 0) = some 0) := by decide +kernel

/-- The security processor waits for an image; it has a first chunk; the command `w` runs. -/
def recovering (image : Option (List Byte)) (w : Option Word) : State := { k0 with dev := { k0.dev with
  sec := { k0.dev.sec with recovery := true, stage := 2, image := image, job := w } } }
/-- The word of a LOADIMG of `n` bytes at `off`. -/
def ldWord (fst last : Bool) (off n : Nat) : Word := BitVec.ofNat 64 (4 + fst.toNat * 2 ^ 8 + last.toNat * 2 ^ 9 + n * 2 ^ 27 + off * 2 ^ 40)
theorem witness_BringUpEvents : ((0 : BitVec 7) = 0 ∧ 64 < (65 : BitVec 7).toNat) ∧ ((64 : BitVec 7) ≠ 0 ∧ (64 : BitVec 7).toNat ≤ 64) ∧
    (State.reset.dev.sec.stage < 3 ∧ 3 ≤ ({ (recovering none none).dev.sec with stage := 3 } : Secure).stage) ∧
    (let x := State.reset.dev.sec; ¬ (3 ≤ x.stage ∨ x.recovery = true)) ∧
    (let x := (recovering none none).dev.sec; (3 ≤ x.stage ∨ x.recovery = true) ∧ x.job = none) ∧
    (let x := (recovering none (some 1)).dev.sec; (3 ≤ x.stage ∨ x.recovery = true) ∧ x.job ≠ none) ∧
    ((1 ≤ (4 : Word).toNat % 2 ^ 8 ∧ (4 : Word).toNat % 2 ^ 8 ≤ 4) ∧ (0x100 : Word).toNat % 2 ^ 8 = 0 ∧ 4 < (5 : Word).toNat % 2 ^ 8) := by
  decide +kernel
/-- Every dirty line can go home, and one that a slice would turn away; a launch of function 5. -/
def ofFn5 : State := { mapped k0 with dev := { (mapped k0).dev with lqs := [(0, { LQueue.reset with ctl := 5 <<< 32 })] } }
theorem witness_BringUpEvents_resets : (mapped k0).allFree (fun _ => true) = true ∧ stuckState.allFree (fun _ => true) = false ∧
    (ofFn5.dev.launches.filter fun x => decide ((ofFn5.queueAt x.2.queue).vf = (5 : BitVec 7).toNat)) = ofFn5.dev.launches ∧
    ofFn5.dev.launches ≠ [] ∧ (ofFn5.launchFail 0).allFree (fun l => decide ((ofFn5.launchFail 0).dev.fnOfAsid l.asid = some 5)) = true ∧
    ({ stuckState with dev := { stuckState.dev with aslot := [(0, 0x85)] } } : State).allFree (fun l =>
      decide (({ stuckState.dev with aslot := [(0, 0x85)] } : Dev).fnOfAsid l.asid = some 5)) = false := by decide +kernel
/-- One command runs; the words of the other three are no command; one with bits above its code. -/
theorem witness_BringUpEvents_commands : (let x := (recovering none (some 1)).dev.sec; x.job = some 1 ∧ x.job ≠ some 2 ∧ (1 : Word).toNat / 2 ^ 8 = 0) ∧
    (let x := (recovering none (some 0x103)).dev.sec
     let w : Word := 0x103
     x.job = some w ∧ w.toNat % 2 ^ 8 = 3 ∧ w.toNat / 2 ^ 8 ≠ 0) ∧
    (let x := { (recovering none (some 4)).dev.sec with recovery := false }; x.job = some 4 ∧ x.recovery = false) := by decide +kernel
theorem witness_BringUpEvents_images : (let w := ldWord true false 0 1536
      let x := (recovering none (some w)).dev.sec
      x.recovery = true ∧ x.job = some w ∧ w.toNat % 2 ^ 8 = 4 ∧ x.stage = 2 ∧ w.getLsbD 8 = true ∧ w.getLsbD 9 = false ∧
        (w.extractLsb' 27 13).toNat = 1536 ∧ chunkOk x.image w.toNat (smGetRange 0 x.mbox 0 1536) = true) ∧
    (let w := ldWord true false 0 100
      let x := (recovering none (some w)).dev.sec
      chunkOk x.image w.toNat (smGetRange 0 x.mbox 0 100) = false) ∧
    (let w := ldWord false false 1536 128
      let x := (recovering (some (List.replicate 1536 0)) (some w)).dev.sec
      w.getLsbD 8 = false ∧ chunkOk x.image w.toNat (x.image.getD [] ++ smGetRange 0 x.mbox 0 128) = false) := by
  decide +kernel
/-- A last chunk: an image of a header and a body of 128 bytes, which does not verify. -/
def badImage : List Byte := smGetRange 0 (smSetRange 0 [] 16 (bytesOf 8 128)) 0 1664
theorem witness_BringUpEvents_last : let w := ldWord false true 1536 128
    w.getLsbD 9 = true ∧ chunkOk (some (badImage.take 1536)) w.toNat badImage = true ∧
      0 < verifyImage badImage 1 Config.khash (k0.dev.minSvn 1) := by decide +kernel

/-! ### The host -/

/-- Hand-over has come. -/
def handed : State := { mapped k0 with dev := { (mapped k0).dev with sec := { k0.dev.sec with stage := 15 } } }
theorem witness_HostRegisters_queues : (let x := handed.queueAt (255 : BitVec 8).toNat; x.entries = 16 ∧ x.entries < ((17 : Word).toNat + 2 ^ 64 - x.head) % 2 ^ 64 ∧ ((16 : Word).toNat + 2 ^ 64 - x.head) % 2 ^ 64 ≤ x.entries ∧ x.head = x.tail ∧ (16 : Word).toNat ≠ x.head ∧ handed.dev.sec.stage = 15) ∧
    (let x : LQueue := { LQueue.reset with tail := 3 }; x.head ≠ x.tail) ∧
    (let v : Word := 0x80100000; let s := handed
      let s : State := { s with dev := { s.dev with aslot := [(63, 0x80)] } }
      v.getLsbD 31 = true ∧ (1 ≤ (v.extractLsb' 0 21).toNat ∧ (v.extractLsb' 0 21).toNat = 2 ^ 20) ∧ (v.extractLsb' 32 7).toNat = 0 ∧
        63 < 64 ∧ (smGet 0 s.dev.aslot 63).getLsbD 7 = true ∧ ((smGet 0 s.dev.aslot 63).extractLsb' 0 7).toNat = (v.extractLsb' 32 7).toNat) ∧
    (let v : Word := 0x80100001; ¬ (v.extractLsb' 0 21).toNat ≤ 2 ^ 20) ∧ (0 : Word).getLsbD 31 = false := by decide +kernel
theorem witness_HostRegisters_cap : (let n := ((256 : Word).extractLsb' 0 9).toNat; 1 ≤ n ∧ n ≤ 256) ∧ ((257 : Word).extractLsb' 0 9).toNat = 257 ∧ ((0 : Word).extractLsb' 0 9).toNat = 0 := by decide +kernel
theorem witness_HostRegisters_table : (383 : CoreNo).toNat < 384 ∧
    (let x := aGet Vint.reset handed.dev.vint 383; x.en = false ∧ x.spare = false) ∧
    (let x := { aGet Vint.reset handed.dev.vint 383 with spare := true }; ¬ (x.spare = false ∨ x.seen = true)) := by decide +kernel
theorem witness_HostRegisters_partitions : (let x := aGet Partition.reset handed.dev.parts (0 : BitVec 6).toNat
      x.dual = false ∧ x.dual ≠ true ∧ handed.anyStrand (fun n _ => x.cores.contains n) = false ∧
      x.busy = false ∧ (1 : Word).setWidth 8 = x.gen + 1 ∧ (2 : Word).setWidth 8 ≠ x.gen + 1) ∧
    handed.anyStrand (fun n _ => ({ Partition.reset with cores := [0] } : Partition).cores.contains n) = true := by decide +kernel
/-- A partition without strands whose core 1 holds a line that a slice would turn away, and one whose cores' lines can go home. -/
def residing (busy : Bool) : State := { handed with
  cores := aSet handed.cores 1 { (handed.core 1) with l1 := [l1Of 3 0] }
  dev := { handed.dev with parts := [(0, { Partition.reset with
    cores := [1], busy := busy, adopted := [0], next := (List.range 1024).map fun i => (i, 1) })] } }
theorem witness_HostRegisters_residency : ([true, false].all fun b =>
      let x := aGet Partition.reset (residing b).dev.parts (0 : BitVec 6).toNat
      decide (x.dual = false) && decide ((residing b).anyStrand (fun n _ => x.cores.contains n) = false) &&
        decide (x.cores = [1])) = true ∧
    (residing true).homeFree 1 = false ∧ (residing false).homeFree 1 = true ∧ (residing true).dev.sec.stage = 15 := by decide +kernel
/-- A map changes: slice 3 has not adopted it yet, or core 0 has a request open; and a station has not. -/
theorem witness_HostRegisters_change : (let x : Partition := { Partition.reset with busy := true, slices := [3], cores := [0] }
      x.slices.all x.adopted.contains = false ∧ x.cores.all x.stations.contains = false ∧ x.busy = true) ∧
    ((nacked .l 0 0 0).core 0).asks.all (·.slice.isNone) = false := by decide +kernel
theorem witness_HostRegisters_slots : handed.anyStrand (fun _ c => decide (c.kr.asid.toNat / 16 = (0 : BitVec 6).toNat)) = true ∧
    handed.anyStrand (fun _ c => decide (c.kr.asid.toNat / 16 = (63 : BitVec 6).toNat)) = false := by decide +kernel

/-- A context table at PA 0 and three levels of page tables map VAs 0 to 2 MiB of ASID 0 to PA 0x200000. -/
def tabled : State := { handed with dev := { handed.dev with
  leaves := [], parts := [(0, { Partition.reset with ranges := [(0, (0, 0xFFFFFF))] })]
  dmem := [(0, 1), (2, 1), (0x10000, 1), (0x10002, 2), (0x20000, 1), (0x20001, 0x10), (0x20002, 2), (0x21000, 0xF), (0x21002, 0x20)] } }
theorem witness_HostAccesses_migration : handed.dev.migratable 0 0 = none ∧
    tabled.dev.migratable 0 0x1FFFFF = some (0x21000, 21, 0x20000F) ∧ tabled.dev.sec.stage = 15 ∧
    (0x40 : BitVec 24).toNat * 2 ^ 16 % 2 ^ 21 = 0 ∧ (0x40 : BitVec 24).toNat * 2 ^ 16 ≠ pteAddr 0x20000F := by decide +kernel
/-- Function 0's last window, with slot 0 bound to it, and function 1's window 0, which is invalid. -/
def windowed (sa : Word) : State := { handed with dev := { handed.dev with
  aslot := [(0, 0x80)], wins := [(2 ^ 15 - 1, { v := true, asid := 0, page := 0 })]
  leaves := [{ ctl := 0, asid := 0, va := 0, lg := 21, pte := 0xF + sa }] } }
theorem witness_HostAccesses_windows : ((64 : BitVec 7).toNat ≤ 64 ∧ (2047 : BitVec 15).toNat < windows (64 : BitVec 7).toNat ∧ (0x7FFF : BitVec 15).toNat < windows 0) ∧
    (let v : Word := 0x1; (windowed 0).dev.fnOfAsid (v.extractLsb' 6 10) = some (0 : BitVec 7).toNat) ∧
    (let v : Word := 0xFFC0; (windowed 0).dev.fnOfAsid (v.extractLsb' 6 10) = none ∧ v.getLsbD 0 = false) ∧
    (let v : Word := 0x1; (windowed 0).dev.fnOfAsid (v.extractLsb' 6 10) ≠ some (1 : BitVec 7).toNat ∧ v.getLsbD 0 = true) := by
  decide +kernel
theorem witness_HostAccesses_aperture : (inBar2 (1 : BitVec 7).toNat (0 : BitVec 36).toNat = true ∧
      (aGet Window.reset (windowed 0).dev.wins (2 ^ 15 * (1 : BitVec 7).toNat + 0)).v = false) ∧
    (inBar2 0 (0xFFFE00100 : BitVec 36).toNat = true ∧
      (aGet Window.reset (windowed 0).dev.wins ((0xFFFE00100 : BitVec 36).toNat / 2 ^ 21)).v = true) ∧
    (∃ bs t, hostDo ((windowed 0).dev.partOfAsid 0) 0 0x100 (.read 8) (windowed 0) = .ok bs t) ∧
    ∃ e t, hostDo ((windowed 0).dev.partOfAsid 0) 0 0x200100 (.read 8) (windowed 0) = .error e t := by
  refine ⟨by decide +kernel, by decide +kernel, ok_of (by decide +kernel), ?_⟩
  have b : okD (hostDo ((windowed 0).dev.partOfAsid 0) 0 0x200100 (.read 8) (windowed 0)) = false := by decide +kernel
  cases h : hostDo ((windowed 0).dev.partOfAsid 0) 0 0x200100 (.read 8) (windowed 0) with
  | ok _ _ => rw [h] at b; cases b
  | error e t => exact ⟨e, t, rfl⟩
/-- What a translation under the aperture gives. -/
def located (s : State) : Option (Bool × Bool × Nat × Bool) := match translateIo (s.dev.partOfAsid 0) 0 0x100 .any s with
  | .ok l t => some (l.sa, l.r && l.w, l.ty, (t.reach l .demand).homePoison l 8)
  | .error .. => none
theorem witness_HostAccesses_atomics : 2 ≤ (2 : BitVec 2).toNat ∧ ((1 : BitVec 2).toNat < 2 ∧ 0x100 % (4 * 2 ^ (1 : BitVec 2).toNat) = 0 ∧ canonical 0x100 = true) ∧
    located (windowed 0) = some (false, true, 0, false) ∧ located (windowed (1 <<< 61)) = some (true, true, 0, false) ∧
    located (windowed ((1 <<< 61) - 4)) = some (true, false, 0, false) := by decide +kernel
/-- An access at no multiple of its size; one that a slice holds, and one to no page. -/
theorem witness_HostAccesses_refused : 0x102 % (4 * 2 ^ (1 : BitVec 2).toNat) ≠ 0 ∧
    (∃ t, hostDo ((moving (windowed 0)).dev.partOfAsid 0) 0 0x100 (.read 8) (moving (windowed 0)) = .error .hold t) ∧
    (∃ t, translateIo ((moving (windowed 0)).dev.partOfAsid 0) 0 0x100 .any (moving (windowed 0)) = .error .hold t) ∧
    (aGet Window.reset (moving (windowed 0)).dev.wins (2 ^ 15 - 1)).v = true ∧
    okD (translateIo ((windowed 0).dev.partOfAsid 0) 0 0x200100 .any (windowed 0)) = false ∧ canonical 0x200100 = true :=
  ⟨by decide, held_of (by decide +kernel), held_of (by decide +kernel), by decide +kernel, by decide +kernel, by decide⟩
/-- Function 1's second queue is queue 255. -/
def virtual : State := { handed with dev := { handed.dev with
  lqs := [(3, { LQueue.reset with ctl := 1 <<< 32 }), (255, { LQueue.reset with ctl := 1 <<< 32 })] } }
theorem witness_HostAccesses_virtual : let qs := (List.range 256).filter fun q => decide ((1 : BitVec 7).toNat ≠ 0) && decide ((virtual.queueAt q).vf = (1 : BitVec 7).toNat)
    qs[(0x58 : BitVec 16).toNat / 64]? = some (255 : BitVec 8).toNat ∧ (0x58 : BitVec 16).toNat % 64 = 0x18 ∧
      qs[(0x98 : BitVec 16).toNat / 64]? = none ∧
      (let y := virtual.queueAt (255 : BitVec 8).toNat
       ((16 : Word).toNat + 2 ^ 64 - y.head) % 2 ^ 64 ≤ y.entries ∧ y.entries < ((17 : Word).toNat + 2 ^ 64 - y.head) % 2 ^ 64) := by
  decide +kernel
/-- A register of a core of the table, from hand-over on. -/
theorem witness_HostAccesses_reads : (383 : CoreNo).toNat < 384 ∧ handed.dev.sec.stage = 15 := by decide
theorem witness_HostAccesses_registers : (4 ≤ ((20 : Word).extractLsb' 0 5).toNat ∧ ((20 : Word).extractLsb' 0 5).toNat ≤ 20) ∧
    ¬ ((21 : Word).extractLsb' 0 5).toNat ≤ 20 ∧ handed.dev.sec.stage = 15 ∧ handed.dev.sec.busy = false ∧
    (let t := ((0x46012C : Word).extractLsb' 16 8).toNat
     let w := ((0x46012C : Word).extractLsb' 0 11).toNat
     70 ≤ t ∧ t ≤ 110 ∧ 300 ≤ w ∧ w ≤ 1650) := by decide +kernel

/-- A control interval is due, before and after a trip; what the sensors read is the configuration's (log 11). -/
theorem witness_BringUpEvents_power : let s : State := { k0 with dev := { k0.dev with rtc := 240000, sec := { k0.dev.sec with stage := 15 } } }
    s.dev.lastP < s.dev.rtc / 240000 * 240000 ∧ s.dev.sec.stage = 15 ∧ s.dev.trip = false ∧ k0.dev.rtc / 240000 * 240000 ≤ k0.dev.lastP := by decide +kernel

/-! ### A step -/

/-- K stands before the word `w` at `pc`; before a poisoned one. -/
def atWord (pc w : Nat) (p : List Nat) : State := at0 fun c => { c with
  kr := { c.kr with kpc := pc }, mem := { c.mem with ik := smSetRange 0 [] pc (bytesOf 8 w), ikP := p } }
/-- What a decoder refuses. -/
def refuses (r : Except DecErr Instr) : Bool := match r with
  | .ok _ => false
  | .error _ => true
theorem witness_StepRuns_k : (k0.turn.core < 384 ∧ k0.turn.agent = .k ∧ k0.kGoes = true) ∧
    (let s := atWord 0x1FFF8 0x02484000FFFFFFF8 []; s.turn.agent = .k ∧ s.kGoes = true ∧ s.cask.kr.kpc < imemSize s.dual ∧ nsHits s.cask.mem.ikP s.cask.kr.kpc 8 = false ∧ natOf (smGetRange 0 s.cask.mem.ik s.cask.kr.kpc 8) = 0x02484000FFFFFFF8) ∧
    imemSize false ≤ (atWord 0x20000 0 []).cask.kr.kpc ∧
    nsHits (atWord 0 0 [7]).cask.mem.ikP (atWord 0 0 [7]).cask.kr.kpc 8 = true ∧
    refuses (decodeK (natOf (smGetRange 0 (atWord 0 0xFFFFFFFFFFFFFFFF []).cask.mem.ik 0 8))) = true := by decide +kernel
/-- S stands in a section of one word; before a section; at a poisoned word. -/
def inSection (w : Nat) (started : Bool) (p : List Nat) : State :=
  let s := at0 fun c => { c with
    eS := { c.eS with started := started, hoff := 0, idx := 0, count := 1, owed := [] }
    mem := { c.mem with is := smSetRange 0 [] 0 (bytesOf 8 1 ++ bytesOf 12 w), isP := p } }
  { s with turn := { s.turn with agent := .eng .s } }
theorem witness_StepRuns_engines : (let s := inSection 0x009000000000000000000000 true []; s.turn.agent = .eng .s ∧ s.engGoes = true ∧ (s.cask.eng .s).idle = false ∧ (s.cask.eng .s).before = false ∧ (s.cask.eng .s).at_ = (0, 0) ∧ (s.cask.eng .s).flight = none ∧ nsHits (s.cask.imemP .s) 8 12 = false ∧ refuses (decodeEng .s (natOf (smGetRange 0 (s.cask.imem .s) 8 12))) = false) ∧
    (inSection 0 false []).engGoes = true ∧ ((inSection 0 false []).cask.eng .s).before = true ∧
    nsHits ((inSection 0 true [19]).cask.imemP .s) 8 12 = true ∧
    refuses (decodeEng .s (natOf (smGetRange 0 ((inSection (2 ^ 96 - 1) true []).cask.imem .s) 8 12))) = true := by decide +kernel
theorem witness_StepRuns_y : ((waiting (cmdBytes 1 cmd) 0).turn.agent = .y 0 0 ∧
      (waiting (cmdBytes 1 cmd) 0).cask.yy.nextCmd (0 : YNo).toNat = some 0 ∧
      ((waiting (cmdBytes 1 cmd) 0).entAt 0 0).map (·.begun) = some false) ∧
    ((let s := (yState cmd 1 32).updEnt 0 0 fun y => { y with done := true }
      (s.entAt 0 0).map fun y => (y.begun, y.done)) = some (true, true)) ∧
    (((yState cmd 1 0).entAt 0 0).map fun y => (y.begun, y.done, isCmd (natOf y.bytes) (.copy cmd))) = some (true, false, true) ∧
    (State.reset.turn.agent = .ev .coldReset ∧ isEvent .coldReset = true) := by decide +kernel
theorem witness_RoundTrip : ((Instr.addi 63 63 0xFFFFFFFF).wf = true ∧ (encode (.addi 63 63 0xFFFFFFFF)).isSome = true) ∧
    refuses (decodeForm .k 0x02484000FFFFFFF8) = false := by decide +kernel
theorem witness_StepKeepsMemories : k0.memoriesWf = true ∧ ∃ t, step k0 = .next t := by
  refine ⟨by decide +kernel, ?_⟩
  have b : (match step k0 with
    | .next _ => true
    | _ => false) = true := by decide +kernel
  split at b
  · next t h => exact ⟨t, h⟩
  · cases b

/-! ### Words of M that overlap (R223, R263, R333, R335) -/

/-- The section of the spec's example: number 7 at 0x0C8, five words, of which QAPL c1, q0 :pop L is word 2, VADD v4, v4, v5 word
3 and CROWV.sum v6, c1 word 4. -/
def exampleApl : Instr := .qapl { t0 with pp := true } false 1 0
def exampleCrowv : Instr := .crowv t0 .sum 6 1 0
def exampleStream : SMap Byte :=
  let w (i : Instr) : List Byte := bytesOf 12 ((encode i).getD (0, 0)).2
  smSetRange 0 [] 0xC8 (bytesOf 8 (0xFFFF * 2 ^ 44 + 0xFFFF * 2 ^ 28 + 7 * 2 ^ 12 + 5) ++ List.replicate 24 0 ++ w exampleApl ++
    w (.vadd t0 .fp32 none 4 4 (.v 5)) ++ w exampleCrowv)
/-- M stands at word `idx`, `cn` words issued. -/
def example1 (idx cn lm : Nat) (fq : List Word) (e : EngSt → EngSt) (a : Agent) : State :=
  let s := at0 fun c => { c with
    eM := e { c.eM with started := true, hoff := 0xC8, idx := idx, count := 5, snum := 7, cn := cn }
    cp := { c.cp with tok := { c.cp.tok with lm := lm }, fq := fq }, mem := { c.mem with im := exampleStream } }
  { s with turn := { s.turn with agent := a } }
/-- M before QAPL, and with QAPL in flight and VADD finished behind it. -/
def before1 : State := example1 2 40 1 [0] id .issue
def apart1 (a : Agent) : State := example1 4 42 0 [] (fun st => { st with
  owed := [{ cn := 41, hp := false, hn := false, ready := false }], done := [(42, 0xC8, 3)]
  late := [{ i := exampleApl, f := { Flight.start 41 0xC8 2 0 with begun := true, popP := 1, fmtw := some 0 }, x := [],
             reads := [.c 1, .q 0, .spm 0 0], writes := [.c 1], unit := .array, apply := true, wait := none }] }) a
/-- What a run of a step leaves. -/
def ran (s : State) : Cask := match step s with
  | .next t => t.caskAt 0 false
  | _ => s.cask

/-- R223, R263: QAPL issues, takes its token and its format word, and M goes on. -/
theorem test_apply_issues : (let c := ran before1
    c.eM.late.map (·.f.cn) = [41] ∧ c.eM.idx = 3 ∧ c.eM.cn = 41 ∧ c.cp.tok.lm = 0 ∧ c.cp.fq = [] ∧ c.eM.flight = none ∧
      c.eM.late.map (·.f.fmtw) = [some 0] ∧ c.mx = before1.cask.mx) := by decide +kernel
/-- R223: CROWV waits for the tile that QAPL writes; a vector word does not. -/
theorem test_interlock : (apart1 (.eng .m)).cask.interlocked exampleCrowv false = true ∧ (ran (apart1 (.eng .m))).eM = (apart1 (.eng .m)).cask.eM ∧
    (apart1 (.eng .m)).cask.interlocked (.vadd t0 .fp32 none 4 4 (.v 5)) false = false := by decide +kernel
/-- R263: QAPL finishes; nothing waits for it any more. -/
theorem test_apply_finishes : (let c := ran (apart1 (.finish 0))
    c.eM.late = [] ∧ c.eM.owed = [] ∧ c.eM.done = [] ∧ c.eM.idx = 4 ∧ c.eM.cn = 42) := by decide +kernel
/-- The frame and the issue log of the example, "A cancelled apply replayed" (R263, R333–R335): the pop is returned, IDX 2, SNUM
7, HOFF 0x0C8, CN 40, DONEM 1; COUNT 2, NIDX 4, entry 0 unsettled, entry 1 settled. -/
theorem test_apply_cancelled : (let c := (after (.coreStop .l 0x11 0 0) (apart1 .k)).cask
    let fr (n : Nat) : Nat := (smGet 0 c.st.frame n).toNat
    let log (o n : Nat) : Nat := natOf (c.klmBytes (0x3FC00 + 672 + o) n)
    c.cp.tok.lm = 1 ∧ c.cp.fq = [0] ∧ c.eM.redo.map (·.cn) = [41] ∧ fr 14 / 2 ^ 52 = 2 ∧ fr 14 / 2 ^ 20 % 2 ^ 16 = 7 ∧
      fr 14 % 2 ^ 17 = 0xC8 ∧ fr 15 = 2 ^ 32 + 40 ∧ log 0 8 = 2 * 2 ^ 58 + 4 * 2 ^ 46 + 7 * 2 ^ 30 + 0xC8 ∧
      log 32 4 = 0xC8 * 2 ^ 12 + 2 ∧ log 36 4 = 2 ^ 31 + 0xC8 * 2 ^ 12 + 3 ∧ log 40 4 = 0) := by decide +kernel
theorem witness_StepRuns_apart : (before1.turn.agent = .issue ∧ before1.engGoes = true ∧ (before1.cask.eng .m).idle = false ∧
      (before1.cask.eng .m).before = false ∧ nsHits (before1.cask.imemP .m) (0xC8 + 8 + 12 * 2) 12 = false ∧
      (mUses before1.cask exampleApl).isSome = true ∧ before1.cask.interlocked exampleApl true = false ∧ (match exec exampleApl (burst before1) with
        | .next t => before1.cask.issuesTo t.cask
        | _ => false) = true) ∧
    ((apart1 (.finish 0)).engGoes = true ∧ (apart1 (.finish 0)).cask.canFinish 0 = true ∧
      ((apart1 (.finish 0)).cask.eM.late[0]?.map (·.i)) = some exampleApl) ∧
    before1.cask.eM.clear ∧ (∀ n b, (State.reset.caskAt n b).eM.late = [] ∧ (State.reset.caskAt n b).ownBegun = false) := by
  refine ⟨by decide +kernel, by decide +kernel, ⟨rfl, rfl, rfl⟩, fun n b => ?_⟩
  cases b <;> exact ⟨rfl, rfl⟩
/-- The agents that move without an instruction. -/
theorem witness_StepRuns_agents : [Agent.buf, .clean 0 0x800, .l2 true 0 0x800, .l2 false 0 0x800, .fuse 1 2, .adopt 0 true 3, .bar .bootsts].all (fun a =>
    decide (({ k0 with turn := { k0.turn with agent := a } } : State).turn.agent = a)) = true := by decide +kernel
/-- K stands before a word that is none, and L before a poisoned one: both fault in one cycle where the configuration says so. -/
def twoFaults : State := at0 fun c => { c with
  eL := { c.eL with started := true, hoff := 0, idx := 0, count := 1 }
  mem := { c.mem with ik := smSetRange 0 [] 0 (bytesOf 8 0xFFFFFFFFFFFFFFFF), ilP := [8] } }
theorem witness_StepRuns_together : twoFaults.cask.st.stopped = false ∧ (twoFaults.faulted (twoFaults.coreStop .k { code := 1, stat := 0 })) = some 0 ∧
    (Agent.eng .l ∈ Config.together twoFaults.tick →
      ((Config.together twoFaults.tick).filterMap twoFaults.faultOf).filter (fun p => decide (p.1 ≠ 0)) ≠ []) := by
  refine ⟨rfl, by decide +kernel, fun m e => ?_⟩
  have h : (match twoFaults.faultOf (.eng .l) with
    | some p => decide (p.1 = 1)
    | none => false) = true := by decide +kernel
  split at h
  · next p k =>
    have a : p ∈ ((Config.together twoFaults.tick).filterMap twoFaults.faultOf).filter (fun p => decide (p.1 ≠ 0)) := by
      rw [List.mem_filter, List.mem_filterMap]
      exact ⟨⟨_, m, k⟩, by simp [of_decide_eq_true h]⟩
    rw [e] at a
    cases a
  · cases h
theorem witness_ExceptionEntry_late : (let c := (apart1 .k).cask
    c.kr.priv = false ∧ c.eM.flight = none ∧ c.eM.held = none ∧ c.eM.redo = [] ∧ c.eL.flight = none ∧ c.eS.flight = none) := by
  decide +kernel

end Sys2Proof.Tests
end

section
/-! SUPPORT. A unit of a word in progress: what it leaves where it is not the last and where it is, and the steps that the
units of S share. -/

namespace Sys2Proof.Machine

open Sys2Proof

/-! ### The word in progress of an engine -/

theorem flightOf_of {c : Cask} {e : Eng} {f : Flight} (h : (c.eng e).flight = some f) : c.flightOf e = f := by
  unfold Cask.flightOf; rw [h]; rfl

theorem updEng_id {c : Cask} {e : Eng} {k : EngSt → EngSt} (h : k (c.eng e) = c.eng e) : c.updEng e k = c := by
  unfold Cask.updEng; rw [h]; cases e <;> rfl

theorem eng_updFlight {c : Cask} {e : Eng} {f : Flight} (h : (c.eng e).flight = some f) (k : Flight → Flight) :
    (c.updFlight e k).eng e = { c.eng e with flight := some (k f) } := by
  unfold Cask.updFlight; rw [eng_updEng_same, h]; rfl

theorem flight_updFlight {c : Cask} {e : Eng} {f : Flight} (h : (c.eng e).flight = some f) (k : Flight → Flight) :
    ((c.updFlight e k).eng e).flight = some (k f) := by rw [eng_updFlight h]

/-- Changing the word in progress puts the changed word in its place. -/
theorem updFlight_eq {c : Cask} {e : Eng} {f : Flight} (h : (c.eng e).flight = some f) (k : Flight → Flight) :
    c.updFlight e k = c.updFlight e fun _ => k f := by
  unfold Cask.updFlight Cask.updEng; simp only [h, Option.map_some]

theorem updFlight_self {c : Cask} {e : Eng} {f : Flight} (h : (c.eng e).flight = some f) : c.updFlight e (fun _ => f) = c :=
  updEng_id (by rw [h]; exact congrArg (fun x => { c.eng e with flight := x }) h.symm)

@[simp] theorem updFlight_mem (c : Cask) (e : Eng) (k : Flight → Flight) : (c.updFlight e k).mem = c.mem := updEng_mem _ _ _
@[simp] theorem updFlight_mx (c : Cask) (e : Eng) (k : Flight → Flight) : (c.updFlight e k).mx = c.mx := updEng_mx _ _ _
@[simp] theorem updFlight_updFlight (c : Cask) (e : Eng) (k l : Flight → Flight) :
    (c.updFlight e k).updFlight e l = c.updFlight e fun f => l (k f) := by
  simp [Cask.updFlight, Function.comp_def]

theorem begin_of_begun {c : Cask} {e : Eng} {f : Flight} (h : (c.eng e).flight = some f) (hb : f.begun = true) :
    c.begin e = c := by
  refine updEng_id ?_
  simp only [h, hb, if_true]

/-- `g` is the word `f` that has made progress: only its progress, its point and what a DRN adds up differ. -/
def Flight.wentOn (f g : Flight) : Prop :=
  g = { f with
    prog := g.prog, pt := g.pt, pnan := g.pnan, pinf := g.pinf, psat := g.psat, pwrp := g.pwrp, scales := g.scales }

/-- `d` is the cask `c` with `g` in progress in engine `e`; besides, local memories and M registers alone may have changed. -/
def Cask.wentOn (c d : Cask) (e : Eng) (g : Flight) : Prop :=
  d = ({ c with mem := d.mem, mx := d.mx } : Cask).updFlight e fun _ => g

theorem wentOn_updFlight {c d : Cask} (h : d = { c with mem := d.mem, mx := d.mx }) (e : Eng) (g : Flight) :
    c.wentOn (d.updFlight e fun _ => g) e g := by
  unfold Cask.wentOn
  rw [updFlight_mem, updFlight_mx, ← h]

/-- A word that makes progress is in progress still. -/
theorem inWord_wentOn {c d : Cask} {e : Eng} {t : Tk} {f g : Flight} (h : c.inWord e t f) (hg : f.wentOn g)
    (hd : c.wentOn d e g) : d.inWord e t g := by
  obtain ⟨hf, hrest⟩ := h
  unfold Cask.wentOn at hd
  have he : d.eng e = { c.eng e with flight := some g } := by
    rw [hd, eng_updFlight (f := f) (by cases e <;> exact hf)]
    cases e <;> rfl
  have hcp : d.cp = c.cp := by rw [hd]; cases e <;> rfl
  rw [hg]
  unfold Cask.inWord Cask.pushReady at *
  rw [he, hcp]
  exact ⟨congrArg some hg, hrest⟩

/-- An access to memory leaves the word in progress as it is. -/
theorem inWord_accessed {s t : State} (h : s.accessed t) {e : Eng} {k : Tk} {f : Flight} (hf : s.cask.inWord e k f) :
    t.cask.inWord e k f := by
  rw [accessed_cask h]
  cases e <;> exact hf

/-! ### The finish of a word in progress -/

/-- What a word in progress leaves when it has finished. -/
theorem finish_inWord {v : State} {e : Eng} {t : Tk} {f : Flight} (h : v.cask.inWord e t f) (f' : Flight) :
    v.onlyCask (finishSt e t 1 v) ∧ v.cask.ranUnit (finishSt e t 1 v).cask e t f f' true ∧
    (finishSt e t 1 v).cask.mem = v.cask.mem ∧ (finishSt e t 1 v).cask.mx = v.cask.mx ∧
    (finishSt e t 1 v).cask.cp.rings = v.cask.cp.rings ∧ v.cask.sameX (finishSt e t 1 v).cask e := by
  obtain ⟨hf, hbegun, -, hagain, hjump, hpops, hhoff, hidx, -, -, -, hredo, howed, hewr, -, hclear⟩ := h
  obtain ⟨g, sd, ls, hg, hgj, hgp⟩ := settle_eng v.cask e f hf hagain hjump hhoff hredo hclear
  rw [hbegun, if_pos rfl, hhoff, hidx] at hg
  let d := (v.cask.settle e).push e t.hp t.hn 1
  have hd : d.eng e = (v.cask.settle e).eng e := push_eng _ _ _ _ _ _
  have hfl : d.flightOf e = g := flightOf_of (by rw [hd, hg])
  obtain ⟨st, rv, mtab, hr, h1, -, h2⟩ := retire_frame d e (Config.fetchAhead v.tick e) none (by rw [hd, hg]; exact hewr)
    (by rw [hd, hg]; unfold EngSt.owes; dsimp only; rw [howed]; rfl)
  have hu : (finishSt e t 1 v).cask = { d.updEng e (fun _ => st) with cp := { d.cp with rv := rv, mtab := mtab } } := by
    rw [← hr, ← popRings_none (c := d) (e := e) (by rw [hfl, hgp, hpops])]
    simp [finishSt, d]
  have hst : st = { v.cask.eng e with
      hoff := st.hoff, idx := st.idx, flight := none, wait := none, started := sd, lpStart := ls, marks := st.marks,
      rsn := st.rsn, retired := st.retired, rsnPend := st.rsnPend } ∧
      (st.hoff, st.idx) = afterWord (v.cask.eng e).hoff (v.cask.eng e).idx (v.cask.eng e).count := by
    rw [hfl, hgj] at h2
    rw [h1, h2, hd, hg]
    refine ⟨?_, rfl⟩
    generalize v.cask.eng e = x at hewr
    cases x
    cases hewr
    simp
  obtain ⟨hst, hplace⟩ := hst
  refine ⟨onlyCask_trans (onlyCask_trans (onlyCask_updCask _ _) (onlyCask_count _ _ _)) (onlyCask_updCask _ _),
    ?_, ?_, ?_, ?_, ?_⟩
  · rw [hu]
    refine ⟨by simp [d], by simp [d], fun e' he => ?_, by simp [Cask.sameSignals, Cask.push, d], by simp [Cask.push, d],
      by simp [Cask.push, Tokens.pushed, Cask.setTok, d], ?_, ?_⟩
    · rw [eng_withCp, eng_updEng_other _ _ _ _ he, push_eng, settle_eng_other _ _ _ he]
    · exact (updEng_yy _ _ _).trans ((push_yy _ _ _ _ _).trans (settle_yy v.cask e f hf))
    · unfold Cask.onNext
      rw [eng_withCp, eng_updEng_same]
      refine ⟨hplace, ?_⟩
      rw [hst]
  · rw [hu]; simp [d]
  · rw [hu]; simp [d]
  · rw [hu]; simp [Cask.push, d]
  · intro r
    unfold Cask.xreg
    rw [hu, eng_withCp, eng_updEng_same, hst]

/-- What the turn of a unit leaves that is not the last. -/
theorem ranUnit_unwait {c : Cask} {e : Eng} {t : Tk} {g : Flight} (h : (c.eng e).flight = some g) (f : Flight) :
    c.ranUnit (c.updEng e fun st => { st with wait := none }) e t f g false := by
  refine ⟨by simp, by simp, fun e' he => eng_updEng_other _ _ _ _ he, by simp [Cask.sameSignals], by simp, by simp, by simp, ?_⟩
  rw [eng_updEng_same, updEng_cp]
  refine ⟨?_, rfl, rfl⟩
  rw [← h]

/-- What a unit does to the cask in which its word has made progress it does to the cask before. -/
theorem ranUnit_of_wentOn {c d u : Cask} {e : Eng} {t : Tk} {f g f' : Flight} {last : Bool} (hd : c.wentOn d e g)
    (hj : g.jfree = f.jfree) (h : d.ranUnit u e t g f' last) : c.ranUnit u e t f f' last := by
  unfold Cask.wentOn at hd
  have others : ∀ e', e' ≠ e → d.eng e' = c.eng e' := fun e' he => by
    rw [hd]; unfold Cask.updFlight; rw [eng_updEng_other _ _ _ _ he]; cases e' <;> rfl
  have own : ∃ fl, d.eng e = { c.eng e with flight := fl } := by
    rw [hd]; unfold Cask.updFlight; rw [eng_updEng_same]; cases e <;> exact ⟨_, rfl⟩
  have hcp : d.cp = c.cp := by rw [hd]; cases e <;> rfl
  have hkr : d.kr = c.kr := by rw [hd]; cases e <;> rfl
  have hst : d.st = c.st := by rw [hd]; cases e <;> rfl
  have hyy : d.yy = c.yy := by rw [hd]; cases e <;> rfl
  have hfree : ∀ n, (d.jfree n).yy = (c.jfree n).yy := fun n => by unfold Cask.jfree; rw [hyy]
  obtain ⟨fl, own⟩ := own
  obtain ⟨k1, k2, k3, k4, k5, k6, k7, k8⟩ := h
  refine ⟨k1.trans hkr, k2.trans hst, fun e' he => (k3 e' he).trans (others e' he), ?_, k5.trans (by rw [hcp]), ?_, ?_, ?_⟩
  · unfold Cask.sameSignals at *; rw [hcp] at k4; exact k4
  · rw [hcp] at k6; exact k6
  · rw [k7, hj, hyy]
    simp only [hfree]
  · unfold Cask.onNext at *
    rw [own, hcp] at k8
    exact k8

/-- A unit of a word in progress, in a turn of one unit: `s1` is what its accesses leave, with `f0` in progress; from it the
unit goes on to `v`, where the word stands as `g`. After its last unit the word finishes. -/
theorem eRun_unit {e : Eng} {t : Tk} {p : Plan} {s s1 v : State} {f f0 g : Flight} {last : Bool} (h : s.cask.inWord e t f)
    (hb : s.turn.burst = 0) (hp : p.pushes = 1) (hu : p.unit s = .ok (if last then .last else .more) v)
    (h1 : s1.cask.inWord e t f0) (hj : f0.jfree = f.jfree) (hg : f0.wentOn g) (hv : s1.onlyCask v)
    (hc : s1.cask.wentOn v.cask e g) :
    ∃ u, eRun e t p s = .next u ∧ s1.onlyCask u ∧ s1.cask.ranUnit u.cask e t f g last ∧ u.cask.mem = v.cask.mem ∧
      u.cask.mx = v.cask.mx ∧ u.cask.cp.rings = s1.cask.cp.rings ∧ s1.cask.sameX u.cask e := by
  have hin : v.cask.inWord e t g := inWord_wentOn h1 hg hc
  have hgj : g.jfree = f.jfree := by rw [hg]; exact hj
  have hrings : v.cask.cp.rings = s1.cask.cp.rings := by
    unfold Cask.wentOn at hc; rw [hc]; cases e <;> rfl
  have hx : s1.cask.sameX v.cask e := fun r => by
    unfold Cask.wentOn at hc
    unfold Cask.xreg
    rw [hc, Cask.updFlight, eng_updEng_same]
    cases e <;> rfl
  obtain ⟨hf, hbegun, hsettled, -, -, -, -, -, -, -, -, -, howed, -, -, -⟩ := h
  have hgf : (v.cask.eng e).flight = some g := hin.1
  cases last with
  | false =>
    have hr := eRun_flight_more (t := t) hf hbegun hsettled howed hb hu
    refine ⟨_, hr, onlyCask_trans hv (onlyCask_updCask _ _), ?_, by simp, by simp, by simpa using hrings, ?_⟩
    · rw [cask_updCask]
      exact ranUnit_of_wentOn hc hgj (ranUnit_unwait hgf g)
    · intro r
      rw [← hx r, cask_updCask]
      unfold Cask.xreg
      rw [eng_updEng_same]
  | true =>
    obtain ⟨-, -, -, -, -, -, -, -, -, hdp, hdn, -, -, -, hroom, -⟩ := id hin
    have hr := eRun_flight_last hf hbegun hsettled howed hu (by rw [hp]; exact hroom) (unpushed_of hgf hdp hdn)
    rw [hp] at hr
    obtain ⟨k1, k2, k3, k4, k5, k6⟩ := finish_inWord hin g
    exact ⟨_, hr, onlyCask_trans hv k1, ranUnit_of_wentOn hc hgj k2, k3, k4, k5.trans hrings, fun r => (k6 r).trans (hx r)⟩

/-! ### Steps that the units of S share -/

/-- A store of S is an access to memory. -/
theorem access_sStore (t : Tk) (va : Nat) (bs : List Byte) : Access (sStore t va bs) :=
  access_get_bind fun s => access_bind (access_throughReady _ _ _)
    (fun _ => access_bind (access_memStore _ _) fun _ => access_writeThrough _ _ _) s

/-- A word that holds its format word goes on with it. -/
theorem takeFormat_held {e : Eng} {ok : Nat → Act Unit} {s : State} {f : Flight} {w : Word}
    (h : (s.cask.eng e).flight = some f) (hw : f.fmtw = some w) : takeFormat e ok s = .ok w.toNat s := by
  unfold takeFormat
  rw [get_bind, flightOf_of h, hw]
  rfl

/-- A word in progress has begun. -/
theorem begun_inWord {s : State} {e : Eng} {t : Tk} {f : Flight} (h : s.cask.inWord e t f) : begun e s = .ok () s.here := by
  obtain ⟨hf, hb, -⟩ := h
  show EStateM.Result.ok () (s.setCask (s.cask.begin e)) = _
  rw [begin_of_begun hf hb]
  rfl

theorem treeWritesDone_ok {s : State} (h : s.cask.eS.owed = []) : treeWritesDone s = .ok () s := by
  unfold treeWritesDone
  rw [get_bind, h]
  rfl

theorem checkMem_one {va : Nat} (h : canonical va = true) (s : State) : (checkMem va 1 : Act Unit) s = .ok () s := by
  unfold checkMem
  rw [check_bind (decide_eq_true (Nat.mod_one va)), h]
  rfl

theorem setPoint_ok {s : State} {e : Eng} {f : Flight} (h : (s.cask.eng e).flight = some f) (p : Point) :
    setPoint e p s = .ok () (s.setCask (s.cask.updFlight e fun _ => { f with pt := p })) := by
  show EStateM.Result.ok () (s.setCask (s.cask.updFlight e _)) = _
  rw [updFlight_eq h]

/-- A piece of the point in progress is stored, and the pieces behind it are left (R114). -/
theorem storePiece_stored {e : Eng} {store : Nat → List Byte → Act Unit} {s0 s1 : State} {f : Flight}
    {rest : List (Nat × Nat × Nat)} (h0 : (s0.cask.eng e).flight = some f) (h1 : (s1.cask.eng e).flight = some f)
    (h : pieceStored s0 f.pt store rest s1) :
    ∃ v, storePiece e store s0 = .ok () v ∧ s1.onlyCask v ∧
      v.cask = s1.cask.updFlight e fun _ => { f with pt := { f.pt with parts := rest } } := by
  have hp0 : s0.point e = f.pt := congrArg Flight.pt (flightOf_of h0)
  have hp1 : s1.point e = f.pt := congrArg Flight.pt (flightOf_of h1)
  obtain ⟨hrest, h⟩ := h
  unfold storePiece
  rw [get_bind]
  simp only [State.nextPart, hp0, Bool.false_eq_true, if_false]
  cases hk : f.pt.parts[Config.nextPart s0.tick f.pt.parts.length % f.pt.parts.length]? with
  | none =>
    rw [hk] at h
    subst h
    have : rest = f.pt.parts := by rw [hrest, List.eraseIdx_of_length_le (by simpa using hk)]
    rw [this]
    exact ⟨_, rfl, onlyCask_refl _, (updFlight_self h0).symm⟩
  | some x =>
    rw [hk] at h
    refine ⟨_, ?_, onlyCask_setCask _ _, cask_setCask _ _⟩
    dsimp only at h ⊢
    rw [bind_ok h, get_bind, hp1, setPoint_ok h1, ← hrest]

/-- What a piece stored by an access leaves is what an access leaves. -/
theorem pieceStored_accessed {s s1 : State} {p : Point} {store : Nat → List Byte → Act Unit} {rest : List (Nat × Nat × Nat)}
    (ha : ∀ va bs, Access (store va bs)) (h : pieceStored s p store rest s1) : s.accessed s1 := by
  obtain ⟨-, h⟩ := h
  split at h
  · exact h ▸ accessed_refl _
  · exact accessAt_ok (ha _ _ s) h

end Sys2Proof.Machine
end

section
/-! SUPPORT. DRN: its points laid out, stored piece by piece, and counted (R82, R220, R341). -/

namespace Sys2Proof.Machine

open Sys2Proof

/-! ### The layout of a point of DRN -/

/-- The words of a row of a copy of a tile (R220). -/
def Cask.copyWords (c : Cask) (n : CTile) (second : Bool) (j : Nat) : List Lane :=
  (List.range 128).map fun k => if second then c.word n (128 * k + j) else c.word n (128 * j + k)

/-- A row of a copy without poison is read. -/
theorem drainRow_clean {c : Cask} {n : CTile} {second : Bool} {j : Nat} (hj : j < 128)
    (h : c.cleanFor n (if second then .col else .row) j) : drainRow n second j c = .ok (c.copyWords n second j) c := by
  have hh : (!c.acmPoison n (copyRow second j)) = true := by
    rw [Bool.not_eq_true']
    unfold Cask.acmPoison copyRow nsHits
    rw [Bool.and_eq_false_iff]
    refine .inr ?_
    simp only [List.any_map, List.any_eq_false, Function.comp, List.mem_range]
    intro k hk hhit
    obtain ⟨p, hp, hhit⟩ := List.any_eq_true.1 hhit
    have hc := h p hp
    simp only [Bool.and_eq_true, decide_eq_true_eq] at hhit
    cases second
    · simp only [Bool.false_eq_true, if_false] at hhit hc
      exact hc (by omega) (by omega)
    · simp only [if_true] at hhit hc
      exact hc (by omega) (by omega)
  unfold drainRow
  rw [get_bind, check_bind hh, act_pure]
  unfold Cask.copyWords copyRow
  rw [List.map_map]
  congr 1
  refine List.map_congr_left fun k _ => ?_
  cases second <;> rfl

/-- The point of a drain that a unit goes on with: the one in progress, or else the scale block, or else row `row`. -/
def drnLaid (ns : Bool) (w : Nat) (second : Bool) (j va : Nat) (row : List Lane) (f : Flight) : Point :=
  let es := drainCodes ns w row
  let y := tally (outFmt w) es
  let codes := packCodes (outFmt w) (es.map (·.1))
  if f.pt.opened then f.pt
  else if j = 128 then { opened := true, parts := piecesOf 1 0 va 128, data := scaleBlock second f.scales }
  else { opened := true, parts := piecesOf (Nat.min 8 (outFmt w).bytes) 0 va codes.length, data := codes,
         scale := rowScale ns w (drainVals w row), counts := [y.nans, y.infs, y.sats, y.wraps] }

/-- The cask in which that point stands: a row that is read raises its flags. -/
def drnRead (c : Cask) (ns : Bool) (w j : Nat) (row : List Lane) (f : Flight) : Cask :=
  if f.pt.opened = false ∧ j ≠ 128 then c.record (tally (outFmt w) (drainCodes ns w row)).fl 0 0 0 0 else c

theorem drnRead_eq (c : Cask) (ns : Bool) (w j : Nat) (row : List Lane) (f : Flight) :
    drnRead c ns w j row f = { c with mem := (drnRead c ns w j row f).mem, mx := (drnRead c ns w j row f).mx } := by
  unfold drnRead; split <;> rfl

/-- A point of a drain is laid out where the first and the last byte of its place are canonical and no word of it is
poisoned. -/
theorem openDrain_ok {s : State} {ns second : Bool} {n : CTile} {w j va : Nat} {f : Flight}
    (h : (s.cask.eng .s).flight = some f) (ho : f.pt.opened = false) (hj : j < 129) (hva : canonical va = true)
    (hend : canonical ((va + ((if j = 128 then 128 else 16 * (outFmt w).bits) - 1)) % 2 ^ 64) = true)
    (hclean : j ≠ 128 → s.cask.cleanFor n (if second then .col else .row) j) :
    openDrain ns n w (second, j) va s =
      .ok () (s.setCask ((drnRead s.cask ns w j (s.cask.copyWords n second j) f).updFlight .s fun _ =>
        { f with pt := drnLaid ns w second j va (s.cask.copyWords n second j) f })) := by
  have hlen : drainLen w (second, j) = if j = 128 then 128 else 16 * (outFmt w).bits := by
    unfold drainLen rowBytes
    split
    · rfl
    · omega
  unfold openDrain drnRead drnLaid
  rw [bind_ok (checkMem_one hva s), bind_ok (checkMem_one (by rw [hlen]; exact hend) s)]
  by_cases hb : j = 128
  · simp [hb, ho, setPoint_ok h, flightOf_of h]
  · rw [if_neg hb, bind_ok (onCask_ok (drainRow_clean (by omega) (hclean hb))), modify_bind,
      setPoint_ok (f := f) (by rw [cask_updCask, cask_setCask]; exact h)]
    simp only [cask_setCask, updCask_setCask, setCask_setCask, ho, hb, if_neg, if_pos, not_false_eq_true,
      and_self, ne_eq, Bool.false_eq_true]
    rfl

/-! ### A point of DRN that is stored, and the unit -/

/-- What DRN does with a point that is stored. -/
def drnStored (row : Bool) (next total : Nat) (x : Point) : Act Prog := do
  modify fun s => s.updCask fun c => c.updFlight .s fun f => f.drained row x
  let r ← reached .s next total
  if r = .last then
    modify fun s => s.updCask fun c =>
      let f := c.flightOf .s
      c.record 0 f.pnan f.pinf f.psat f.pwrp
  pure r

/-- The word of a drain behind point `p`, its row or block `j`, when that is stored. -/
def Flight.drnNext (f : Flight) (j : Nat) (p : Point) : Flight :=
  { f with
    prog := f.prog + 1, pt := Point.none, pnan := f.pnan + p.counts.getD 0 0, pinf := f.pinf + p.counts.getD 1 0,
    psat := f.psat + p.counts.getD 2 0, pwrp := f.pwrp + p.counts.getD 3 0,
    scales := if j = 128 then f.scales else f.scales ++ [p.scale] }

theorem drained_eq (f : Flight) (j : Nat) (p : Point) :
    { f.drained (decide (j ≠ 128)) p with prog := f.prog + 1, pt := Point.none } = f.drnNext j p := by
  unfold Flight.drained Flight.drnNext
  by_cases h : j = 128 <;> simp [h]

/-- The counts of a drain are added when its last point is stored. -/
def Cask.drnCounted (c : Cask) (g : Flight) (last : Bool) : Cask :=
  if last then c.record 0 g.pnan g.pinf g.psat g.pwrp else c

theorem drnCounted_eq (c : Cask) (g : Flight) (last : Bool) :
    c.drnCounted g last = { c with mem := (c.drnCounted g last).mem, mx := (c.drnCounted g last).mx } := by cases last <;> rfl
theorem drnCounted_mem (c : Cask) (g : Flight) (last : Bool) : (c.drnCounted g last).mem = c.mem := by cases last <;> rfl
theorem drnCounted_updFlight (c : Cask) (k : Flight → Flight) (g : Flight) (last : Bool) :
    (c.updFlight .s k).drnCounted g last = (c.drnCounted g last).updFlight .s k := by cases last <;> rfl

/-- A point that is stored moves the word on to the next one, and the last one adds the word's counts. -/
theorem drnStored_ok {s : State} {f : Flight} (h : (s.cask.eng .s).flight = some f) (j total : Nat) (x : Point) :
    ∃ v, drnStored (decide (j ≠ 128)) (f.prog + 1) total x s =
        .ok (if decide (total ≤ f.prog + 1) then .last else .more) v ∧ s.onlyCask v ∧
      v.cask = (s.cask.drnCounted (f.drnNext j x) (decide (total ≤ f.prog + 1))).updFlight .s fun _ => f.drnNext j x := by
  let d := s.cask.updFlight .s fun _ => f.drnNext j x
  have hd : (s.cask.updFlight .s fun f => f.drained (decide (j ≠ 128)) x).updFlight .s
      (fun g => { g with prog := f.prog + 1, pt := Point.none }) = d := by
    rw [updFlight_updFlight, updFlight_eq h, drained_eq]
  have hf : d.flightOf .s = f.drnNext j x := flightOf_of (flight_updFlight h _)
  unfold drnStored reached
  simp only [act_bind, act_modify, act_pure, State.updCask, cask_setCask, setCask_setCask]
  rw [hd]
  by_cases hl : total ≤ f.prog + 1
  · simp only [hl, decide_true, if_true, act_bind, act_modify, act_pure, cask_setCask, setCask_setCask, hf]
    exact ⟨_, rfl, onlyCask_setCask _ _, cask_setCask _ _⟩
  · simp only [hl, decide_false, Bool.false_eq_true, reduceCtorEq, if_false, act_pure]
    exact ⟨_, rfl, onlyCask_setCask _ _, cask_setCask _ _⟩

/-- The part of a unit of a drain behind the layout of its point. -/
def drnRest (t : Tk) (row : Bool) (next total : Nat) : Act Prog := do
  storePiece .s (sStore t)
  pointDone .s (drnStored row next total)

/-- A piece of the point is stored, and with the last piece the point. -/
theorem drnRest_ok {s0 s1 : State} {t : Tk} {f : Flight} {p : Point} {rest : List (Nat × Nat × Nat)} (j total : Nat)
    (h0 : (s0.cask.eng .s).flight = some { f with pt := p }) (h1 : (s1.cask.eng .s).flight = some { f with pt := p })
    (hst : pieceStored s0 p (sStore t) rest s1) :
    ∃ v, drnRest t (decide (j ≠ 128)) (f.prog + 1) total s0 =
        .ok (if decide (rest = [] ∧ total ≤ f.prog + 1) then .last else .more) v ∧ s1.onlyCask v ∧
      v.cask = (s1.cask.drnCounted (f.drnNext j p) (decide (rest = [] ∧ total ≤ f.prog + 1))).updFlight .s fun _ =>
        if rest = [] then f.drnNext j p else { f with pt := { p with parts := rest } } := by
  obtain ⟨v, hv, hs, hc⟩ := storePiece_stored h0 h1 hst
  have hf : (v.cask.eng .s).flight = some { f with pt := { p with parts := rest } } := by
    rw [hc]; exact flight_updFlight h1 _
  have hp : v.point .s = { p with parts := rest } := congrArg Flight.pt (flightOf_of hf)
  unfold drnRest pointDone
  rw [bind_ok hv, get_bind, hp]
  cases rest with
  | nil =>
    obtain ⟨u, hu, hs', hc'⟩ := drnStored_ok hf j total { p with parts := [] }
    refine ⟨u, ?_, onlyCask_trans hs hs', ?_⟩
    · simpa using hu
    · rw [hc', hc, drnCounted_updFlight, updFlight_updFlight]
      simp only [true_and, if_true]
      rfl
  | cons x xs => exact ⟨v, by simp, hs, by rw [hc]; simp [Cask.drnCounted]⟩

/-- A unit of a drain in progress lays out its point where that is still to do, and goes on with it. -/
theorem drnUnit_inWord {s : State} {t : Tk} {ns tr : Bool} {n : CTile} {a b m : XReg} {f : Flight} {w : Word}
    (h : s.cask.inWord .s t f) (hw : f.fmtw = some w) :
    let k := drnPoint ns f.prog
    let va := addrPlus (s.cask.xreg .s (if k.1 then b else a)).toNat (k.2 * (s.cask.xreg .s m).toNat)
    drnUnit t ns tr n a b m s = (do
      (if f.pt.opened then pure () else openDrain ns n w.toNat k va : Act Unit)
      drnRest t (decide (k.2 ≠ 128)) (f.prog + 1) ((if ns then 128 else 129) * (if tr then 2 else 1)) : Act Prog) s.here := by
  have hfl : s.here.cask.flightOf .s = f := by rw [State.here, cask_setCask]; exact flightOf_of h.1
  have howed : s.here.cask.eS.owed = [] := by
    obtain ⟨-, -, -, -, -, -, -, -, -, -, -, -, howed, -⟩ := h
    rw [State.here, cask_setCask]; exact howed
  unfold drnUnit
  rw [bind_ok (takeFormat_held h.1 hw), bind_ok (begun_inWord h), bind_ok (treeWritesDone_ok howed), get_bind]
  simp only [State.point, State.prog, hfl]
  rw [State.here, cask_setCask]
  cases f.pt.opened <;> rfl

/-- The point that a unit of a drain goes on with stands in its cask, one in progress as it stood. -/
theorem drnLaid_stands {s : State} {ns second : Bool} {n : CTile} {w j va : Nat} {f : Flight}
    (h : (s.cask.eng .s).flight = some f) (hj : j < 129)
    (hopen : f.pt.opened = false → canonical va = true ∧
      canonical ((va + ((if j = 128 then 128 else 16 * (outFmt w).bits) - 1)) % 2 ^ 64) = true ∧
      (j ≠ 128 → s.cask.cleanFor n (if second then .col else .row) j)) :
    (if f.pt.opened then pure () else openDrain ns n w (second, j) va : Act Unit) s.here =
      .ok () (s.setCask ((drnRead s.cask ns w j (s.cask.copyWords n second j) f).updFlight .s fun _ =>
        { f with pt := drnLaid ns w second j va (s.cask.copyWords n second j) f })) := by
  cases ho : f.pt.opened with
  | true =>
    unfold drnRead drnLaid
    simp only [ho, if_true, act_pure, Bool.true_eq_false, false_and, if_false]
    rw [show ({ f with pt := f.pt } : Flight) = f from rfl, updFlight_self h]
    rfl
  | false =>
    obtain ⟨hva, hend, hclean⟩ := hopen ho
    have := openDrain_ok (s := s.here) (ns := ns) (second := second) (n := n) (f := f)
      (by rw [State.here, cask_setCask]; exact h) ho hj hva hend (by rw [State.here, cask_setCask]; exact hclean)
    rw [State.here, cask_setCask, setCask_setCask] at this
    exact this

/-! ### Flags and counters (R36, R92) -/

theorem record_mxc_lt (c : Cask) (fl : BitVec 5) (a b x y : Nat) {i : Nat} (hi : i < 4) :
    smGet 0 (c.record fl a b x y).mx.mxc i = Nat.min 0xFFFFFFFF (smGet 0 c.mx.mxc i + [a, b, x, y].getD i 0) := by
  rw [record_mxc]
  match i, hi with
  | 0, _ | 1, _ | 2, _ | 3, _ => exact Nat.min_comm _ _

/-- The flags of a row that may have been read, and the counters, which they leave but for saturating. -/
theorem readFlags_mx {c d : Cask} {fl : BitVec 5} {reads : Prop} [Decidable reads]
    (h : d.mx = (if reads then c.record fl 0 0 0 0 else c).mx) :
    d.mx = { c.mx with flags := c.mx.flags ||| (if reads then fl else 0), mxc := d.mx.mxc } ∧
    ∀ i, i < 4 → smGet 0 d.mx.mxc i = if reads then Nat.min 0xFFFFFFFF (smGet 0 c.mx.mxc i) else smGet 0 c.mx.mxc i := by
  have zero : ∀ i, i < 4 → ([0, 0, 0, 0] : List Nat).getD i 0 = 0 := by decide
  by_cases hr : reads
  · simp only [hr, if_true] at h ⊢
    rw [h]
    exact ⟨rfl, fun i hi => by rw [record_mxc_lt _ _ _ _ _ _ hi, zero i hi, Nat.add_zero]⟩
  · simp only [hr, if_false] at h ⊢
    rw [h]
    exact ⟨by simp, fun _ _ => rfl⟩

/-- The counts of a drain that may have come to its end. -/
theorem drnCounted_mx (d : Cask) (g : Flight) (last : Bool) :
    (d.drnCounted g last).mx = { d.mx with mxc := (d.drnCounted g last).mx.mxc } ∧
    ∀ i, i < 4 → smGet 0 (d.drnCounted g last).mx.mxc i = if last then
        Nat.min 0xFFFFFFFF (smGet 0 d.mx.mxc i + [g.pnan, g.pinf, g.psat, g.pwrp].getD i 0) else smGet 0 d.mx.mxc i := by
  cases last with
  | false => exact ⟨rfl, fun _ _ => rfl⟩
  | true => exact ⟨by simp [Cask.drnCounted, Cask.record], fun i hi => record_mxc_lt _ _ _ _ _ _ hi⟩

/-- Flags and counters behind a unit of a drain that may have read a row and may have stored the last point: a counter
saturates once, whether it is advanced once or twice. -/
theorem drnUnit_mx {c d : Cask} {fl : BitVec 5} {reads : Prop} [Decidable reads]
    (h : d.mx = (if reads then c.record fl 0 0 0 0 else c).mx) (g : Flight) (last : Bool) :
    (d.drnCounted g last).mx = { c.mx with
      flags := c.mx.flags ||| (if reads then fl else 0), mxc := (d.drnCounted g last).mx.mxc } ∧
    ∀ i, i < 4 → smGet 0 (d.drnCounted g last).mx.mxc i = if ¬ reads ∧ last = false then smGet 0 c.mx.mxc i
      else Nat.min 0xFFFFFFFF (smGet 0 c.mx.mxc i + if last then [g.pnan, g.pinf, g.psat, g.pwrp].getD i 0 else 0) := by
  obtain ⟨h1, h2⟩ := readFlags_mx h
  obtain ⟨k1, k2⟩ := drnCounted_mx d g last
  refine ⟨?_, fun i hi => ?_⟩
  · rw [h1] at k1; exact k1
  · rw [k2 i hi, h2 i hi]
    generalize smGet 0 c.mx.mxc i = x, List.getD _ i 0 = y
    have twice : Nat.min 0xFFFFFFFF (Nat.min 0xFFFFFFFF x + y) = Nat.min 0xFFFFFFFF (x + y) := by
      show min _ (min _ _ + _) = min _ _
      omega
    by_cases hr : reads <;> cases last <;> simp [hr, twice]

/-! ### The statement -/

/-- Settles O29: a unit lays out its point, stores a piece of it, and with the last piece goes on to the next point; what the
store leaves of the cask is as the layout left it, so the unit is one of a word that makes progress (`eRun_unit`). -/
theorem drainUnits : Obligations.DrainUnits := by
  unfold Obligations.DrainUnits
  intro s s1 t ns tr n a b m f w rest h hb hw per total second j va row es y codes p reads c g last hprog hopen hst
  have hj : j < 129 := by
    refine Nat.lt_of_lt_of_le (Nat.mod_lt _ ?_) (?_ : per ≤ 129)
    all_goals cases ns <;> decide
  have h0 : (c.updFlight .s fun _ => { f with pt := p }).inWord .s t { f with pt := p } :=
    inWord_wentOn h rfl (wentOn_updFlight (drnRead_eq s.cask ns w.toNat j row f) .s _)
  have hacc := pieceStored_accessed (access_sStore t) hst
  have h1 := inWord_accessed hacc (by rw [cask_setCask]; exact h0)
  obtain ⟨v, hv, hvs, hvc⟩ := drnRest_ok j total (f := f) (by rw [cask_setCask]; exact h0.1) h1.1 hst
  have hu : drnUnit t ns tr n a b m s = .ok (if last then .last else .more) v := by
    rw [drnUnit_inWord h hw]
    exact (bind_ok (drnLaid_stands h.1 hj hopen)).trans hv
  obtain ⟨u, hr, hu1, hu2, hmem, hmx, hrings, hx⟩ := eRun_unit
    (p := { pre := drnPre tr n a b m, unit := drnUnit t ns tr n a b m }) h hb rfl hu h1 rfl
    (g := if rest = [] then g else { f with pt := { p with parts := rest } }) (by split <;> rfl) hvs
    (by rw [hvc]; exact wentOn_updFlight (drnCounted_eq _ _ _) .s _)
  refine ⟨u, hr, hu1, hu2, ?_, hrings, hx, ?_⟩
  · rw [hmem, hvc, updFlight_mem, drnCounted_mem]
  · have hd : s1.cask.mx = c.mx := by
      rw [accessed_cask hacc, cask_setCask]; rfl
    rw [hmx, hvc]
    exact drnUnit_mx hd g last

end Sys2Proof.Machine
end
